-- ==== Sys2Proof/Word.lean ====
section
/-! DEFINITION. The word types of the Z48 and the plainest operations on them (R2, R7). -/

namespace Sys2Proof

/-- One byte of memory (R3). -/
abbrev Byte := BitVec 8
/-- A 32-bit register word (R13). -/
abbrev Word := BitVec 32
/-- A 64-bit word: an address, a pair, an instruction word (R79, R89). -/
abbrev DWord := BitVec 64
/-- One bit for each of the 64 threads of a sheaf; bit t is thread t (R22). -/
abbrev Mask := BitVec 64

/-- The mask of all 64 threads. -/
def Mask.full : Mask := BitVec.allOnes 64

/-- The threads of a mask in ascending index. -/
def Mask.lanes (m : Mask) : List Nat := (List.range 64).filter (fun t => m.getLsbD t)

/-- The mask holding the threads of a list. -/
def Mask.ofLanes (l : List Nat) : Mask :=
  l.foldl (fun m t => m ||| BitVec.ofNat 64 (2 ^ (t % 64))) 0

/-- The number of threads in a mask. -/
def Mask.count (m : Mask) : Nat := (Mask.lanes m).length

end Sys2Proof
end

