-- ==== Sys2Proof/Machine/Cells.lean ====
section
/-! DEFINITION. The one form in which sparse storage is held: a list of (key, value) pairs with keys
strictly rising and no entry equal to 0, what an unlisted key reads as. Memory, scratch, register banks
and accumulator tiles are all held so. -/

namespace Sys2Proof.Machine

/-- Sparse storage of w-bit values: strictly rising keys, no zero value; an unlisted key reads 0. With
w = 8 its entries are `Host.Cell`. -/
abbrev Cells (w : Nat) := List (Nat × BitVec w)

/-- The value at a key. -/
def cget {w : Nat} : Cells w → Nat → BitVec w
  | [], _ => 0
  | (k, x) :: r, a => if a < k then 0 else if a = k then x else cget r a

/-- One entry put before the rest, or none when the value is 0. -/
def ccons {w : Nat} (a : Nat) (x : BitVec w) (r : Cells w) : Cells w :=
  if x = 0 then r else (a, x) :: r

/-- Writing a value at a key; writing 0 removes the entry. -/
def cset {w : Nat} : Cells w → Nat → BitVec w → Cells w
  | [], a, x => ccons a x []
  | (k, y) :: r, a, x =>
    if a < k then ccons a x ((k, y) :: r)
    else if a = k then ccons a x r
    else (k, y) :: cset r a x

/-- Writing consecutive keys from `a`. -/
def csets {w : Nat} (m : Cells w) (a : Nat) : List (BitVec w) → Cells w
  | [] => m
  | x :: xs => csets (cset m a x) (a + 1) xs

/-- Reading n consecutive keys from `a`. -/
def cgets {w : Nat} (m : Cells w) (a n : Nat) : List (BitVec w) :=
  (List.range n).map (fun i => cget m (a + i))

/-- Removing every entry whose key lies in [lo, hi). -/
def cclear {w : Nat} (m : Cells w) (lo hi : Nat) : Cells w :=
  m.filter (fun e => e.1 < lo ∨ hi ≤ e.1)

/-- Every listed key is above `lo` and the keys rise strictly; no listed value is 0. -/
def cellsAbove {w : Nat} : Nat → Cells w → Bool
  | _, [] => true
  | lo, (k, x) :: r => decide (lo < k) && (x != 0) && cellsAbove k r

/-- The canonical form of sparse storage (the form `cset` keeps). -/
def cellsWf {w : Nat} : Cells w → Bool
  | [] => true
  | (k, x) :: r => (x != 0) && cellsAbove k r

/-- The canonical form of memory, as the task names it. -/
abbrev Memory.wf (m : Cells 8) : Bool := cellsWf m

/-- The bytes of a value, lowest address first (R3). -/
def bytesOf (n v : Nat) : List Byte :=
  (List.range n).map (fun i => BitVec.ofNat 8 (v / 2 ^ (8 * i)))

/-- The value of bytes held lowest address first (R3). -/
def natOf : List Byte → Nat
  | [] => 0
  | b :: r => b.toNat + 256 * natOf r

/-- A value of n bytes read from sparse bytes at `a` (R3). -/
def cgetLE (m : Cells 8) (a n : Nat) : Nat := natOf (cgets m a n)

/-- Writing a value of n bytes at `a` (R3). -/
def csetLE (m : Cells 8) (a n v : Nat) : Cells 8 := csets m a (bytesOf n v)

end Sys2Proof.Machine
end

