-- ==== Sys2Proof/Machine/Keccak.lean ====
section
/-! DEFINITION. Keccak-f[1600] of FIPS 202 on 25 lanes, as KECF applies it (R184), and SHAKE256, with which save
images, measurements and firmware images are digested (R376, R416, R417). -/

namespace Sys2Proof.Machine

/-- The lane at column x and row y, both modulo 5; lane (x, y) has index x + 5y (R184). -/
def laneXY (a : List DWord) (x y : Nat) : DWord := a.getD (x % 5 + 5 * (y % 5)) 0

/-- θ: every lane takes the parities of the column before its own and, turned by one, of the column after it. -/
def keccakTheta (a : List DWord) : List DWord :=
  let parity : List DWord := (List.range 5).map (fun x => (List.range 5).foldl (fun p y => p ^^^ laneXY a x y) 0)
  a.zipIdx.map (fun e => e.1 ^^^ parity.getD ((e.2 + 4) % 5) 0 ^^^ (parity.getD ((e.2 + 1) % 5) 0).rotateLeft 1)

/-- ρ and π in one walk: from (1, 0) on, π takes the place (x, y) to (y, 2x + 3y), and ρ turns the lane that leaves the
t-th place of that walk by (t + 1)(t + 2) / 2; `n` places are still to come, and lane (0, 0) stays. -/
def keccakWalk (a : List DWord) : Nat → Nat → Nat → List DWord → List DWord
  | 0, _, _, b => b
  | n + 1, x, y, b =>
    let t := 23 - n
    let y' := (2 * x + 3 * y) % 5
    keccakWalk a n y y' (b.set (y + 5 * y') ((laneXY a x y).rotateLeft ((t + 1) * (t + 2) / 2)))

/-- χ: every lane with the two lanes after it in its row. -/
def keccakChi (a : List DWord) : List DWord :=
  a.zipIdx.map (fun e => e.1 ^^^ (laneXY a (e.2 + 2) (e.2 / 5) &&& ~~~laneXY a (e.2 + 1) (e.2 / 5)))

/-- The register that gives ι its bits, moved on by n steps: its polynomial is x^8 + x^6 + x^5 + x^4 + 1. -/
def keccakLfsr : Nat → Nat → Nat
  | 0, r => r
  | n + 1, r => keccakLfsr n (if r < 128 then 2 * r else (2 * r) ^^^ 0x171)

/-- ι's constant of round ir: bit 2^j − 1 is the low bit of that register, set to 1, after 7 ir + j steps. -/
def keccakIota (ir : Nat) : DWord :=
  BitVec.ofNat 64 ((List.range 7).foldl (fun v j => v + keccakLfsr (7 * ir + j) 1 % 2 * 2 ^ (2 ^ j - 1)) 0)

/-- One round with index ir: θ, ρ, π, χ and ι. -/
def keccakRound (ir : Nat) (a : List DWord) : List DWord :=
  let b := keccakTheta a
  let c := keccakChi (keccakWalk b 24 1 0 b)
  c.set 0 (laneXY c 0 0 ^^^ keccakIota ir)

/-- n rounds from round index r0. -/
def keccakRounds : Nat → Nat → List DWord → List DWord
  | _, 0, a => a
  | r0, n + 1, a => keccakRounds (r0 + 1) n (keccakRound r0 a)

/-! ## SHAKE256: a rate of 136 bytes, which are 17 lanes -/

/-- A message cut into lanes of eight bytes, the lowest byte first. -/
def lanesOfBytes : Nat → List Byte → List DWord
  | 0, _ => []
  | n + 1, m => BitVec.ofNat 64 (natOf (m.take 8)) :: lanesOfBytes n (m.drop 8)

/-- The message is followed by SHAKE's four ones and by the padding, whose first bit joins them and whose last bit is the
highest of a block. -/
def shakePad (m : List Byte) : List Byte :=
  let fill := 135 - m.length % 136
  let tail := List.replicate fill (0 : Byte) ++ [0x80]
  m ++ tail.set 0 (tail.getD 0 0 ||| 0x1F)

/-- Blocks of 17 lanes are XORed into the state, each followed by the permutation. -/
def shakeAbsorb : Nat → List DWord → List DWord → List DWord
  | 0, a, _ => a
  | n + 1, a, m =>
    let mixed := (List.range 25).map (fun i => if i < 17 then laneXY a i (i / 5) ^^^ m.getD i 0 else laneXY a i (i / 5))
    shakeAbsorb n (keccakRounds 0 24 mixed) (m.drop 17)

/-- SHAKE256 of a message, n bytes with n at most 136. -/
def shake256 (m : List Byte) (n : Nat) : List Byte :=
  let p := shakePad m
  let blocks := p.length / 136
  let a := shakeAbsorb blocks (List.replicate 25 0) (lanesOfBytes (17 * blocks) p)
  ((a.flatMap (fun l => bytesOf 8 l.toNat))).take n

end Sys2Proof.Machine
end

