-- ==== Sys2Proof/Machine/Float.lean ====
section
/-! DEFINITION. Floating-point formats and exact real values: decoding, the rounding modes, overflow, flushing,
and the exact sum, product, quotient and square root that the instructions round once (R51 to R67, R75). -/

namespace Sys2Proof.Machine

/-- The value of the low n bits read as two's complement. -/
def sextNat (n v : Nat) : Int :=
  let x := v % 2 ^ n
  if x < 2 ^ (n - 1) then (x : Int) else (x : Int) - 2 ^ n

/-- trunc(x, n): the low n bits of an integer (R52). -/
def truncInt (n : Nat) (x : Int) : Nat := (x % (2 ^ n : Int)).toNat

/-- Clamping to a range (R52). -/
def clampInt (lo hi x : Int) : Int := if x < lo then lo else if x > hi then hi else x

/-- Number of bits of a natural number: 0 for 0. -/
def bitLen (n : Nat) : Nat := if n = 0 then 0 else Nat.log2 n + 1

/-- The rounding modes of FMT.RND (R60, R63). -/
inductive RMode where
  | rne | rtz | rdn | rup | sh | ef
  deriving DecidableEq, Repr

/-- The mode of RND code 0 to 5; FMT never holds another (R61). -/
def RMode.ofCode (n : Nat) : RMode :=
  match n with
  | 0 => .rne
  | 1 => .rtz
  | 2 => .rdn
  | 3 => .rup
  | 4 => .sh
  | _ => .ef

/-- The mode of a rounding that no thread, neighbour or companion may enter: RNE for SH and EF (R59, R207). -/
def RMode.plain : RMode → RMode
  | .sh | .ef => .rne
  | m => m

/-- A floating-point format (R54): precision, exponents of the smallest and largest normal, fraction and
total width, and whether it is KF8, which has no infinities and one NaN (R55). -/
structure FFmt where
  p : Nat
  emin : Int
  emax : Int
  fb : Nat
  width : Nat
  kf8 : Bool
  deriving DecidableEq, Repr

/-- binary32 (R54). -/
def fF32 : FFmt := { p := 24, emin := -126, emax := 127, fb := 23, width := 32, kf8 := false }
/-- binary16 (R54). -/
def fF16 : FFmt := { p := 11, emin := -14, emax := 15, fb := 10, width := 16, kf8 := false }
/-- BF16 (R54). -/
def fBF16 : FFmt := { p := 8, emin := -126, emax := 127, fb := 7, width := 16, kf8 := false }
/-- KF8 (R54, R55). -/
def fKF8 : FFmt := { p := 4, emin := -7, emax := 7, fb := 3, width := 8, kf8 := true }

/-- An exact value before rounding: NaN, an infinity, or (−1)^neg × m × 2^e. With `more` the magnitude lies
strictly between m × 2^e and (m + 1) × 2^e, as a quotient, root or transcendental value cut off does. -/
inductive Exact where
  | nan
  | inf (neg : Bool)
  | fin (neg : Bool) (m : Nat) (e : Int) (more : Bool)
  deriving DecidableEq, Repr

/-- A zero of the given sign. -/
def Exact.zero (neg : Bool) : Exact := .fin neg 0 0 false

/-- An integer as an exact value. -/
def Exact.ofInt (x : Int) : Exact := .fin (x < 0) x.natAbs 0 false

/-- Negation (R185). -/
def Exact.neg : Exact → Exact
  | .nan => .nan
  | .inf s => .inf (!s)
  | .fin s m e k => .fin (!s) m e k

/-- Absolute value (R185). -/
def Exact.abs : Exact → Exact
  | .nan => .nan
  | .inf _ => .inf false
  | .fin _ m e k => .fin false m e k

/-- Multiplying by a power of two. -/
def Exact.scale (k : Int) : Exact → Exact
  | .fin s m e r => .fin s m (e + k) r
  | x => x

/-- Canonical NaN, infinity and largest finite magnitude of a format (R54). -/
def FFmt.nanBits (f : FFmt) : Nat :=
  if f.kf8 then 0x80 else (2 ^ (f.width - 1 - f.fb) - 1) * 2 ^ f.fb + 2 ^ (f.fb - 1)
def FFmt.infBits (f : FFmt) : Nat := (2 ^ (f.width - 1 - f.fb) - 1) * 2 ^ f.fb
def FFmt.maxBits (f : FFmt) : Nat := if f.kf8 then 0x7F else f.infBits - 1

/-- The value that the bits of a format denote; with `ftz` a subnormal of a format other than KF8 reads as zero of
the same sign (R54, R57). -/
def FFmt.decode (f : FFmt) (ftz : Bool) (bits : Nat) : Exact :=
  let neg := bits.testBit (f.width - 1)
  let mag := bits % 2 ^ (f.width - 1)
  let ex := mag / 2 ^ f.fb
  let fr := mag % 2 ^ f.fb
  if f.kf8 then
    if mag = 0 then (if neg then .nan else .zero false)
    else if ex = 0 then .fin neg fr (f.emin - f.fb) false
    else .fin neg (fr + 2 ^ f.fb) (f.emin - f.fb + (ex - 1 : Nat)) false
  else if ex = 2 ^ (f.width - 1 - f.fb) - 1 then (if fr = 0 then .inf neg else .nan)
  else if ex = 0 then (if ftz then .zero neg else .fin neg fr (f.emin - f.fb) false)
  else .fin neg (fr + 2 ^ f.fb) (f.emin - f.fb + (ex - 1 : Nat)) false

/-- A magnitude cut at 2^u: the multiple of 2^u at or below it, and the rest as a fraction r / 2^s with a mark for
anything further below. -/
structure Chop where
  q : Nat
  r : Nat
  s : Nat
  more : Bool
  deriving DecidableEq, Repr

/-- Cutting m × 2^e at 2^u. What lies more than 64 bits below the unit is held as a fraction of 2^−64, which every
mode and the 24 bits of the hash treat alike. -/
def chopAt (m : Nat) (e u : Int) (more : Bool) : Chop :=
  if u ≤ e then { q := m * 2 ^ (e - u).toNat, r := 0, s := 0, more := more }
  else
    let s := (u - e).toNat
    if s > bitLen m + 64 then { q := 0, r := if m = 0 then 0 else 1, s := 64, more := more }
    else { q := m / 2 ^ s, r := m % 2 ^ s, s := s, more := more }

/-- Whether the magnitude cut is a multiple of 2^u itself. -/
def Chop.exact (c : Chop) : Bool := c.r == 0 && !c.more

/-- Whether a rounding takes the larger magnitude (R63); `up` is the decision of the stochastic hash (R66). -/
def Chop.away (c : Chop) (mode : RMode) (neg up : Bool) : Bool :=
  if c.exact then false
  else match mode with
    | .rne | .ef => 2 * c.r > 2 ^ c.s || (2 * c.r == 2 ^ c.s && (c.more || c.q % 2 == 1))
    | .rtz => false
    | .rdn => neg
    | .rup => !neg
    | .sh => up

/-- The 24 bits of R66: floor((|x| − lo) / ulp × 2^24). -/
def Chop.hash (c : Chop) : Nat := c.r * 2 ^ 24 / 2 ^ c.s

/-- The exponent of one unit in the last place of a magnitude in a format, with no upper bound on the exponent
(R63). -/
def FFmt.ulpExp (f : FFmt) (m : Nat) (e : Int) : Int := max (e + bitLen m - 1) f.emin - (f.p - 1 : Nat)

/-- d of R66 for a conversion to a format: 0 for a NaN or an infinity, which is no magnitude between two values
(log 20). -/
def FFmt.hash (f : FFmt) : Exact → Nat
  | .fin _ m e k => if m = 0 then 0 else (chopAt m e (f.ulpExp m e) k).hash
  | _ => 0

/-- The result of an overflow (R64). -/
def FFmt.overflow (f : FFmt) (mode : RMode) (sat neg : Bool) : Nat :=
  let sign := if neg then 2 ^ (f.width - 1) else 0
  if sat then sign + f.maxBits
  else if f.kf8 then f.nanBits
  else match mode with
    | .rne | .sh | .ef => sign + f.infBits
    | .rtz => sign + f.maxBits
    | .rdn => sign + (if neg then f.infBits else f.maxBits)
    | .rup => sign + (if neg then f.maxBits else f.infBits)

/-- round(x, mode) into a format, with overflow by R64, flushing by R57, special values by R65 and R55. -/
def FFmt.round (f : FFmt) (mode : RMode) (sat ftz up : Bool) (x : Exact) : Nat :=
  match x with
  | .nan => f.nanBits
  | .inf neg =>
    if f.kf8 then (if sat then (if neg then 2 ^ (f.width - 1) else 0) + f.maxBits else f.nanBits)
    else (if neg then 2 ^ (f.width - 1) else 0) + f.infBits
  | .fin neg m e more =>
    let sign := if neg then 2 ^ (f.width - 1) else 0
    if m = 0 && !more then (if f.kf8 then 0 else sign)
    else
      let u := f.ulpExp m e
      let c := chopAt m e u more
      let q := if c.away mode neg up then c.q + 1 else c.q
      let bits := ((u - (f.emin - (f.p - 1 : Nat))).toNat) * 2 ^ f.fb + q
      if q = 0 then (if f.kf8 then 0 else sign)
      else if bits > f.maxBits then f.overflow mode sat neg
      else if ftz && !f.kf8 && q < 2 ^ f.fb then sign
      else sign + bits

/-- round(x, mode) to an integer; a NaN gives 0, an infinity a value beyond every range (R63, R65). -/
def Exact.toInt (mode : RMode) (up : Bool) : Exact → Int
  | .nan => 0
  | .inf neg => if neg then -(2 ^ 200) else 2 ^ 200
  | .fin neg m e more =>
    let c := chopAt m e 0 more
    let q := if c.away mode neg up then c.q + 1 else c.q
    if neg then -(q : Int) else q

/-- d of R66 for a conversion to an integer format (ulp = 1; log 20 for a NaN or an infinity). -/
def Exact.hashInt : Exact → Nat
  | .fin _ m e k => (chopAt m e 0 k).hash
  | _ => 0

/-- mix32 of R66. -/
def mix32 (x : Word) : Word :=
  let x := x ^^^ (x >>> 16)
  let x := x * 0x7FEB352D
  let x := x ^^^ (x >>> 15)
  let x := x * 0x846CA68B
  x ^^^ (x >>> 16)

/-- Whether the stochastic hash rounds away from zero (R66): d of the thread, of its neighbours t xor 1 and
t xor 2, SEED and the element index. -/
def shAway (d d1 d2 : Nat) (seed : BitVec 16) (j : Nat) : Bool :=
  let x : Word := BitVec.ofNat 32 d ^^^ (BitVec.ofNat 32 d1 <<< 8) ^^^ (BitVec.ofNat 32 d2 <<< 16)
  let x := x ^^^ seed.setWidth 32 ^^^ (BitVec.ofNat 32 j <<< 24)
  (mix32 x).toNat % 2 ^ 24 < d

/-! ## Exact operations -/

/-- The sum, with the sign of an exact zero by IEEE 754 under the rounding direction (R186). -/
def Exact.add (mode : RMode) (x y : Exact) : Exact :=
  match x, y with
  | .nan, _ | _, .nan => .nan
  | .inf s, .inf t => if s == t then .inf s else .nan
  | .inf s, _ => .inf s
  | _, .inf t => .inf t
  | .fin s m e _, .fin t n f _ =>
    let k := min e f
    let a : Int := (m * 2 ^ (e - k).toNat : Nat)
    let b : Int := (n * 2 ^ (f - k).toNat : Nat)
    let v := (if s then -a else a) + (if t then -b else b)
    if v = 0 then .zero (if m = 0 && n = 0 && s == t then s else mode == .rdn)
    else .fin (v < 0) v.natAbs k false

/-- The product (R186). -/
def Exact.mul (x y : Exact) : Exact :=
  match x, y with
  | .nan, _ | _, .nan => .nan
  | .inf s, .inf t => .inf (s != t)
  | .inf s, .fin t n _ _ => if n = 0 then .nan else .inf (s != t)
  | .fin s m _ _, .inf t => if m = 0 then .nan else .inf (s != t)
  | .fin s m e _, .fin t n f _ => .fin (s != t) (m * n) (e + f) false

/-- The integer square root by one bit at a time: `k` more bits, `r` so far. -/
def isqrtGo (n : Nat) : Nat → Nat → Nat
  | 0, r => r
  | k + 1, r => if (r + 2 ^ k) * (r + 2 ^ k) ≤ n then isqrtGo n k (r + 2 ^ k) else isqrtGo n k r

/-- floor(√n). -/
def isqrt (n : Nat) : Nat := isqrtGo n ((bitLen n + 1) / 2) 0

/-- The quotient of a nonzero finite y under x, to 100 bits beyond the wider operand. -/
def Exact.div (x y : Exact) : Exact :=
  match x, y with
  | .nan, _ | _, .nan => .nan
  | .inf _, .inf _ => .nan
  | .inf s, .fin t _ _ _ => .inf (s != t)
  | .fin s _ _ _, .inf t => .zero (s != t)
  | .fin s m e _, .fin t n f _ =>
    if n = 0 then (if m = 0 then .nan else .inf (s != t))
    else if m = 0 then .zero (s != t)
    else
      let k := 100 + bitLen n
      .fin (s != t) (m * 2 ^ k / n) (e - f - k) (m * 2 ^ k % n != 0)

/-- The square root: −0 for −0, NaN below 0 (R186). -/
def Exact.sqrt : Exact → Exact
  | .nan => .nan
  | .inf s => if s then .nan else .inf false
  | .fin s m e _ =>
    if m = 0 then .zero s
    else if s then .nan
    else
      let k : Nat := if e % 2 = 0 then 200 else 201
      let n := m * 2 ^ k
      let r := isqrt n
      .fin false r ((e - k) / 2) (r * r != n)

/-- 1 / √a: a zero gives the infinity of its sign (R186). -/
def Exact.rsqrt : Exact → Exact
  | .nan => .nan
  | .inf s => if s then .nan else .zero false
  | .fin s m e _ =>
    if m = 0 then .inf s
    else if s then .nan
    else
      let k : Int := if e % 2 = 0 then 400 else 401
      let n := 2 ^ (k.toNat + 2 * bitLen m) / m
      let r := isqrt n
      .fin false r (-(e + (k + 2 * bitLen m)) / 2) (!(r * r * m == 2 ^ (k.toNat + 2 * bitLen m)))

/-- Whether a value is NaN. -/
def Exact.isNan : Exact → Bool
  | .nan => true
  | _ => false

/-- The order of two values that are not NaN, with −0 equal to +0. -/
def Exact.cmp (x y : Exact) : Ordering :=
  match x, y with
  | .inf s, .inf t => if s == t then .eq else if s then .lt else .gt
  | .inf s, _ => if s then .lt else .gt
  | _, .inf t => if t then .gt else .lt
  | .fin s m e _, .fin t n f _ =>
    let k := min e f
    let a : Int := (m * 2 ^ (e - k).toNat : Nat)
    let b : Int := (n * 2 ^ (f - k).toNat : Nat)
    compare (if s then -a else a) (if t then -b else b)
  | _, _ => .eq

/-- The sign of a value. -/
def Exact.sign : Exact → Bool
  | .nan => false
  | .inf s | .fin s _ _ _ => s

/-- The smaller of two values, −0 below +0; one NaN gives the other (R186). -/
def Exact.min2 (x y : Exact) : Exact :=
  if x.isNan then y
  else if y.isNan then x
  else match x.cmp y with
    | .lt => x
    | .gt => y
    | .eq => if x.sign then x else y

/-- The larger of two values, likewise (R186). -/
def Exact.max2 (x y : Exact) : Exact :=
  if x.isNan then y
  else if y.isNan then x
  else match x.cmp y with
    | .lt => y
    | .gt => x
    | .eq => if x.sign then y else x

end Sys2Proof.Machine
end

