-- ==== Sys2Proof/Syntax.lean ====
section
/-! DEFINITION. The instructions of the Z48 and the events of its units: one constructor of `Instr` for
each row of spec/opcode_table.json. Operand fields are the operand codes of R86; the FN field of a
format stays an 8-bit field, read through the entry's own bit names in the meanings. -/

namespace Sys2Proof

/-- The special registers of R88, in code order from 0x158. -/
inductive SReg where
  | tidX | tidY | tidZ | thr | quad | lane | sheaf | gidX | gidY | gidZ | gdimX | gdimY | gdimZ
  | pslot | pdim | core | die | dev | ctx | stc | grc | fmt | helper | active | origin | cause
  deriving DecidableEq, Repr

/-- The special registers in code order (R88). -/
def SReg.all : List SReg :=
  [.tidX, .tidY, .tidZ, .thr, .quad, .lane, .sheaf, .gidX, .gidY, .gidZ, .gdimX, .gdimY, .gdimZ,
   .pslot, .pdim, .core, .die, .dev, .ctx, .stc, .grc, .fmt, .helper, .active, .origin, .cause]

/-- The number of a special register above code 0x158 (R88). -/
def SReg.num : SReg → Nat
  | .tidX => 0 | .tidY => 1 | .tidZ => 2 | .thr => 3 | .quad => 4 | .lane => 5 | .sheaf => 6
  | .gidX => 7 | .gidY => 8 | .gidZ => 9 | .gdimX => 10 | .gdimY => 11 | .gdimZ => 12
  | .pslot => 13 | .pdim => 14 | .core => 15 | .die => 16 | .dev => 17 | .ctx => 18 | .stc => 19
  | .grc => 20 | .fmt => 21 | .helper => 22 | .active => 23 | .origin => 24 | .cause => 25

/-- What a 9-bit operand code names (R86). Every code is one operand; `res` holds the codes that no
instruction may use as an operand (0x172 to 0x17F, then 0x1E0 to 0x1FF). -/
inductive Opd where
  | v (n : Fin 256)
  | s (n : Fin 63)
  | sz
  | p (n : Fin 15)
  | pt
  | q (n : Fin 7)
  | qt
  | sr (r : SReg)
  | int (n : Fin 64)
  | fc (n : Fin 32)
  | res (n : Fin 46)
  deriving DecidableEq, Repr

/-- The common header of a sheaf-stream word (R80): stall count, yield hint, U, and the guard. -/
structure Hdr where
  st : BitVec 4
  y  : Bool
  u  : Bool
  gn : Bool
  gp : BitVec 4
  deriving DecidableEq, Repr

/-- Format A (R82). -/
structure FA where
  d : Opd
  a : Opd
  b : Opd
  c : Opd
  fn : BitVec 8
  deriving DecidableEq, Repr

/-- The immediate of format I: IMM24, or the second word of the long form (R85). -/
inductive Imm where
  | short (w : BitVec 24)
  | long (w : BitVec 64)
  deriving DecidableEq, Repr

/-- Format I (R82). -/
structure FI where
  d : Opd
  a : Opd
  fn2 : BitVec 2
  imm : Imm
  deriving DecidableEq, Repr

/-- The byte offset of format M: OFF13, or OFF46 of the long form (R85). -/
inductive Off where
  | short (w : BitVec 13)
  | long (w : BitVec 46)
  deriving DecidableEq, Repr

/-- Format M (R82, R84). -/
structure FM where
  d : Opd
  a : Opd
  nud : BitVec 5
  sz : BitVec 3
  ord : BitVec 3
  spc : BitVec 2
  off : Off
  deriving DecidableEq, Repr

/-- The long form of the atomics: a first word of format A and the second word of R85. -/
structure FT where
  d : Opd
  a : Opd
  b : Opd
  c : Opd
  fn : BitVec 8
  nud : BitVec 5
  sz : BitVec 3
  ord : BitVec 3
  spc : BitVec 2
  off : BitVec 46
  deriving DecidableEq, Repr

/-- Format B (R82). -/
structure FB where
  fn4 : BitVec 4
  tok : BitVec 8
  off : BitVec 32
  deriving DecidableEq, Repr

/-- Format X (R82): ACC and CNT with their reserved high bits. -/
structure FX where
  acc : BitVec 4
  slot : BitVec 5
  a : Opd
  b : Opd
  cnt : BitVec 9
  fn : BitVec 8
  deriving DecidableEq, Repr

/-- Format S (R82). -/
structure FS where
  w : Opd
  a : Opd
  b : Opd
  d : Opd
  fn : BitVec 8
  deriving DecidableEq, Repr

/-- Whose request reaches this device over the fabric: another device's, of an agent of a context (R363, R411). -/
structure Requester where
  dev : Nat
  ctx : Nat
  deriving DecidableEq, Repr

/-- The window of a host access (R398, R399): BAR2 of the physical function (a local PA) or of the virtual function of a
context (a VA), or BAR0 of the physical function (the register space). -/
inductive HostPort where
  | pf
  | vf (ctx : Nat)
  | regs
  deriving DecidableEq, Repr

/-- One instruction word, or one step of a unit of the machine, per row of the opcode table.
The constructors up to `mcld` are instructions (R90); those after it are the events of the units,
with what names the place of the event as their arguments. -/
inductive Instr where
  -- integer arithmetic, bit operations, comparison and moves (R171 to R184)
  | nop (h : Hdr) (x : FA) | iadd (h : Hdr) (x : FA) | isub (h : Hdr) (x : FA)
  | imul (h : Hdr) (x : FA) | imulh (h : Hdr) (x : FA) | imad (h : Hdr) (x : FA)
  | imin (h : Hdr) (x : FA) | imax (h : Hdr) (x : FA) | iabsd (h : Hdr) (x : FA)
  | bitf (h : Hdr) (x : FA) | shl (h : Hdr) (x : FA) | shr (h : Hdr) (x : FA)
  | bfx (h : Hdr) (x : FA) | bfi (h : Hdr) (x : FA) | popc (h : Hdr) (x : FA)
  | clz (h : Hdr) (x : FA) | brev (h : Hdr) (x : FA) | icmp (h : Hdr) (x : FA)
  | sel (h : Hdr) (x : FA) | mov (h : Hdr) (x : FA)
  | movi (h : Hdr) (x : FI) | moviZ (h : Hdr) (x : FI) | moviLong (h : Hdr) (x : FI)
  | movi64 (h : Hdr) (x : FI)
  | iadd64 (h : Hdr) (x : FA) | lea (h : Hdr) (x : FA) | idiv (h : Hdr) (x : FA)
  | irem (h : Hdr) (x : FA) | idot4 (h : Hdr) (x : FA) | pbitf (h : Hdr) (x : FA)
  | pmovPack (h : Hdr) (x : FA) | pmovUnpk (h : Hdr) (x : FA) | kecf (h : Hdr) (x : FA)
  -- F32 and packed 16-bit arithmetic (R185 to R190)
  | fadd (h : Hdr) (x : FA) | fmul (h : Hdr) (x : FA) | ffma (h : Hdr) (x : FA)
  | fmin (h : Hdr) (x : FA) | fmax (h : Hdr) (x : FA) | fcmp (h : Hdr) (x : FA)
  | frcp (h : Hdr) (x : FA) | frsq (h : Hdr) (x : FA) | fsqrt (h : Hdr) (x : FA)
  | fex2 (h : Hdr) (x : FA) | flg2 (h : Hdr) (x : FA) | fsin (h : Hdr) (x : FA)
  | fcos (h : Hdr) (x : FA) | fclass (h : Hdr) (x : FA)
  | hadd2 (h : Hdr) (x : FA) | hmul2 (h : Hdr) (x : FA) | hfma2 (h : Hdr) (x : FA)
  | hmin2 (h : Hdr) (x : FA) | hmax2 (h : Hdr) (x : FA) | hcmp2 (h : Hdr) (x : FA)
  -- conversions and the format register (R191 to R202)
  | cvtif (h : Hdr) (x : FA) | cvtfi (h : Hdr) (x : FA) | cvtff (h : Hdr) (x : FA)
  | cvtn (h : Hdr) (x : FA) | cvtw (h : Hdr) (x : FA) | cvtra (h : Hdr) (x : FA)
  | cvtar (h : Hdr) (x : FA) | packH (h : Hdr) (x : FA) | packBi (h : Hdr) (x : FA)
  | packN (h : Hdr) (x : FA) | unpkH (h : Hdr) (x : FA) | unpkB (h : Hdr) (x : FA)
  | unpkN (h : Hdr) (x : FA)
  | setfmtR (h : Hdr) (x : FI) | setfmt (h : Hdr) (x : FI) | setfmtLong (h : Hdr) (x : FI)
  | setfmtSeed (h : Hdr) (x : FI) | getfmt (h : Hdr) (x : FA) | bscale (h : Hdr) (x : FA)
  | efclr (h : Hdr) (x : FA)
  -- exchange (R206 to R212)
  | qswz (h : Hdr) (x : FA) | qred (h : Hdr) (x : FA) | shfl (h : Hdr) (x : FA)
  | voteAll (h : Hdr) (x : FA) | voteAny (h : Hdr) (x : FA) | voteUni (h : Hdr) (x : FA)
  | voteBal (h : Hdr) (x : FA) | scan (h : Hdr) (x : FA) | sred (h : Hdr) (x : FA)
  | match32 (h : Hdr) (x : FA) | match64 (h : Hdr) (x : FA) | elect (h : Hdr) (x : FA)
  | electNh (h : Hdr) (x : FA)
  -- loads, stores, cache control, atomics (R213 to R225)
  | ld (h : Hdr) (x : FM) | st (h : Hdr) (x : FM) | ldu (h : Hdr) (x : FM) | stu (h : Hdr) (x : FM)
  | ldc (h : Hdr) (x : FM) | pref (h : Hdr) (x : FM) | cctlWb (h : Hdr) (x : FM)
  | cctlInv (h : Hdr) (x : FM) | cctlDemote (h : Hdr) (x : FM) | cctlRenud (h : Hdr) (x : FM)
  | atom (h : Hdr) (x : FT) | acas (h : Hdr) (x : FT) | red (h : Hdr) (x : FT)
  | atomu (h : Hdr) (x : FT)
  -- fences, waits, phase barriers, stamps (R226 to R236)
  | fence (h : Hdr) (x : FA) | waitv (h : Hdr) (x : FA) | pbari (h : Hdr) (x : FA)
  | pbara (h : Hdr) (x : FA) | pbarw (h : Hdr) (x : FA) | yield (h : Hdr) (x : FA)
  | stampCis (h : Hdr) (x : FA) | stampCie (h : Hdr) (x : FA)
  -- control flow (R241 to R250)
  | bra (h : Hdr) (x : FB) | brx (h : Hdr) (x : FA) | join (h : Hdr) (x : FB)
  | joint (h : Hdr) (x : FB) | call (h : Hdr) (x : FB) | ret (h : Hdr) (x : FA)
  | exit (h : Hdr) (x : FA) | exitH (h : Hdr) (x : FA) | bar (h : Hdr) (x : FA)
  | bara (h : Hdr) (x : FA) | barw (h : Hdr) (x : FA) | trap (h : Hdr) (x : FI)
  | bkpt (h : Hdr) (x : FI) | bbc (h : Hdr) (x : FI)
  -- batches, queues, deques, launches, stream control (R256 to R271)
  | bclose (h : Hdr) (x : FA) | bwait (h : Hdr) (x : FA) | enq (h : Hdr) (x : FA)
  | pub (h : Hdr) (x : FA) | deq (h : Hdr) (x : FA) | spawn (h : Hdr) (x : FA)
  | take (h : Hdr) (x : FA) | steal (h : Hdr) (x : FA) | launch (h : Hdr) (x : FA)
  | mstart (h : Hdr) (x : FA) | mstat (h : Hdr) (x : FA) | mres (h : Hdr) (x : FA)
  | mresSkip (h : Hdr) (x : FA)
  -- residencies (R303 to R306)
  | ralloc (h : Hdr) (x : FA) | rload (h : Hdr) (x : FA) | rpin (h : Hdr) (x : FA)
  | runpin (h : Hdr) (x : FA) | rrevk (h : Hdr) (x : FA) | rqry (h : Hdr) (x : FA)
  | rqryQ (h : Hdr) (x : FA)
  -- the matrix stream (R282)
  | mma (x : FX) | mmag (x : FX) | maccZero (x : FX) | maccLd (x : FX) | mout (x : FX)
  | msig (x : FX) | mwait (x : FX) | mloopBegin (x : FX) | mloopNext (x : FX) | mend (x : FX)
  | mtile (x : FX) | mtileRing (x : FX)
  -- sequenced instructions (R314)
  | rast (h : Hdr) (x : FS) | trav (h : Hdr) (x : FS) | filt (h : Hdr) (x : FS)
  | blnd (h : Hdr) (x : FS) | dist (h : Hdr) (x : FS) | topk (h : Hdr) (x : FS)
  | seqx (slot : Fin 8) (h : Hdr) (x : FS)
  -- system instructions (R370)
  | movs (h : Hdr) (x : FA)
  | mtsrHorizon (h : Hdr) (x : FI) | mtsrSl (h : Hdr) (x : FI) | mtsrGate (h : Hdr) (x : FI)
  | mtsrStallchk (h : Hdr) (x : FI) | mtsrStarve (h : Hdr) (x : FI) | mtsrWqbase (h : Hdr) (x : FI)
  | mtsrPdl (h : Hdr) (x : FI) | mtsrGlnPeriod (h : Hdr) (x : FI) | mtsrGlnCtxm (h : Hdr) (x : FI)
  | mtsrGlnRing (h : Hdr) (x : FI) | mtsrGlnStart (h : Hdr) (x : FI) | mtsrGlnStop (h : Hdr) (x : FI)
  | mtsrGlnTstc (h : Hdr) (x : FI) | mtsrBbcb (h : Hdr) (x : FI) | mtsrBbcn (h : Hdr) (x : FI)
  | rft (h : Hdr) (x : FA) | rftSkip (h : Hdr) (x : FA) | xrd (h : Hdr) (x : FA) | xwr (h : Hdr) (x : FA)
  | tlbiAll (h : Hdr) (x : FA) | tlbiCtx (h : Hdr) (x : FA) | tlbiPage (h : Hdr) (x : FA)
  | stopatHalt (h : Hdr) (x : FA) | stopatRun (h : Hdr) (x : FA) | stopatPre (h : Hdr) (x : FA)
  | saveg (h : Hdr) (x : FA) | restg (h : Hdr) (x : FA) | mcld (h : Hdr) (x : FA)
  -- events that the units of the machine bring about themselves
  | jointTimeout (gid sh tok : Nat) | memoryAccessComplete (gid sh : Nat) | waitvReevaluate (gid sh ti : Nat)
  | waitvTimeout (gid sh ti : Nat) | moutComplete (gid : Nat) | residencyLoadEnd (core load : Nat)
  | bandGate (core band : Nat) | seqTake (core : Nat) | seqStep (core : Nat) | engineCopy (gid sh : Nat)
  | engineGather (gid sh : Nat) | engineCollective (gid sh : Nat) | engineStorage (gid sh : Nat)
  | engineCommandEnd (cmd : Nat) | nvmeTimeout (cmd : Nat) | memberAbsentTimeout (cmd : Nat)
  | queueStuck (die q : Nat) | stealTimeout (gid sh ti : Nat) | failedLanesPark (gid sh log : Nat)
  | credibilityRecount (core : Option Nat) (slice ctx : Nat) | reclaimWritebackDone (core granule : Nat)
  | rdAckTimeout (page : Nat) | fabricTimeout (req : Nat)
  | stackNotReadyTimeout (req : Nat) | launchPacket (q : Nat) | phasePacket (q : Nat) | signalPacket (q : Nat)
  | waitPacket (q : Nat) | waitPacketReevaluate (q : Nat) | waitPacketTimeout (q : Nat) | copyPacket (q : Nat)
  | indirectPacket (q : Nat) | markerPacket (q : Nat) | coherenceClean (q : Nat) | dispatchPlace (die : Nat)
  | swapRestoreEntry (gid : Nat) | groupEnd (gid : Nat) | saveQuiesced (gid : Nat) | saveWritten (gid : Nat)
  | restoreDone (gid : Nat) | preemptComplete (ctx : Nat) | preemptDeadline (ctx : Nat) | cutEffect
  | handlerBatchClose (core ctx : Nat) | handlerSheafStart (core ctx : Nat) | handlerRoomTimeout (core ctx : Nat)
  | gleanerSample (core : Nat) | powerInterval | signDone | idxCommitDone | variableLatencyResult (gid sh : Nat)
  | mmaComplete (gid : Nat) | maccComplete (gid : Nat)
  | registerWrite (steward : Bool) (off : BitVec 24) (size : Nat) (v : BitVec 64)
  -- events that come from outside, or that another step performs
  | rdDropRequest (page : Nat)
  | yieldEnd (gid sh ti : Nat) | nvmeCompletion (cmd : Nat) (status : Nat) (data : List (BitVec 8))
  | faultReplyRetry (tag : Nat) | faultReplyFailUnresolved (tag : Nat) | faultReplyFailProtection (tag : Nat)
  | fqHead (v : BitVec 32) | winnowTick | rdDropAck (page dev : Nat)
  | hostAccess (port : HostPort) (addr : BitVec 64) (write : Option (List (BitVec 8))) (len : Nat)
  | doorbell (vf : Option Nat) (q : Nat) (tail : BitVec 32)
  | fabricRequest (by_ : Requester) (addr : BitVec 64) (write : Option (List (BitVec 8))) (len : Nat)
  | sqStateWrite (q : Nat) (v : BitVec 8) | dspreq (die : Nat) | preemptRequest (ctx : Nat)
  | preemptRelease (ctx : Nat) | forcedReset (ctx : Nat) | powerCap (watts : BitVec 32) | thermalLimit (die : Nat)
  | thermalRecovery (die : Nat) | thermalShutdown | moduleReset | powerLoss | readySet (reg : Fin 2) (bit : Nat)
  | rcvLen (len : BitVec 32) | errClear (pa : BitVec 64) | wqRegister (v : BitVec 32)
  | wqUnregister (v : BitVec 32) | tlbInv (ctx : Nat) (v : BitVec 64) | rqset (ctx : Nat) (v : BitVec 32)
  | watchArm (e : Nat) | measExt (die : Nat) (v : BitVec 32) | doeRequest (bytes : List (BitVec 8))
  | doeRsplen (n : BitVec 32) | trng (n : Nat) | signGo (v : BitVec 64) | idxResv (v : BitVec 32)
  | getVersion (req : List (BitVec 8)) | getCapabilities (req : List (BitVec 8))
  | negotiateAlgorithms (req : List (BitVec 8)) | getDigests (req : List (BitVec 8))
  | getCertificate (req : List (BitVec 8)) | challenge (req : List (BitVec 8))
  | getMeasurements (req : List (BitVec 8)) | spdmUnknownRequest (req : List (BitVec 8))
  | stallCountExpiry (gid sh ti : Nat) | readyClear (reg : Fin 2) (bit : Nat)
  deriving DecidableEq, Repr

end Sys2Proof
end

