-- ==== Sys2Proof/WellFormed.lean ====
section
/-! DEFINITION. Well-formed instruction terms: the bits of a word that select a row of the opcode map
(an FN or FN2 value, the long form, the SZ code of CCTL, the index of MTSR) agree with the constructor.
Whether a well-formed term may be issued is decided by the rules of R91, in Sys2Proof/Decode.lean. -/

namespace Sys2Proof

/-- Whether an immediate is the second word of a long form (R85). -/
def Imm.isLong : Imm → Bool
  | .short _ => false
  | .long _ => true

/-- The field of MTSR that IMM24 holds, or bits 23:0 of the second word (R372). -/
def Imm.low24 : Imm → BitVec 24
  | .short w => w
  | .long w => w.setWidth 24

/-- The register index of MTSR, bits 11:0 (R372). -/
def FI.mtsrIndex (x : FI) : Nat := (x.imm.low24.setWidth 12).toNat

/-- The indexes of MTSR that have a row of their own other than HORIZON's (R372, R384). -/
def mtsrIndexes : List Nat :=
  [1, 2, 3, 4, 5, 8, 9, 10, 11, 12, 13, 14, 15, 0x20, 0x21, 0x22, 0x23, 0x24, 0x25] ++
    (List.range 64).map (· + 0x40)

/-- The selecting bits of a term agree with its constructor. An event is no instruction word. -/
def Instr.wf : Instr → Bool
  | .moviZ _ x => !x.imm.isLong && x.fn2 == 1
  | .moviLong _ x => x.imm.isLong && x.fn2 == 0
  | .movi64 _ x => x.imm.isLong && x.fn2 == 1
  | .movi _ x => !x.imm.isLong && x.fn2 == 0
  | .pmovPack _ x | .voteAll _ x | .match32 _ x | .elect _ x | .stampCis _ x | .exit _ x | .packH _ x
  | .maccZero x | .mloopBegin x | .mtile x | .tlbiAll _ x | .stopatHalt _ x => x.fn == 0
  | .pmovUnpk _ x | .voteAny _ x | .match64 _ x | .electNh _ x | .stampCie _ x | .exitH _ x | .packBi _ x
  | .maccLd x | .mloopNext x | .mtileRing x | .tlbiCtx _ x | .stopatRun _ x => x.fn == 1
  | .packN _ x | .voteUni _ x | .tlbiPage _ x | .stopatPre _ x => x.fn == 2
  | .voteBal _ x => x.fn == 3
  | .unpkH _ x => x.fn == 0 || x.fn == 1
  | .unpkB _ x => x.fn == 2 || x.fn == 3
  | .unpkN _ x => x.fn == 4 || x.fn == 5
  | .mres _ x | .rqry _ x | .rft _ x => x.fn == 0
  | .mresSkip _ x | .rqryQ _ x | .rftSkip _ x => x.fn == 1
  | .setfmtR _ x => !x.imm.isLong && x.fn2 == 0
  | .setfmt _ x => !x.imm.isLong && x.fn2 == 1
  | .setfmtLong _ x => x.imm.isLong && x.fn2 == 1
  | .setfmtSeed _ x => !x.imm.isLong && x.fn2 == 2
  | .cctlWb _ x => x.sz == 0
  | .cctlInv _ x => x.sz == 1
  | .cctlDemote _ x => x.sz == 2
  | .cctlRenud _ x => x.sz == 3
  | .mtsrHorizon _ x => !(mtsrIndexes.contains x.mtsrIndex)
  | .mtsrSl _ x => x.mtsrIndex == 1
  | .mtsrGate _ x => x.mtsrIndex == 2
  | .mtsrStallchk _ x => x.mtsrIndex == 3
  | .mtsrStarve _ x => x.mtsrIndex == 4
  | .mtsrWqbase _ x => x.mtsrIndex == 5
  | .mtsrPdl _ x => 8 ≤ x.mtsrIndex && x.mtsrIndex < 16
  | .mtsrGlnPeriod _ x => x.mtsrIndex == 0x20
  | .mtsrGlnCtxm _ x => x.mtsrIndex == 0x21
  | .mtsrGlnRing _ x => x.mtsrIndex == 0x22
  | .mtsrGlnStart _ x => x.mtsrIndex == 0x23
  | .mtsrGlnStop _ x => x.mtsrIndex == 0x24
  | .mtsrGlnTstc _ x => x.mtsrIndex == 0x25
  | .mtsrBbcb _ x => 0x40 ≤ x.mtsrIndex && x.mtsrIndex < 0x60
  | .mtsrBbcn _ x => 0x60 ≤ x.mtsrIndex && x.mtsrIndex < 0x80
  | .nop .. | .iadd .. | .isub .. | .imul .. | .imulh .. | .imad .. | .imin .. | .imax .. | .iabsd ..
  | .bitf .. | .shl .. | .shr .. | .bfx .. | .bfi .. | .popc .. | .clz .. | .brev .. | .icmp .. | .sel ..
  | .mov .. | .iadd64 .. | .lea .. | .idiv .. | .irem .. | .idot4 .. | .pbitf .. | .kecf .. | .fadd ..
  | .fmul .. | .ffma .. | .fmin .. | .fmax .. | .fcmp .. | .frcp .. | .frsq .. | .fsqrt .. | .fex2 ..
  | .flg2 .. | .fsin .. | .fcos .. | .fclass .. | .hadd2 .. | .hmul2 .. | .hfma2 .. | .hmin2 .. | .hmax2 ..
  | .hcmp2 .. | .cvtif .. | .cvtfi .. | .cvtff .. | .cvtn .. | .cvtw .. | .cvtra .. | .cvtar ..
  | .getfmt .. | .bscale .. | .efclr .. | .qswz .. | .qred .. | .shfl .. | .scan .. | .sred .. | .ld ..
  | .st .. | .ldu .. | .stu .. | .ldc .. | .pref .. | .atom .. | .acas .. | .red .. | .atomu .. | .fence ..
  | .waitv .. | .pbari .. | .pbara .. | .pbarw .. | .yield .. | .bra .. | .brx .. | .join .. | .joint ..
  | .call .. | .ret .. | .bar .. | .bara .. | .barw .. | .trap .. | .bkpt .. | .bbc .. | .bclose ..
  | .bwait .. | .enq .. | .pub .. | .deq .. | .spawn .. | .take .. | .steal .. | .launch .. | .mstart ..
  | .mstat .. | .ralloc .. | .rload .. | .rpin .. | .runpin .. | .rrevk .. | .mma .. | .mmag .. | .mout ..
  | .msig .. | .mwait .. | .mend .. | .rast .. | .trav .. | .filt .. | .blnd .. | .dist .. | .topk ..
  | .seqx .. | .movs .. | .xrd .. | .xwr .. | .saveg .. | .restg .. | .mcld .. => true
  | .jointTimeout .. | .yieldEnd .. | .memoryAccessComplete .. | .waitvReevaluate .. | .waitvTimeout ..
  | .moutComplete .. | .residencyLoadEnd .. | .bandGate .. | .seqTake .. | .seqStep .. | .engineCopy ..
  | .engineGather .. | .engineCollective .. | .engineStorage .. | .engineCommandEnd .. | .nvmeCompletion ..
  | .nvmeTimeout .. | .memberAbsentTimeout .. | .queueStuck .. | .stealTimeout .. | .faultReplyRetry ..
  | .faultReplyFailUnresolved .. | .faultReplyFailProtection .. | .failedLanesPark .. | .fqHead ..
  | .winnowTick .. | .credibilityRecount .. | .reclaimWritebackDone .. | .rdDropRequest .. | .rdDropAck ..
  | .rdAckTimeout .. | .hostAccess .. | .doorbell .. | .fabricRequest .. | .fabricTimeout ..
  | .stackNotReadyTimeout .. | .sqStateWrite .. | .launchPacket .. | .phasePacket .. | .signalPacket ..
  | .waitPacket .. | .waitPacketReevaluate .. | .waitPacketTimeout .. | .copyPacket .. | .indirectPacket ..
  | .markerPacket .. | .coherenceClean .. | .dispatchPlace .. | .swapRestoreEntry .. | .groupEnd ..
  | .saveQuiesced .. | .saveWritten .. | .restoreDone .. | .dspreq .. | .preemptRequest ..
  | .preemptRelease .. | .forcedReset .. | .preemptComplete .. | .preemptDeadline .. | .cutEffect ..
  | .handlerBatchClose .. | .handlerSheafStart .. | .handlerRoomTimeout .. | .gleanerSample ..
  | .powerInterval .. | .powerCap .. | .thermalLimit .. | .thermalRecovery .. | .thermalShutdown ..
  | .moduleReset .. | .powerLoss .. | .readySet .. | .rcvLen .. | .errClear .. | .wqRegister ..
  | .wqUnregister .. | .tlbInv .. | .rqset .. | .watchArm .. | .measExt .. | .doeRequest .. | .doeRsplen ..
  | .trng .. | .signGo .. | .signDone .. | .idxResv .. | .idxCommitDone .. | .getVersion ..
  | .getCapabilities .. | .negotiateAlgorithms .. | .getDigests .. | .getCertificate .. | .challenge ..
  | .getMeasurements .. | .spdmUnknownRequest .. | .registerWrite .. | .stallCountExpiry ..
  | .variableLatencyResult .. | .mmaComplete .. | .maccComplete .. | .readyClear .. => false

end Sys2Proof
end

