-- ==== Sys2Proof/Decode.lean ====
section
/-! DEFINITION. From words to instructions and back: operand codes (R86), the six formats (R82), the opcode
map (R90), the checks that R91 makes on a fetched word alone, and the encoder. -/

namespace Sys2Proof

/-! ## Operand codes -/

/-- The operand that a 9-bit code names (R86). -/
def Opd.ofCode (c : BitVec 9) : Opd :=
  let n := c.toNat
  if h : n < 0x100 then .v ⟨n, h⟩
  else if h : n - 0x100 < 63 then .s ⟨n - 0x100, h⟩
  else if n = 0x13F then .sz
  else if h : n - 0x140 < 15 then .p ⟨n - 0x140, h⟩
  else if n = 0x14F then .pt
  else if h : n - 0x150 < 7 then .q ⟨n - 0x150, h⟩
  else if n = 0x157 then .qt
  else if n - 0x158 < 26 then .sr (SReg.all.getD (n - 0x158) .tidX)
  else if h : n - 0x172 < 14 then .res ⟨n - 0x172, Nat.lt_trans h (by omega)⟩
  else if h : n - 0x180 < 64 then .int ⟨n - 0x180, h⟩
  else if h : n - 0x1C0 < 32 then .fc ⟨n - 0x1C0, h⟩
  else if h : n - 0x1E0 < 32 then .res ⟨n - 0x1E0 + 14, by omega⟩
  else .sz

/-- The 9-bit code of an operand (R86). -/
def Opd.code : Opd → BitVec 9
  | .v n => BitVec.ofNat 9 n.val
  | .s n => BitVec.ofNat 9 (0x100 + n.val)
  | .sz => 0x13F
  | .p n => BitVec.ofNat 9 (0x140 + n.val)
  | .pt => 0x14F
  | .q n => BitVec.ofNat 9 (0x150 + n.val)
  | .qt => 0x157
  | .sr r => BitVec.ofNat 9 (0x158 + r.num)
  | .int n => BitVec.ofNat 9 (0x180 + n.val)
  | .fc n => BitVec.ofNat 9 (0x1C0 + n.val)
  | .res n => BitVec.ofNat 9 (if n.val < 14 then 0x172 + n.val else 0x1E0 + (n.val - 14))

/-! ## The formats -/

/-- Why decode rejects a word with Illegal Instruction (R91, point 1). -/
inductive Reject where
  /-- A reserved major opcode. -/
  | opcode
  /-- A reserved FN, FN2, FN4, SZ or ORD value. -/
  | fn
  /-- A nonzero reserved bit or unused operand field. -/
  | reserved
  /-- L contrary to the L column of R90. -/
  | longForm
  /-- U contrary to the U column of R90. -/
  | uniform
  /-- A uniform guard code from 7 to 14 (R26), or a guard on a join or barrier (R240). -/
  | guard
  /-- An X-format opcode in a sheaf stream, or another opcode in a matrix stream. -/
  | stream
  deriving DecidableEq, Repr

/-- The fields of an instruction word, by format (R82, R85). -/
inductive Payload where
  | a (h : Hdr) (x : FA)
  | i (h : Hdr) (x : FI)
  | m (h : Hdr) (x : FM)
  | t (h : Hdr) (x : FT)
  | b (h : Hdr) (x : FB)
  | x (x : FX)
  | s (h : Hdr) (x : FS)
  deriving DecidableEq, Repr

/-- The formats (R82); t is the format A of the atomics with its second word (R85). -/
inductive Fmt where
  | a | i | m | t | b | x | s
  deriving DecidableEq, Repr

/-- The format of a major opcode; none when the code is reserved (R90). -/
def fmtOf (op : Nat) : Option Fmt :=
  if op = 0x14 ∨ op = 0x49 ∨ (0x9A ≤ op ∧ op ≤ 0x9C) ∨ op = 0xE1 then some .i
  else if 0x60 ≤ op ∧ op ≤ 0x66 then some .m
  else if 0x70 ≤ op ∧ op ≤ 0x73 then some .t
  else if op = 0x90 ∨ (0x92 ≤ op ∧ op ≤ 0x94) then some .b
  else if 0xC0 ≤ op ∧ op ≤ 0xC8 then some .x
  else if (0xD0 ≤ op ∧ op ≤ 0xD5) ∨ (0xD8 ≤ op ∧ op ≤ 0xDF) then some .s
  else if op ≤ 0x1C ∨ (0x20 ≤ op ∧ op ≤ 0x2D) ∨ (0x30 ≤ op ∧ op ≤ 0x35) ∨ (0x40 ≤ op ∧ op ≤ 0x4C) ∨
      (0x50 ≤ op ∧ op ≤ 0x57) ∨ (0x80 ≤ op ∧ op ≤ 0x86) ∨ op = 0x91 ∨ (0x95 ≤ op ∧ op ≤ 0x99) ∨
      (0xA0 ≤ op ∧ op ≤ 0xAB) ∨ (0xB0 ≤ op ∧ op ≤ 0xB5) ∨ (0xE0 ≤ op ∧ op ≤ 0xE9) then some .a
  else none

/-- The common header of a first word (R80). -/
def Hdr.ofWord (w : DWord) : Hdr :=
  { st := w.extractLsb' 52 4, y := w.getLsbD 51, u := w.getLsbD 49, gn := w.getLsbD 48, gp := w.extractLsb' 44 4 }

/-- The L bit of a first word (R80). -/
def longBit (w : DWord) : Bool := w.getLsbD 50

/-- Bits 43:0 of format A (R82). -/
def FA.ofWord (w : DWord) : FA :=
  { d := .ofCode (w.extractLsb' 35 9), a := .ofCode (w.extractLsb' 26 9), b := .ofCode (w.extractLsb' 17 9),
    c := .ofCode (w.extractLsb' 8 9), fn := w.extractLsb' 0 8 }

/-- Bits 43:0 of format I, with the second word of a long form (R82, R85). -/
def FI.ofWords (w w1 : DWord) : FI :=
  { d := .ofCode (w.extractLsb' 35 9), a := .ofCode (w.extractLsb' 26 9), fn2 := w.extractLsb' 24 2,
    imm := if longBit w then .long w1 else .short (w.extractLsb' 0 24) }

/-- Bits 43:0 of format M, with the second word of a long form (R82, R85). -/
def FM.ofWords (w w1 : DWord) : FM :=
  { d := .ofCode (w.extractLsb' 35 9), a := .ofCode (w.extractLsb' 26 9), nud := w.extractLsb' 21 5,
    sz := w.extractLsb' 18 3, ord := w.extractLsb' 15 3, spc := w.extractLsb' 13 2,
    off := if longBit w then .long (w1.extractLsb' 0 46) else .short (w.extractLsb' 0 13) }

/-- Format A and the second word of an atomic (R82, R85). -/
def FT.ofWords (w w1 : DWord) : FT :=
  { d := .ofCode (w.extractLsb' 35 9), a := .ofCode (w.extractLsb' 26 9), b := .ofCode (w.extractLsb' 17 9),
    c := .ofCode (w.extractLsb' 8 9), fn := w.extractLsb' 0 8, nud := w1.extractLsb' 59 5,
    sz := w1.extractLsb' 56 3, ord := w1.extractLsb' 53 3, spc := w1.extractLsb' 51 2, off := w1.extractLsb' 0 46 }

/-- Bits 43:0 of format B (R82). -/
def FB.ofWord (w : DWord) : FB :=
  { fn4 := w.extractLsb' 40 4, tok := w.extractLsb' 32 8, off := w.extractLsb' 0 32 }

/-- Bits 43:0 of format X (R82). -/
def FX.ofWord (w : DWord) : FX :=
  { acc := w.extractLsb' 40 4, slot := w.extractLsb' 35 5, a := .ofCode (w.extractLsb' 26 9),
    b := .ofCode (w.extractLsb' 17 9), cnt := w.extractLsb' 8 9, fn := w.extractLsb' 0 8 }

/-- Bits 43:0 of format S (R82). -/
def FS.ofWord (w : DWord) : FS :=
  { w := .ofCode (w.extractLsb' 35 9), a := .ofCode (w.extractLsb' 26 9), b := .ofCode (w.extractLsb' 17 9),
    d := .ofCode (w.extractLsb' 8 9), fn := w.extractLsb' 0 8 }

/-- The fields of a word of the given format, or why its L bit or its reserved bits reject it (R83, R85). -/
def unpack (f : Fmt) (w w1 : DWord) : Except Reject Payload :=
  match f with
  | .a => if longBit w then .error .longForm else .ok (.a (.ofWord w) (.ofWord w))
  | .i =>
    if longBit w ∧ w.extractLsb' 0 24 ≠ 0 then .error .reserved else .ok (.i (.ofWord w) (.ofWords w w1))
  | .m =>
    if longBit w ∧ (w.extractLsb' 0 13 ≠ 0 ∨ w1.extractLsb' 46 18 ≠ 0) then .error .reserved
    else .ok (.m (.ofWord w) (.ofWords w w1))
  | .t =>
    if ¬ longBit w then .error .longForm
    else if w1.extractLsb' 46 5 ≠ 0 then .error .reserved
    else .ok (.t (.ofWord w) (.ofWords w w1))
  | .b => if longBit w then .error .longForm else .ok (.b (.ofWord w) (.ofWord w))
  | .x => if w.extractLsb' 44 12 ≠ 0 then .error .reserved else .ok (.x (.ofWord w))
  | .s => if longBit w then .error .longForm else .ok (.s (.ofWord w) (.ofWord w))

/-! ## The opcode map -/

/-- The instruction of a format A word (R90). -/
def ofA (op : Nat) (h : Hdr) (x : FA) : Option Instr :=
  match op with
  | 0x00 => some (.nop h x)
  | 0x01 => some (.iadd h x)
  | 0x02 => some (.isub h x)
  | 0x03 => some (.imul h x)
  | 0x04 => some (.imulh h x)
  | 0x05 => some (.imad h x)
  | 0x06 => some (.imin h x)
  | 0x07 => some (.imax h x)
  | 0x08 => some (.iabsd h x)
  | 0x09 => some (.bitf h x)
  | 0x0A => some (.shl h x)
  | 0x0B => some (.shr h x)
  | 0x0C => some (.bfx h x)
  | 0x0D => some (.bfi h x)
  | 0x0E => some (.popc h x)
  | 0x0F => some (.clz h x)
  | 0x10 => some (.brev h x)
  | 0x11 => some (.icmp h x)
  | 0x12 => some (.sel h x)
  | 0x13 => some (.mov h x)
  | 0x15 => some (.iadd64 h x)
  | 0x16 => some (.lea h x)
  | 0x17 => some (.idiv h x)
  | 0x18 => some (.irem h x)
  | 0x19 => some (.idot4 h x)
  | 0x1A => some (.pbitf h x)
  | 0x1B => if x.fn == 0 then some (.pmovPack h x) else if x.fn == 1 then some (.pmovUnpk h x) else none
  | 0x1C => some (.kecf h x)
  | 0x20 => some (.fadd h x)
  | 0x21 => some (.fmul h x)
  | 0x22 => some (.ffma h x)
  | 0x23 => some (.fmin h x)
  | 0x24 => some (.fmax h x)
  | 0x25 => some (.fcmp h x)
  | 0x26 => some (.frcp h x)
  | 0x27 => some (.frsq h x)
  | 0x28 => some (.fsqrt h x)
  | 0x29 => some (.fex2 h x)
  | 0x2A => some (.flg2 h x)
  | 0x2B => some (.fsin h x)
  | 0x2C => some (.fcos h x)
  | 0x2D => some (.fclass h x)
  | 0x30 => some (.hadd2 h x)
  | 0x31 => some (.hmul2 h x)
  | 0x32 => some (.hfma2 h x)
  | 0x33 => some (.hmin2 h x)
  | 0x34 => some (.hmax2 h x)
  | 0x35 => some (.hcmp2 h x)
  | 0x40 => some (.cvtif h x)
  | 0x41 => some (.cvtfi h x)
  | 0x42 => some (.cvtff h x)
  | 0x43 => some (.cvtn h x)
  | 0x44 => some (.cvtw h x)
  | 0x45 => some (.cvtra h x)
  | 0x46 => some (.cvtar h x)
  | 0x47 => if x.fn == 0 then some (.packH h x) else if x.fn == 1 then some (.packBi h x) else
    if x.fn == 2 then some (.packN h x) else none
  | 0x48 => if x.fn == 0 || x.fn == 1 then some (.unpkH h x) else if x.fn == 2 || x.fn == 3 then some (.unpkB h x)
    else if x.fn == 4 || x.fn == 5 then some (.unpkN h x) else none
  | 0x4A => some (.getfmt h x)
  | 0x4B => some (.bscale h x)
  | 0x4C => some (.efclr h x)
  | 0x50 => some (.qswz h x)
  | 0x51 => some (.qred h x)
  | 0x52 => some (.shfl h x)
  | 0x53 => if x.fn == 0 then some (.voteAll h x) else if x.fn == 1 then some (.voteAny h x) else
    if x.fn == 2 then some (.voteUni h x) else if x.fn == 3 then some (.voteBal h x) else none
  | 0x54 => some (.scan h x)
  | 0x55 => some (.sred h x)
  | 0x56 => if x.fn == 0 then some (.match32 h x) else if x.fn == 1 then some (.match64 h x) else none
  | 0x57 => if x.fn == 0 then some (.elect h x) else if x.fn == 1 then some (.electNh h x) else none
  | 0x80 => some (.fence h x)
  | 0x81 => some (.waitv h x)
  | 0x82 => some (.pbari h x)
  | 0x83 => some (.pbara h x)
  | 0x84 => some (.pbarw h x)
  | 0x85 => some (.yield h x)
  | 0x86 => if x.fn == 0 then some (.stampCis h x) else if x.fn == 1 then some (.stampCie h x) else none
  | 0x91 => some (.brx h x)
  | 0x95 => some (.ret h x)
  | 0x96 => if x.fn == 0 then some (.exit h x) else if x.fn == 1 then some (.exitH h x) else none
  | 0x97 => some (.bar h x)
  | 0x98 => some (.bara h x)
  | 0x99 => some (.barw h x)
  | 0xA0 => some (.bclose h x)
  | 0xA1 => some (.bwait h x)
  | 0xA2 => some (.enq h x)
  | 0xA3 => some (.pub h x)
  | 0xA4 => some (.deq h x)
  | 0xA5 => some (.spawn h x)
  | 0xA6 => some (.take h x)
  | 0xA7 => some (.steal h x)
  | 0xA8 => some (.launch h x)
  | 0xA9 => some (.mstart h x)
  | 0xAA => some (.mstat h x)
  | 0xAB => if x.fn == 0 then some (.mres h x) else if x.fn == 1 then some (.mresSkip h x) else none
  | 0xB0 => some (.ralloc h x)
  | 0xB1 => some (.rload h x)
  | 0xB2 => some (.rpin h x)
  | 0xB3 => some (.runpin h x)
  | 0xB4 => some (.rrevk h x)
  | 0xB5 => if x.fn == 0 then some (.rqry h x) else if x.fn == 1 then some (.rqryQ h x) else none
  | 0xE0 => some (.movs h x)
  | 0xE2 => if x.fn == 0 then some (.rft h x) else if x.fn == 1 then some (.rftSkip h x) else none
  | 0xE3 => some (.xrd h x)
  | 0xE4 => some (.xwr h x)
  | 0xE5 => if x.fn == 0 then some (.tlbiAll h x) else if x.fn == 1 then some (.tlbiCtx h x) else
    if x.fn == 2 then some (.tlbiPage h x) else none
  | 0xE6 => if x.fn == 0 then some (.stopatHalt h x) else if x.fn == 1 then some (.stopatRun h x) else
    if x.fn == 2 then some (.stopatPre h x) else none
  | 0xE7 => some (.saveg h x)
  | 0xE8 => some (.restg h x)
  | 0xE9 => some (.mcld h x)
  | _ => none

/-- The forms of MOVI (R181). -/
def ofMovi (h : Hdr) (x : FI) : Option Instr :=
  if x.fn2 == 0 then some (if x.imm.isLong then .moviLong h x else .movi h x)
  else if x.fn2 == 1 then some (if x.imm.isLong then .movi64 h x else .moviZ h x)
  else none

/-- The forms of SETFMT (R201). -/
def ofSetfmt (h : Hdr) (x : FI) : Option Instr :=
  if x.imm.isLong then (if x.fn2 == 1 then some (.setfmtLong h x) else none)
  else if x.fn2 == 0 then some (.setfmtR h x)
  else if x.fn2 == 1 then some (.setfmt h x)
  else if x.fn2 == 2 then some (.setfmtSeed h x)
  else none

/-- The operations of CCTL, selected by SZ (R220). -/
def ofCctl (h : Hdr) (x : FM) : Option Instr :=
  if x.sz == 0 then some (.cctlWb h x)
  else if x.sz == 1 then some (.cctlInv h x)
  else if x.sz == 2 then some (.cctlDemote h x)
  else if x.sz == 3 then some (.cctlRenud h x)
  else none

/-- The registers of MTSR (R372, R384). An index that no table defines takes the row of index 0, whose
meaning then raises Illegal Operand as R372 gives. -/
def ofMtsr (h : Hdr) (x : FI) : Option Instr :=
  let n := x.mtsrIndex
  some (
    if n = 1 then .mtsrSl h x else if n = 2 then .mtsrGate h x else if n = 3 then .mtsrStallchk h x
    else if n = 4 then .mtsrStarve h x else if n = 5 then .mtsrWqbase h x
    else if 8 ≤ n ∧ n < 16 then .mtsrPdl h x
    else if n = 0x20 then .mtsrGlnPeriod h x else if n = 0x21 then .mtsrGlnCtxm h x
    else if n = 0x22 then .mtsrGlnRing h x else if n = 0x23 then .mtsrGlnStart h x
    else if n = 0x24 then .mtsrGlnStop h x else if n = 0x25 then .mtsrGlnTstc h x
    else if 0x40 ≤ n ∧ n < 0x60 then .mtsrBbcb h x else if 0x60 ≤ n ∧ n < 0x80 then .mtsrBbcn h x
    else .mtsrHorizon h x)

/-- The instruction of a format I word (R90). -/
def ofI (op : Nat) (h : Hdr) (x : FI) : Option Instr :=
  match op with
  | 0x14 => ofMovi h x
  | 0x49 => ofSetfmt h x
  | 0x9A => some (.trap h x)
  | 0x9B => some (.bkpt h x)
  | 0x9C => some (.bbc h x)
  | 0xE1 => ofMtsr h x
  | _ => none

/-- The instruction of a format M word (R90). -/
def ofM (op : Nat) (h : Hdr) (x : FM) : Option Instr :=
  match op with
  | 0x60 => some (.ld h x)
  | 0x61 => some (.st h x)
  | 0x62 => some (.ldu h x)
  | 0x63 => some (.stu h x)
  | 0x64 => some (.ldc h x)
  | 0x65 => some (.pref h x)
  | 0x66 => ofCctl h x
  | _ => none

/-- The instruction of an atomic (R90). -/
def ofT (op : Nat) (h : Hdr) (x : FT) : Option Instr :=
  match op with
  | 0x70 => some (.atom h x)
  | 0x71 => some (.acas h x)
  | 0x72 => some (.red h x)
  | 0x73 => some (.atomu h x)
  | _ => none

/-- The instruction of a format B word (R90). -/
def ofB (op : Nat) (h : Hdr) (x : FB) : Option Instr :=
  match op with
  | 0x90 => some (.bra h x)
  | 0x92 => some (.join h x)
  | 0x93 => some (.joint h x)
  | 0x94 => some (.call h x)
  | _ => none

/-- The instruction of a format X word (R90, R282). -/
def ofX (op : Nat) (x : FX) : Option Instr :=
  match op with
  | 0xC0 => some (.mma x)
  | 0xC1 => some (.mmag x)
  | 0xC2 => if x.fn == 0 then some (.maccZero x) else if x.fn == 1 then some (.maccLd x) else none
  | 0xC3 => some (.mout x)
  | 0xC4 => some (.msig x)
  | 0xC5 => some (.mwait x)
  | 0xC6 => if x.fn == 0 then some (.mloopBegin x) else if x.fn == 1 then some (.mloopNext x) else none
  | 0xC7 => some (.mend x)
  | 0xC8 => if x.fn == 0 then some (.mtile x) else if x.fn == 1 then some (.mtileRing x) else none
  | _ => none

/-- The instruction of a format S word (R90, R314). -/
def ofS (op : Nat) (h : Hdr) (x : FS) : Option Instr :=
  match op with
  | 0xD0 => some (.rast h x)
  | 0xD1 => some (.trav h x)
  | 0xD2 => some (.filt h x)
  | 0xD3 => some (.blnd h x)
  | 0xD4 => some (.dist h x)
  | 0xD5 => some (.topk h x)
  | 0xD8 => some (.seqx 0 h x)
  | 0xD9 => some (.seqx 1 h x)
  | 0xDA => some (.seqx 2 h x)
  | 0xDB => some (.seqx 3 h x)
  | 0xDC => some (.seqx 4 h x)
  | 0xDD => some (.seqx 5 h x)
  | 0xDE => some (.seqx 6 h x)
  | 0xDF => some (.seqx 7 h x)
  | _ => none

/-- The instruction of a word's fields; none when its FN selects no row. -/
def ofPayload (op : Nat) : Payload → Option Instr
  | .a h x => ofA op h x
  | .i h x => ofI op h x
  | .m h x => ofM op h x
  | .t h x => ofT op h x
  | .b h x => ofB op h x
  | .x x => ofX op x
  | .s h x => ofS op h x

/-- The major opcode (R90); 0 for an event, which has no word. -/
def Instr.op : Instr → Nat
  | .nop .. => 0x00
  | .iadd .. => 0x01
  | .isub .. => 0x02
  | .imul .. => 0x03
  | .imulh .. => 0x04
  | .imad .. => 0x05
  | .imin .. => 0x06
  | .imax .. => 0x07
  | .iabsd .. => 0x08
  | .bitf .. => 0x09
  | .shl .. => 0x0A
  | .shr .. => 0x0B
  | .bfx .. => 0x0C
  | .bfi .. => 0x0D
  | .popc .. => 0x0E
  | .clz .. => 0x0F
  | .brev .. => 0x10
  | .icmp .. => 0x11
  | .sel .. => 0x12
  | .mov .. => 0x13
  | .movi .. | .moviZ .. | .moviLong .. | .movi64 .. => 0x14
  | .iadd64 .. => 0x15
  | .lea .. => 0x16
  | .idiv .. => 0x17
  | .irem .. => 0x18
  | .idot4 .. => 0x19
  | .pbitf .. => 0x1A
  | .pmovPack .. | .pmovUnpk .. => 0x1B
  | .kecf .. => 0x1C
  | .fadd .. => 0x20
  | .fmul .. => 0x21
  | .ffma .. => 0x22
  | .fmin .. => 0x23
  | .fmax .. => 0x24
  | .fcmp .. => 0x25
  | .frcp .. => 0x26
  | .frsq .. => 0x27
  | .fsqrt .. => 0x28
  | .fex2 .. => 0x29
  | .flg2 .. => 0x2A
  | .fsin .. => 0x2B
  | .fcos .. => 0x2C
  | .fclass .. => 0x2D
  | .hadd2 .. => 0x30
  | .hmul2 .. => 0x31
  | .hfma2 .. => 0x32
  | .hmin2 .. => 0x33
  | .hmax2 .. => 0x34
  | .hcmp2 .. => 0x35
  | .cvtif .. => 0x40
  | .cvtfi .. => 0x41
  | .cvtff .. => 0x42
  | .cvtn .. => 0x43
  | .cvtw .. => 0x44
  | .cvtra .. => 0x45
  | .cvtar .. => 0x46
  | .packH .. | .packBi .. | .packN .. => 0x47
  | .unpkH .. | .unpkB .. | .unpkN .. => 0x48
  | .setfmtR .. | .setfmt .. | .setfmtLong .. | .setfmtSeed .. => 0x49
  | .getfmt .. => 0x4A
  | .bscale .. => 0x4B
  | .efclr .. => 0x4C
  | .qswz .. => 0x50
  | .qred .. => 0x51
  | .shfl .. => 0x52
  | .voteAll .. | .voteAny .. | .voteUni .. | .voteBal .. => 0x53
  | .scan .. => 0x54
  | .sred .. => 0x55
  | .match32 .. | .match64 .. => 0x56
  | .elect .. | .electNh .. => 0x57
  | .ld .. => 0x60
  | .st .. => 0x61
  | .ldu .. => 0x62
  | .stu .. => 0x63
  | .ldc .. => 0x64
  | .pref .. => 0x65
  | .cctlWb .. | .cctlInv .. | .cctlDemote .. | .cctlRenud .. => 0x66
  | .atom .. => 0x70
  | .acas .. => 0x71
  | .red .. => 0x72
  | .atomu .. => 0x73
  | .fence .. => 0x80
  | .waitv .. => 0x81
  | .pbari .. => 0x82
  | .pbara .. => 0x83
  | .pbarw .. => 0x84
  | .yield .. => 0x85
  | .stampCis .. | .stampCie .. => 0x86
  | .bra .. => 0x90
  | .brx .. => 0x91
  | .join .. => 0x92
  | .joint .. => 0x93
  | .call .. => 0x94
  | .ret .. => 0x95
  | .exit .. | .exitH .. => 0x96
  | .bar .. => 0x97
  | .bara .. => 0x98
  | .barw .. => 0x99
  | .trap .. => 0x9A
  | .bkpt .. => 0x9B
  | .bbc .. => 0x9C
  | .bclose .. => 0xA0
  | .bwait .. => 0xA1
  | .enq .. => 0xA2
  | .pub .. => 0xA3
  | .deq .. => 0xA4
  | .spawn .. => 0xA5
  | .take .. => 0xA6
  | .steal .. => 0xA7
  | .launch .. => 0xA8
  | .mstart .. => 0xA9
  | .mstat .. => 0xAA
  | .mres .. | .mresSkip .. => 0xAB
  | .ralloc .. => 0xB0
  | .rload .. => 0xB1
  | .rpin .. => 0xB2
  | .runpin .. => 0xB3
  | .rrevk .. => 0xB4
  | .rqry .. | .rqryQ .. => 0xB5
  | .seqx k .. => 0xD8 + k.val
  | .mma .. => 0xC0
  | .mmag .. => 0xC1
  | .maccZero .. | .maccLd .. => 0xC2
  | .mout .. => 0xC3
  | .msig .. => 0xC4
  | .mwait .. => 0xC5
  | .mloopBegin .. | .mloopNext .. => 0xC6
  | .mend .. => 0xC7
  | .mtile .. | .mtileRing .. => 0xC8
  | .rast .. => 0xD0
  | .trav .. => 0xD1
  | .filt .. => 0xD2
  | .blnd .. => 0xD3
  | .dist .. => 0xD4
  | .topk .. => 0xD5
  | .movs .. => 0xE0
  | .mtsrHorizon .. | .mtsrSl .. | .mtsrGate .. | .mtsrStallchk .. | .mtsrStarve .. | .mtsrWqbase ..
  | .mtsrPdl .. | .mtsrGlnPeriod .. | .mtsrGlnCtxm .. | .mtsrGlnRing .. | .mtsrGlnStart ..
  | .mtsrGlnStop .. | .mtsrGlnTstc .. | .mtsrBbcb .. | .mtsrBbcn .. => 0xE1
  | .rft .. | .rftSkip .. => 0xE2
  | .xrd .. => 0xE3
  | .xwr .. => 0xE4
  | .tlbiAll .. | .tlbiCtx .. | .tlbiPage .. => 0xE5
  | .stopatHalt .. | .stopatRun .. | .stopatPre .. => 0xE6
  | .saveg .. => 0xE7
  | .restg .. => 0xE8
  | .mcld .. => 0xE9
  | .jointTimeout .. | .yieldEnd .. | .memoryAccessComplete .. | .waitvReevaluate .. | .waitvTimeout ..
  | .moutComplete .. | .residencyLoadEnd .. | .bandGate .. | .seqTake .. | .seqStep .. | .engineCopy ..
  | .engineGather .. | .engineCollective .. | .engineStorage .. | .engineCommandEnd .. | .nvmeCompletion ..
  | .nvmeTimeout .. | .memberAbsentTimeout .. | .queueStuck .. | .stealTimeout .. | .faultReplyRetry ..
  | .faultReplyFailUnresolved .. | .faultReplyFailProtection .. | .failedLanesPark .. | .fqHead ..
  | .winnowTick .. | .credibilityRecount .. | .reclaimWritebackDone .. | .rdDropRequest .. | .rdDropAck ..
  | .rdAckTimeout .. | .hostAccess .. | .doorbell .. | .fabricRequest .. | .fabricTimeout ..
  | .stackNotReadyTimeout .. | .sqStateWrite .. | .launchPacket .. | .phasePacket .. | .signalPacket ..
  | .waitPacket .. | .waitPacketReevaluate .. | .waitPacketTimeout .. | .copyPacket .. | .indirectPacket ..
  | .markerPacket .. | .coherenceClean .. | .dispatchPlace .. | .swapRestoreEntry .. | .groupEnd ..
  | .saveQuiesced .. | .saveWritten .. | .restoreDone .. | .dspreq .. | .preemptRequest ..
  | .preemptRelease .. | .forcedReset .. | .preemptComplete .. | .preemptDeadline .. | .cutEffect ..
  | .handlerBatchClose .. | .handlerSheafStart .. | .handlerRoomTimeout .. | .gleanerSample ..
  | .powerInterval .. | .powerCap .. | .thermalLimit .. | .thermalRecovery .. | .thermalShutdown ..
  | .moduleReset .. | .powerLoss .. | .readySet .. | .rcvLen .. | .errClear .. | .wqRegister ..
  | .wqUnregister .. | .tlbInv .. | .rqset .. | .watchArm .. | .measExt .. | .doeRequest .. | .doeRsplen ..
  | .trng .. | .signGo .. | .signDone .. | .idxResv .. | .idxCommitDone .. | .getVersion ..
  | .getCapabilities .. | .negotiateAlgorithms .. | .getDigests .. | .getCertificate .. | .challenge ..
  | .getMeasurements .. | .spdmUnknownRequest .. | .registerWrite .. | .stallCountExpiry ..
  | .variableLatencyResult .. | .mmaComplete .. | .maccComplete .. | .readyClear .. => 0

/-- The fields of the instruction word; none for an event. -/
def Instr.payload : Instr → Option Payload
  | .nop h x | .iadd h x | .isub h x | .imul h x | .imulh h x | .imad h x | .imin h x | .imax h x
  | .iabsd h x | .bitf h x | .shl h x | .shr h x | .bfx h x | .bfi h x | .popc h x | .clz h x | .brev h x
  | .icmp h x | .sel h x | .mov h x | .iadd64 h x | .lea h x | .idiv h x | .irem h x | .idot4 h x
  | .pbitf h x | .pmovPack h x | .pmovUnpk h x | .kecf h x | .fadd h x | .fmul h x | .ffma h x | .fmin h x
  | .fmax h x | .fcmp h x | .frcp h x | .frsq h x | .fsqrt h x | .fex2 h x | .flg2 h x | .fsin h x
  | .fcos h x | .fclass h x | .hadd2 h x | .hmul2 h x | .hfma2 h x | .hmin2 h x | .hmax2 h x | .hcmp2 h x
  | .cvtif h x | .cvtfi h x | .cvtff h x | .cvtn h x | .cvtw h x | .cvtra h x | .cvtar h x | .packH h x
  | .packBi h x | .packN h x | .unpkH h x | .unpkB h x | .unpkN h x | .getfmt h x | .bscale h x
  | .efclr h x | .qswz h x | .qred h x | .shfl h x | .voteAll h x | .voteAny h x | .voteUni h x
  | .voteBal h x | .scan h x | .sred h x | .match32 h x | .match64 h x | .elect h x | .electNh h x
  | .fence h x | .waitv h x | .pbari h x | .pbara h x | .pbarw h x | .yield h x | .stampCis h x
  | .stampCie h x | .brx h x | .ret h x | .exit h x | .exitH h x | .bar h x | .bara h x | .barw h x
  | .bclose h x | .bwait h x | .enq h x | .pub h x | .deq h x | .spawn h x | .take h x | .steal h x
  | .launch h x | .mstart h x | .mstat h x | .mres h x | .mresSkip h x | .ralloc h x | .rload h x
  | .rpin h x | .runpin h x | .rrevk h x | .rqry h x | .rqryQ h x | .movs h x | .rft h x | .rftSkip h x
  | .xrd h x | .xwr h x | .tlbiAll h x | .tlbiCtx h x | .tlbiPage h x | .stopatHalt h x | .stopatRun h x
  | .stopatPre h x | .saveg h x | .restg h x | .mcld h x => some (.a h x)
  | .movi h x | .moviZ h x | .moviLong h x | .movi64 h x | .setfmtR h x | .setfmt h x | .setfmtLong h x
  | .setfmtSeed h x | .trap h x | .bkpt h x | .bbc h x | .mtsrHorizon h x | .mtsrSl h x | .mtsrGate h x
  | .mtsrStallchk h x | .mtsrStarve h x | .mtsrWqbase h x | .mtsrPdl h x | .mtsrGlnPeriod h x
  | .mtsrGlnCtxm h x | .mtsrGlnRing h x | .mtsrGlnStart h x | .mtsrGlnStop h x | .mtsrGlnTstc h x
  | .mtsrBbcb h x | .mtsrBbcn h x => some (.i h x)
  | .ld h x | .st h x | .ldu h x | .stu h x | .ldc h x | .pref h x | .cctlWb h x | .cctlInv h x
  | .cctlDemote h x | .cctlRenud h x => some (.m h x)
  | .atom h x | .acas h x | .red h x | .atomu h x => some (.t h x)
  | .bra h x | .join h x | .joint h x | .call h x => some (.b h x)
  | .rast h x | .trav h x | .filt h x | .blnd h x | .dist h x | .topk h x => some (.s h x)
  | .seqx _ h x => some (.s h x)
  | .mma x | .mmag x | .maccZero x | .maccLd x | .mout x | .msig x | .mwait x | .mloopBegin x
  | .mloopNext x | .mend x | .mtile x | .mtileRing x => some (.x x)
  | .jointTimeout .. | .yieldEnd .. | .memoryAccessComplete .. | .waitvReevaluate .. | .waitvTimeout ..
  | .moutComplete .. | .residencyLoadEnd .. | .bandGate .. | .seqTake .. | .seqStep .. | .engineCopy ..
  | .engineGather .. | .engineCollective .. | .engineStorage .. | .engineCommandEnd .. | .nvmeCompletion ..
  | .nvmeTimeout .. | .memberAbsentTimeout .. | .queueStuck .. | .stealTimeout .. | .faultReplyRetry ..
  | .faultReplyFailUnresolved .. | .faultReplyFailProtection .. | .failedLanesPark .. | .fqHead ..
  | .winnowTick .. | .credibilityRecount .. | .reclaimWritebackDone .. | .rdDropRequest .. | .rdDropAck ..
  | .rdAckTimeout .. | .hostAccess .. | .doorbell .. | .fabricRequest .. | .fabricTimeout ..
  | .stackNotReadyTimeout .. | .sqStateWrite .. | .launchPacket .. | .phasePacket .. | .signalPacket ..
  | .waitPacket .. | .waitPacketReevaluate .. | .waitPacketTimeout .. | .copyPacket .. | .indirectPacket ..
  | .markerPacket .. | .coherenceClean .. | .dispatchPlace .. | .swapRestoreEntry .. | .groupEnd ..
  | .saveQuiesced .. | .saveWritten .. | .restoreDone .. | .dspreq .. | .preemptRequest ..
  | .preemptRelease .. | .forcedReset .. | .preemptComplete .. | .preemptDeadline .. | .cutEffect ..
  | .handlerBatchClose .. | .handlerSheafStart .. | .handlerRoomTimeout .. | .gleanerSample ..
  | .powerInterval .. | .powerCap .. | .thermalLimit .. | .thermalRecovery .. | .thermalShutdown ..
  | .moduleReset .. | .powerLoss .. | .readySet .. | .rcvLen .. | .errClear .. | .wqRegister ..
  | .wqUnregister .. | .tlbInv .. | .rqset .. | .watchArm .. | .measExt .. | .doeRequest .. | .doeRsplen ..
  | .trng .. | .signGo .. | .signDone .. | .idxResv .. | .idxCommitDone .. | .getVersion ..
  | .getCapabilities .. | .negotiateAlgorithms .. | .getDigests .. | .getCertificate .. | .challenge ..
  | .getMeasurements .. | .spdmUnknownRequest .. | .registerWrite .. | .stallCountExpiry ..
  | .variableLatencyResult .. | .mmaComplete .. | .maccComplete .. | .readyClear .. => none

/-! ## Packing -/

/-- Bits 63:44 of a first word (R80) before its body. -/
def Hdr.word (h : Hdr) (op : Nat) (long : Bool) (body : BitVec 44) : DWord :=
  BitVec.ofNat 8 op ++ h.st ++ BitVec.ofBool h.y ++ BitVec.ofBool long ++ BitVec.ofBool h.u ++
    BitVec.ofBool h.gn ++ h.gp ++ body

/-- The body of format A (R82). -/
def FA.body (x : FA) : BitVec 44 := x.d.code ++ x.a.code ++ x.b.code ++ x.c.code ++ x.fn

/-- The words of an instruction, first word first (R79, R80, R82, R85); an event has none. -/
def encode (i : Instr) : Option (List DWord) :=
  match i.payload with
  | none => none
  | some (.a h x) => some [h.word i.op false x.body]
  | some (.i h x) =>
    match x.imm with
    | .short w => some [h.word i.op false (x.d.code ++ x.a.code ++ x.fn2 ++ w)]
    | .long w => some [h.word i.op true (x.d.code ++ x.a.code ++ x.fn2 ++ (0 : BitVec 24)), w]
  | some (.m h x) =>
    let lead := x.d.code ++ x.a.code ++ x.nud ++ x.sz ++ x.ord ++ x.spc
    match x.off with
    | .short w => some [h.word i.op false (lead ++ w)]
    | .long w => some [h.word i.op true (lead ++ (0 : BitVec 13)), (0 : BitVec 18) ++ w]
  | some (.t h x) =>
    some [h.word i.op true (x.d.code ++ x.a.code ++ x.b.code ++ x.c.code ++ x.fn),
      x.nud ++ x.sz ++ x.ord ++ x.spc ++ (0 : BitVec 5) ++ x.off]
  | some (.b h x) => some [h.word i.op false (x.fn4 ++ x.tok ++ x.off)]
  | some (.x x) =>
    some [BitVec.ofNat 8 i.op ++ (0 : BitVec 12) ++ x.acc ++ x.slot ++ x.a.code ++ x.b.code ++ x.cnt ++ x.fn]
  | some (.s h x) => some [h.word i.op false (x.w.code ++ x.a.code ++ x.b.code ++ x.d.code ++ x.fn)]

/-! ## What an operand field may name -/

/-- What an instruction's entry asks of an operand field. -/
inductive Need where
  /-- Not used: the field holds 0 (R83). -/
  | no
  /-- A 32-bit source operand (R165). -/
  | rd1
  /-- A 64-bit source operand: an even pair, an inline operand or a 64-bit special register (R87 to R89). -/
  | rd2
  /-- A 32-bit destination register, or sz (R165). -/
  | wr1
  /-- A destination pair (R89). -/
  | wr2
  /-- A predicate that is read (R165). -/
  | prd
  /-- A predicate that is written (R165). -/
  | pwr
  /-- n registers from a multiple of al (R166), which are written or read and written. -/
  | regs (n al : Nat)
  /-- n registers from a multiple of al that are only read: a scalar span supplies its values to every thread (R165, R166). -/
  | regsIn (n al : Nat)
  /-- The same, or sz (R213). -/
  | regsOrSz (n al : Nat)
  /-- The data of a store: registers, sz, or an inline operand where `inl` says so (R213). -/
  | data (n al : Nat) (inl : Bool)
  /-- An address register (R213): an even pair, or a 32-bit register or sz. -/
  | addr (pair : Bool)
  /-- A vector pair with U = 0, a scalar pair with U = 1 (R242, R268). -/
  | pair
  /-- A vector or scalar pair (R242). -/
  | anyPair
  /-- A scalar pair (R270, R303, R370). -/
  | sclPair
  /-- A scalar pair, or sz (R236). -/
  | sclPairSz
  /-- A scalar pair, an inline integer or sz (R230, R264). -/
  | pairIntSz
  /-- An inline integer below n (R184, R226, R236, R370). -/
  | intLt (n : Nat)
  /-- An inline integer below n, a scalar or sz (R229, R235, R247, R256). -/
  | intOrScl (n : Nat)
  /-- A scalar, sz or an inline operand (R201). -/
  | sclInline
  /-- A scalar or sz. -/
  | scl
  /-- A selector of XRD or XWR, which is not read as an operand (R374). -/
  | sel
  deriving DecidableEq, Repr

/-- A special register that differs between threads (R88). -/
def SReg.thread : SReg → Bool
  | .tidX | .tidY | .tidZ | .thr | .quad | .lane | .helper | .origin | .cause => true
  | _ => false

/-- A 64-bit special register (R88). -/
def SReg.wide : SReg → Bool
  | .stc | .active | .origin => true
  | _ => false

/-- A special register of handler sheaves only (R88). -/
def SReg.handler : SReg → Bool
  | .origin | .cause => true
  | _ => false

/-- Registers of one kind: n of them from a multiple of al, vector registers below the budget, scalars
up to s62 (R29, R89, R166). -/
def Opd.span (u : Bool) (budget n al : Nat) : Opd → Bool
  | .v r => !u && r.val % al == 0 && r.val + n ≤ budget && r.val + n ≤ 256
  | .s r => u && r.val % al == 0 && r.val + n ≤ 63
  | _ => false

/-- Whether an operand is what the instruction's entry asks for, in an instruction with the given U bit, in a
sheaf of the given budget, inside or outside a handler sheaf (R26, R29, R86, R88, R89, R165). A pair never includes sz (R89),
except where the entry itself names sz; a 32-bit special register in the place of a pair raises Illegal Operand, as the
converse does (log 128). -/
def Need.ok (u : Bool) (budget : Nat) (handler : Bool) (o : Opd) (n : Need) : Bool :=
  let scalars (k al : Nat) : Bool := o.span true budget k al
  let inline32 : Bool := match o with
    | .int _ | .fc _ => true
    | _ => false
  let special (wide : Bool) : Bool := match o with
    | .sr r => r.wide == wide && !(u && r.thread) && (handler || !r.handler)
    | _ => false
  match n with
  | .no | .sel => true
  | .rd1 => o == .sz || inline32 || special false || scalars 1 1 || (!u && o.span false budget 1 1)
  | .rd2 => inline32 || special true || scalars 2 2 || (!u && o.span false budget 2 2)
  | .wr1 => o == .sz || o.span u budget 1 1
  | .wr2 => o.span u budget 2 2
  | .prd | .pwr => match o with
    | .p _ | .pt => !u
    | .q _ | .qt => u
    | _ => false
  | .regs k al => o.span u budget k al
  | .regsIn k al => scalars k al || (!u && o.span false budget k al)
  | .regsOrSz k al => o == .sz || o.span u budget k al
  | .data k al inl => o == .sz || (inl && inline32) || scalars k al || (!u && o.span false budget k al)
  | .addr wide =>
    if wide then scalars 2 2 || (!u && o.span false budget 2 2)
    else o == .sz || scalars 1 1 || (!u && o.span false budget 1 1)
  | .pair => o.span u budget 2 2
  | .anyPair => scalars 2 2 || o.span false budget 2 2
  | .sclPair => scalars 2 2
  | .sclPairSz => o == .sz || scalars 2 2
  | .pairIntSz => match o with
    | .int _ | .sz => true
    | _ => scalars 2 2
  | .intLt k => match o with
    | .int j => j.val < k
    | _ => false
  | .intOrScl k => match o with
    | .int j => j.val < k
    | _ => o == .sz || scalars 1 1
  | .sclInline => o == .sz || inline32 || scalars 1 1
  | .scl => o == .sz || scalars 1 1

/-- A row of the checks of R91 for one instruction: whether its FN, SZ and ORD codes and its own reserved bits are
allowed (Illegal Instruction when not), what each operand field needs, and whether the limits of its entry hold
(Illegal Operand when not). -/
structure Row where
  fn : Bool
  ops : List (Opd × Need)
  lim : Bool
  deriving DecidableEq, Repr

/-- A format A row. -/
def FA.row (x : FA) (fn : Bool) (d a b c : Need) (lim : Bool := true) : Row :=
  { fn := fn, ops := [(x.d, d), (x.a, a), (x.b, b), (x.c, c)], lim := lim }

/-- Bits of FN outside the mask are clear. -/
def fnIn (fn mask : BitVec 8) : Bool := fn &&& ~~~mask == 0

/-- The comparison and combination fields of ICMP (R178). -/
def icmpFn (fn : BitVec 8) : Bool :=
  fn.extractLsb' 0 3 ≤ 5 && fn.extractLsb' 4 2 ≤ 2 && fn.extractLsb' 6 2 == 0

/-- The comparison field of FCMP and HCMP2 (R187, R190). -/
def fcmpFn (fn : BitVec 8) : Bool := fn.extractLsb' 0 4 ≤ 13

/-- Elements per result word of a CVTW source code, and whether the code is defined (R197). -/
def cvtwCount (fn : BitVec 8) : Nat :=
  match (fn.extractLsb' 0 3).toNat with
  | 0 => 4
  | 1 => 8
  | 2 => 4
  | _ => 2

/-- Registers of an M-format access by SZ code (R84, R213). -/
def szSpan (sz : BitVec 3) : Nat := if sz == 4 then 4 else if sz == 3 || sz == 5 then 2 else 1

/-- A load or store row (R213 to R215). -/
def FM.row (x : FM) (d : Need) (lim : Bool) : Row :=
  { fn := x.sz ≤ 5 && x.ord ≤ 4, ops := [(x.d, d), (x.a, .addr (x.spc == 0))], lim := lim }

/-- A row of PREF or CCTL (R219, R220). -/
def FM.hintRow (x : FM) (maxSz : BitVec 3) : Row :=
  { fn := x.sz ≤ maxSz && x.ord == 0 && x.spc == 0, ops := [(x.d, .no), (x.a, .addr true)], lim := true }

/-- Whether TYPE and OP of an atomic are defined (R221, R222). -/
def atomFn (fn : BitVec 8) (cas : Bool) : Bool :=
  let ty := (fn.extractLsb' 4 3).toNat
  let op := (fn.extractLsb' 0 4).toNat
  fn.getLsbD 7 == false && ty ≤ 6 &&
    (match op with
     | 0 | 1 | 2 | 6 => true
     | 3 | 4 | 5 => ty ≤ 3
     | 7 | 8 => ty == 1
     | 9 => cas && ty ≤ 3
     | _ => false)

/-- Whether an atomic's type is of 64 bits (R221). -/
def atomWide (fn : BitVec 8) : Bool := fn.extractLsb' 4 3 == 2 || fn.extractLsb' 4 3 == 3

/-- An atomic row (R221 to R224). -/
def FT.row (x : FT) (fn : Bool) (d : Bool) (c : Bool) : Row :=
  let w : Need := if atomWide x.fn then .rd2 else .rd1
  { fn := fn && x.sz ≤ 5 && x.ord ≤ 4,
    ops := [(x.d, if d then (if atomWide x.fn then .wr2 else .wr1) else .no), (x.a, .addr (x.spc == 0)),
      (x.b, w), (x.c, if c then w else .no)],
    lim := (x.sz == if atomWide x.fn then 3 else 2) && x.spc != 3 }

/-- A row of MTSR (R372): FN2 the size, bits 15:12 of IMM24 zero, and the value in A or in the second word. -/
def FI.mtsrRow (x : FI) : Row :=
  { fn := x.fn2 ≤ 1 && x.imm.low24.extractLsb' 12 4 == 0 &&
      (match x.imm with
       | .short _ => true
       | .long w => w.extractLsb' 24 8 == 0),
    ops := [(x.d, .no), (x.a, if x.imm.isLong then .no else if x.fn2 == 1 then .rd2 else .rd1)], lim := true }

/-- An immediate row: D, A, and whether the fields are as the entry allows. -/
def FI.row (x : FI) (d a : Need) (fn : Bool) : Row := { fn := fn, ops := [(x.d, d), (x.a, a)], lim := true }

/-- A row of TRAP, BKPT and BBC (R249, R250). -/
def FI.indexRow (x : FI) : Row := x.row .no .no (x.fn2 == 0 && !x.imm.isLong)

/-- An operand of a stream instruction that reads one 32-bit value (R283). -/
def Opd.streamVal : Opd → Bool
  | .s _ | .sz | .int _ => true
  | _ => false

/-- A stream row: which of ACC, SLOT and CNT are used, and the needs of A and B (R282, R283). -/
def FX.row (x : FX) (acc slot cnt : Bool) (a b : Need) (fn : Bool) : Row :=
  { fn := fn && x.acc.extractLsb' 2 2 == 0 && (acc || x.acc == 0) && (slot || x.slot == 0) &&
      x.cnt.extractLsb' 7 2 == 0 && (cnt || x.cnt == 0),
    ops := [(x.a, a), (x.b, b)], lim := (a != .rd1 || x.a.streamVal) && (b != .rd1 || x.b.streamVal) }

/-- The spans of a sequenced instruction: window with its alignment, input with its alignment, block with its
parity (R314, R315); an input of no register still names one of the budget (R29). -/
def FS.lim (x : FS) (budget win winAl inp inpAl blk blkAl : Nat) : Bool :=
  match x.w, x.a, x.b, x.d with
  | .v w, .v a, .s b, d =>
    w.val + win ≤ budget && w.val % winAl == 0 && a.val + max 1 inp ≤ budget && a.val % inpAl == 0 &&
    (w.val + win ≤ a.val || a.val + inp ≤ w.val || inp == 0) && b.val + blk ≤ 63 && b.val % blkAl == 0 &&
    (match d with
     | .s _ | .sz => true
     | _ => false)
  | _, _, _, _ => false

/-- Window, its alignment, input, its alignment, block and its alignment of RAST to TOPK (R314). -/
def seqShape (fn : BitVec 8) : Nat → Nat × Nat × Nat × Nat × Nat × Nat
  | 0xD0 => (8, 2, 1, 1, 14, 2)
  | 0xD1 => (16, 2, 8, 1, 7, 2)
  | 0xD2 => (5, 1, if fn == 0 then 2 else 3, 1, 6, 2)
  | 0xD3 => (1, 1, 2, 1, 2, 1)
  | 0xD4 => (2, 1, 4, 2, 7, 2)
  | _ => (1, 1, 1, 1, 4, 1)

/-- A row of RAST to TOPK (R314, R315). -/
def FS.row (x : FS) (budget op : Nat) (fn : Bool) : Row :=
  let (w, wa, i, ia, b, ba) := seqShape x.fn op
  { fn := fn, ops := [], lim := x.lim budget w wa i ia b ba }

/-- Whether A names a selector of XRD and XWR that exists with the given .64 bit (R374). -/
def selectorOk (o : Opd) (wide : Bool) : Bool :=
  match o with
  | .v r => !wide || r.val % 2 == 0
  | .s r => !wide || (r.val % 2 == 0 && r.val < 62)
  | .p _ | .q _ | .sr .fmt => !wide
  | .res n => if n.val ≤ 1 then wide else 2 ≤ n.val && n.val ≤ 5
  | _ => false

/-- The row of an instruction (its entry in R171 to R379), in a sheaf of the given budget; `h` is its header. -/
def Instr.row (budget : Nat) : Instr → Row
  | .nop _ x => x.row (x.fn == 0) .no .no .no .no
  | .iadd _ x | .isub _ x | .imul _ x => x.row (fnIn x.fn 3) .wr1 .rd1 .rd1 .no
  | .imulh _ x | .imin _ x | .imax _ x => x.row (fnIn x.fn 1) .wr1 .rd1 .rd1 .no
  | .imad _ x => x.row (fnIn x.fn 3) .wr1 .rd1 .rd1 .rd1
  | .iabsd _ x => x.row (fnIn x.fn 1) .wr1 .rd1 .rd1 .rd1
  | .bitf _ x => x.row true .wr1 .rd1 .rd1 .rd1
  | .shl _ x => x.row (fnIn x.fn 1) .wr1 .rd1 .rd1 .no
  | .shr _ x => x.row (fnIn x.fn 3) .wr1 .rd1 .rd1 .no
  | .bfx _ x => x.row (fnIn x.fn 1) .wr1 .rd1 .rd1 .no
  | .bfi _ x => x.row (x.fn == 0) .wr1 .rd1 .rd1 .rd1
  | .popc _ x | .brev _ x => x.row (x.fn == 0) .wr1 .rd1 .no .no
  | .clz _ x => x.row (fnIn x.fn 1) .wr1 .rd1 .no .no
  | .icmp _ x => x.row (icmpFn x.fn) .pwr .rd1 .rd1 .prd
  | .sel _ x => x.row (x.fn == 0) .wr1 .rd1 .rd1 .prd
  | .mov _ x => if x.fn == 1 then x.row true .wr2 .rd2 .no .no else x.row (x.fn == 0) .wr1 .rd1 .no .no
  | .movi _ x | .moviZ _ x => x.row .wr1 .no true
  | .moviLong _ x =>
    x.row .wr1 .no (match x.imm with
      | .short _ => false
      | .long w => w.extractLsb' 32 32 == 0)
  | .movi64 _ x => x.row .wr2 .no true
  | .iadd64 _ x => x.row (fnIn x.fn 7) .wr2 .rd2 (if x.fn.getLsbD 2 then .rd1 else .rd2) .no
  | .lea _ x => x.row (fnIn x.fn 15) .wr2 .rd2 .rd1 .no
  | .idiv _ x => x.row (fnIn x.fn 3) .wr1 .rd1 .rd1 .no
  | .irem _ x => x.row (fnIn x.fn 1) .wr1 .rd1 .rd1 .no
  | .idot4 _ x => x.row (fnIn x.fn 15) .wr1 .rd1 .rd1 .rd1
  | .pbitf _ x => x.row true .pwr .prd .prd .prd
  | .pmovPack _ x => x.row true .wr1 .no .no .no
  | .pmovUnpk _ x => x.row true .no .rd1 .rd1 .no
  | .kecf _ x =>
    x.row (fnIn x.fn 31 && x.fn != 0 && x.fn ≤ 24) (.regs 50 2) (.intLt 24) .no .no (match x.a with
      | .int r => r.val + x.fn.toNat ≤ 24
      | _ => false)
  | .fadd _ x | .fmul _ x => x.row (fnIn x.fn 0x4F) .wr1 .rd1 .rd1 .no
  | .ffma _ x => x.row (fnIn x.fn 0x7F) .wr1 .rd1 .rd1 .rd1
  | .fmin _ x | .fmax _ x => x.row (fnIn x.fn 0x0F) .wr1 .rd1 .rd1 .no
  | .fcmp _ x => x.row (fcmpFn x.fn && x.fn.extractLsb' 4 2 ≤ 2 && x.fn.extractLsb' 6 2 == 0) .pwr .rd1 .rd1 .prd
  | .frcp _ x | .frsq _ x | .fsqrt _ x | .fex2 _ x | .flg2 _ x | .fsin _ x | .fcos _ x =>
    x.row (fnIn x.fn 0x43) .wr1 .rd1 .no .no
  | .fclass _ x => x.row (x.fn == 0) .wr1 .rd1 .no .no
  | .hadd2 _ x | .hmul2 _ x | .hmin2 _ x | .hmax2 _ x => x.row (fnIn x.fn 0x83) .wr1 .rd1 .rd1 .no
  | .hfma2 _ x => x.row (fnIn x.fn 0x87) .wr1 .rd1 .rd1 .rd1
  | .hcmp2 _ x => x.row (fcmpFn x.fn && !x.fn.getLsbD 6) .pwr .rd1 .rd1 .no
  | .cvtif _ x =>
    x.row (fnIn x.fn 15 && x.fn.extractLsb' 2 2 != 3) .wr1 (if x.fn.getLsbD 1 then .rd2 else .rd1) .no .no
  | .cvtfi _ x =>
    x.row (x.fn.extractLsb' 0 2 != 3 && !x.fn.getLsbD 7)
      (if x.fn.extractLsb' 2 3 == 2 || x.fn.extractLsb' 2 3 == 3 then .wr2 else .wr1) .rd1 .no .no
  | .cvtff _ x =>
    let src := x.fn.extractLsb' 0 2
    let idx := x.fn.extractLsb' 5 2
    x.row (!x.fn.getLsbD 7 && !x.fn.getLsbD 4 && (src == 3 || (src == 0 && idx == 0) || (src != 0 && idx ≤ 1)))
      .wr1 .rd1 .no .no
  | .cvtn _ x =>
    x.row (fnIn x.fn 3) .wr1 (.regsIn 8 8) (if x.fn.getLsbD 0 then .regs 8 8 else .no)
      (if x.fn.getLsbD 1 then .wr1 else .no)
  | .cvtw _ x =>
    x.row (x.fn.extractLsb' 0 3 ≤ 4 && x.fn.extractLsb' 5 3 == 0 && (!x.fn.getLsbD 3 || x.fn.extractLsb' 0 3 ≤ 1))
      (.regs (cvtwCount x.fn) (cvtwCount x.fn)) .rd1 (if x.fn.getLsbD 4 then .rd1 else .no) .no
  | .cvtra _ x =>
    x.row (fnIn x.fn 15 && x.fn.extractLsb' 0 2 != 3 && (!x.fn.getLsbD 3 || x.fn.extractLsb' 0 2 == 1))
      (if x.fn.extractLsb' 0 2 == 0 then .wr2 else .wr1) .rd2 (if x.fn.getLsbD 3 then .rd1 else .no)
      (if x.fn.getLsbD 2 then .pwr else .no)
  | .cvtar _ x => x.row (x.fn ≤ 2) .wr2 (if x.fn == 1 then .rd2 else .rd1) .no .no
  | .packH _ x | .unpkH _ x | .unpkB _ x | .unpkN _ x => x.row true .wr1 .rd1 .rd1 .no
  | .packBi _ x | .packN _ x => x.row true .wr1 .rd1 .rd1 .rd1
  | .setfmtR _ x => x.row .no .sclInline (match x.imm with
      | .short w => w == 0
      | .long _ => false)
  | .setfmt _ x | .setfmtSeed _ x => x.row .no .no (match x.imm with
      | .short w => w.extractLsb' 16 8 == 0
      | .long _ => false)
  | .setfmtLong _ x => x.row .no .no (match x.imm with
      | .short _ => false
      | .long w => w.extractLsb' 32 32 == 0)
  | .getfmt _ x => x.row (x.fn == 0) .wr1 .no .no .no
  | .bscale _ x => x.row (x.fn == 0) .wr1 (.regsIn 8 8) .no .no
  | .efclr _ x => x.row (fnIn x.fn 7) (if x.fn == 0 then .wr1 else .regs (x.fn.toNat + 1) 1) .no .no .no
  | .qswz _ x => x.row true .wr1 .rd1 .no .no
  | .qred _ x | .sred _ x => x.row (x.fn ≤ 10) .wr1 .rd1 .no .no
  | .scan _ x => x.row (fnIn x.fn 31 && x.fn.extractLsb' 0 4 ≤ 10) .wr1 .rd1 .no .no
  | .shfl _ x => x.row (fnIn x.fn 31 && x.fn.extractLsb' 2 3 ≤ 4) .wr1 .rd1 .rd1 .rd1
  | .voteAll _ x | .voteAny _ x | .voteUni _ x => x.row true .pwr .prd .no .no
  | .voteBal _ x => x.row true .wr2 .prd .no .no
  | .match32 _ x => x.row true .wr2 .rd1 .no .no
  | .match64 _ x => x.row true .wr2 .rd2 .no .no
  | .elect _ x | .electNh _ x => x.row true .pwr .no .no .no
  | .ld _ x | .ldu _ x => x.row (.regsOrSz (szSpan x.sz) (szSpan x.sz)) (x.ord != 2)
  | .st _ x | .stu _ x => x.row (.data (szSpan x.sz) (szSpan x.sz) (x.sz ≤ 3)) (x.ord != 1)
  | .ldc _ x => x.row (.regsOrSz (szSpan x.sz) (szSpan x.sz)) (x.ord == 0 && x.spc == 0)
  | .pref _ x => x.hintRow 1
  | .cctlWb _ x | .cctlInv _ x | .cctlDemote _ x | .cctlRenud _ x => x.hintRow 3
  | .atom _ x => x.row (atomFn x.fn false) true false
  | .acas _ x => x.row (fnIn x.fn 0x30) true true
  | .red _ x => x.row (atomFn x.fn false) false false
  | .atomu _ x => x.row (atomFn x.fn true) true (x.fn.extractLsb' 0 4 == 9)
  | .fence _ x => x.row (fnIn x.fn 3 && x.fn != 0) .no (.intLt 7) .no .no
  | .waitv _ x =>
    let n := 4 * ((x.fn.extractLsb' 0 2).toNat + 1)
    x.row (fnIn x.fn 15) .scl (.regsIn n 4) .pairIntSz .no
  | .pbari _ x | .pbarw _ x => x.row (x.fn == 0) .no (.intOrScl 32) .rd1 .no
  | .pbara _ x => x.row (x.fn == 0) .scl (.intOrScl 32) .rd1 .no
  | .yield _ x => x.row (x.fn == 0) .no (.intOrScl 64) .no .no
  | .stampCis _ x | .stampCie _ x => x.row true .sclPairSz (.intLt 4) .no .no
  | .bra h x => { fn := x.fn4 == 0 && (!(h.u || h.gp == 15) || x.tok == 0), ops := [], lim := true }
  | .brx _ x => x.row true .no .pair .no .no
  | .join _ x => { fn := x.fn4 == 0 && x.off == 0, ops := [], lim := true }
  | .joint _ _ => { fn := true, ops := [], lim := true }
  | .call h x =>
    { fn := !(h.u || h.gp == 15) || x.tok == 0, ops := [], lim := h.u || 2 * x.fn4.toNat + 2 ≤ budget }
  | .ret _ x => x.row true .no .anyPair .no .no
  | .exit _ x | .exitH _ x => x.row true .no .no .no .no
  | .bar _ x | .bara _ x | .barw _ x => x.row (x.fn == 0) .no (.intOrScl 16) .no .no
  | .trap _ x | .bkpt _ x | .bbc _ x => x.indexRow
  | .bclose _ x => x.row (x.fn == 0) .scl .no .no .no
  | .bwait _ x => x.row (x.fn == 0) .no (.intOrScl 64) .no .no
  | .enq _ x => x.row (fnIn x.fn 1) .wr1 .rd1 .rd1 .pwr
  | .pub _ x => x.row (x.fn == 0) .no .rd1 .rd1 .no
  | .deq _ x => x.row (fnIn x.fn 1) .wr2 .rd1 .no .pwr
  | .spawn _ x => x.row (x.fn == 0) .pwr .rd2 .no .no
  | .take _ x => x.row (x.fn == 0) .wr2 .no .no .pwr
  | .steal _ x => x.row (x.fn == 0) .wr2 .rd1 .pairIntSz .pwr
  | .launch _ x => x.row (fnIn x.fn 1) .pwr .pair .no .no
  | .mstart _ x => x.row (x.fn == 0) .scl .sclPair .no .no
  | .mstat _ x => x.row (x.fn == 0) .sclPair .no .no .no
  | .mres _ x | .mresSkip _ x => x.row true .scl .no .no .no
  | .ralloc _ x => x.row (x.fn == 0) .scl .rd1 .rd1 .pwr
  | .rload _ x => x.row (fnIn x.fn 1) .no .rd1 .sclPair .no
  | .rpin _ x | .runpin _ x | .rrevk _ x => x.row (x.fn == 0) .pwr .rd1 .no .no
  | .rqry _ x => x.row true .scl .rd1 .no .no
  | .rqryQ _ x => x.row true .scl .no .no .no
  | .mma x =>
    x.row true true true .sclPair .sclPair (fnIn x.fn 0x0D)
  | .mmag x => x.row true true true .sclPair .sclPair (fnIn x.fn 0x05)
  | .maccZero x => x.row true false false .no .no true
  | .maccLd x => x.row true false true .rd1 .sclPair true
  | .mout x => x.row true false true .rd1 .sclPair (fnIn x.fn 3)
  | .msig x => x.row false true true .no .no (x.fn == 0)
  | .mwait x => x.row false true false .no .no (x.fn == 0)
  | .mloopBegin x => x.row false false false .rd1 .no true
  | .mloopNext x => x.row false false false .no .no true
  | .mend x => x.row false false false .no .no (x.fn == 0)
  | .mtile x => x.row true false false .rd1 .no true
  | .mtileRing x => x.row false false false .sclPair .rd1 true
  | .rast _ x => x.row budget 0xD0 (x.fn == 0)
  | .trav _ x => x.row budget 0xD1 (fnIn x.fn 1)
  | .filt _ x => x.row budget 0xD2 (x.fn ≤ 1)
  | .blnd _ x => x.row budget 0xD3 (fnIn x.fn 1)
  | .dist _ x => x.row budget 0xD4 (fnIn x.fn 15 && x.fn.extractLsb' 0 2 != 3 && x.fn.extractLsb' 2 2 != 3)
  | .topk _ x => x.row budget 0xD5 (fnIn x.fn 1)
  | .seqx _ _ x => { fn := true, ops := [], lim := x.lim budget 1 1 0 1 0 1 }
  | .movs _ x => x.row (x.fn ≤ 0x0B || (0x10 ≤ x.fn && x.fn ≤ 0x12)) .wr1 .no .no .no
  | .mtsrHorizon _ x | .mtsrSl _ x | .mtsrGate _ x | .mtsrStallchk _ x | .mtsrStarve _ x | .mtsrWqbase _ x
  | .mtsrPdl _ x | .mtsrGlnPeriod _ x | .mtsrGlnCtxm _ x | .mtsrGlnRing _ x | .mtsrGlnStart _ x
  | .mtsrGlnStop _ x | .mtsrGlnTstc _ x | .mtsrBbcb _ x | .mtsrBbcn _ x => x.mtsrRow
  | .rft _ x | .rftSkip _ x => x.row true .no .no .no .no
  | .xrd _ x =>
    x.row (fnIn x.fn 1) (if x.fn == 1 then .wr2 else .wr1) .sel .no .no (selectorOk x.a (x.fn == 1))
  | .xwr _ x =>
    x.row (fnIn x.fn 1) .no .sel (if x.fn == 1 then .rd2 else .rd1) .no (selectorOk x.a (x.fn == 1))
  | .tlbiAll _ x => x.row true .no .no .no .no
  | .tlbiCtx _ x => x.row true .no .scl .no .no
  | .tlbiPage _ x => x.row true .no .scl .sclPair .no
  | .stopatHalt _ x | .stopatRun _ x | .stopatPre _ x => x.row true .no .sclPair .scl .no
  | .saveg _ x | .restg _ x => x.row (x.fn == 0) .scl .scl .sclPair .no
  | .mcld _ x => x.row (x.fn == 0) .scl (.intLt 8) .sclPair .no
  | .jointTimeout .. | .yieldEnd .. | .memoryAccessComplete .. | .waitvReevaluate .. | .waitvTimeout ..
  | .moutComplete .. | .residencyLoadEnd .. | .bandGate .. | .seqTake .. | .seqStep .. | .engineCopy ..
  | .engineGather .. | .engineCollective .. | .engineStorage .. | .engineCommandEnd .. | .nvmeCompletion ..
  | .nvmeTimeout .. | .memberAbsentTimeout .. | .queueStuck .. | .stealTimeout .. | .faultReplyRetry ..
  | .faultReplyFailUnresolved .. | .faultReplyFailProtection .. | .failedLanesPark .. | .fqHead ..
  | .winnowTick .. | .credibilityRecount .. | .reclaimWritebackDone .. | .rdDropRequest .. | .rdDropAck ..
  | .rdAckTimeout .. | .hostAccess .. | .doorbell .. | .fabricRequest .. | .fabricTimeout ..
  | .stackNotReadyTimeout .. | .sqStateWrite .. | .launchPacket .. | .phasePacket .. | .signalPacket ..
  | .waitPacket .. | .waitPacketReevaluate .. | .waitPacketTimeout .. | .copyPacket .. | .indirectPacket ..
  | .markerPacket .. | .coherenceClean .. | .dispatchPlace .. | .swapRestoreEntry .. | .groupEnd ..
  | .saveQuiesced .. | .saveWritten .. | .restoreDone .. | .dspreq .. | .preemptRequest ..
  | .preemptRelease .. | .forcedReset .. | .preemptComplete .. | .preemptDeadline .. | .cutEffect ..
  | .handlerBatchClose .. | .handlerSheafStart .. | .handlerRoomTimeout .. | .gleanerSample ..
  | .powerInterval .. | .powerCap .. | .thermalLimit .. | .thermalRecovery .. | .thermalShutdown ..
  | .moduleReset .. | .powerLoss .. | .readySet .. | .rcvLen .. | .errClear .. | .wqRegister ..
  | .wqUnregister .. | .tlbInv .. | .rqset .. | .watchArm .. | .measExt .. | .doeRequest .. | .doeRsplen ..
  | .trng .. | .signGo .. | .signDone .. | .idxResv .. | .idxCommitDone .. | .getVersion ..
  | .getCapabilities .. | .negotiateAlgorithms .. | .getDigests .. | .getCertificate .. | .challenge ..
  | .getMeasurements .. | .spdmUnknownRequest .. | .registerWrite .. | .stallCountExpiry ..
  | .variableLatencyResult .. | .mmaComplete .. | .maccComplete .. | .readyClear .. => { fn := true, ops := [], lim := true }
/-! ## The checks of R91 -/

/-- The header of a sheaf-stream instruction. -/
def Instr.hdr (i : Instr) : Option Hdr :=
  match i.payload with
  | some (.a h _) | some (.i h _) | some (.m h _) | some (.t h _) | some (.b h _) | some (.s h _) => some h
  | some (.x _) | none => none

/-- The U column of R90. -/
inductive UCol where
  | no | opt | req
  deriving DecidableEq, Repr

/-- The U column of a major opcode (R90). -/
def uCol (op : Nat) : UCol :=
  if op = 0x1C ∨ op = 0x49 ∨ op = 0x62 ∨ op = 0x63 ∨ op = 0x73 ∨ (0x81 ≤ op ∧ op ≤ 0x86) ∨ op = 0x9C ∨ op = 0xA0 ∨
    op = 0xA1 ∨ (0xA9 ≤ op ∧ op ≤ 0xB5) ∨ op = 0xE1 ∨ (0xE5 ≤ op ∧ op ≤ 0xE9) then .req
  else if op = 0x4B ∨ op = 0x4C ∨ (0x50 ≤ op ∧ op ≤ 0x61) ∨ (0x70 ≤ op ∧ op ≤ 0x72) ∨ op = 0x92 ∨ op = 0x93 ∨
    (0x95 ≤ op ∧ op ≤ 0x9B) ∨ (0xC0 ≤ op ∧ op ≤ 0xDF) ∨ (0xE2 ≤ op ∧ op ≤ 0xE4) then .no
  else .opt

/-- JOIN, JOINT, BAR, BARA and BARW, which cannot be guarded (R240). -/
def unguarded (op : Nat) : Bool := op == 0x92 || op == 0x93 || (0x97 ≤ op && op ≤ 0x99)

/-- Every field that the row does not use holds 0 (R83). -/
def Row.unusedZero (r : Row) : Bool := r.ops.all (fun e => e.2 != .no || e.1.code == 0)

/-- Why a term's word is an Illegal Instruction (R91, point 1), as far as the word alone tells. -/
def Instr.reject (i : Instr) : Option Reject :=
  let r := i.row 256
  if !r.fn then some .fn
  else if !r.unusedZero then some .reserved
  else match i.payload with
    | none => some .opcode
    | some (.x _) => none
    | some (.i h x) =>
      if x.imm.isLong && (0x9A ≤ i.op && i.op ≤ 0x9C) then some .longForm else headerReject i.op h
    | some (.a h _) | some (.m h _) | some (.t h _) | some (.b h _) | some (.s h _) => headerReject i.op h
where
  /-- The U column, the uniform guard codes and the unguarded instructions (R26, R90, R240). -/
  headerReject (op : Nat) (h : Hdr) : Option Reject :=
    if (uCol op = .no ∧ h.u) ∨ (uCol op = .req ∧ ¬ h.u) then some .uniform
    else if h.u && 7 ≤ h.gp && h.gp ≤ 14 then some .guard
    else if unguarded op && (h.gp != 15 || h.gn) then some .guard
    else none

/-- The instruction of a first word and the word after it, in a sheaf stream or in a matrix stream; or why the
words are an Illegal Instruction (R91, point 1). The microcode slot of SEQX is checked at issue. -/
def decode (stream : Bool) (w w1 : DWord) : Except Reject Instr :=
  let op := (w.extractLsb' 56 8).toNat
  match fmtOf op with
  | none => .error .opcode
  | some f =>
    if (f == .x) != stream then .error .stream
    else match unpack f w w1 with
      | .error r => .error r
      | .ok p =>
        match ofPayload op p with
        | none => .error .fn
        | some i =>
          match i.reject with
          | some r => .error r
          | none => .ok i

/-- Steward-only instructions (R90). -/
def stewardOnly (op : Nat) : Bool := op == 0xE1 || (0xE5 ≤ op && op ≤ 0xE9)

/-- Instructions of handler sheaves only (R90). -/
def handlerOnly (op : Nat) : Bool := 0xE2 ≤ op && op ≤ 0xE4

/-- Whether every operand is what its entry asks for (R91, point 3). -/
def Instr.operandsOk (i : Instr) (budget : Nat) (handler : Bool) : Bool :=
  let r := i.row budget
  let u := match i.hdr with
    | some h => h.u
    | none => true
  r.lim && r.ops.all (fun e => e.2.ok u budget handler e.1)

/-- Bytes that an instruction occupies (R79): 16 in the long form. -/
def Instr.size (i : Instr) : Nat :=
  match i.payload with
  | some (.i _ x) => if x.imm.isLong then 16 else 8
  | some (.m _ x) => match x.off with
    | .short _ => 8
    | .long _ => 16
  | some (.t ..) => 16
  | _ => 8

/-- The latency L of a fixed-latency instruction, by major opcode (R92); none for a variable-latency one. -/
def opLatency (op : Nat) : Option Nat :=
  if op = 0x03 ∨ op = 0x04 ∨ op = 0x05 ∨ op = 0x19 ∨ (0x20 ≤ op ∧ op ≤ 0x22) ∨ (0x30 ≤ op ∧ op ≤ 0x32) then some 6
  else if (0x40 ≤ op ∧ op ≤ 0x48) ∨ op = 0x4B then some 8
  else if op ≤ 0x16 ∨ op = 0x1A ∨ op = 0x1B ∨ op = 0x23 ∨ op = 0x24 ∨ op = 0x25 ∨ op = 0x2D ∨
    (0x33 ≤ op ∧ op ≤ 0x35) then some 4
  else none

/-- The latency L of an instruction: 2 less for a uniform one (R92). -/
def Instr.latency (i : Instr) : Option Nat :=
  match i.hdr with
  | some h => (opLatency i.op).map (fun l => if h.u then l - 2 else l)
  | none => none

/-- The instruction that the decoder reads from the bits of an instruction, its first word in the low 64 bits and
the bits above nbits zero. Opcodes 0xC0 to 0xC8 are words of a matrix stream. -/
def decodeTableWord (nbits w : Nat) : Option Instr :=
  let v := w % 2 ^ nbits
  let w0 : DWord := BitVec.ofNat 64 v
  let w1 : DWord := BitVec.ofNat 64 (v / 2 ^ 64)
  match decode (fmtOf (w0.extractLsb' 56 8).toNat == some .x) w0 w1 with
  | .ok i => some i
  | .error _ => none

end Sys2Proof
end

