-- ==== Sys2Proof/Config.lean ====
section
/-! DEFINITION. What the manual leaves to the implementation, and the free values: opaque constants
without a body, of which no proof can learn a value. -/

namespace Sys2Proof.Config

/-- A fresh free value for each count of `State.freeCtr` (log 10). -/
opaque freeValue : Nat → BitVec 64
/-- A fresh free byte: random bits of the TRNG (R421) and other bytes the manual leaves open (log 10). -/
opaque freeByte : Nat → BitVec 8
/-- Whether a die whose demand exceeds its share withholds a cycle: die and cycle (R18; log 117). -/
opaque withholds : Nat → Nat → Bool
/-- Whether the host completes an access of the aperture with an error: cycle and bus address (R400; log 143). -/
opaque hostErrs : Nat → Nat → Bool
/-- The fixed hash of PA[40:9] that selects one of a die's 32 L2 slices (R17, R114; log 11). -/
opaque l2Slice : Nat → Nat
/-- The fixed hash H of PA[40:9] of a fused L1 (R112; log 11). -/
opaque fuseHash : Nat → Nat
/-- Whether an image carries a valid XMSS signature under Koette's key in ROM (R413; log 12). -/
opaque signatureOk : List (BitVec 8) → Bool
/-- The signature the signing block makes over a context bit, a leaf index and 64 bytes (R423; log 12). -/
opaque xmssSign : Bool → Nat → List (BitVec 8) → Nat → BitVec 8
/-- The body of a save image, laid out in an order of the Z48's own (R376; log 13). -/
opaque saveBody : Nat → Nat → BitVec 8
/-- What a microcode image declares (R339): its window less 1 and the log of its alignment, its input span, its block size and
whether the block's first scalar is even, the defined FN values, and the reason codes and subcodes that it produces. -/
structure MicroDecl where
  window : Fin 32
  align : Fin 4
  input : Fin 9
  block : Fin 33
  even : Bool
  fns : List Nat
  codes : List Nat
  subs : List Nat
  deriving DecidableEq, Repr
/-- The declaration that a microcode image holds, or none when it is malformed (R339, R378; log 14). -/
opaque microDecl : List (BitVec 8) → Option MicroDecl
/-- A memory access of a thread in a microcode step: image, step count, thread and the values read so far in the step, to
whether it writes, whether it is to scratch, its size, its address and its data (R322, R339; log 14). -/
opaque microAccess : Nat → Nat → Nat → List Nat → Option (Bool × Bool × Fin 4 × BitVec 64 × BitVec 64)
/-- How many accesses a thread makes in a microcode step, at most (R339; log 14). -/
opaque microAccesses : Nat → Nat → Nat → Nat
/-- What a microcode step writes: image, step count, register, thread and the values read, to a window word (R339; log 14). -/
opaque microWord : Nat → Nat → Nat → Nat → List Nat → BitVec 32
/-- What a window begins afresh with: image, take count, register and thread, to a window word (R319, R339; log 14). -/
opaque microFresh : Nat → Nat → Nat → Nat → BitVec 32
/-- The reason code with which a microcode step ends by a condition of its own: FULL or a code of 5 or more (R318, R319, R339;
log 14). -/
opaque microEnd : Nat → Nat → Option Nat
/-- The subcode of an end, by image, step count and code (R318, R339; log 14). -/
opaque microSub : Nat → Nat → Nat → Nat
/-- The code length of a microcode image (R378; log 14). -/
opaque microCodeLen : List (BitVec 8) → Nat
/-- How many bytes the body of a save image takes: with its header no more than 4 MiB (R376; log 13). -/
opaque saveLen : Nat → Fin 4194241
/-- The 512-byte line of local HBM at which the ROM puts the body of the flash image and Tuizel starts (R415; log 15): a
body of less than 4 GiB from there lies in HBM. -/
opaque tuizelPlace : Fin 1602224128
/-- The device number given by the signed configuration record at boot, below 6,144 (R411; log 15). -/
opaque bootDevnum : Fin 6144
/-- The minimum security version of the configuration record (R413; log 15). -/
opaque minVersion : Nat
/-- The bytes of the Tuizel image in flash (R415; log 15). -/
opaque flashImage : List (BitVec 8)
/-- The bytes of the signed configuration record in flash (R415; log 15). -/
opaque configRecord : List (BitVec 8)
/-- The certificate chain in flash (R417; log 15). -/
opaque certChain : List (BitVec 8)
/-- NEXTIDX as flash held it before the first boot, at most 2^20 (R417; log 15). -/
opaque flashNextIdx : Nat

end Sys2Proof.Config
end

