-- ==== Sys2Proof/Machine/State.lean ====
section
/-! DEFINITION. The state of one Z48 module as plain data: the sheaves with their tillers, registers and
records; groups, streams, cores, dies, caches, contexts, queues, engines and the register space. -/

namespace Sys2Proof.Machine

/-! ## Tillers and sheaves -/

/-- A launch record (R267). -/
structure LaunchRec where
  code : DWord
  arg : DWord
  gx : Word
  gy : BitVec 16
  gz : BitVec 16
  sheaves : Byte
  pw : Byte
  ph : Byte
  flags : Byte
  scratch : Word
  regs0 : Byte
  regs1 : Byte
  n0 : Byte
  prio : Byte
  phase : Word
  counter : DWord
  fmt : Word
  /-- Bytes 52 to 63 are all zero. -/
  tailZero : Bool
  deriving DecidableEq, Repr

/-- A memory condition, batch, barrier or STC condition of WAITV, as its four scalars stood at issue
(R231). -/
structure Cond where
  ctl : Word
  w1 : Word
  w2 : Word
  w3 : Word
  deriving DecidableEq, Repr

/-- What leaves an access unanswered (R363, R411, R419). -/
inductive Unanswered where
  | stack (n : Nat)
  | fabric
  /-- A device that holds a .RUN cut back, for which the fabric back-pressures the accesses of the cut's contexts (R363). -/
  | peer (dev : Nat)
  deriving DecidableEq, Repr

/-- A WAITV in progress (R232, R233): the instruction, its conditions, what has latched, its deadline, whether its
group was saved and restored meanwhile, and an unanswered fault record of one of its reads (R428). -/
structure WaitSt where
  h : Hdr
  x : FA
  conds : List Cond
  latched : BitVec 4
  dlv : Nat
  noLimit : Bool
  sw : Bool
  tag : Option Nat
  /-- What its reads wait for (R411, R419). -/
  ons : List Unanswered
  deriving DecidableEq, Repr

/-- Why a tiller is in EVENT-WAIT (R43). -/
inductive Wait where
  /-- WAITV (R232). -/
  | waitv (w : WaitSt)
  /-- PBARW on barrier b until its phase differs from ph (R229). -/
  | pbarw (b : Nat) (ph : Bool)
  /-- BWAIT n, with the instruction (R258). -/
  | bwait (h : Hdr) (x : FA) (n : BitVec 16)
  /-- LAUNCH.WAIT in a lane: its fields, the record it read, and the order in which it began waiting (R268, R273). -/
  | launch (h : Hdr) (x : FA) (lane : Option Nat) (r : LaunchRec) (order : Nat)
  /-- Queued for, or running on, the core's sequencer (R319). -/
  | seq
  /-- A posted steal request (R264). -/
  | steal
  /-- ENQ, PUB, DEQ, SPAWN, TAKE, EQGO or MSTART: the unit performs the instruction for the lanes in `todo` when it can, in
  order of arrival (R253, R261, R270). -/
  | retry
  /-- A fetch whose fault record is unanswered (R127). -/
  | fetch (tag : Nat)
  /-- A read of LAUNCH or MSTART whose fault record is unanswered (R428). -/
  | read (tag : Nat)
  deriving DecidableEq, Repr

/-- Why a tiller is BLOCKED (R43). -/
inductive Block where
  /-- A stall count: until the cycle given (R92). -/
  | stall (untilCycle : Nat)
  /-- YIELD: until the cycle given (R235). -/
  | yield (untilCycle : Nat)
  /-- The next instruction is held by the scoreboard, by the operand log, or by a write or a sequenced instruction that it
  must follow (R92, R124, R144, R319). -/
  | hazard
  /-- The next instruction needs the quarter's datapath, which is busy (R15, R43, R44). -/
  | busy
  /-- The next instruction is not fetched: its stack or the fabric is not ready (R127, R419). -/
  | fetch
  /-- The instruction has issued, and an access of it waits for a stack or the fabric (R419), a BARA met twice for its
  generation (R248), or a fifth cut for room (R379): its unit performs it when it can. -/
  | room
  deriving DecidableEq, Repr

/-- The states of a live tiller (R43); FREE is the absence of an entry. -/
inductive TSt where
  | ready
  | blocked (b : Block)
  /-- Waiting at token tok; a JOINT carries its predicate field (15 is pt), a JOIN none (R36, R37). -/
  | joinWait (tok : BitVec 8) (pred : Option Nat)
  | barWait (b : Nat)
  | eventWait (w : Wait)
  | parked
  deriving DecidableEq, Repr

/-- A register cell that an instruction writes or reads: vector register and thread, scalar, predicate
and thread, uniform predicate. -/
inductive Key where
  | v (r t : Nat)
  | s (r : Nat)
  | p (r t : Nat)
  | q (r : Nat)
  deriving DecidableEq, Repr

/-- One register write: the cell and its new value (a predicate is 0 or 1). -/
structure RegWrite where
  key : Key
  val : Word
  deriving DecidableEq, Repr

/-- A pending producer record (R93): the registers a fixed-latency instruction names as destinations and the cells it wrote,
with the values they held before, its latency L, the ST fields counted so far, and its issue cycle. -/
structure Prod where
  regs : List Key
  old : List RegWrite
  lat : Nat
  stSum : Nat
  issued : Nat
  deriving DecidableEq, Repr

/-- What a unit keeps of an instruction that has issued and that it could not perform at once: the order of its arrival, and
the sheaf's scalars and uniform predicates as read at its issue (R261, R270). -/
structure Queued where
  order : Nat
  /-- The cycle of its issue. -/
  cycle : Nat
  scalars : Cells 32
  upreds : BitVec 7
  /-- Queues, by die and index, that have been unregistered since (R412). -/
  gone : List (Nat × Nat)
  deriving DecidableEq, Repr

/-- An entry of a sheaf's split table (R33). -/
structure Tiller where
  idx : Nat
  pc : DWord
  mask : Mask
  fmt : Word
  stack : List (BitVec 8)
  st : TSt
  age : Nat
  yielded : Bool
  prods : List Prod
  /-- Lanes of the instruction at `pc` that have still to act; none when it has not begun. -/
  todo : Option Mask
  /-- The fetch probe of R39 has been made since the tiller's mask became empty. -/
  probed : Bool
  /-- The cycle before which the ST field of its last instruction keeps it from issuing, whatever it waits for meanwhile
  (R92). -/
  stallEnd : Nat
  /-- The cycle of its arrival in BAR-WAIT, the order of arrivals (R27, R49). -/
  since : Nat
  /-- Its issued instruction waits for its unit. -/
  queued : Option Queued
  deriving DecidableEq, Repr

/-- A valid join record (R35); the record of a token is valid when it is listed. FIRST is meaningful while ARR is not
empty; `last` is the address after the JOIN or JOINT of the last arrival (R36). -/
structure JoinRec where
  tok : BitVec 8
  exp : Mask
  arr : Mask
  dl : Option Nat
  first : Nat
  last : DWord
  deriving DecidableEq, Repr

/-- An outstanding variable-latency result (R92): the cells it writes and whether memory returns it. -/
structure Board where
  mem : Bool
  writes : List RegWrite
  deriving DecidableEq, Repr

/-- An operand-log entry (R124): the faulted lanes, the instruction, where it stands, and its sources in
each lane as read at issue (a key 4·t + k holds source k of lane t). -/
structure LogEntry where
  id : Nat
  ti : Nat
  instr : Instr
  pc : DWord
  mask : Mask
  src : Cells 64
  /-- The outstanding fault records: tag, lanes. -/
  tags : List (Nat × Mask)
  /-- Lanes whose verdict was fail, with the cause, not yet parked (R126). -/
  failed : List (Nat × BitVec 8)
  deriving DecidableEq, Repr

/-- What a parked lane waited for when it was parked (R50). -/
inductive Back where
  | none
  | join (tok : BitVec 8) (pred : Option Nat)
  | bar (b : Nat) (gen : Nat)
  deriving DecidableEq, Repr

/-- A lane parked by a trap (R364, R369). -/
structure Parked where
  lane : Nat
  ti : Nat
  cause : BitVec 8
  payload : BitVec 24
  pc : DWord
  resume : DWord
  /-- Where the lane goes when resumed with skip. -/
  skipTo : DWord
  fmt : Word
  stack : List (BitVec 8)
  log : Option Nat
  back : Back
  /-- Its tiller's arrival in BAR-WAIT (R49). -/
  since : Nat
  deriving DecidableEq, Repr

/-- The state of a closed batch that is not COMPLETE (R257). -/
inductive BatchSt where
  | running | failed
  deriving DecidableEq, Repr

/-- A closed batch (R257); one that is COMPLETE is no longer listed. -/
structure Batch where
  num : BitVec 16
  st : BatchSt
  deriving DecidableEq, Repr

/-- The exact t = num / den of the hit, or of the candidate that awaits the program, of a thread's ray in a window, with the
words that TRAV wrote for it (R328; log 51). -/
structure Hit where
  thr : Nat
  /-- First register of the window. -/
  win : Nat
  cand : Bool
  word : Word
  prim : Word
  num : Int
  den : Nat
  deriving DecidableEq, Repr

/-- A sheaf (R22): registers, split table, join records, engine window, batches. -/
structure Sheaf where
  idx : Nat
  /-- Sheaf slot on its quarter, 0 to 15. -/
  slot : Nat
  quarter : Nat
  /-- Vector registers it may name (R29). -/
  budget : Nat
  /-- Key 64·r + t holds register r of thread t. -/
  vregs : Cells 32
  /-- Key r holds predicate p_r of every thread, one bit each. -/
  preds : Cells 64
  scalars : Cells 32
  upreds : BitVec 7
  exited : Mask
  helpers : Mask
  tillers : List Tiller
  joins : List JoinRec
  board : List Board
  oplog : List LogEntry
  parked : List Parked
  eqa : DWord
  eqb : DWord
  eqc : DWord
  eqd : DWord
  lastb : BitVec 16
  batches : List Batch
  hits : List Hit
  /-- Its final batch has been closed (R246). -/
  ended : Bool
  deriving DecidableEq, Repr

/-! ## Matrix streams -/

/-- A tile stamp record that is open (R309, R310); an absent time is an event that did not occur. -/
structure OpenRec where
  tile : Nat
  tag : Word
  opened : Nat
  cis : Option Nat
  cie : Option Nat
  waitStart : Option Nat
  waitEnd : Option Nat
  compStart : Option Nat
  compEnd : Option Nat
  outStart : Option Nat
  whyStale : Bool
  whyAbsent : Bool
  autoReload : Bool
  saved : Bool
  /-- First attempt of the MMA or MMAG that the stream is now trying to issue (R312). -/
  trying : Option Nat
  /-- Its first MMA or MMAG has entered its rows, or has been skipped (R310, R312). -/
  firstDone : Bool
  count : Nat
  rows : Nat
  totalWait : Nat
  deriving DecidableEq, Repr

/-- A ring for tile stamp records (R309): base VA, log of the size, write position, sequence number. -/
structure StampRing where
  va : DWord
  k : Nat
  pos : Nat
  seq : Nat
  deriving DecidableEq, Repr

/-- STATE of a stream (R270, R271). -/
inductive StreamSt where
  | idle | running | halted | ended
  deriving DecidableEq, Repr

/-- An MMA, MMAG, MACC or MOUT that has issued and not completed (R279). -/
inductive InFlight where
  /-- An MMA or MMAG: its number in order of issue, tile name, slot, the cycle in which its first row enters the array and that
  by which its last has, and the L2 lines it has pinned, by die and line (R134). -/
  | mma (n acc slot entry ready : Nat) (pinned : List (Nat × Nat))
  /-- A MACC on a tile name, and whether it is .LD. -/
  | macc (acc : Nat) (ld : Bool)
  /-- A MOUT of a tile name: the containers to write by scratch offset of their row, and whether it closes the tile's
  record. -/
  | mout (acc : Nat) (rows : List (Nat × List DWord)) (closes : Bool)
  /-- A closed tile stamp record still to be written, with the closing MOUT's completion and the tile's flag (R309). -/
  | stamp (r : OpenRec) (outEnd : Nat) (flag : Bool)
  deriving DecidableEq, Repr

/-- A group's matrix stream and its stream context (R277). -/
structure Stream where
  st : StreamSt
  /-- The sheaf whose MSTART started it (R280). -/
  sh : Nat
  start : DWord
  pc : DWord
  scalars : Cells 32
  /-- Key r holds the ring cursor of the pair s_r:s_(r+1) (R285). -/
  cursors : Cells 16
  /-- Loop stack: remaining count and address after the BEGIN (R295). -/
  loops : List (Word × DWord)
  parity : BitVec 32
  /-- Binding of acc0 to acc3 to physical tiles (R281). -/
  bind : List (Nat × Nat)
  recs : List OpenRec
  ring : Option StampRing
  why : BitVec 4
  cause : BitVec 8
  flight : List InFlight
  /-- A fault record that the stream waits on (R280). -/
  faultTag : Option Nat
  /-- A fault record that the write of a closed tile stamp record waits on (R309). -/
  stampTag : Option Nat
  /-- The MWAIT it waits in: barrier, parity bit, and whether the phase has completed since (R228, R293). -/
  mwait : Option (Nat × Bool × Bool)
  /-- The MMA or MMAG that has passed its residency check and waits for its A rows (R298): its number in order of issue, its
  slot, and the L2 lines that its rows have pinned so far (R134). -/
  checked : Option (Nat × Nat × List (Nat × Nat))
  /-- Arrivals at barrier 31 that its halts still owe: they come after the writes before them (R294). -/
  owes : Nat
  deriving DecidableEq, Repr

/-! ## Groups -/

/-- Which context class runs a group: a tenant's, Tuizel's (R10, R414), or a handler sheaf (R365). -/
inductive GKind where
  | user | steward | handler
  deriving DecidableEq, Repr

/-- The states of a resident group (R356). -/
inductive GSt where
  | reclaim | resident | quiesce | checkpoint | writing
  /-- Ended or saved, and kept only for the window of its panicle (R108). -/
  | done
  deriving DecidableEq, Repr

/-- Why a save was asked for: by the dispatcher (R377) or by SAVEG alone. -/
structure SaveReq where
  /-- Destination register of SAVEG: group, sheaf and scalar (R376). -/
  gid : Nat
  sh : Nat
  dst : Opd
  area : DWord
  /-- The number of the image whose bytes have been written into the area, or are held there. -/
  image : Option Nat
  deriving DecidableEq, Repr

/-- A barrier of BAR (R248): number, generation, and the arrived lanes of each sheaf. -/
structure Bar where
  num : Nat
  gen : Nat
  arrived : List (Nat × Mask)
  deriving DecidableEq, Repr

/-- A posted steal request in a victim's mailbox (R264): the thief and its deadline. -/
structure StealReq where
  gid : Nat
  sh : Nat
  ti : Nat
  lane : Nat
  uni : Bool
  dst : Opd
  pred : Opd
  dl : Nat
  deriving DecidableEq, Repr

/-- An entry of a handler batch (R364 to R366): the origin, its tag and cause word. -/
structure Entry where
  gid : Nat
  sh : Nat
  lane : Nat
  empty : Bool
  origin : DWord
  cause : Word
  pc : DWord
  resume : DWord
  /-- Where RFT with skip goes: +8 or +16 of the trapping instruction (R373). -/
  skipTo : DWord
  resumed : Bool
  /-- The cycle in which it arrived (R364). -/
  cycle : Nat
  deriving DecidableEq, Repr

/-- A resident group (R22), or a handler sheaf as a group of one sheaf (R365). -/
structure Group where
  gid : Nat
  kind : GKind
  ctx : Nat
  /-- Global core number 72·die + core. -/
  core : Nat
  /-- Slot number on the core, 0 to 63 (R377). -/
  slot : Nat
  grid : Nat
  /-- Linear number g (R267). -/
  linear : Nat
  /-- Panicle number in the grid, and the group's place in it. -/
  pan : Nat
  pslot : Nat
  launch : LaunchRec
  st : GSt
  sheaves : List Sheaf
  scratch : Cells 8
  /-- Key b holds the 64-bit word of phase barrier b (R227). -/
  pbars : Cells 64
  bars : List Bar
  /-- Task words, bottom (oldest) first (R263). -/
  deque : List DWord
  mailbox : List StealReq
  grc : Word
  rate : Nat
  rateMark : Nat
  granules : List Nat
  stream : Stream
  entries : List Entry
  save : Option SaveReq
  /-- Kind and tag of a save that its dispatcher has asked the steward for (R377). -/
  asked : Option (Nat × Nat)
  /-- CIS and CIE values held for a tile's next record: tile, kind (true is CIE), STC (R236, R311). -/
  stamps : List (Nat × Bool × Nat)
  /-- The tick since which this group is waiting under .SWAP (R355). -/
  swapSince : Option Nat
  deriving DecidableEq, Repr

/-- A physical accumulator tile (R281, R73): its owner stream's group, elements keyed 128·row + column. -/
structure Tile where
  owner : Option Nat
  acc : Cells 40
  bound : Nat
  flag : Bool
  deriving DecidableEq, Repr

/-- A save image the device has written (R357, R376): its groups with the tiles bound to their streams, and the save's
header and SEQX record. -/
structure Image where
  id : Nat
  groups : List Group
  /-- Group, tile name and tile (R299). -/
  tiles : List (Nat × Nat × Tile)
  die : Nat
  /-- Kind and tag of the dispatcher's request, for a save that it asked for (R377). -/
  tag : Option (Nat × Nat)
  area : DWord
  /-- Digests of the eight SEQX slots of the saving die, or none (R359). -/
  seqx : List (Option (List Byte))
  /-- The context was reset since the save (R376). -/
  dead : Bool
  /-- Entered for restore by the dispatcher, and the tick of that (R274, R355); the steward has been asked. -/
  wanted : Option Nat
  asked : Bool
  deriving DecidableEq, Repr

/-! ## Cores -/

/-- Kind of a cached line (R129). -/
inductive LineKind where
  | stream | hinted | dflt | retain
  deriving DecidableEq, Repr

/-- Status of a cached line (R131). -/
inductive LineSt where
  | ahead | grace | overdue
  deriving DecidableEq, Repr

/-- What winnowing keeps of a cached line (R131): its way, line number PA / 512, kind, deadline, status and context,
whether the deadline has been counted or is not of a hinted line, the access that set it (R136; log 129), and PART of the page
that its fill's access named (R120). -/
structure LMeta where
  way : Nat
  line : Nat
  kind : LineKind
  dl : BitVec 12
  st : LineSt
  ctx : Nat
  counted : Bool
  /-- The instruction or command whose access last set the fields, by its numbers. -/
  by_ : List Nat
  part : Nat
  deriving DecidableEq, Repr

/-- A line of an L1 (R113): valid and dirty sectors, the bytes of its valid sectors keyed by PA, and the PAs of the
bytes written, so that a write-back loses no byte that another core wrote in the same sector (log 31). -/
structure Line where
  tag : LMeta
  valid : BitVec 4
  dirty : BitVec 4
  data : Cells 8
  wrote : List Nat
  deriving DecidableEq, Repr

/-- A line held by an L2 slice: its winnowing fields, valid and dirty sectors (R113) and pins (R134). Its bytes are the home's
own, which the model keeps in one place for L2 and HBM (R17; log 130). -/
structure L2Line where
  die : Nat
  slice : Nat
  tag : LMeta
  valid : BitVec 4
  dirty : BitVec 4
  pins : Nat
  deriving DecidableEq, Repr

/-- Credibility and counts of one context in one cache (R133): an L1, by its core, or an L2 slice, by 32·die +
slice. -/
structure Cred where
  cache : Nat
  ctx : Nat
  c : BitVec 3
  kept : Nat
  expired : Nat
  fills : Nat
  deriving DecidableEq, Repr

/-- A cached translation: context, level (1 to 3), VA above the page, leaf entry, entry address, and whether
D is set in it (R119, R122). -/
structure TlbEntry where
  ctx : Nat
  lvl : Nat
  vpn : Nat
  leaf : DWord
  pte : Nat
  dirty : Bool
  deriving DecidableEq, Repr

/-- State of a live residency (R301). -/
inductive ResSt where
  | stale | loading | ready
  deriving DecidableEq, Repr

/-- A live residency (R300, R301). -/
structure Res where
  first : Nat
  cnt : Nat
  ctx : Nat
  gen : BitVec 16
  st : ResSt
  pin : Bool
  auto : Bool
  src : Option DWord
  /-- A source line was written during LOADING (R155). -/
  marked : Bool
  /-- Home lines it is registered on, as PA / 512. -/
  lines : List Nat
  deriving DecidableEq, Repr

/-- A residency load: a sheaf's command (R305) or an AUTO reload (R307). -/
structure Load where
  id : Nat
  gid : Nat
  sh : Nat
  handle : Word
  va : DWord
  /-- Its engine command, absent for an AUTO reload. -/
  cmd : Option Nat
  /-- Its source lines are registered (R155). -/
  reg : Bool
  /-- Unanswered fault record, and the cause by which the load has failed. -/
  tag : Option Nat
  failed : Option (BitVec 8)
  deriving DecidableEq, Repr

/-- A sequenced instruction queued for or on the sequencer (R319, R320). -/
structure SeqRun where
  gid : Nat
  sh : Nat
  ti : Nat
  instr : Instr
  mask : Mask
  queuedAt : Nat
  /-- The scalars of the block as read at issue (R316). -/
  block : List Word
  /-- The input span of each thread as read at issue: key 8·t + k (R316). -/
  input : Cells 32
  /-- Steps performed at this issue. -/
  steps : Nat
  /-- Unanswered fault record of the step. -/
  tag : Option Nat
  /-- Pages, as VA / 65,536, whose verdict was fail, with the cause (R323). -/
  fails : List (Nat × BitVec 8)
  /-- SEQX: the microcode present when the sequencer took it (R339). -/
  micro : List Byte
  deriving DecidableEq, Repr

/-- An entry of the block-counter cache (R392), most recently used first. -/
structure BbcEntry where
  ctx : Nat
  n : Nat
  delta : Word
  deriving DecidableEq, Repr

/-- A write-back of a counter that has left its entry and waits to be performed at its home (R392, R419). -/
structure BbcOut where
  id : Nat
  ctx : Nat
  n : Nat
  va : DWord
  delta : Word
  deriving DecidableEq, Repr

/-- A handler batch being gathered (R364), or closed and waiting for room (R365). -/
structure HBatch where
  ctx : Nat
  entries : List Entry
  opened : Nat
  closed : Option Nat
  deriving DecidableEq, Repr

/-- A tiller as a sample cycle finds it (R387, R389): its next PC, its lanes, and its reason if it does not issue. -/
structure GlnTiller where
  idx : Nat
  pc : DWord
  lanes : Nat
  parked : Bool
  reason : Nat
  deriving DecidableEq, Repr

/-- The sheaf that the gleaner has chosen for a sample cycle, as it stands at the cycle's start (R386, R387, R389). -/
structure GlnSheaf where
  /-- 16 × quarter + sheaf slot. -/
  slot : Nat
  gid : Nat
  sh : Nat
  ctx : Nat
  handler : Bool
  linear : Nat
  withheld : Bool
  tillers : List GlnTiller
  /-- The tiller that it reports if none of the sheaf issues. -/
  next : Nat
  deriving DecidableEq, Repr

/-- One core: its L1, TLB, matrix array, residency store, sequencer, trap unit, gleaner and core-scope
system registers. -/
structure CoreSt where
  id : Nat
  horizon : Word
  sl : Word
  gate : Word
  /-- The cycle from which each quarter's datapath is free (R15). -/
  dpFree : List Nat
  /-- The cycle from which each quarter's scalar unit is free (R44, R184). -/
  suFree : List Nat
  lines : List Line
  /-- Granules being reclaimed for a group (R109). -/
  reclaiming : List Nat
  tlb : List TlbEntry
  tiles : List Tile
  /-- Key 16,384·slot + b holds byte b of a slot (R305). -/
  rstore : Cells 8
  gens : Cells 16
  ress : List Res
  loads : List Load
  gated : BitVec 4
  /-- Cycle in which each band last took a row (R308). -/
  bandUse : List Nat
  seqRun : Option SeqRun
  seqQ : List SeqRun
  bbc : List BbcEntry
  bbcOut : List BbcOut
  batches : List HBatch
  glnPeriod : Word
  glnCtxm : Word
  glnRing : DWord
  glnStart : Word
  glnStop : Word
  glnTstc : DWord
  glnC0 : Nat
  glnLast : Nat
  glnDropped : Nat
  glnDrop : Word
  glnWidx : Word
  /-- The trigger window stands open into cycle glnAt (R391). -/
  glnOpen : Bool
  glnAt : Nat
  /-- A record of the window now open has been written, or the window is open since reset and no event opened it (R389). -/
  glnFirst : Bool
  /-- Traps (true) and BBCs from cycle glnAt on: cause or index, and cycle (R391). -/
  glnEvents : List (Bool × Nat × Nat)
  /-- The sample cycle that has begun, and the sheaf chosen for it (R386). -/
  glnPre : Option (Nat × Option GlnSheaf)
  /-- The fused L1 it belongs to: top-left core, w, h (R112). -/
  fused : Option (Nat × Nat × Nat)
  deriving DecidableEq, Repr

/-! ## Dies, engines, queues -/

/-- A device work queue that its die's unit holds (R259). -/
structure WorkQ where
  q : Nat
  ring : DWord
  logcap : Nat
  ctx : Nat
  rsv : Word
  pubp : Word
  head : Word
  thresh : Word
  stuckSeq : Word
  stuck : Bool
  /-- Sequence numbers published out of turn. -/
  early : List Word
  /-- Reserved numbers with the tick of their reservation. -/
  resAt : List (Word × Nat)
  notified : Option Word
  /-- A DEQ's unanswered fault record (R261). -/
  tag : Option Nat
  /-- The thread whose DEQ reads its slot, while that read waits: group, sheaf, tiller and lane (R261). -/
  reader : Option (Nat × Nat × Nat × Option Nat)
  deriving DecidableEq, Repr

/-- A dispatcher request for its steward (R377). -/
structure DspReq where
  kind : Nat
  tag : Nat
  locator : Nat
  deriving DecidableEq, Repr

/-- A grid: a launch whose groups are not all ended (R246, R350, R351). -/
structure Grid where
  id : Nat
  ctx : Nat
  launch : LaunchRec
  /-- The next unit to place: a panicle, or a group without a shape, in ascending order. -/
  next : Nat
  /-- Groups that have ended. -/
  ended : Nat
  /-- The core that the last of them ended on: the addition to the completion counter is still to be performed (R246). -/
  done : Option Nat
  base : Nat
  readySince : Nat
  lastPlace : Nat
  /-- Submission queue and packet index, for a host launch. -/
  queue : Option (Nat × Nat)
  /-- The die that its next unit has been handed to; for a device launch the parent's (R350). -/
  die : Option Nat
  deriving DecidableEq, Repr

/-- An entry of a group's pending-launch queue (R269): its group and the launch, no group of which has been placed. -/
structure PendLaunch where
  gid : Nat
  grid : Nat
  deriving DecidableEq, Repr

/-- One die: its system registers, SEQX images, TLB, work queues. -/
structure DieSt where
  id : Nat
  stallchk : Word
  wqbase : DWord
  bbcb : Cells 64
  bbcn : Cells 32
  /-- SEQX slots that hold microcode: slot and image (R378). -/
  seqx : List (Nat × List Byte)
  tlb : List TlbEntry
  wqs : List WorkQ
  dspreq : List DspReq
  /-- The die's share of the power cap, watts, and what it is without a lowering for heat; its demand in the interval (R19,
  R420). -/
  share : Nat
  full : Nat
  demand : Nat
  /-- It is throttled for heat (R420). -/
  hot : Bool
  /-- Its demand exceeds its share: cycles may be withheld (R18). -/
  scant : Bool
  deriving DecidableEq, Repr

/-- An engine command (R253, R254), of a sheaf or of a COPY packet. -/
structure Cmd where
  id : Nat
  /-- Group and sheaf, or none for the front end's. -/
  owner : Option (Nat × Nat)
  core : Nat
  ctx : Nat
  /-- 0 copy, 1 gather, 2 collective, 3 storage, 4 residency load. -/
  eng : Nat
  a : DWord
  b : DWord
  c : DWord
  d : DWord
  /-- Batch it was closed into; none while accepted since the last BCLOSE. -/
  batch : Option (BitVec 16)
  /-- Every destination line has been written (R153, R154). -/
  moved : Bool
  /-- A collective: every member on this device has accepted its command (R410). -/
  met : Bool
  tag : Option Nat
  failed : Bool
  /-- It has ended; it stays listed until its batch is closed (R251, R257). -/
  ended : Bool
  startedAt : Nat
  /-- Submission queue of a COPY packet. -/
  queue : Option Nat
  /-- A storage command has been posted to its drive, under a CID, and the data the drive has returned (R408). -/
  posted : Bool
  cid : Nat
  data : Option (List Byte)
  deriving DecidableEq, Repr

/-- Who waits for the verdict on a fault record (R123 to R128, R261, R280, R323, R428); a read's or a queue's waiter is a
thread, or the scalar unit. -/
inductive FWho where
  | log (gid sh log : Nat)
  | fetch (gid sh ti : Nat)
  | read (gid sh ti : Nat) (lane : Option Nat)
  | seq (core : Nat)
  | stream (gid : Nat)
  | cmd (id : Nat)
  | load (core id : Nat)
  | queue (die q gid sh ti : Nat) (lane : Option Nat)
  deriving DecidableEq, Repr

/-- A fault record of the driver's queue that has no verdict yet (R123). -/
structure FaultRec where
  tag : Nat
  who : FWho
  va : DWord
  ctx : Nat
  core : Nat
  qs : Nat
  kind : Nat
  reason : Nat
  stc : DWord
  /-- It has been written to the ring; otherwise it waits for space. -/
  written : Bool
  deriving DecidableEq, Repr

/-- An agent of this device that waits for memory or has written it: a lane of a sheaf or its scalar unit (lane none, which
acts for every thread: R204), an engine command, a residency load, a stream, the completion of a grid, or another. -/
inductive Agent where
  | thread (gid sh : Nat) (lane : Option Nat)
  | cmd (id : Nat)
  | load (core id : Nat)
  | stream (gid : Nat)
  | grid (id : Nat)
  /-- The save of a unit, by its first group (R356). -/
  | save (gid : Nat)
  /-- The front end, for a submission queue (R348). -/
  | sq (q : Nat)
  /-- A write-back of a core's counter cache (R392). -/
  | count (core id : Nat)
  /-- A sequenced instruction's access to a page, VA / 65,536. -/
  | seq (core page : Nat)
  /-- The host, for one of its accesses that waits. -/
  | host (id : Nat)
  | other
  deriving DecidableEq, Repr

/-- A write held at the home of a read-duplicated page (R157): its device, PA and bytes, and the agent of this device that
made it. One of no bytes keeps the place of an atomic, which its thread performs in its turn (R158). -/
structure HeldWrite where
  dev : Nat
  pa : Nat
  bytes : List Byte
  who : Agent
  deriving DecidableEq, Repr

/-- A read-duplicated page (R157 to R159, R164): page PA / 65,536 with its device bits. -/
structure RdPage where
  page : Nat
  home : Nat
  holders : List Nat
  /-- Holders whose acknowledgement is outstanding, for the write held. -/
  due : List Nat
  /-- The writes held at the home, oldest first, with the tick of the drop request. -/
  held : List HeldWrite
  since : Nat
  /-- Devices removed for not acknowledging, whose reads fail (R159). -/
  removed : List Nat
  /-- Owner, once a write has been performed. -/
  owner : Option Nat
  /-- The page's contents at this device's replica, when it still reads it. -/
  replica : Option (Cells 8)
  deriving DecidableEq, Repr

/-- A fabric or not-ready access that awaits its answer (R411, R419): of a tiller's lane, its scalar unit or its fetch, or of
another agent. -/
structure Pend where
  id : Nat
  who : Agent
  /-- The tiller of a thread's access. -/
  ti : Nat
  /-- It is the fetch of the tiller's next instruction. -/
  fetch : Bool
  on : Unanswered
  since : Nat
  deriving DecidableEq, Repr

/-- An access of the host that waits: for a stack, for the fabric, or for a held write (R164, R411, R419). -/
structure HostAcc where
  id : Nat
  port : HostPort
  addr : DWord
  write : Option (List Byte)
  len : Nat
  deriving DecidableEq, Repr

/-- A write of a unit of the module itself to local HBM that waits for its stack (R419): the local PA, the bytes, and the tick
from which it waits. -/
structure LateWrite where
  pa : Nat
  bytes : List Byte
  since : Nat
  deriving DecidableEq, Repr

/-- A pending cut of STOPAT (R362, R379). -/
structure Cut where
  op : Nat
  t : Nat
  ctxs : Word
  /-- A .RUN that has been held back by an unfinished pre-emption (R363). -/
  held : Bool
  deriving DecidableEq, Repr

/-! ## Front end, contexts and platform -/

/-- STATE of a submission queue (R342). -/
inductive SqSt where
  | stopped | running | error
  deriving DecidableEq, Repr

/-- An INDIRECT packet in process (R347, R380): its buffer, its packet count, packets taken, and the lines that have been
read and not used up, by line of the buffer; an empty line is one whose read failed. -/
structure Ind where
  va : DWord
  count : Nat
  taken : Nat
  ahead : List (Nat × List Byte)
  deriving DecidableEq, Repr

/-- A submission queue (R342, R403). -/
structure Sq where
  q : Nat
  ring : DWord
  logsz : Byte
  ctx : Byte
  prio : Byte
  st : SqSt
  /-- It has been registered, and so is bound to its context (R399, R403). -/
  reg : Bool
  head : Word
  tail : Word
  ind : Option Ind
  /-- A WAIT packet in progress: its deadline tick, or 0 for none, and its 64 bytes. -/
  waiting : Option (Nat × List Byte)
  /-- Packets processed and not completed: the grid or engine command that each waits for, and its index. -/
  pending : List (Nat × Nat)
  deriving DecidableEq, Repr

/-- Pre-emption state of a context (R360, R402). -/
inductive PreSt where
  | running | preempting | preempted | reset
  deriving DecidableEq, Repr

/-- A context page (R402), or the firmware context's registers (R414). -/
structure CtxSt where
  id : Nat
  ptRoot : DWord
  tlbInv : DWord
  part : BitVec 128
  /-- Quota of each core where it differs from 8 (R302): global core, slots. -/
  quotas : List (Nat × Nat)
  hndCode : DWord
  hndArg : DWord
  hndRegs : Word
  pre : PreSt
  preAt : Nat
  /-- The pre-emption began by a .PRE cut (R363). -/
  byCut : Bool
  /-- Held by a .HALT cut (R362). -/
  halted : Bool
  deriving DecidableEq, Repr

/-- A host watch entry (R406). -/
structure Watch where
  e : Nat
  pa : DWord
  mask : Word
  value : Word
  cmp : BitVec 2
  action : BitVec 2
  armed : Bool
  vector : BitVec 16
  bus : DWord
  deriving DecidableEq, Repr

/-- A drive entry (R409), as its 32 named bytes, with the engine's submission tail and last CID, and the place in the
completion queue that it reads next with the phase tag that it expects there (R408). -/
structure Drive where
  d : Nat
  bytes : List Byte
  tail : Nat
  cid : Nat
  head : Nat
  tag : Bool
  deriving DecidableEq, Repr

/-- Connection state and transcripts of the SPDM responder (R418, R425). -/
structure Spdm where
  conn : Nat
  m : List Byte
  l : List Byte
  vca : List Byte
  deriving DecidableEq, Repr

/-- The signing block (R417, R423, R424). -/
structure Sign where
  stat : Nat
  idxNext : Nat
  floor : Nat
  /-- Value to be committed to flash. -/
  commit : Option Nat
  /-- The signature under way: context bit, index, destination offset, the message read. -/
  job : Option (Bool × Nat × Nat × List Byte)
  deriving DecidableEq, Repr

/-- The register space (R401, R421). -/
structure Plat where
  ready0 : DWord
  ready1 : DWord
  devnum : Nat
  powerCap : Word
  powerNext : Option Word
  powerNow : Word
  /-- The power interval that the shares stand for, STC div 1,000 (R19). -/
  powerAt : Nat
  hapbase : DWord
  rcvAddr : DWord
  fqBase : DWord
  fqHead : Word
  fqTail : Word
  errBase : DWord
  errHead : Word
  errTail : Word
  errDrop : Word
  /-- MEAS0 to MEAS7, 64 bytes each (R416). -/
  meas : List (List Byte)
  measData : Cells 8
  admits : Cells 8
  fwPtRoot : DWord
  fwHndCode : DWord
  fwHndArg : DWord
  fwHndRegs : Word
  doeReqLen : Word
  /-- What the steward last wrote to MEAS_EXT, DOE_RSPLEN, SIGN_GO and IDX_RESV, as it reads them (R5, R401, R421). -/
  measExt : BitVec 3
  doeRspLen : Word
  signGo : DWord
  idxResv : Word
  /-- Requests that have arrived at the mailbox while another was pending, oldest first (R418, R422). -/
  doeWait : List (List Byte)
  doeReq : Cells 8
  doeRsp : Cells 8
  signMsg : Cells 8
  starve : Word
  /-- PDL0 to PDL7 where they differ from the reset value. -/
  pdl : List (Nat × Word)
  phase : BitVec 16
  deriving DecidableEq, Repr

/-- What goes out of the module: to the host MSI-X vectors, DOE responses, completer aborts and read data, and to another
device the answer to a request, or its refusal (R399, R404, R411, R422). -/
inductive HostOut where
  | fabric (dev : Nat) (answer : Option (List Byte))
  | msix (vector : Nat)
  | doe (bytes : List Byte)
  | abort (port : HostPort)
  | data (bytes : List Byte)
  deriving DecidableEq, Repr

/-- Which agent issues when no turn is scheduled. -/
inductive Focus where
  | quarter (core q : Nat)
  | stream (gid : Nat)
  deriving DecidableEq, Repr

/-- An error of a memory cell that ECC meets (R405). -/
inductive Upset where
  /-- A single-bit error in a sector of local HBM, by PA / 128. -/
  | hbmBit (sector : Nat)
  /-- A double-bit error in a sector of local HBM. -/
  | hbmLost (sector : Nat)
  /-- A single-bit error in the SRAM of a core: its caches, registers or scratch. -/
  | sramBit (core : Nat)
  /-- A double-bit error in a sector of local HBM as a core's L1 holds it. -/
  | sramLost (core sector : Nat)
  deriving DecidableEq, Repr

/-- What a turn does: an agent issues its next instruction, a unit's event comes about, ECC meets an error (R405), or Tuizel
updates flash with an image, wholly or cut short (R415). -/
inductive Act where
  | issue (f : Focus)
  | event (i : Instr)
  | upset (e : Upset)
  | update (image : List Byte) (whole : Bool)
  | peers (admitting : List Nat) (late : List (Nat × Word))
  deriving DecidableEq, Repr

/-- One turn of the schedule: the cycles that pass before it, and what moves (log 1). -/
structure Turn where
  cycles : Nat
  act : Act
  deriving DecidableEq, Repr

/-- The last instruction that a sheaf issued, as the gleaner sees it (R387, R389): its cycle, place, PC and whether it was
uniform. -/
structure Issued where
  cycle : Nat
  gid : Nat
  sh : Nat
  ti : Nat
  pc : DWord
  uni : Bool
  deriving DecidableEq, Repr

/-- The tiller an instruction executes in: group, sheaf, split-table entry. -/
structure Cur where
  gid : Nat
  sh : Nat
  ti : Nat
  deriving DecidableEq, Repr

/-- The whole module. -/
structure State where
  /-- Cycles since module reset (R6, R130). -/
  cycle : Nat
  /-- Local HBM by PA (R16). -/
  mem : Cells 8
  /-- Poisoned 128-byte sectors of local HBM, as PA / 128 (R405). -/
  poison : List Nat
  /-- Host memory by bus address (R400). -/
  hostMem : Cells 8
  /-- Memory of other devices, by PA[53:0] (R411). -/
  remote : Cells 8
  /-- Devices whose admission tables let this one in, as they answer requests (R411). -/
  peers : List Nat
  /-- Devices that hold a .RUN cut back, with the contexts that it names (R363). -/
  latePeers : List (Nat × Word)
  groups : List Group
  images : List Image
  grids : List Grid
  pending : List PendLaunch
  cores : List CoreSt
  dies : List DieSt
  l2 : List L2Line
  /-- Of the L1s, and of the L2 slices. -/
  creds : List Cred
  l2creds : List Cred
  cmds : List Cmd
  faults : List FaultRec
  rds : List RdPage
  pends : List Pend
  /-- The host's accesses that wait. -/
  hostAccs : List HostAcc
  late : List LateWrite
  cuts : List Cut
  ctxs : List CtxSt
  sqs : List Sq
  watches : List Watch
  drives : List Drive
  plat : Plat
  sign : Sign
  spdm : Spdm
  out : List HostOut
  powered : Bool
  /-- The image that updates have left in flash; none while it is as delivered (R415). -/
  flash : Option (List Byte)
  /-- Next number for groups, grids, commands, fault tags, images, log entries. -/
  nextId : Nat
  /-- The model's own: the next free value (log 10). -/
  freeCtr : Nat
  /-- The model's own: the schedule, and who issues when it is empty (log 1). -/
  agenda : List Turn
  focus : Focus
  cur : Cur
  /-- The last instruction issued on each quarter, by 4·core + quarter (R387). -/
  issued : List (Nat × Issued)
  deriving DecidableEq, Repr

/-! ## Reasons to stop -/

/-- Why `exec` stops with a fault. -/
inductive Fault where
  /-- Raised by a sheaf instruction when `State.cur` names no live tiller: nothing is there to execute it.
  `step` sets `cur` to a live tiller before it executes an instruction, so no step from a live machine
  raises it. Safe. -/
  | noTiller
  /-- Raised by a stream instruction when `State.cur` names no group with a running stream. As above. Safe. -/
  | noStream
  deriving DecidableEq, Repr

/-- Why `exec` refuses. -/
inductive Refusal where
  /-- Raised only by an arm of `exec` for an instruction that has no meaning yet. Safe. -/
  | notModelled (mnemonic : String)
  deriving DecidableEq, Repr

/-! ## Reset -/

/-- A stream context as it is before the first MSTART (R270, R277). -/
def Stream.init : Stream :=
  { st := .idle, sh := 0, start := 0, pc := 0, scalars := [], cursors := [], loops := [], parity := 0,
    bind := [], recs := [], ring := none, why := 0, cause := 0, flight := [], faultTag := none, stampTag := none,
    mwait := none, checked := none, owes := 0 }

/-- A launch record of zeros. -/
def LaunchRec.zero : LaunchRec :=
  { code := 0, arg := 0, gx := 0, gy := 0, gz := 0, sheaves := 0, pw := 0, ph := 0, flags := 0, scratch := 0,
    regs0 := 0, regs1 := 0, n0 := 0, prio := 0, phase := 0, counter := 0, fmt := 0, tailZero := true }

/-- A core after module reset (R372, R384, R396; log 2 for what the manual does not state). -/
def CoreSt.reset (id : Nat) : CoreSt :=
  { id := id, horizon := 256, sl := 512, gate := 4096, dpFree := [0, 0, 0, 0], suFree := [0, 0, 0, 0], lines := [], reclaiming := [], tlb := [],
    tiles := List.replicate 4 { owner := none, acc := [], bound := 0, flag := false },
    rstore := [], gens := [], ress := [], loads := [], gated := 0, bandUse := [0, 0, 0, 0],
    seqRun := none, seqQ := [], bbc := [], bbcOut := [], batches := [], glnPeriod := 0, glnCtxm := 0, glnRing := 0,
    glnStart := 1, glnStop := 0, glnTstc := 0, glnC0 := 0, glnLast := 63, glnDropped := 0, glnDrop := 0,
    glnWidx := 0, glnOpen := false, glnAt := 0, glnFirst := true, glnEvents := [], glnPre := none, fused := none }

/-- A die after module reset (R372; log 2). -/
def DieSt.reset (id : Nat) : DieSt :=
  { id := id, stallchk := 0, wqbase := 0, bbcb := [], bbcn := [], seqx := [], tlb := [], wqs := [],
    dspreq := [], share := 550, full := 550, demand := 0, hot := false, scant := false }

/-- A context after module reset (R402). -/
def CtxSt.reset (id : Nat) : CtxSt :=
  { id := id, ptRoot := 0, tlbInv := 0, part := BitVec.allOnes 128, quotas := [], hndCode := 0, hndArg := 0,
    hndRegs := 8, pre := .running, preAt := 0, byCut := false, halted := false }

/-- A submission queue after module reset (R342; log 2). -/
def Sq.reset (q : Nat) : Sq :=
  { q := q, ring := 0, logsz := 0, ctx := 0, prio := 0, st := .stopped, reg := false, head := 0, tail := 0, ind := none,
    waiting := none, pending := [] }

/-- A watch entry after module reset (R401). -/
def Watch.reset (e : Nat) : Watch :=
  { e := e, pa := 0, mask := 0, value := 0, cmp := 0, action := 0, armed := false, vector := 0, bus := 0 }

/-- The register space after module reset, before any ROM has run (R401, R415, R426). DEVNUM is taken at boot; until then
it is 0 (R411; log 2). -/
def Plat.reset : Plat :=
  { ready0 := 0, ready1 := 0, devnum := 0, powerCap := 2200, powerNext := none, powerNow := 0, powerAt := 0,
    hapbase := 0, rcvAddr := 0, fqBase := 0, fqHead := 0, fqTail := 0, errBase := 0, errHead := 0, errTail := 0,
    errDrop := 0, meas := List.replicate 8 (List.replicate 64 0), measData := [], admits := [], fwPtRoot := 0,
    fwHndCode := 0, fwHndArg := 0, fwHndRegs := 8, doeReqLen := 0, measExt := 0, doeRspLen := 0, signGo := 0, idxResv := 0, doeWait := [], doeReq := [], doeRsp := [], signMsg := [],
    starve := 2000000, pdl := [], phase := 0 }

/-- The signing block after module reset, with NEXTIDX as flash holds it (R421, R423). -/
def Sign.reset (idx : Nat) : Sign := { stat := 0, idxNext := idx, floor := idx, commit := none, job := none }

/-- The module right after reset: nothing resident, memory with nothing listed, every register at the
value R401, R402, R372 and R384 give, and nothing scheduled (logs 1, 2 and 3). -/
def State.reset : State :=
  { cycle := 0, mem := [], poison := [], hostMem := [], remote := [], peers := [], latePeers := [], groups := [], images := [],
    grids := [], pending := [], cores := [], dies := [], l2 := [], creds := [], l2creds := [], cmds := [], faults := [], rds := [],
    pends := [], hostAccs := [], late := [], cuts := [], ctxs := [], sqs := [], watches := [], drives := [], plat := Plat.reset,
    sign := Sign.reset Config.flashNextIdx, spdm := { conn := 0, m := [], l := [], vca := [] }, out := [],
    powered := true, flash := none, nextId := 1, freeCtr := 0, agenda := [], focus := .quarter 0 0,
    cur := { gid := 0, sh := 0, ti := 0 }, issued := [] }

end Sys2Proof.Machine
end

