-- ==== Sys2Proof/Machine/Ops.lean ====
section
/-! DEFINITION. The named operations that every meaning shares: finding and changing one part of the machine, home
memory and its write events, reports, registers, taking a trap and returning from one, and how an instruction
issues and retires. -/

namespace Sys2Proof.Machine

/-! ## Parts of the machine -/

/-- Replacing the element that a test selects. -/
def updWhere {α : Type} (p : α → Bool) (f : α → α) (l : List α) : List α :=
  l.map (fun x => if p x then f x else x)

/-- Putting an element in order of its number, in place of one with the same number. -/
def putBy {α : Type} (key : α → Nat) (x : α) : List α → List α
  | [] => [x]
  | y :: r => if key x < key y then x :: y :: r else if key x = key y then x :: r else y :: putBy key x r

/-- The lowest number that is not in a list, among n. -/
def firstFree (n : Nat) (used : List Nat) : Option Nat := (List.range n).find? (fun i => !used.contains i)

/-- The group with a number. -/
def State.group? (s : State) (gid : Nat) : Option Group := s.groups.find? (fun g => g.gid == gid)

/-- Changing one group. -/
def State.updGroup (s : State) (gid : Nat) (f : Group → Group) : State :=
  { s with groups := updWhere (fun g => g.gid == gid) f s.groups }

/-- A sheaf of a group. -/
def Group.sheaf? (g : Group) (sh : Nat) : Option Sheaf := g.sheaves.find? (fun x => x.idx == sh)

/-- Changing one sheaf of a group. -/
def Group.updSheaf (g : Group) (sh : Nat) (f : Sheaf → Sheaf) : Group :=
  { g with sheaves := updWhere (fun x => x.idx == sh) f g.sheaves }

/-- A sheaf by group and index. -/
def State.sheaf? (s : State) (gid sh : Nat) : Option Sheaf := (s.group? gid).bind (fun g => g.sheaf? sh)

/-- Changing one sheaf. -/
def State.updSheaf (s : State) (gid sh : Nat) (f : Sheaf → Sheaf) : State :=
  s.updGroup gid (fun g => g.updSheaf sh f)

/-- A live tiller by its entry (R33). -/
def Sheaf.tiller? (x : Sheaf) (ti : Nat) : Option Tiller := x.tillers.find? (fun t => t.idx == ti)

/-- Changing one tiller. -/
def Sheaf.updTiller (x : Sheaf) (ti : Nat) (f : Tiller → Tiller) : Sheaf :=
  { x with tillers := updWhere (fun t => t.idx == ti) f x.tillers }

/-- Changing one tiller by group, sheaf and entry. -/
def State.updTiller (s : State) (gid sh ti : Nat) (f : Tiller → Tiller) : State :=
  s.updSheaf gid sh (fun x => x.updTiller ti f)

/-- A core; one that has not been touched is as reset left it. -/
def State.core (s : State) (id : Nat) : CoreSt := (s.cores.find? (fun c => c.id == id)).getD (.reset id)

/-- Changing one core. -/
def State.updCore (s : State) (id : Nat) (f : CoreSt → CoreSt) : State :=
  { s with cores := putBy CoreSt.id (f (s.core id)) s.cores }

/-- A die; one that has not been touched is as reset left it. -/
def State.die (s : State) (id : Nat) : DieSt := (s.dies.find? (fun c => c.id == id)).getD (.reset id)

/-- Changing one die. -/
def State.updDie (s : State) (id : Nat) (f : DieSt → DieSt) : State :=
  { s with dies := putBy DieSt.id (f (s.die id)) s.dies }

/-- Whether a die withholds a cycle to keep its share of the power cap (R18): which cycles, the manual leaves open (log 117). -/
def State.withholds (s : State) (die cycle : Nat) : Bool := (s.die die).scant && Config.withholds die cycle

/-- A context page (R402), or the firmware context's registers. -/
def State.ctxSt (s : State) (id : Nat) : CtxSt := (s.ctxs.find? (fun c => c.id == id)).getD (.reset id)

/-- Changing one context. -/
def State.updCtx (s : State) (id : Nat) (f : CtxSt → CtxSt) : State :=
  { s with ctxs := putBy CtxSt.id (f (s.ctxSt id)) s.ctxs }

/-- Whether a .HALT cut holds a context: no unit starts anything for it (R362). -/
def State.cutHolds (s : State) (ctx : Nat) : Bool := ctx != 63 && (s.ctxSt ctx).halted

/-- A submission queue (R342). -/
def State.sq (s : State) (q : Nat) : Sq := (s.sqs.find? (fun c => c.q == q)).getD (.reset q)

/-- Changing one submission queue. -/
def State.updSq (s : State) (q : Nat) (f : Sq → Sq) : State :=
  { s with sqs := putBy Sq.q (f (s.sq q)) s.sqs }

/-- A fresh number. -/
def State.fresh (s : State) : Nat × State := (s.nextId, { s with nextId := s.nextId + 1 })

/-- A fresh free value (log 10). -/
def State.freshFree (s : State) : DWord × State :=
  (Config.freeValue s.freeCtr, { s with freeCtr := s.freeCtr + 1 })

/-- The device number (R411). -/
def State.devnum (s : State) : Nat := s.plat.devnum

/-- The synchronised tick counter: 1 ns ticks of an 850 MHz clock (R6, R8). -/
def State.stc (s : State) : Nat := s.cycle * 20 / 17 % 2 ^ 64

/-- The winnow clock (R130). -/
def State.winnow (s : State) : Nat := s.cycle / 64 % 2 ^ 16

/-- The die of a core (R9). -/
def dieOf (core : Nat) : Nat := core / 72

/-- The die-local number of a core, as sr.core reads it (R9). -/
def coreOf (core : Nat) : Nat := core % 72

/-! ## Home memory -/

/-- First PA of the unpopulated range and of the MMIO window (R16). -/
def hbmEnd : Nat := 0xC000000000
def mmioBase : Nat := 0x1F000000000

/-- The HBM stack of a local PA (R17). -/
def stackOf (pa : Nat) : Nat := pa / 4096 % 12

/-- The die that attaches the stack of a local PA (R12, R17). -/
def homeDie (pa : Nat) : Nat := stackOf pa / 3

/-- The PA of this device with a local part (R16, R411). -/
def State.localPa (s : State) (pa : Nat) : Nat := s.devnum * 2 ^ 41 + pa

/-- Whether a PA is of this device. -/
def State.isLocal (s : State) (pa : Nat) : Bool := pa / 2 ^ 41 == s.devnum

/-- Whether a PA lies in populated HBM of this device. -/
def State.inHbm (s : State) (pa : Nat) : Bool := s.isLocal pa && decide (pa % 2 ^ 41 < hbmEnd)

/-- Cutting [a, a + n) at multiples of 512, as pairs of start and length. -/
def chunksOf (a n : Nat) : List (Nat × Nat) :=
  (List.range (n / 512 + 2)).filterMap (fun k =>
    let lo := max a ((a / 512 + k) * 512)
    let hi := min (a + n) ((a / 512 + k + 1) * 512)
    if lo < hi then some (lo, hi - lo) else none)

/-- Whether a byte is of a registered work-queue descriptor, which only its queue unit writes (R259). -/
def State.inDescriptor (s : State) (pa : Nat) : Bool :=
  s.dies.any (fun d => d.wqs.any (fun w =>
    decide (d.wqbase.toNat % 2 ^ 41 + 64 * w.q ≤ pa) && decide (pa < d.wqbase.toNat % 2 ^ 41 + 64 * w.q + 64)))

/-- The number under which the home of a PA's line knows its sharers: lines of this device by their own number (R155). -/
def State.lineKey (s : State) (pa : Nat) : Nat :=
  if s.isLocal pa then pa / 512 % 2 ^ 32 else 2 ^ 45 + pa / 512

/-- Marking every residency registered on a line, by its key, STALE, before the write is visible (R155). -/
def State.markStale (s : State) (line : Nat) : State :=
  let mark (r : Res) : Res := if r.st = .loading then { r with marked := true } else { r with st := .stale }
  { s with cores := s.cores.map (fun c =>
      { c with ress := updWhere (fun r => r.lines.contains line) mark c.ress }) }

/-- The condition of a watch entry on the word at its PA (R406). -/
def Watch.holds (w : Watch) (word : Nat) : Bool :=
  let a := word &&& w.mask.toNat
  let b := w.value.toNat &&& w.mask.toNat
  match w.cmp.toNat with
  | 0 => a == b
  | 1 => a != b
  | 2 => a ≥ b
  | _ => a < b

/-- A watch entry fires: it disarms and acts (R162, R406). -/
def State.fireWatch (s : State) (w : Watch) : State :=
  let s := { s with watches := updWhere (fun x => x.e == w.e) (fun x => { x with armed := false }) s.watches }
  match w.action.toNat with
  | 1 => { s with out := s.out ++ [.msix w.vector.toNat] }
  | 2 => { s with hostMem := csetLE s.hostMem w.bus.toNat 8 s.stc }
  | _ => s

/-- Evaluating the armed entries of one line after a write event (R406). -/
def State.evalWatches (s : State) (line : Nat) : State :=
  s.watches.foldl (fun s w =>
    let pa := w.pa.toNat % 2 ^ 41
    if w.armed && s.isLocal w.pa.toNat && pa / 512 == line && w.holds (cgetLE s.mem pa 4) then s.fireWatch w else s) s

/-- The 128-byte sector of a PA within its line (R113). -/
def sectorOf (pa : Nat) : Nat := pa % 512 / 128

/-- The L2 slice that holds a line has the new bytes of some sectors, which are dirty there (R113). -/
def State.l2Written (s : State) (line : Nat) (pas : List Nat) : State :=
  let secs : BitVec 4 := pas.foldl (fun (m : BitVec 4) p => m ||| BitVec.ofNat 4 (2 ^ sectorOf p)) 0
  let put (x : L2Line) : L2Line := { x with valid := x.valid ||| secs, dirty := x.dirty ||| secs }
  { s with l2 := updWhere (fun x => x.tag.line == line) put s.l2 }

/-- Bytes with their PAs, from `pa` on. -/
def cellsAt (pa : Nat) (bytes : List Byte) : List (Nat × Byte) := ((List.range bytes.length).map (fun i => pa + i)).zip bytes

/-- A write event at the home of a line of device memory, PA / 512 with its device bits: residencies are marked, the bytes
land (but not in a registered descriptor), watch entries are evaluated (R153, R155, R259, R406). -/
def State.homeMerge (s : State) (line : Nat) (bs : List (Nat × Byte)) : State :=
  let s := (s.markStale (s.lineKey (line * 512))).l2Written line (bs.map Prod.fst)
  if s.isLocal (line * 512) then
    State.evalWatches { s with mem := bs.foldl (fun m (e : Nat × Byte) =>
        if s.inDescriptor (e.1 % 2 ^ 41) then m else cset m (e.1 % 2 ^ 41) e.2) s.mem } (line % 2 ^ 32)
  else { s with remote := bs.foldl (fun m (e : Nat × Byte) => cset m e.1 e.2) s.remote }

/-! ## Read-duplicated pages (R157 to R159, R164) -/

/-- The directory's entry for the page of a PA. -/
def State.rdOf (s : State) (pa : Nat) : Option RdPage := s.rds.find? (fun e => e.page == pa / 65536)

/-- Changing the directory's entry of a page. -/
def State.updRd (s : State) (page : Nat) (f : RdPage → RdPage) : State :=
  { s with rds := updWhere (fun e => e.page == page) f s.rds }

/-- No L1 of this device reads an old copy of a page any more: the lines of it that a core holds, and has not written, go
(R158, R164). -/
def State.forgetPage (s : State) (page : Nat) : State :=
  { s with cores := s.cores.map (fun c =>
      { c with lines := c.lines.filter (fun x => x.tag.line / 128 != page || !x.wrote.isEmpty) }) }

/-- A write of a device to a page that no other device holds, and that none holds back, makes it the page's owner (R157). -/
def State.rdOwn (s : State) (page dev : Nat) : State :=
  (s.updRd page (fun e => { e with holders := [], replica := none, owner := some dev })).forgetPage page

/-- Whether an agent that waits, or keeps a place, is still there. -/
def State.lives (s : State) : Agent → Bool
  | .thread gid sh _ => (s.sheaf? gid sh).isSome
  | .grid id => s.grids.any (fun x => x.id == id)
  | .sq q => (s.sq q).st == .running
  | .count core id => (s.core core).bbcOut.any (fun o => o.id == id)
  | .cmd id => s.cmds.any (fun c => c.id == id && !c.ended)
  | .stream gid => (s.group? gid).isSome
  | .load core id => (s.core core).loads.any (fun l => l.id == id)
  | .seq core _ => (s.core core).seqRun.isSome
  | .save gid => ((s.group? gid).bind Group.save).isSome
  | .host id => s.hostAccs.any (fun a => a.id == id)
  | .other => true

/-- Once no acknowledgement is outstanding, the writes held at the home of a page are performed, oldest first, up to an
atomic, which its own thread performs; the page becomes owned by the writer's device (R157 step 4, R158). -/
def State.rdPerform (s : State) (page : Nat) : State :=
  match s.rds.find? (fun e => e.page == page) with
  | none => s
  | some e =>
    if !e.due.isEmpty then s
    else
      let held := e.held.filter (fun w => !w.bytes.isEmpty || s.lives w.who)
      let go := held.takeWhile (fun w => !w.bytes.isEmpty)
      let s := go.foldl (fun s w => s.homeMerge (w.pa / 512) (cellsAt w.pa w.bytes)) s
      let s := s.updRd page (fun e => { e with held := held.drop go.length })
      match go.getLast? with
      | none => s
      | some w => s.rdOwn page w.dev

/-- A holder's acknowledgement at the home (R157 steps 3 and 4). This device's comes with its replica dropped: its reads
complete within their steps (R164). -/
def State.rdAck (s : State) (page dev : Nat) : State :=
  let s := s.updRd page (fun e =>
    { e with due := e.due.filter (fun d => d != dev), holders := e.holders.filter (fun d => d != dev),
             replica := if dev = s.devnum then none else e.replica })
  (if dev = s.devnum then s.forgetPage page else s).rdPerform page

/-- A write, or an atomic's place, arriving at the home of a read-duplicated page: it is held, and every holder but the
writer's device is told to drop its replica; this device does so at once (R157 steps 1 and 2, R158). -/
def State.rdWrite (s : State) (w : HeldWrite) : State :=
  let page := w.pa / 65536
  let s := s.updRd page (fun e =>
    if e.held.isEmpty then
      { e with held := [w], due := e.holders.filter (fun d => d != w.dev), since := s.stc }
    else { e with held := e.held ++ [w] })
  if w.dev = s.devnum then s.rdPerform page else s.rdAck page s.devnum

/-- A write event of an agent within one line: held at the home of a read-duplicated page while other devices hold it, else
performed (R157, R158). -/
def State.homeStore (s : State) (who : Agent) (pa : Nat) (bytes : List Byte) : State :=
  match s.rdOf pa with
  | some e => if e.holders.isEmpty && e.held.isEmpty then (s.homeMerge (pa / 512) (cellsAt pa bytes)).rdOwn e.page s.devnum
      else s.rdWrite { dev := s.devnum, pa := pa, bytes := bytes, who := who }
  | none => s.homeMerge (pa / 512) (cellsAt pa bytes)

/-- Whether the stack of a local PA is ready (R419). -/
def State.stackReady (s : State) (pa : Nat) : Bool := s.plat.ready0.getLsbD (8 + stackOf pa)

/-- A write event of the module's own units to local HBM; it waits for its stack (R419). -/
def State.homeWrite (s : State) (pa : Nat) (bytes : List Byte) : State :=
  if s.stackReady pa then s.homeStore .other (s.localPa pa) bytes
  else { s with late := s.late ++ [{ pa := pa, bytes := bytes, since := s.stc }] }

/-- The module's own writes that waited are performed when their stacks are ready, and fail after 2,000,000 ticks (R419). -/
def State.payLate (s : State) : State :=
  let keep (w : LateWrite) : Bool := !s.stackReady w.pa && decide (s.stc < w.since + 2000000)
  (s.late.filter (fun w => s.stackReady w.pa)).foldl (fun s w => s.homeStore .other (s.localPa w.pa) w.bytes)
    { s with late := s.late.filter keep }

/-- Cutting bytes from `pa` at the line boundaries, and writing each part (R153: each line is one write event). -/
def State.homeWriteLines (s : State) (pa : Nat) (bytes : List Byte) : State :=
  (chunksOf pa bytes.length).foldl (fun s c => s.homeWrite c.1 ((bytes.drop (c.1 - pa)).take c.2)) s

/-- Reading bytes at the home. -/
def State.homeRead (s : State) (pa n : Nat) : List Byte := cgets s.mem pa n

/-- Whether a byte range touches a poisoned sector of local HBM (R405). -/
def State.poisoned (s : State) (pa n : Nat) : Bool :=
  s.poison.any (fun q => decide (q * 128 < pa + n) && decide (pa < q * 128 + 128))

/-! ## Reports -/

/-- log2 of a ring's size from bits 4:0 of its base register, when it is usable (R123, R401). -/
def ringLog (base : DWord) : Option Nat :=
  let n := (base.extractLsb' 0 5).toNat
  if 4 ≤ n ∧ n ≤ 16 then some n else none

/-- The ring's PA in bits 53:12, without the device number (R401). -/
def ringPa (base : DWord) : Nat := (base.extractLsb' 12 42).toNat * 4096 % 2 ^ 41

/-- A report: a record in the error log followed by MSI-X vector 0, or a count in ERR_DROP when the log is full
(R401, R404). -/
def State.report (s : State) (kind ctx die core addr detail : Nat) : State :=
  let p := s.plat
  let drop := { s with plat := { p with errDrop := p.errDrop + 1 } }
  match ringLog p.errBase with
  | none => drop
  | some n =>
    if (p.errTail - p.errHead).toNat = 2 ^ n then drop
    else
      let rec_ := bytesOf 8 s.stc ++ bytesOf 1 kind ++ bytesOf 1 ctx ++ bytesOf 1 die ++ bytesOf 1 core ++
        bytesOf 8 addr ++ bytesOf 4 detail ++ bytesOf 8 0
      let s := s.homeWrite (ringPa p.errBase + 32 * (p.errTail.toNat % 2 ^ n)) rec_
      { s with plat := { s.plat with errTail := p.errTail + 1 }, out := s.out ++ [.msix 0] }

/-! ## The executing tiller -/

/-- The group, sheaf and tiller that an instruction executes in. -/
structure Frame where
  g : Group
  sh : Sheaf
  t : Tiller
  deriving DecidableEq, Repr

/-- The frame of one tiller. -/
def State.frameOf (s : State) (gid sh ti : Nat) : Option Frame :=
  match s.group? gid with
  | none => none
  | some g =>
    match g.sheaf? sh with
    | none => none
    | some x =>
      match x.tiller? ti with
      | none => none
      | some t => some { g := g, sh := x, t := t }

/-- A frame as its instruction sees it: one that has issued and waits for its unit reads the scalars and uniform predicates
as they stood at its issue (R27, R261, R270). -/
def Frame.asIssued (f : Frame) : Frame :=
  match f.t.queued with
  | some q => { f with sh := { f.sh with scalars := q.scalars, upreds := q.upreds } }
  | none => f

/-- The frame of the current tiller. -/
def State.frame? (s : State) : Option Frame := (s.frameOf s.cur.gid s.cur.sh s.cur.ti).map Frame.asIssued

/-- Changing the tiller of a frame. -/
def State.updT (s : State) (f : Frame) (u : Tiller → Tiller) : State := s.updTiller f.g.gid f.sh.idx f.t.idx u

/-- Changing the sheaf of a frame. -/
def State.updS (s : State) (f : Frame) (u : Sheaf → Sheaf) : State := s.updSheaf f.g.gid f.sh.idx u

/-- A sheaf on a steward core, core 0 of its die (R10, R91). -/
def Frame.steward (f : Frame) : Bool := coreOf f.g.core == 0

/-- A handler sheaf (R365). -/
def Frame.handler (f : Frame) : Bool := f.g.kind == .handler

/-! ## Registers -/

/-- The value a register cell holds. -/
def Sheaf.read (x : Sheaf) : Key → Word
  | .v r t => cget x.vregs (64 * r + t)
  | .s r => cget x.scalars r
  | .p r t => if (cget x.preds r).getLsbD t then 1 else 0
  | .q r => if x.upreds.getLsbD r then 1 else 0

/-- One bit of a mask set or cleared. -/
def setBit {w : Nat} (m : BitVec w) (i : Nat) (b : Bool) : BitVec w :=
  let bit := BitVec.ofNat w (2 ^ i)
  if b then m ||| bit else m &&& ~~~bit

/-- Writing one register cell. -/
def Sheaf.write1 (x : Sheaf) (w : RegWrite) : Sheaf :=
  match w.key with
  | .v r t => { x with vregs := cset x.vregs (64 * r + t) w.val }
  | .s r => { x with scalars := cset x.scalars r w.val }
  | .p r t => { x with preds := cset x.preds r (setBit (cget x.preds r) t (w.val != 0)) }
  | .q r => { x with upreds := setBit x.upreds r (w.val != 0) }

/-- Taking written cells out of the pending producer records of every tiller: a later reader reads another
producer's result (R93). -/
def Tiller.dropKeys (ks : List Key) (t : Tiller) : Tiller :=
  { t with prods := t.prods.map (fun p => { p with old := p.old.filter (fun w => !ks.contains w.key) }) }

/-- Writing register cells. -/
def Sheaf.write (x : Sheaf) (ws : List RegWrite) : Sheaf :=
  let ks := ws.map RegWrite.key
  let x := ws.foldl Sheaf.write1 x
  if x.tillers.all (fun t => t.prods.isEmpty) then x else { x with tillers := x.tillers.map (Tiller.dropKeys ks) }

/-- What a reader in a tiller reads at a given cycle: the value held before a fixed-latency producer wrote it, while
fewer than L cycles have passed since that producer issued (R94), else the value held. Of several producers the last
counts. -/
def Frame.read (f : Frame) (cycle : Nat) (k : Key) : Word :=
  match f.t.prods.find? (fun p => p.old.any (fun w => w.key == k)) with
  | some p =>
    if cycle < p.issued + p.lat then ((p.old.find? (fun w => w.key == k)).map RegWrite.val).getD 0 else f.sh.read k
  | none => f.sh.read k

/-- The registers that an operand field names, as cells of thread 0 (R86, R89). -/
def opdKeys (o : Opd) (n : Nat) : List Key :=
  match o with
  | .v r => (List.range n).map (fun i => .v (r.val + i) 0)
  | .s r => (List.range n).map (fun i => .s (r.val + i))
  | .p r => [.p r.val 0]
  | .q r => [.q r.val]
  | _ => []

/-- The register a cell belongs to, whatever its thread. -/
def Key.reg : Key → Key
  | .v r _ => .v r 0
  | .p r _ => .p r 0
  | k => k

/-- Registers that a field of the given need reads. -/
def needReads (o : Opd) : Need → List Key
  | .rd1 | .intOrScl _ | .sclInline | .scl | .prd => opdKeys o 1
  | .rd2 | .pair | .anyPair | .sclPair | .pairIntSz => opdKeys o 2
  | .addr wide => opdKeys o (if wide then 2 else 1)
  | .regs n _ | .regsIn n _ | .data n _ _ => opdKeys o n
  | .no | .wr1 | .wr2 | .pwr | .regsOrSz .. | .sclPairSz | .intLt _ | .sel => []

/-- Registers that a field of the given need writes, when it is a destination. -/
def needWrites (o : Opd) : Need → List Key
  | .wr1 | .pwr | .scl => opdKeys o 1
  | .wr2 | .sclPair | .sclPairSz => opdKeys o 2
  | .regs n _ | .regsOrSz n _ => opdKeys o n
  | _ => []

/-- The guard as a register (R81). -/
def guardKeys (h : Hdr) : List Key :=
  if h.gp == 15 then [] else if h.u then [.q h.gp.toNat] else [.p h.gp.toNat 0]

/-- The shape of the microcode in a slot as it declares it (R339): nothing for an empty slot. -/
def State.microShape (s : State) (die slot : Nat) : Option Config.MicroDecl :=
  match (s.die die).seqx.find? (fun e => e.1 == slot) with
  | none => none
  | some e => Config.microDecl e.2

/-- Window, window alignment, input, its alignment, block and its alignment of a sequenced instruction. -/
def State.seqShapeOf (s : State) (die : Nat) (i : Instr) (x : FS) : Nat × Nat × Nat × Nat × Nat × Nat :=
  match i with
  | .seqx k _ _ =>
    match s.microShape die k.val with
    | some d => (d.window.val + 1, 2 ^ d.align.val, d.input.val, 1, d.block.val, if d.even then 2 else 1)
    | none => (1, 1, 0, 1, 0, 1)
  | _ => seqShape x.fn i.op

/-- The registers that an instruction reads, by its fields (R93): the guard, the sources, and what its entry reads
without a field. -/
def State.readKeys (s : State) (die : Nat) (i : Instr) : List Key :=
  let guard := match i.hdr with
    | some h => guardKeys h
    | none => []
  let fields := match (i.row 256).ops with
    | [] => []
    | (o, n) :: r =>
      (match n with
       | .data .. => needReads o n
       | .regs .. => if i.op == 0x1C then needReads o n else []
       | _ => []) ++ r.flatMap (fun e => needReads e.1 e.2)
  let own := match i with
    | .pmovPack h _ =>
      if h.u then (List.range 7).map Key.q else (List.range 15).map (fun r => Key.p r 0)
    | .rast _ x | .trav _ x | .filt _ x | .blnd _ x | .dist _ x | .topk _ x | .seqx _ _ x =>
      let (w, _, inp, _, blk, _) := s.seqShapeOf die i x
      opdKeys x.w w ++ opdKeys x.a inp ++ opdKeys x.b blk
    | _ => []
  guard ++ fields ++ own

/-- The registers that an instruction writes, by its fields; not those of a sequenced instruction. -/
def writeRegs (i : Instr) : List Key :=
  let fields := match (i.row 256).ops with
    | [] => []
    | (o, n) :: r => needWrites o n ++ r.flatMap (fun e => match e.2 with
        | .wr1 | .pwr => needWrites e.1 e.2
        | _ => [])
  let own := match i with
    | .cvtn _ x => if x.fn.getLsbD 0 then opdKeys x.b 8 else []
    | .pmovUnpk h _ =>
      if h.u then (List.range 7).map Key.q else (List.range 15).map (fun r => Key.p r 0)
    | .call h x =>
      if h.u then [.s (2 * x.fn4.toNat), .s (2 * x.fn4.toNat + 1)]
      else [.v (2 * x.fn4.toNat) 0, .v (2 * x.fn4.toNat + 1) 0]
    | .joint _ x => if x.fn4 == 15 then [] else [.p x.fn4.toNat 0]
    | _ => []
  fields ++ own

/-- The registers that an instruction writes. -/
def State.writeKeys (s : State) (die : Nat) (i : Instr) : List Key :=
  writeRegs i ++ (match i with
    | .rast _ x | .trav _ x | .filt _ x | .blnd _ x | .dist _ x | .topk _ x | .seqx _ _ x =>
      opdKeys x.w (s.seqShapeOf die i x).1 ++ opdKeys x.d 1
    | _ => [])

/-! ## Taking a trap -/

/-- What a trap parks: the lane, its cause and payload, the origin PC, the resume point without and with skip, the
operand-log entry it keeps, and what it waited for (R50, R364 to R367). -/
structure Trap where
  lane : Nat
  cause : BitVec 8
  payload : BitVec 24
  pc : DWord
  resume : DWord
  skipTo : DWord
  log : Option Nat
  back : Back
  deriving DecidableEq, Repr

/-- The origin tag (R366). -/
def originTag (core quarter slot lane : Nat) (empty helper log : Bool) (cause : BitVec 8) (payload : BitVec 24) :
    DWord :=
  BitVec.ofNat 2 (dieOf core) ++ BitVec.ofNat 7 (coreOf core) ++ BitVec.ofNat 2 quarter ++ BitVec.ofNat 4 slot ++
    BitVec.ofNat 6 lane ++ BitVec.ofBool empty ++ BitVec.ofBool helper ++ BitVec.ofBool log ++ cause ++
    (0 : BitVec 8) ++ payload

/-- Whether an event code holds in the list at a cycle, and the last cycle before `hi` in which its event occurs, counted
from glnAt (R391). -/
def CoreSt.lastEvent (c : CoreSt) (code : Word) (hi : Nat) : Option Nat :=
  let arg := (code.extractLsb' 4 24).toNat
  let reach := (17 * c.glnTstc.toNat + 19) / 20
  let seen (trap : Bool) (n : Nat) : Option Nat :=
    c.glnEvents.foldl (fun (b : Option Nat) (e : Bool × Nat × Nat) =>
      if e.1 = trap ∧ e.2.1 = n ∧ e.2.2 < hi then some (max e.2.2 (b.getD 0)) else b) none
  match code.toNat % 16 with
  | 1 => if c.glnAt < hi then some (hi - 1) else none
  | 2 => seen false arg
  | 3 => if c.glnAt ≤ reach ∧ reach < hi then some reach else none
  | 4 => seen true (arg % 256)
  | _ => none

/-- Whether the trigger window stands open into a cycle: opened by a start event after which no stop event has come
(R391). -/
def CoreSt.windowInto (c : CoreSt) (cycle : Nat) : Bool :=
  match c.lastEvent c.glnStart cycle, c.lastEvent c.glnStop cycle with
  | some a, some b => decide (b < a)
  | some _, none => true
  | none, some _ => false
  | none, none => c.glnOpen

/-- Whether the window is open in a cycle: a start event occurs in it, or it stands open into it (R391). -/
def CoreSt.windowOpen (c : CoreSt) (cycle : Nat) : Bool :=
  c.lastEvent c.glnStart (cycle + 1) == some cycle || c.windowInto cycle

/-- Bringing the window forward to a cycle: a stop event ends the window, and with it its count of records (R391). -/
def CoreSt.glnForward (c : CoreSt) (cycle : Nat) : CoreSt :=
  if cycle ≤ c.glnAt then c
  else
    { c with glnOpen := c.windowInto cycle, glnAt := cycle,
             glnFirst := c.glnFirst && (c.lastEvent c.glnStop cycle).isNone,
             glnEvents := c.glnEvents.filter (fun e => decide (cycle ≤ e.2.2)) }

/-- Noting a trap or a BBC for the trigger window (R391). -/
def CoreSt.glnNote (c : CoreSt) (cycle : Nat) (trap : Bool) (n : Nat) : CoreSt :=
  let c := c.glnForward cycle
  if c.glnEvents.contains (trap, n, cycle) then c else { c with glnEvents := c.glnEvents ++ [(trap, n, cycle)] }

/-- Where an entry stands among those that arrive in its cycle: quarter, sheaf slot and thread (R364, R366). -/
def Entry.rank (e : Entry) : Nat := (e.origin.extractLsb' 43 12).toNat

/-- Putting an entry into a batch: after those that arrived before it, and before those of its cycle that stand after it
(R364). -/
def putEntry (e : Entry) (l : List Entry) : List Entry :=
  let before (x : Entry) : Bool := x.cycle != e.cycle || decide (x.rank ≤ e.rank)
  l.takeWhile before ++ e :: l.dropWhile before

/-- Putting an entry into the context's open batch at the core's trap unit, or into a new one; a batch of 64 entries
closes (R364). -/
def CoreSt.gather (c : CoreSt) (cycle ctx : Nat) (e : Entry) : CoreSt :=
  let c := c.glnNote cycle true (e.cause.toNat % 256)
  let isOpen (b : HBatch) : Bool := b.ctx == ctx && b.closed.isNone
  if c.batches.any isOpen then
    { c with batches := updWhere isOpen (fun b =>
        { b with entries := putEntry e b.entries,
                 closed := if b.entries.length + 1 = 64 then some cycle else none }) c.batches }
  else { c with batches := c.batches ++ [{ ctx := ctx, entries := [e], opened := cycle, closed := none }] }

/-- A double fault: the handler sheaf stops and the context is reported, with cause 0x0D and the handler's cause as its
payload (R368); the gleaner sees both causes raised (R391). The origin lanes of its entries stay parked, as R368 says, until a
context reset, though R43's table lets a PARKED tiller leave to FREE (log 148). -/
def State.doubleFault (s : State) (g : Group) (cause : Nat) : State :=
  let s := s.updCore g.core (fun c => (c.glnNote s.cycle true cause).glnNote s.cycle true 0x0D)
  let s := s.updGroup g.gid (fun g => { g with sheaves := g.sheaves.map (fun x => { x with tillers := [] }) })
  s.report 7 g.ctx (dieOf g.core) (coreOf g.core) 0 (0x0D + 256 * cause)

/-- Lanes of one tiller leave its active mask and park with their FMT, stack and resume point; the tiller's pending
producer records are discarded, those of lanes that go on too (R43, R93, R364; log 149). -/
def State.parkLanes (s : State) (f : Frame) (ts : List Trap) : State :=
  let out := Mask.ofLanes (ts.map Trap.lane)
  let recs := ts.map (fun (t : Trap) =>
    ({ lane := t.lane, ti := f.t.idx, cause := t.cause, payload := t.payload, pc := t.pc, resume := t.resume,
       skipTo := t.skipTo, fmt := f.t.fmt, stack := f.t.stack, log := t.log, back := t.back,
       since := f.t.since } : Parked))
  s.updS f (fun x =>
    let x := x.updTiller f.t.idx (fun t =>
      let m := t.mask &&& ~~~out
      { t with mask := m, prods := [], probed := false,
               todo := if m = 0 then none else t.todo.map (fun d => d &&& ~~~out),
               queued := if m = 0 then none else t.queued, st := if m = 0 then .parked else t.st })
    { x with parked := x.parked ++ recs })

/-- Entries for parked lanes of one sheaf go to the core's trap unit, in ascending thread (R364, R366). -/
def State.gatherTraps (s : State) (f : Frame) (ts : List Trap) : State :=
  let entry (t : Trap) : Entry :=
    { gid := f.g.gid, sh := f.sh.idx, lane := t.lane, empty := false,
      origin := originTag f.g.core f.sh.quarter f.sh.slot t.lane false (f.sh.helpers.getLsbD t.lane) t.log.isSome
        t.cause t.payload,
      cause := t.payload ++ t.cause, pc := t.pc, resume := t.resume, skipTo := t.skipTo, resumed := false,
      cycle := s.cycle }
  let inOrder := (List.range 64).flatMap (fun l => ts.filter (fun t => t.lane == l))
  s.updCore f.g.core (fun c => inOrder.foldl (fun (c : CoreSt) t => c.gather s.cycle f.g.ctx (entry t)) c)

/-- Lanes of one tiller take a trap (R43, R364). In a handler sheaf any trap is a double fault (R368). -/
def State.park (s : State) (f : Frame) (ts : List Trap) : State :=
  match ts with
  | [] => s
  | t0 :: _ => if f.handler then s.doubleFault f.g t0.cause.toNat else (s.parkLanes f ts).gatherTraps f ts

/-- Lanes of several tillers of one sheaf take a trap in one cycle (R40, R42, R126, R364). -/
def State.parkAll (s : State) (l : List (Frame × List Trap)) : State :=
  match l.filter (fun e => !e.2.isEmpty) with
  | [] => s
  | (f, ts) :: r =>
    if f.handler then s.doubleFault f.g ((ts.head?.map Trap.cause).getD 0).toNat
    else (((f, ts) :: r).foldl (fun (s : State) e => s.parkLanes e.1 e.2) s).gatherTraps f
      (((f, ts) :: r).flatMap Prod.snd)

/-- The trap of an instruction at its own PC, with the instruction itself as resume point (R126, R249, R373). -/
def Frame.trapAt (f : Frame) (size : Nat) (cause : BitVec 8) (payload : BitVec 24) (lane : Nat) : Trap :=
  { lane := lane, cause := cause, payload := payload, pc := f.t.pc, resume := f.t.pc,
    skipTo := f.t.pc + BitVec.ofNat 64 size, log := none, back := .none }

/-- One instruction traps with one cause in every active lane of its tiller; with an empty mask the fault becomes one
single-thread handler entry that resumes no lane (R39, R91). -/
def State.trapAll (s : State) (f : Frame) (size : Nat) (cause : BitVec 8) (payload : BitVec 24) : State :=
  if f.t.mask = 0 then
    if f.handler then s.doubleFault f.g cause.toNat
    else s.updCore f.g.core (fun c => c.gather s.cycle f.g.ctx
      { gid := f.g.gid, sh := f.sh.idx, lane := 0, empty := true,
        origin := originTag f.g.core f.sh.quarter f.sh.slot 0 true false false cause payload,
        cause := payload ++ cause, pc := f.t.pc, resume := f.t.pc, skipTo := f.t.pc + BitVec.ofNat 64 size,
        resumed := false, cycle := s.cycle })
  else s.park f (f.t.mask.lanes.map (f.trapAt size cause payload))

/-! ## Returning from a trap -/

/-- A tiller that a resumed lane may rejoin (R369): not one whose instruction at that PC has issued and waits for its unit. -/
def Tiller.accepts (t : Tiller) (p : Parked) (at_ : DWord) : Bool :=
  t.idx == p.ti && t.pc == at_ && t.fmt == p.fmt && t.stack == p.stack && t.todo.isNone && t.queued.isNone &&
    (match t.st with
     | .ready | .blocked _ | .parked => true
     | _ => false)

/-- Freeing tillers that have no lane left, running or parked (R33, R38, R369). -/
def Sheaf.sweep (x : Sheaf) : Sheaf :=
  { x with tillers := x.tillers.filter (fun t => t.mask != 0 || x.parked.any (fun p => p.ti == t.idx)) }

/-- A new tiller in the lowest free entry of the split table (R48), with the tiller whose stall count, records and arrival it
takes. -/
def Sheaf.addTiller (x : Sheaf) (pc : DWord) (mask : Mask) (fmt : Word) (stack : List (BitVec 8)) (st : TSt)
    (prods : List Prod) (stallEnd since : Nat) : Sheaf :=
  match firstFree 64 (x.tillers.map Tiller.idx) with
  | none => x
  | some n =>
    let t : Tiller :=
      { idx := n, pc := pc, mask := mask, fmt := fmt, stack := stack, st := st, age := 0, yielded := false,
        prods := prods, todo := none, probed := false, stallEnd := stallEnd, since := since, queued := none }
    { x with tillers := putBy Tiller.idx t x.tillers }

/-- Resuming one parked lane at a point, in a state: into its tiller when that accepts it, else into a new tiller that
RFT made for the same point, FMT and stack in this cycle, else into a new tiller (R369). A lane whose wait still stands
goes back to its own tiller while that is parked, or waits as the lane did (R50), where it resumes with that tiller. An entry
that the lane was the last to hold is free for the new tiller, so that the table never overflows (R33; log 118). `fresh` are the
tillers made so far by this RFT. -/
def Sheaf.unpark (x : Sheaf) (fresh : List Nat) (p : Parked) (at_ : DWord) (st : TSt) : Sheaf × List Nat :=
  let x := { x with parked := x.parked.filter (fun y => y.lane != p.lane) }
  let bit := Mask.ofLanes [p.lane]
  let same (t : Tiller) : Bool :=
    fresh.contains t.idx && t.pc == at_ && t.fmt == p.fmt && t.stack == p.stack && t.st == st
  let own (t : Tiller) : Bool :=
    if st == .ready then t.accepts p at_
    else t.idx == p.ti && t.fmt == p.fmt && t.stack == p.stack && (t.st == .parked || t.st == st)
  match x.tillers.find? own with
  | some t =>
    (x.updTiller t.idx (fun t =>
      if t.st = .parked then { t with mask := t.mask ||| bit, pc := at_, st := st, since := p.since, age := 0 }
      else { t with mask := t.mask ||| bit }), fresh)
  | none =>
    match x.tillers.find? same with
    | some t => (x.updTiller t.idx (fun t => { t with mask := t.mask ||| bit }), fresh)
    | none =>
      let x := x.sweep
      let y := x.addTiller at_ bit p.fmt p.stack st [] 0 p.since
      let added := (y.tillers.map Tiller.idx).filter (fun n => !(x.tillers.map Tiller.idx).contains n)
      (y, fresh ++ added)

/-! ## Issue and retirement -/

/-- Threads for which the guard of a non-uniform instruction is true (R81). -/
def Frame.guardMask (f : Frame) (h : Hdr) (cycle : Nat) : Mask :=
  let p : Mask :=
    if h.gp == 15 then Mask.full
    else Mask.ofLanes ((List.range 64).filter (fun t => f.read cycle (.p h.gp.toNat t) != 0))
  if h.gn then ~~~p else p

/-- The guard of a uniform instruction (R26, R81). -/
def Frame.guardU (f : Frame) (h : Hdr) (cycle : Nat) : Bool :=
  let q := if h.gp == 15 then true else f.read cycle (.q h.gp.toNat) != 0
  q != h.gn

/-- The threads in which a non-uniform instruction acts (R81, R166). -/
def Frame.active (f : Frame) (h : Hdr) (cycle : Nat) : Mask := f.t.mask &&& f.guardMask h cycle

/-- Whether stall checking is enabled for the sheaf's context (R93, R372). -/
def State.stallChecked (s : State) (f : Frame) : Bool :=
  f.g.ctx < 32 && (s.die (dieOf f.g.core)).stallchk.getLsbD f.g.ctx

/-- An uncovered reader: it reads a register that a pending producer of its tiller wrote, and the stall counts since
that producer sum to less than its latency (R93). -/
def State.uncovered (s : State) (f : Frame) (i : Instr) : Bool :=
  let ks := s.readKeys (dieOf f.g.core) i
  f.t.prods.any (fun p => decide (p.stSum < p.lat) && p.regs.any ks.contains)

/-- The decode fault of an instruction in a frame, if any (R91): 0x01, then 0x03, then 0x02. -/
def State.decodeFault (s : State) (f : Frame) (i : Instr) : Option (BitVec 8) :=
  let die := dieOf f.g.core
  let slot : Option Nat := match i with
    | .seqx k _ _ => some k.val
    | _ => none
  let fn : Nat := match i with
    | .seqx _ _ x => x.fn.toNat
    | _ => 0
  let microBad := match slot with
    | some k => match s.microShape die k with
      | some d => !d.fns.contains fn
      | none => true
    | none => false
  let microLim := match i with
    | .seqx _ _ x =>
      let (w, wa, inp, ia, b, ba) := s.seqShapeOf die i x
      x.lim f.sh.budget w wa inp ia b ba
    | _ => true
  if i.reject.isSome || !i.wf || microBad then some 0x01
  else if (stewardOnly i.op && !f.steward) || (handlerOnly i.op && !f.handler) then some 0x03
  else if !(i.operandsOk f.sh.budget f.handler) || !microLim then some 0x02
  else none

/-- A later instruction without a guard that writes a register of a pending record replaces its result: who reads the
register then reads another producer's (R93). -/
def Prod.replaced (p : Prod) (cycle : Nat) (i : Instr) : Prod :=
  let sure := match i.hdr with
    | some h => h.gp == 15 && !h.gn
    | none => false
  if p.issued = cycle || !sure then p else { p with regs := p.regs.filter (fun k => !(writeRegs i).contains k) }

/-- What the issue of an instruction does to its tiller beside its effect: the PC moves past it, its stall count, from the
cycle of its issue, blocks the tiller and counts in the pending records, and its Y bit is noted (R45, R79, R92, R93). -/
def Tiller.advance (t : Tiller) (cycle : Nat) (i : Instr) : Tiller :=
  let st := match i.hdr with
    | some h => h.st.toNat
    | none => 0
  let y := match i.hdr with
    | some h => h.y
    | none => false
  let stallEnd := ((t.queued.map Queued.cycle).getD cycle) + 1 + st
  { t with pc := t.pc + BitVec.ofNat 64 i.size, yielded := y, todo := none, queued := none, stallEnd := stallEnd,
           prods := (t.prods.map (fun p => { p.replaced cycle i with stSum := p.stSum + st })).filter (fun p => p.stSum < p.lat),
           st := if stallEnd ≤ cycle + 1 then .ready else .blocked (.stall stallEnd) }

/-- Retiring register results: a fixed-latency result is written with a record of its registers and the old values, whether
or not a guard lets any thread write (R93, R94); a variable-latency result waits in the scoreboard (R92). -/
def State.retire (s : State) (f : Frame) (i : Instr) (ws : List RegWrite) : State :=
  match i.latency with
  | some l =>
    let p : Prod :=
      { regs := writeRegs i, old := ws.map (fun w => { w with val := f.sh.read w.key }), lat := l, stSum := 0,
        issued := s.cycle }
    s.updS f (fun x => (x.write ws).updTiller f.t.idx (fun t => { t with prods := p :: t.prods }))
  | none => if ws.isEmpty then s else s.updS f (fun x => { x with board := x.board ++ [{ mem := false, writes := ws }] })

/-- Moving the tiller of a frame past its instruction. -/
def State.advance (s : State) (f : Frame) (i : Instr) : State := s.updT f (fun t => t.advance s.cycle i)

/-- The common frame of every sheaf-stream instruction: nothing executes without a tiller; a decode fault (R91) or an
uncovered read under stall checking (R93) traps every active lane before anything changes; else the instruction has
its effect. -/
def issue (i : Instr) (s : State) (effect : Frame → State → State) : Host.Outcome State Fault Refusal :=
  match s.frame? with
  | none => .fault .noTiller
  | some f =>
    match s.decodeFault f i with
    | some cause => .next (s.trapAll f i.size cause 0)
    | none =>
      if s.stallChecked f && s.uncovered f i then .next (s.trapAll f i.size 0x07 0)
      else .next (effect f s)

end Sys2Proof.Machine
end

