-- ==== Sys2Proof/Machine/Operands.lean ====
section
/-! DEFINITION. Every operand form: registers, inline constants, special registers, pairs and packed halves, read for
one thread or for the scalar unit, and the register writes of a destination (R26, R86 to R89, R165, R166). -/

namespace Sys2Proof.Machine

/-- The reader of operands: one thread of the frame's tiller, or the scalar unit when `lane` is none. -/
structure Rd where
  s : State
  f : Frame
  lane : Option Nat
  deriving DecidableEq, Repr

/-- The thread number of a reader; the scalar unit counts as thread 0 (R169). -/
def Rd.thr (r : Rd) : Nat := r.lane.getD 0

/-- The inline F32 constants in code order (R87). -/
def fcTable : List Word :=
  [0x00000000, 0x3F800000, 0xBF800000, 0x3F000000, 0xBF000000, 0x40000000, 0xC0000000, 0x40800000,
   0xC0800000, 0x3E800000, 0x41000000, 0x41800000, 0x41200000, 0x40400000, 0x3E000000, 0x437F0000,
   0x3B808081, 0x42FE0000, 0x43700000, 0x40490FDB, 0x40C90FDB, 0x3FC90FDB, 0x3EA2F983, 0x3F317218,
   0x3FB8AA3B, 0x40549A78, 0x3FB504F3, 0x3F3504F3, 0x7F800000, 0xFF800000, 0x7F7FFFFF, 0x7FC00000]

/-- Group indexes x, y and z of a linear number g = x + gx × (y + gy × z) (R267). -/
def gidX (g : Group) : Nat := g.linear % g.launch.gx.toNat
def gidY (g : Group) : Nat := g.linear / g.launch.gx.toNat % g.launch.gy.toNat
def gidZ (g : Group) : Nat := g.linear / g.launch.gx.toNat / g.launch.gy.toNat

/-- The value of a special register, a 32-bit one zero-extended (R9, R23, R88, R366). Of a launch
without a panicle shape sr.pdim reads the record's bytes, which are 0 (DESIGN CHOICE; log 139). -/
def Rd.special (r : Rd) (x : SReg) : DWord :=
  let g := r.f.g
  let t := r.thr
  let n (k : Nat) : DWord := BitVec.ofNat 64 (k % 2 ^ 32)
  match x with
  | .tidX => n (64 * r.f.sh.idx + t)
  | .tidY | .tidZ => 0
  | .thr => n t
  | .quad => n (t / 4)
  | .lane => n (t % 4)
  | .sheaf => n r.f.sh.idx
  | .gidX => n (gidX g)
  | .gidY => n (gidY g)
  | .gidZ => n (gidZ g)
  | .gdimX => n g.launch.gx.toNat
  | .gdimY => n g.launch.gy.toNat
  | .gdimZ => n g.launch.gz.toNat
  | .pslot => n g.pslot
  | .pdim => n (g.launch.pw.toNat + 256 * g.launch.ph.toNat)
  | .core => n (coreOf g.core)
  | .die => n (dieOf g.core)
  | .dev => n r.s.devnum
  | .ctx => n g.ctx
  | .stc => BitVec.ofNat 64 r.s.stc
  | .grc => n g.grc.toNat
  | .fmt => n r.f.t.fmt.toNat
  | .helper => if r.f.sh.helpers.getLsbD t then 1 else 0
  | .active => r.f.t.mask
  | .origin => ((g.entries[t]?).map Entry.origin).getD 0
  | .cause => (((g.entries[t]?).map Entry.cause).getD 0).setWidth 64

/-- A register cell as this reader sees it (R94). -/
def Rd.key (r : Rd) (k : Key) : Word := r.f.read r.s.cycle k

/-- Register i above the one an operand names: a vector register of the thread, or a scalar; nothing above sz, which
reads 0 in every part (R86). -/
def Rd.reg (r : Rd) (o : Opd) (i : Nat) : Word :=
  match o with
  | .v n => r.key (.v (n.val + i) r.thr)
  | .s n => r.key (.s (n.val + i))
  | _ => 0

/-- A 32-bit operand (R86, R87, R165). -/
def Rd.w32 (r : Rd) (o : Opd) : Word :=
  match o with
  | .int n => BitVec.ofNat 32 n.val
  | .fc n => fcTable.getD n.val 0
  | .sr x => (r.special x).setWidth 32
  | _ => r.reg o 0

/-- A 64-bit operand: the even register holds bits 31:0 (R52, R87, R89). -/
def Rd.w64 (r : Rd) (o : Opd) : DWord :=
  match o with
  | .int n => BitVec.ofNat 64 n.val
  | .fc n => (fcTable.getD n.val 0).setWidth 64
  | .sr x => r.special x
  | _ => r.reg o 1 ++ r.reg o 0

/-- A predicate operand (R165). -/
def Rd.pr (r : Rd) (o : Opd) : Bool :=
  match o with
  | .p n => r.key (.p n.val r.thr) != 0
  | .q n => r.key (.q n.val) != 0
  | .pt | .qt => true
  | _ => false

/-- One half of a packed 16-bit operand: an inline F32 constant supplies both halves, rounded under RNE (R87). -/
def Rd.half (r : Rd) (fmt : FFmt) (o : Opd) (k : Nat) : Nat :=
  match o with
  | .fc n => fmt.round .rne false false false (fF32.decode false (fcTable.getD n.val 0).toNat)
  | _ => (r.w32 o).toNat / 2 ^ (16 * k) % 2 ^ 16

/-- Writing register i above the one a destination names; a write to sz is discarded (R86). -/
def Rd.putReg (r : Rd) (d : Opd) (i : Nat) (v : Word) : List RegWrite :=
  match d with
  | .v n => [{ key := .v (n.val + i) r.thr, val := v }]
  | .s n => [{ key := .s (n.val + i), val := v }]
  | _ => []

/-- Writing a 32-bit destination. -/
def Rd.put (r : Rd) (d : Opd) (v : Word) : List RegWrite := r.putReg d 0 v

/-- Writing a destination pair. -/
def Rd.put64 (r : Rd) (d : Opd) (v : DWord) : List RegWrite :=
  r.putReg d 0 (v.setWidth 32) ++ r.putReg d 1 ((v >>> 32).setWidth 32)

/-- Writing consecutive registers. -/
def Rd.puts (r : Rd) (d : Opd) (vs : List Word) : List RegWrite :=
  vs.zipIdx.flatMap (fun e => r.putReg d e.2 e.1)

/-- Writing a predicate; a write to pt or qt is discarded (R86). -/
def Rd.putPr (r : Rd) (d : Opd) (b : Bool) : List RegWrite :=
  let v : Word := if b then 1 else 0
  match d with
  | .p n => [{ key := .p n.val r.thr, val := v }]
  | .q n => [{ key := .q n.val, val := v }]
  | _ => []

/-- The readers for which an instruction acts: each active thread, or the scalar unit once when the guard of a uniform
instruction is true (R26, R81, R166). -/
def readers (f : Frame) (h : Hdr) (s : State) : List Rd :=
  if h.u then (if f.guardU h s.cycle then [{ s := s, f := f, lane := none }] else [])
  else (f.active h s.cycle).lanes.map (fun t => { s := s, f := f, lane := some t })

/-- An instruction on registers alone: every reader computes its register writes from values read before any is
written, the results retire, and the tiller moves on (R166). -/
def regOp (i : Instr) (h : Hdr) (s : State) (eval : Rd → List RegWrite) : Host.Outcome State Fault Refusal :=
  issue i s (fun f s => (s.retire f i ((readers f h s).flatMap eval)).advance f i)

/-- The same for an instruction whose result in one thread depends on the other active threads: `eval` is given all
the readers (R206 to R212). -/
def crossOp (i : Instr) (h : Hdr) (s : State) (eval : List Rd → List RegWrite) : Host.Outcome State Fault Refusal :=
  issue i s (fun f s => (s.retire f i (eval (readers f h s))).advance f i)

/-! ## The format register (R60) -/

/-- FMT.RND. -/
def fmtRnd (w : Word) : RMode := .ofCode (w.extractLsb' 0 3).toNat
/-- FMT.SAT. -/
def fmtSat (w : Word) : Bool := w.getLsbD 3
/-- FMT.FTZ. -/
def fmtFtz (w : Word) : Bool := w.getLsbD 4
/-- FMT.NFMT: 0 KI8, 1 KI4, 2 KF8, 3 F16, 4 BF16. -/
def fmtNfmt (w : Word) : Nat := (w.extractLsb' 5 3).toNat
/-- FMT.BSC. -/
def fmtBsc (w : Word) : Bool := w.getLsbD 8
/-- FMT.SEED. -/
def fmtSeed (w : Word) : BitVec 16 := w.extractLsb' 16 16

/-- The values that FMT may hold (R61). -/
def fmtOk (w : Word) : Bool := w.extractLsb' 0 3 ≤ 5 && w.extractLsb' 5 3 ≤ 4 && w.extractLsb' 9 7 == 0

/-- The FMT of a reader's tiller. -/
def Rd.fmt (r : Rd) : Word := r.f.t.fmt

/-- A value that threads of one instruction round under the stochastic hash: the thread, and d of R66. -/
abbrev HashTab := List (Nat × Nat)

/-- d of a thread; 0 outside the active mask (R66). -/
def HashTab.d (h : HashTab) (t : Nat) : Nat := ((h.find? (fun e => e.1 == t)).map Prod.snd).getD 0

/-- The decision of R66 for a reader and element j. The scalar unit is thread 0 of a quad whose other threads have
d = 0 (R169). -/
def Rd.away (r : Rd) (h : HashTab) (j : Nat) : Bool :=
  let t := r.thr
  shAway (h.d t) (h.d (t ^^^ 1)) (h.d (t ^^^ 2)) (fmtSeed r.fmt) j

/-- The table of d for element values of all readers. -/
def hashTab (rs : List Rd) (d : Rd → Nat) : HashTab := rs.map (fun r => (r.thr, d r))

end Sys2Proof.Machine
end

