-- ==== Sys2Proof/Machine/Flags.lean ====
section
/-! DEFINITION. Predicate computations: the comparisons of integers and of floating-point values, their combination
with a predicate, and the three-input tables (R176, R178, R187, R190). The Z48 has no other flags. -/

namespace Sys2Proof.Machine

/-- An integer operand as N32 or I32 (R171). -/
def intOf (u32 : Bool) (w : Word) : Int := if u32 then w.toNat else w.toInt

/-- cmp of ICMP (R178). -/
def icmpRel (code : Nat) (a b : Int) : Bool :=
  match code with
  | 0 => a == b
  | 1 => a != b
  | 2 => a < b
  | 3 => a ≤ b
  | 4 => a > b
  | _ => a ≥ b

/-- comb of ICMP and FCMP (R178, R187). -/
def combine (code : Nat) (x c : Bool) : Bool :=
  match code with
  | 0 => x && c
  | 1 => x || c
  | _ => x != c

/-- cmp of FCMP and HCMP2 (R187): codes 0 to 5 need neither operand NaN, 8 to 13 hold also when either is. -/
def fcmpRel (code : Nat) (a b : Exact) : Bool :=
  let un := a.isNan || b.isNan
  let o := a.cmp b
  let rel : Bool := match code % 8 with
    | 0 => o == .eq
    | 1 => o != .eq
    | 2 => o == .lt
    | 3 => o != .gt
    | 4 => o == .gt
    | _ => o != .lt
  if code = 6 then !un
  else if code = 7 then un
  else if un then decide (8 ≤ code)
  else rel

/-- An entry of an 8-bit table of three inputs, a lowest (R176). -/
def table3 (table : BitVec 8) (a b c : Bool) : Bool :=
  table.getLsbD ((if a then 1 else 0) + (if b then 2 else 0) + (if c then 4 else 0))

/-- The predicate that ICMP writes (R178). -/
def icmpVal (fn : BitVec 8) (a b : Word) (c : Bool) : Bool :=
  combine (fn.extractLsb' 4 2).toNat
    (icmpRel (fn.extractLsb' 0 3).toNat (intOf (fn.getLsbD 3) a) (intOf (fn.getLsbD 3) b)) c

/-- The predicate that FCMP writes (R187). -/
def fcmpVal (fn : BitVec 8) (ftz : Bool) (a b : Word) (c : Bool) : Bool :=
  combine (fn.extractLsb' 4 2).toNat
    (fcmpRel (fn.extractLsb' 0 4).toNat (fF32.decode ftz a.toNat) (fF32.decode ftz b.toNat)) c

/-- The predicate that HCMP2 writes, from the comparisons of the two halves (R190). -/
def hcmpSel (code : Nat) (lo hi : Bool) : Bool :=
  match code with
  | 0 => lo
  | 1 => hi
  | 2 => lo && hi
  | _ => lo || hi

/-- Predicate numbers of an instruction: p0 to p14, or q0 to q6 with U = 1 (R183). -/
def predOpds (u : Bool) : List Opd :=
  if u then (List.finRange 7).map Opd.q else (List.finRange 15).map Opd.p

/-- PMOV.PACK: bit i is predicate i (R183). -/
def packPreds (r : Rd) (u : Bool) : Word :=
  (predOpds u).zipIdx.foldl (fun w e => if r.pr e.1 then w ||| BitVec.ofNat 32 (2 ^ e.2) else w) 0

/-- PMOV.UNPK: predicate i takes bit i of a where bit i of b is 1 (R183). -/
def unpackPreds (r : Rd) (u : Bool) (a b : Word) : List RegWrite :=
  (predOpds u).zipIdx.flatMap (fun e => if b.getLsbD e.2 then r.putPr e.1 (a.getLsbD e.2) else [])

end Sys2Proof.Machine
end

