-- ==== Sys2Proof/Machine/Int.lean ====
section
/-! DEFINITION. Integer arithmetic, bit operations, comparison, selection, moves, predicate operations and KECF
(R171 to R184). -/

namespace Sys2Proof.Machine

/-- What a meaning answers. -/
abbrev Out := Host.Outcome State Fault Refusal

/-- Reduction of an exact result to 32 bits: clamping under .SAT, else trunc (R52, R171). -/
def reduce32 (u32 sat : Bool) (x : Int) : Word :=
  if sat then BitVec.ofInt 32 (if u32 then clampInt 0 (2 ^ 32 - 1) x else clampInt (-(2 ^ 31)) (2 ^ 31 - 1) x)
  else BitVec.ofInt 32 x

/-- A two-source or three-source integer effect under FN bits .U32 and .SAT (R171). -/
def intVal (fn : BitVec 8) (op : Int → Int → Int → Int) (a b c : Word) : Word :=
  let u := fn.getLsbD 0
  reduce32 u (fn.getLsbD 1) (op (intOf u a) (intOf u b) (intOf u c))

/-- Instructions of R171: every source is read as the type, the effect reduced. -/
def intOp (i : Instr) (h : Hdr) (x : FA) (s : State) (op : Int → Int → Int → Int) : Out :=
  regOp i h s (fun r => r.put x.d (intVal x.fn op (r.w32 x.a) (r.w32 x.b) (r.w32 x.c)))

/-- NOP (R171): no effect. -/
def execNop (h : Hdr) (x : FA) (s : State) : Out := regOp (.nop h x) h s (fun _ => [])

/-- IADD (R171). -/
def execIadd (h : Hdr) (x : FA) (s : State) : Out := intOp (.iadd h x) h x s (fun a b _ => a + b)

/-- ISUB (R171). -/
def execIsub (h : Hdr) (x : FA) (s : State) : Out := intOp (.isub h x) h x s (fun a b _ => a - b)

/-- IMUL (R171). -/
def execImul (h : Hdr) (x : FA) (s : State) : Out := intOp (.imul h x) h x s (fun a b _ => a * b)

/-- IMULH (R171): floor of the product over 2^32. -/
def execImulh (h : Hdr) (x : FA) (s : State) : Out := intOp (.imulh h x) h x s (fun a b _ => a * b / 2 ^ 32)

/-- IMAD (R171). -/
def execImad (h : Hdr) (x : FA) (s : State) : Out := intOp (.imad h x) h x s (fun a b c => a * b + c)

/-- IMIN (R171). -/
def execImin (h : Hdr) (x : FA) (s : State) : Out := intOp (.imin h x) h x s (fun a b _ => min a b)

/-- IMAX (R171). -/
def execImax (h : Hdr) (x : FA) (s : State) : Out := intOp (.imax h x) h x s (fun a b _ => max a b)

/-- IABSD (R171): |a − b| + c, with c read as N32. -/
def execIabsd (h : Hdr) (x : FA) (s : State) : Out :=
  regOp (.iabsd h x) h s (fun r =>
    let u := x.fn.getLsbD 0
    let d := intOf u (r.w32 x.a) - intOf u (r.w32 x.b)
    r.put x.d (BitVec.ofInt 32 (d.natAbs + (r.w32 x.c).toNat)))

/-- The quotient and its edge cases (R172). -/
def idivVal (fn : BitVec 8) (a b : Word) : Word :=
  let u := fn.getLsbD 0
  let sat := fn.getLsbD 1
  if b = 0 then
    if u || !sat then 0xFFFFFFFF else if a.toInt ≥ 0 then 0x7FFFFFFF else 0x80000000
  else if u then BitVec.ofNat 32 (a.toNat / b.toNat)
  else reduce32 false sat (a.toInt.tdiv b.toInt)

/-- The remainder, with the sign of a (R172). -/
def iremVal (fn : BitVec 8) (a b : Word) : Word :=
  if b = 0 then a
  else if fn.getLsbD 0 then BitVec.ofNat 32 (a.toNat % b.toNat)
  else BitVec.ofInt 32 (a.toInt.tmod b.toInt)

/-- IDIV (R172). -/
def execIdiv (h : Hdr) (x : FA) (s : State) : Out :=
  regOp (.idiv h x) h s (fun r => r.put x.d (idivVal x.fn (r.w32 x.a) (r.w32 x.b)))

/-- IREM (R172). -/
def execIrem (h : Hdr) (x : FA) (s : State) : Out :=
  regOp (.irem h x) h s (fun r => r.put x.d (iremVal x.fn (r.w32 x.a) (r.w32 x.b)))

/-- The 64-bit sum, b being a pair or a 32-bit operand extended by the type (R173). -/
def iadd64Val (fn : BitVec 8) (a b : DWord) : DWord :=
  let u := fn.getLsbD 0
  let x : Int := if u then (a.toNat : Int) + b.toNat else a.toInt + b.toInt
  if fn.getLsbD 1 then
    BitVec.ofInt 64 (if u then clampInt 0 (2 ^ 64 - 1) x else clampInt (-(2 ^ 63)) (2 ^ 63 - 1) x)
  else BitVec.ofInt 64 x

/-- IADD64 (R173). -/
def execIadd64 (h : Hdr) (x : FA) (s : State) : Out :=
  regOp (.iadd64 h x) h s (fun r =>
    let b : DWord :=
      if x.fn.getLsbD 2 then
        (if x.fn.getLsbD 0 then (r.w32 x.b).setWidth 64 else (r.w32 x.b).signExtend 64)
      else r.w64 x.b
    r.put64 x.d (iadd64Val x.fn (r.w64 x.a) b))

/-- a + ext(b) × 2^n, modulo 2^64 (R174). -/
def leaVal (fn : BitVec 8) (a : DWord) (b : Word) : DWord :=
  let e : DWord := if fn.getLsbD 3 then b.setWidth 64 else b.signExtend 64
  a + (e <<< (fn.extractLsb' 0 3).toNat)

/-- LEA (R174). -/
def execLea (h : Hdr) (x : FA) (s : State) : Out :=
  regOp (.lea h x) h s (fun r => r.put64 x.d (leaVal x.fn (r.w64 x.a) (r.w32 x.b)))

/-- Element k of w bits of a word, signed or unsigned (R53). -/
def elemOf (w : Nat) (unsigned : Bool) (v : Word) (k : Nat) : Int :=
  let e := v.toNat / 2 ^ (w * k) % 2 ^ w
  if unsigned then e else sextNat w e

/-- The dot product of four 8-bit or eight 4-bit elements (R175). -/
def idot4Val (fn : BitVec 8) (a b c : Word) : Word :=
  let w := if fn.getLsbD 3 then 4 else 8
  let sum := (List.range (32 / w)).foldl (fun acc k =>
    acc + elemOf w (fn.getLsbD 0) a k * elemOf w (fn.getLsbD 1) b k) c.toInt
  reduce32 false (fn.getLsbD 2) sum

/-- IDOT4 (R175). -/
def execIdot4 (h : Hdr) (x : FA) (s : State) : Out :=
  regOp (.idot4 h x) h s (fun r => r.put x.d (idot4Val x.fn (r.w32 x.a) (r.w32 x.b) (r.w32 x.c)))

/-! ## Bit operations -/

/-- Bit i of the result is bit (a_i + 2 b_i + 4 c_i) of the table (R176). -/
def bitfVal (table : BitVec 8) (a b c : Word) : Word :=
  (List.range 8).foldl (fun acc k =>
    if table.getLsbD k then
      acc ||| ((if k % 2 = 1 then a else ~~~a) &&& (if k / 2 % 2 = 1 then b else ~~~b) &&&
        (if k / 4 = 1 then c else ~~~c))
    else acc) 0

/-- BITF (R176). -/
def execBitf (h : Hdr) (x : FA) (s : State) : Out :=
  regOp (.bitf h x) h s (fun r => r.put x.d (bitfVal x.fn (r.w32 x.a) (r.w32 x.b) (r.w32 x.c)))

/-- The shift amount: b mod 32 under .W (R177). -/
def shiftBy (fn : BitVec 8) (b : Word) : Nat := if fn.getLsbD 0 then b.toNat % 32 else b.toNat

/-- SHL's value: 0 for a shift of 32 or more (R177). -/
def shlVal (fn : BitVec 8) (a b : Word) : Word := if shiftBy fn b ≥ 32 then 0 else a <<< shiftBy fn b

/-- SHR's value: logical, or arithmetic under .A (R177). -/
def shrVal (fn : BitVec 8) (a b : Word) : Word :=
  let n := shiftBy fn b
  if n ≥ 32 then (if fn.getLsbD 1 && a.msb then 0xFFFFFFFF else 0)
  else if fn.getLsbD 1 then a.sshiftRight n
  else a >>> n

/-- SHL (R177). -/
def execShl (h : Hdr) (x : FA) (s : State) : Out :=
  regOp (.shl h x) h s (fun r => r.put x.d (shlVal x.fn (r.w32 x.a) (r.w32 x.b)))

/-- SHR (R177). -/
def execShr (h : Hdr) (x : FA) (s : State) : Out :=
  regOp (.shr h x) h s (fun r => r.put x.d (shrVal x.fn (r.w32 x.a) (r.w32 x.b)))

/-- The field of BFX and BFI: position and clipped length, or none (R177). -/
def bitField (b : Word) : Option (Nat × Nat) :=
  let pos := b.toNat % 256
  let len := b.toNat / 256 % 256
  if pos ≥ 32 ∨ len = 0 then none else some (pos, min len (32 - pos))

/-- BFX's value (R177). -/
def bfxVal (fn : BitVec 8) (a b : Word) : Word :=
  match bitField b with
  | none => 0
  | some (pos, l) =>
    let v := a.toNat / 2 ^ pos % 2 ^ l
    if fn.getLsbD 0 then BitVec.ofInt 32 (sextNat l v) else BitVec.ofNat 32 v

/-- BFI's value (R177). -/
def bfiVal (a b c : Word) : Word :=
  match bitField b with
  | none => c
  | some (pos, l) =>
    let m : Word := BitVec.ofNat 32 ((2 ^ l - 1) * 2 ^ pos)
    (c &&& ~~~m) ||| ((a <<< pos) &&& m)

/-- BFX (R177). -/
def execBfx (h : Hdr) (x : FA) (s : State) : Out :=
  regOp (.bfx h x) h s (fun r => r.put x.d (bfxVal x.fn (r.w32 x.a) (r.w32 x.b)))

/-- BFI (R177). -/
def execBfi (h : Hdr) (x : FA) (s : State) : Out :=
  regOp (.bfi h x) h s (fun r => r.put x.d (bfiVal (r.w32 x.a) (r.w32 x.b) (r.w32 x.c)))

/-- The number of 1 bits (R177). -/
def popcVal (a : Word) : Word := BitVec.ofNat 32 ((List.range 32).filter (fun i => a.getLsbD i)).length

/-- The number of leading 0 bits; under .S the number of bits below bit 31 that equal it before the first that
differs (R177). -/
def clzVal (fn : BitVec 8) (a : Word) : Word :=
  if fn.getLsbD 0 then
    let y := if a.msb then ~~~a else a
    BitVec.ofNat 32 (31 - bitLen y.toNat)
  else BitVec.ofNat 32 (32 - bitLen a.toNat)

/-- Bit reversal (R177). -/
def brevVal (a : Word) : Word :=
  (List.range 32).foldl (fun acc i => if a.getLsbD i then acc ||| BitVec.ofNat 32 (2 ^ (31 - i)) else acc) 0

/-- POPC (R177). -/
def execPopc (h : Hdr) (x : FA) (s : State) : Out :=
  regOp (.popc h x) h s (fun r => r.put x.d (popcVal (r.w32 x.a)))

/-- CLZ (R177). -/
def execClz (h : Hdr) (x : FA) (s : State) : Out :=
  regOp (.clz h x) h s (fun r => r.put x.d (clzVal x.fn (r.w32 x.a)))

/-- BREV (R177). -/
def execBrev (h : Hdr) (x : FA) (s : State) : Out :=
  regOp (.brev h x) h s (fun r => r.put x.d (brevVal (r.w32 x.a)))

/-! ## Comparison, selection and moves -/

/-- ICMP (R178). -/
def execIcmp (h : Hdr) (x : FA) (s : State) : Out :=
  regOp (.icmp h x) h s (fun r => r.putPr x.d (icmpVal x.fn (r.w32 x.a) (r.w32 x.b) (r.pr x.c)))

/-- SEL (R179). -/
def execSel (h : Hdr) (x : FA) (s : State) : Out :=
  regOp (.sel h x) h s (fun r => r.put x.d (if r.pr x.c then r.w32 x.a else r.w32 x.b))

/-- MOV and MOV.64 (R180). -/
def execMov (h : Hdr) (x : FA) (s : State) : Out :=
  regOp (.mov h x) h s (fun r => if x.fn == 1 then r.put64 x.d (r.w64 x.a) else r.put x.d (r.w32 x.a))

/-- The low 32 bits of an immediate's second word, or IMM24 extended (R181). -/
def immVal (signed : Bool) : Imm → Word
  | .short w => if signed then w.signExtend 32 else w.setWidth 32
  | .long w => w.setWidth 32

/-- MOVI with a sign-extended IMM24 (R181). -/
def execMovi (h : Hdr) (x : FI) (s : State) : Out :=
  regOp (.movi h x) h s (fun r => r.put x.d (immVal true x.imm))

/-- MOVI.Z with a zero-extended IMM24 (R181). -/
def execMoviZ (h : Hdr) (x : FI) (s : State) : Out :=
  regOp (.moviZ h x) h s (fun r => r.put x.d (immVal false x.imm))

/-- MOVI of the long form (R181). -/
def execMoviLong (h : Hdr) (x : FI) (s : State) : Out :=
  regOp (.moviLong h x) h s (fun r => r.put x.d (immVal false x.imm))

/-- MOVI.64 (R181). -/
def execMovi64 (h : Hdr) (x : FI) (s : State) : Out :=
  regOp (.movi64 h x) h s (fun r => r.put64 x.d (match x.imm with
    | .short w => w.setWidth 64
    | .long w => w))

/-! ## Predicate operations -/

/-- PBITF (R182). -/
def execPbitf (h : Hdr) (x : FA) (s : State) : Out :=
  regOp (.pbitf h x) h s (fun r => r.putPr x.d (table3 x.fn (r.pr x.a) (r.pr x.b) (r.pr x.c)))

/-- PMOV.PACK (R183). -/
def execPmovPack (h : Hdr) (x : FA) (s : State) : Out :=
  regOp (.pmovPack h x) h s (fun r => r.put x.d (packPreds r h.u))

/-- PMOV.UNPK (R183). -/
def execPmovUnpk (h : Hdr) (x : FA) (s : State) : Out :=
  regOp (.pmovUnpk h x) h s (fun r => unpackPreds r h.u (r.w32 x.a) (r.w32 x.b))

/-! ## KECF -/

/-- The 25 lanes in the 50 scalars from d: lane i has bits 31:0 in register 2i and bits 63:32 in 2i + 1 (R184). -/
def kecfLanes (r : Rd) (d : Opd) : List DWord := (List.range 25).map (fun i => r.reg d (2 * i + 1) ++ r.reg d (2 * i))

/-- KECF (R184). -/
def execKecf (h : Hdr) (x : FA) (s : State) : Out :=
  regOp (.kecf h x) h s (fun r =>
    let r0 := match x.a with
      | .int n => n.val
      | _ => 0
    let a := keccakRounds r0 x.fn.toNat (kecfLanes r x.d)
    r.puts x.d (a.flatMap (fun (l : DWord) => [l.setWidth 32, (l >>> 32).setWidth 32])))

end Sys2Proof.Machine
end

