-- ==== Sys2Proof/Machine/Transcend.lean ====
section
/-! DEFINITION. 2^a, log2 a, sin a and cos a as exact values cut off far below the last place that a rounding
reads (R186). All arithmetic is on naturals in fixed point with `fxBits` fraction bits (log 21). -/

namespace Sys2Proof.Machine

/-- Fraction bits of the fixed-point arithmetic (log 21). -/
def fxBits : Nat := 1400

/-- The fixed-point 1. -/
def fxOne : Nat := 2 ^ fxBits

/-- Σ z^(2k+1) / (2k+1), alternating or not: n more terms from the odd denominator d, with p the current power. -/
def fxOddSeries (z2 : Nat) (alt : Bool) : Nat → Nat → Nat → Int → Int
  | 0, _, _, acc => acc
  | n + 1, d, p, acc =>
    if p = 0 then acc
    else fxOddSeries z2 alt n (d + 2) (p * z2 / fxOne)
      (if alt && d % 4 == 3 then acc - (p / d : Nat) else acc + (p / d : Nat))

/-- atan(1/n). -/
def fxAtanInv (n : Nat) : Nat := (fxOddSeries (fxOne / (n * n)) true 1400 1 (fxOne / n) 0).toNat

/-- π, by Machin's formula. -/
def fxPi : Nat := 4 * (4 * fxAtanInv 5 - fxAtanInv 239)

/-- atanh(z) for a fixed-point z below 1/2. -/
def fxAtanh (z : Nat) : Nat := (fxOddSeries (z * z / fxOne) false 1400 1 z 0).toNat

/-- ln 2 = 2 atanh(1/3). -/
def fxLn2 : Nat := 2 * fxAtanh (fxOne / 3)

/-- Σ x^k / k!: n more terms, the next being the k-th, with p the last term. -/
def fxExpSeries (x : Nat) : Nat → Nat → Nat → Nat → Nat
  | 0, _, _, acc => acc
  | n + 1, k, p, acc =>
    let q := p * x / fxOne / k
    if q = 0 then acc else fxExpSeries x n (k + 1) q (acc + q)

/-- e^x for a fixed-point x below 1. -/
def fxExp (x : Nat) : Nat := fxExpSeries x 600 1 fxOne fxOne

/-- The alternating series of sin (k = 1, p = x) or cos (k = 0, p = 1): n more terms. -/
def fxTrigSeries (x2 : Nat) : Nat → Nat → Nat → Bool → Int → Int
  | 0, _, _, _, acc => acc
  | n + 1, k, p, minus, acc =>
    if p = 0 then acc
    else fxTrigSeries x2 n (k + 2) (p * x2 / fxOne / ((k + 1) * (k + 2))) (!minus)
      (if minus then acc - p else acc + p)

/-- sin of a fixed-point x from 0 to π/2. -/
def fxSin (x : Nat) : Nat := (fxTrigSeries (x * x / fxOne) 600 1 x false 0).toNat

/-- cos of a fixed-point x from 0 to π/2. -/
def fxCos (x : Nat) : Nat := (fxTrigSeries (x * x / fxOne) 600 0 fxOne false 0).toNat

/-- A fixed-point magnitude that is the value cut off. -/
def fxExact (neg : Bool) (m : Nat) : Exact := .fin neg m (-(fxBits : Int)) true

/-- 2^a (R186): exact for an integer a; beyond ±1,000 a value that every format overflows or loses. -/
def Exact.exp2 : Exact → Exact
  | .nan => .nan
  | .inf s => if s then .zero false else .inf false
  | .fin s m e _ =>
    if m = 0 then .fin false 1 0 false
    else if e + bitLen m > 10 then .fin false 1 (if s then -1000 else 1000) true
    else
      let c := chopAt m e 0 false
      if c.exact then .fin false 1 (if s then -(c.q : Int) else c.q) false
      else
        -- the fraction in fixed point; for a negative a, the distance up from the next integer below
        let f := if e < 0 then m * fxOne / 2 ^ (-e).toNat % fxOne else 0
        let f := if s then fxOne - f else f
        let n : Int := if s then -(c.q : Int) - 1 else c.q
        .fin false (fxExp (f * fxLn2 / fxOne)) (n - fxBits) true

/-- log2 a (R186): exact for a power of two; −∞ for a zero, NaN below 0. -/
def Exact.log2 : Exact → Exact
  | .nan => .nan
  | .inf s => if s then .nan else .inf false
  | .fin s m e _ =>
    if m = 0 then .inf true
    else if s then .nan
    else
      let k := bitLen m - 1
      let n : Int := e + k
      if m = 2 ^ k then .ofInt n
      else
        -- log2 (m / 2^k) = 2 atanh((m − 2^k) / (m + 2^k)) / ln 2
        let l := 2 * fxAtanh ((m - 2 ^ k) * fxOne / (m + 2 ^ k)) * fxOne / fxLn2
        let v : Int := n * (fxOne : Int) + l
        fxExact (v < 0) v.natAbs

/-- The quadrant of |a| and the rest from 0 to π/2, for a nonzero magnitude m × 2^e. -/
def fxQuadrant (m : Nat) (e : Int) : Nat × Nat :=
  let half := fxPi / 2
  let x := if e ≥ 0 then m * 2 ^ e.toNat * fxOne else m * fxOne / 2 ^ (-e).toNat
  (x / half % 4, x % half)

/-- sin a (R186). -/
def Exact.sin : Exact → Exact
  | .nan | .inf _ => .nan
  | .fin s m e _ =>
    if m = 0 then .zero s
    else match fxQuadrant m e with
      | (0, r) => fxExact s (fxSin r)
      | (1, r) => fxExact s (fxCos r)
      | (2, r) => fxExact (!s) (fxSin r)
      | (_, r) => fxExact (!s) (fxCos r)

/-- cos a (R186). -/
def Exact.cos : Exact → Exact
  | .nan | .inf _ => .nan
  | .fin _ m e _ =>
    if m = 0 then .fin false 1 0 false
    else match fxQuadrant m e with
      | (0, r) => fxExact false (fxCos r)
      | (1, r) => fxExact true (fxSin r)
      | (2, r) => fxExact true (fxCos r)
      | (_, r) => fxExact false (fxSin r)

end Sys2Proof.Machine
end

