-- ==== Sys2Proof/Machine/Fp.lean ====
section
/-! DEFINITION. F32 and packed 16-bit arithmetic (R185 to R190). -/

namespace Sys2Proof.Machine

/-- An F32 source: read under FTZ, then |x|, then −x, by the bits of FN that start at `bit` (R185). -/
def fpSrc (ftz : Bool) (fn : BitVec 8) (bit : Nat) (w : Word) : Exact :=
  let v := fF32.decode ftz w.toNat
  let v := if fn.getLsbD (bit + 1) then v.abs else v
  if fn.getLsbD bit then v.neg else v

/-- .SATF: clamp to +0 ≤ d ≤ 1.0; −0 and NaN give +0 (R185). -/
def satF (w : Nat) : Nat :=
  if w ≥ 2 ^ 31 then 0
  else if w > fF32.infBits then 0
  else if w > 0x3F800000 then 0x3F800000
  else w

/-- d of each reader, needed only under SH (R66). -/
def shTab (rs : List Rd) (f : FFmt) (val : Rd → Exact) : HashTab :=
  hashTab (rs.filter (fun r => fmtRnd r.fmt == .sh)) (fun r => f.hash (val r))

/-- An F32 instruction: each reader's exact value rounded once under RND, with the overflow column SAT = 0, then .SATF
(R169, R185, R186). -/
def fpOp (i : Instr) (h : Hdr) (x : FA) (s : State) (val : Rd → Exact) : Out :=
  crossOp i h s (fun rs =>
    let tab := shTab rs fF32 val
    rs.flatMap (fun r =>
      let w := fF32.round (fmtRnd r.fmt) false (fmtFtz r.fmt) (r.away tab 0) (val r)
      r.put x.d (BitVec.ofNat 32 (if x.fn.getLsbD 6 then satF w else w))))

/-- Source a, b or c of an F32 instruction. -/
def srcA (r : Rd) (x : FA) : Exact := fpSrc (fmtFtz r.fmt) x.fn 0 (r.w32 x.a)
def srcB (r : Rd) (x : FA) : Exact := fpSrc (fmtFtz r.fmt) x.fn 2 (r.w32 x.b)
def srcC (r : Rd) (x : FA) : Exact := fpSrc (fmtFtz r.fmt) x.fn 4 (r.w32 x.c)

/-- FADD (R186). -/
def execFadd (h : Hdr) (x : FA) (s : State) : Out :=
  fpOp (.fadd h x) h x s (fun r => (srcA r x).add (fmtRnd r.fmt) (srcB r x))

/-- FMUL (R186). -/
def execFmul (h : Hdr) (x : FA) (s : State) : Out :=
  fpOp (.fmul h x) h x s (fun r => (srcA r x).mul (srcB r x))

/-- FFMA: one rounding of a × b + c (R75, R186). -/
def execFfma (h : Hdr) (x : FA) (s : State) : Out :=
  fpOp (.ffma h x) h x s (fun r => ((srcA r x).mul (srcB r x)).add (fmtRnd r.fmt) (srcC r x))

/-- FMIN and FMAX: unrounded, written under FTZ (R186). -/
def fpPick (i : Instr) (h : Hdr) (x : FA) (s : State) (pick : Exact → Exact → Exact) : Out :=
  regOp i h s (fun r =>
    r.put x.d (BitVec.ofNat 32 (fF32.round .rne false (fmtFtz r.fmt) false (pick (srcA r x) (srcB r x)))))

/-- FMIN (R186). -/
def execFmin (h : Hdr) (x : FA) (s : State) : Out := fpPick (.fmin h x) h x s Exact.min2

/-- FMAX (R186). -/
def execFmax (h : Hdr) (x : FA) (s : State) : Out := fpPick (.fmax h x) h x s Exact.max2

/-- FRCP (R186). -/
def execFrcp (h : Hdr) (x : FA) (s : State) : Out :=
  fpOp (.frcp h x) h x s (fun r => (Exact.ofInt 1).div (srcA r x))

/-- FRSQ (R186). -/
def execFrsq (h : Hdr) (x : FA) (s : State) : Out := fpOp (.frsq h x) h x s (fun r => (srcA r x).rsqrt)

/-- FSQRT (R186). -/
def execFsqrt (h : Hdr) (x : FA) (s : State) : Out := fpOp (.fsqrt h x) h x s (fun r => (srcA r x).sqrt)

/-- FEX2 (R186). -/
def execFex2 (h : Hdr) (x : FA) (s : State) : Out := fpOp (.fex2 h x) h x s (fun r => (srcA r x).exp2)

/-- FLG2 (R186). -/
def execFlg2 (h : Hdr) (x : FA) (s : State) : Out := fpOp (.flg2 h x) h x s (fun r => (srcA r x).log2)

/-- FSIN (R186). -/
def execFsin (h : Hdr) (x : FA) (s : State) : Out := fpOp (.fsin h x) h x s (fun r => (srcA r x).sin)

/-- FCOS (R186). -/
def execFcos (h : Hdr) (x : FA) (s : State) : Out := fpOp (.fcos h x) h x s (fun r => (srcA r x).cos)

/-- FCMP (R187). -/
def execFcmp (h : Hdr) (x : FA) (s : State) : Out :=
  regOp (.fcmp h x) h s (fun r =>
    r.putPr x.d (fcmpVal x.fn (fmtFtz r.fmt) (r.w32 x.a) (r.w32 x.b) (r.pr x.c)))

/-- The class of raw bits (R188). -/
def fclassVal (w : Word) : Word :=
  let m := w.toNat % 2 ^ 31
  let bit : Nat :=
    if m > 0x7F800000 then 8
    else if w.msb then
      (if m = 0x7F800000 then 0 else if m ≥ 0x00800000 then 1 else if m > 0 then 2 else 3)
    else (if m = 0 then 4 else if m < 0x00800000 then 5 else if m < 0x7F800000 then 6 else 7)
  BitVec.ofNat 32 (2 ^ bit)

/-- FCLASS (R188). -/
def execFclass (h : Hdr) (x : FA) (s : State) : Out :=
  regOp (.fclass h x) h s (fun r => r.put x.d (fclassVal (r.w32 x.a)))

/-! ## Packed 16-bit arithmetic -/

/-- The format of a packed instruction (R189). -/
def halfFmt (fn : BitVec 8) : FFmt := if fn.getLsbD 7 then fBF16 else fF16

/-- Half k of a packed source, negated by its FN bit (R189). -/
def halfSrc (r : Rd) (fn : BitVec 8) (neg k : Nat) (o : Opd) : Exact :=
  let f := halfFmt fn
  let v := f.decode (fmtFtz r.fmt) (r.half f o k)
  if fn.getLsbD neg then v.neg else v

/-- A word from its two halves (R53). -/
def packHalves (lo hi : Nat) : Word := BitVec.ofNat 32 (lo % 2 ^ 16 + 2 ^ 16 * (hi % 2 ^ 16))

/-- A packed instruction: half k rounds once, with element index k under SH (R169, R189). -/
def halfOp (i : Instr) (h : Hdr) (x : FA) (s : State) (val : Rd → Nat → Exact) : Out :=
  crossOp i h s (fun rs =>
    let f := halfFmt x.fn
    let t0 := shTab rs f (fun r => val r 0)
    let t1 := shTab rs f (fun r => val r 1)
    rs.flatMap (fun r =>
      let one (t : HashTab) (k : Nat) : Nat :=
        f.round (fmtRnd r.fmt) false (fmtFtz r.fmt) (r.away t k) (val r k)
      r.put x.d (packHalves (one t0 0) (one t1 1))))

/-- HADD2 (R189). -/
def execHadd2 (h : Hdr) (x : FA) (s : State) : Out :=
  halfOp (.hadd2 h x) h x s (fun r k =>
    (halfSrc r x.fn 0 k x.a).add (fmtRnd r.fmt) (halfSrc r x.fn 1 k x.b))

/-- HMUL2 (R189). -/
def execHmul2 (h : Hdr) (x : FA) (s : State) : Out :=
  halfOp (.hmul2 h x) h x s (fun r k => (halfSrc r x.fn 0 k x.a).mul (halfSrc r x.fn 1 k x.b))

/-- HFMA2 (R189). -/
def execHfma2 (h : Hdr) (x : FA) (s : State) : Out :=
  halfOp (.hfma2 h x) h x s (fun r k =>
    ((halfSrc r x.fn 0 k x.a).mul (halfSrc r x.fn 1 k x.b)).add (fmtRnd r.fmt) (halfSrc r x.fn 2 k x.c))

/-- HMIN2 (R189). -/
def execHmin2 (h : Hdr) (x : FA) (s : State) : Out :=
  halfOp (.hmin2 h x) h x s (fun r k => (halfSrc r x.fn 0 k x.a).min2 (halfSrc r x.fn 1 k x.b))

/-- HMAX2 (R189). -/
def execHmax2 (h : Hdr) (x : FA) (s : State) : Out :=
  halfOp (.hmax2 h x) h x s (fun r k => (halfSrc r x.fn 0 k x.a).max2 (halfSrc r x.fn 1 k x.b))

/-- HCMP2 (R190). -/
def execHcmp2 (h : Hdr) (x : FA) (s : State) : Out :=
  regOp (.hcmp2 h x) h s (fun r =>
    let f := halfFmt x.fn
    let cmp (k : Nat) : Bool :=
      fcmpRel (x.fn.extractLsb' 0 4).toNat (f.decode (fmtFtz r.fmt) (r.half f x.a k))
        (f.decode (fmtFtz r.fmt) (r.half f x.b k))
    r.putPr x.d (hcmpSel (x.fn.extractLsb' 4 2).toNat (cmp 0) (cmp 1)))

end Sys2Proof.Machine
end

