-- ==== Sys2Proof/Machine/Convert.lean ====
section
/-! DEFINITION. Conversions, narrowing and widening, RA40 containers and the format register (R59, R66 to R71, R191
to R202). -/

namespace Sys2Proof.Machine

/-- The floating-point format of a 2-bit code: F32, F16, BF16, KF8 (R191 to R193). -/
def fmtOfCode (n : Nat) : FFmt :=
  match n with
  | 0 => fF32
  | 1 => fF16
  | 2 => fBF16
  | _ => fKF8

/-- A conversion to a floating-point format with one result (R169): overflow by FMT.SAT. -/
def cvtOp (i : Instr) (h : Hdr) (x : FA) (s : State) (f : FFmt) (val : Rd → Exact)
    (also : Rd → List RegWrite := fun _ => []) : Out :=
  crossOp i h s (fun rs =>
    let tab := shTab rs f val
    rs.flatMap (fun r =>
      r.put x.d (BitVec.ofNat 32 (f.round (fmtRnd r.fmt) (fmtSat r.fmt) (fmtFtz r.fmt) (r.away tab 0) (val r))) ++
        also r))

/-- CVTIF (R191). -/
def execCvtif (h : Hdr) (x : FA) (s : State) : Out :=
  cvtOp (.cvtif h x) h x s (fmtOfCode (x.fn.extractLsb' 2 2).toNat) (fun r =>
    .ofInt (match (x.fn.extractLsb' 0 2).toNat with
      | 0 => (r.w32 x.a).toInt
      | 1 => (r.w32 x.a).toNat
      | 2 => (r.w64 x.a).toInt
      | _ => (r.w64 x.a).toNat))

/-- Whether an integer destination code of CVTFI is unsigned, and its width (R192). -/
def cvtfiDst (n : Nat) : Bool × Nat :=
  match n with
  | 0 => (false, 32)
  | 1 => (true, 32)
  | 2 => (false, 64)
  | 3 => (true, 64)
  | 4 => (false, 16)
  | 5 => (true, 16)
  | 6 => (false, 8)
  | _ => (true, 8)

/-- Clamping to the range of an integer format (R64). -/
def clampFmt (unsigned : Bool) (w : Nat) (x : Int) : Int :=
  if unsigned then clampInt 0 (2 ^ w - 1) x else clampInt (-(2 ^ (w - 1))) (2 ^ (w - 1) - 1) x

/-- The mode of CVTFI: FMT.RND or the one its FN names (R192). -/
def cvtfiMode (fn : BitVec 8) (rnd : RMode) : RMode :=
  match (fn.extractLsb' 5 2).toNat with
  | 0 => rnd
  | 1 => .rtz
  | 2 => .rdn
  | _ => .rup

/-- d of each reader for a conversion to an integer, needed only under SH (R66). -/
def shTabInt (rs : List Rd) (val : Rd → Exact) : HashTab :=
  hashTab (rs.filter (fun r => fmtRnd r.fmt == .sh)) (fun r => (val r).hashInt)

/-- CVTFI (R192). -/
def execCvtfi (h : Hdr) (x : FA) (s : State) : Out :=
  crossOp (.cvtfi h x) h s (fun rs =>
    let val (r : Rd) : Exact :=
      let f := fmtOfCode (x.fn.extractLsb' 0 2).toNat
      f.decode (fmtFtz r.fmt) ((r.w32 x.a).toNat % 2 ^ f.width)
    let tab := shTabInt rs val
    let (u, w) := cvtfiDst (x.fn.extractLsb' 2 3).toNat
    rs.flatMap (fun r =>
      let v := clampFmt u w ((val r).toInt (cvtfiMode x.fn (fmtRnd r.fmt)) (r.away tab 0))
      if w = 64 then r.put64 x.d (BitVec.ofInt 64 v) else r.put x.d (BitVec.ofInt 32 v)))

/-- CVTFF (R193); an inline F32 constant supplies the bits of its own pattern (R87; log 155). -/
def execCvtff (h : Hdr) (x : FA) (s : State) : Out :=
  cvtOp (.cvtff h x) h x s (fmtOfCode (x.fn.extractLsb' 2 2).toNat) (fun r =>
    let f := fmtOfCode (x.fn.extractLsb' 0 2).toNat
    f.decode (fmtFtz r.fmt) ((r.w32 x.a).toNat / 2 ^ (f.width * (x.fn.extractLsb' 5 2).toNat) % 2 ^ f.width))

/-! ## Narrowing -/

/-- Elements per result word by NFMT (R194). -/
def nfmtCount (n : Nat) : Nat :=
  match n with
  | 0 => 4
  | 1 => 8
  | 2 => 4
  | _ => 2

/-- Bits per element by NFMT (R53). -/
def nfmtWidth (n : Nat) : Nat := 32 / nfmtCount n

/-- qmax of KI8 and KI4 (R59). -/
def qmaxOf (n : Nat) : Int := if n = 0 then 127 else 7

/-- The largest magnitude among values, NaN taking no part; none is 0 (R59). -/
def amaxOf (xs : List Exact) : Exact :=
  xs.foldl (fun m v => if v.isNan then m else m.max2 v.abs) (.zero false)

/-- The block scale of R59: the smallest s from 0 to 7 with round(amax / 2^s) ≤ qmax, or 7. -/
def blockScale (nfmt : Nat) (mode : RMode) (amax : Exact) : Nat :=
  ((List.range 8).find? (fun (s : Nat) => decide ((amax.scale (-(s : Int))).toInt mode.plain false ≤ qmaxOf nfmt))).getD 7

/-- Whether narrowing uses block scales: BSC with KI8 or KI4 (R59). -/
def scaled (fmt : Word) : Bool := fmtBsc fmt && fmtNfmt fmt ≤ 1

/-- The threads of the block that holds a thread (R194); the scalar unit is a block of its own. -/
def sameBlock (nfmt : Nat) (a b : Rd) : Bool :=
  match a.lane, b.lane with
  | some t, some u => t / (32 / nfmtCount nfmt) == u / (32 / nfmtCount nfmt)
  | _, _ => true

/-- Element k that a narrowing reads: register a + k under FTZ (R194). -/
def narrowSrc (r : Rd) (a : Opd) (k : Nat) : Exact := fF32.decode (fmtFtz r.fmt) (r.reg a k).toNat

/-- The scale of a reader's block, whose readers supply the elements `src` (R59, R194). -/
def scaleOf (rs : List Rd) (src : Rd → Nat → Exact) (mode : RMode) (r : Rd) : Nat :=
  if scaled r.fmt then
    blockScale (fmtNfmt r.fmt) mode (amaxOf ((rs.filter (sameBlock (fmtNfmt r.fmt) r)).flatMap (fun q =>
      (List.range (nfmtCount (fmtNfmt q.fmt))).map (src q))))
  else 0

/-- One element converted to NFMT (R59, R64, R65): its bits. -/
def narrowTo (nfmt : Nat) (mode : RMode) (sat ftz up : Bool) (v : Exact) : Nat :=
  match nfmt with
  | 0 => truncInt 8 (clampInt (-128) 127 (v.toInt mode up))
  | 1 => truncInt 4 (clampInt (-8) 7 (v.toInt mode up))
  | 2 => fKF8.round mode sat ftz up v
  | 3 => fF16.round mode sat ftz up v
  | _ => fBF16.round mode sat ftz up v

/-- d of one element under NFMT (R66). -/
def narrowHash (nfmt : Nat) (v : Exact) : Nat :=
  match nfmt with
  | 0 | 1 => v.hashInt
  | 2 => fKF8.hash v
  | 3 => fF16.hash v
  | _ => fBF16.hash v

/-- The value of narrowed bits (R53, R54). -/
def narrowVal (nfmt q : Nat) : Exact :=
  match nfmt with
  | 0 => .ofInt (sextNat 8 q)
  | 1 => .ofInt (sextNat 4 q)
  | 2 => fKF8.decode false q
  | 3 => fF16.decode false q
  | _ => fBF16.decode false q

/-- Packing n elements of w bits, element 0 lowest (R53). -/
def packElems (w n : Nat) (q : Nat → Nat) : Word :=
  BitVec.ofNat 32 ((List.range n).map (fun k => q k % 2 ^ w * 2 ^ (w * k))).sum

/-- One element of a reader narrowed under its FMT, its neighbours' elements deciding under SH (R66). -/
def narrowElem (rs : List Rd) (mode : RMode) (val : Rd → Exact) (k : Nat) (r : Rd) : Nat :=
  let tab := if mode == .sh then hashTab rs (fun q => narrowHash (fmtNfmt q.fmt) (val q)) else []
  narrowTo (fmtNfmt r.fmt) mode (fmtSat r.fmt) (fmtFtz r.fmt) (r.away tab k) (val r)

/-- F32 addition under RNE as R67 makes it, with FTZ. -/
def addRne (ftz : Bool) (a b : Exact) : Exact :=
  fF32.decode ftz (fF32.round .rne false ftz false (a.add .rne b))

/-- The residue of R67. -/
def residue (nfmt : Nat) (ftz : Bool) (t : Exact) (q s : Nat) : Word :=
  let v := narrowVal nfmt q
  match t with
  | .nan | .inf _ => 0
  | _ =>
    if v.isNan then 0
    else BitVec.ofNat 32 (fF32.round .rne false ftz false (t.add .rne (v.scale s).neg))

/-- Element k that CVTN narrows: the source, with its companion under .EF (R67, R194). -/
def cvtnSrc (x : FA) (r : Rd) (k : Nat) : Exact :=
  if x.fn.getLsbD 0 then addRne (fmtFtz r.fmt) (narrowSrc r x.a k) (narrowSrc r x.b k) else narrowSrc r x.a k

/-- What CVTN writes in one reader: the residues under .EF, then the packed word, then the scale under .SO (R67, R194). -/
def cvtnWrites (rs : List Rd) (x : FA) (r : Rd) : List RegWrite :=
  let ef := x.fn.getLsbD 0
  let nf := fmtNfmt r.fmt
  let mode (q : Rd) : RMode := if ef then .rne else fmtRnd q.fmt
  let s (q : Rd) : Nat := scaleOf rs (cvtnSrc x) (mode q) q
  let q (k : Nat) : Nat := narrowElem rs (mode r) (fun q => (cvtnSrc x q k).scale (-(s q : Int))) k r
  (if ef then (List.range (nfmtCount nf)).flatMap (fun k =>
    r.putReg x.b k (residue nf (fmtFtz r.fmt) (cvtnSrc x r k) (q k) (s r))) else []) ++
    r.put x.d (packElems (nfmtWidth nf) (nfmtCount nf) q) ++
    (if x.fn.getLsbD 1 then r.put x.c (BitVec.ofNat 32 (s r)) else [])

/-- CVTN (R194). -/
def execCvtn (h : Hdr) (x : FA) (s : State) : Out :=
  crossOp (.cvtn h x) h s (fun rs => rs.flatMap (cvtnWrites rs x))

/-- BSCALE (R195). -/
def execBscale (h : Hdr) (x : FA) (s : State) : Out :=
  crossOp (.bscale h x) h s (fun rs =>
    rs.flatMap (fun r => r.put x.d (BitVec.ofNat 32 (scaleOf rs (fun q => narrowSrc q x.a) (fmtRnd r.fmt) r))))

/-- EFCLR (R196). -/
def execEfclr (h : Hdr) (x : FA) (s : State) : Out :=
  regOp (.efclr h x) h s (fun r => r.puts x.d (List.replicate (x.fn.toNat + 1) 0))

/-! ## Widening -/

/-- Element k of a CVTW source (R197). -/
def cvtwElem (src : Nat) (ftz : Bool) (a : Word) (k : Nat) : Exact :=
  match src with
  | 0 => .ofInt (elemOf 8 false a k)
  | 1 => .ofInt (elemOf 4 false a k)
  | 2 => fKF8.decode false (a.toNat / 2 ^ (8 * k) % 2 ^ 8)
  | 3 => fF16.decode ftz (a.toNat / 2 ^ (16 * k) % 2 ^ 16)
  | _ => fBF16.decode ftz (a.toNat / 2 ^ (16 * k) % 2 ^ 16)

/-- CVTW (R197); an inline F32 constant supplies the bits of its own pattern (R87; log 155). -/
def execCvtw (h : Hdr) (x : FA) (s : State) : Out :=
  regOp (.cvtw h x) h s (fun r =>
    let sc : Nat := if x.fn.getLsbD 4 then (r.w32 x.b).toNat % 8 else 0
    r.puts x.d ((List.range (cvtwCount x.fn)).map (fun k =>
      let v := (cvtwElem (x.fn.extractLsb' 0 3).toNat (fmtFtz r.fmt) (r.w32 x.a) k).scale sc
      if x.fn.getLsbD 3 then BitVec.ofInt 32 (v.toInt .rtz false)
      else BitVec.ofNat 32 (fF32.round (fmtRnd r.fmt).plain (fmtSat r.fmt) (fmtFtz r.fmt) false v))))

/-! ## Packing and unpacking -/

/-- PACK.H (R198). -/
def execPackH (h : Hdr) (x : FA) (s : State) : Out :=
  regOp (.packH h x) h s (fun r => r.put x.d ((r.w32 x.b <<< 16) ||| (r.w32 x.a &&& 0xFFFF)))

/-- PACK.BI's value: byte mod(b, 4) of c replaced (R198). -/
def packBiVal (a b c : Word) : Word :=
  let n := 8 * (b.toNat % 4)
  (c &&& ~~~((0xFF : Word) <<< n)) ||| ((a &&& 0xFF) <<< n)

/-- PACK.BI (R198). -/
def execPackBi (h : Hdr) (x : FA) (s : State) : Out :=
  regOp (.packBi h x) h s (fun r => r.put x.d (packBiVal (r.w32 x.a) (r.w32 x.b) (r.w32 x.c)))

/-- Element k that PACK.N narrows: a or b, divided by its scale (R198). -/
def packNSrc (x : FA) (r : Rd) (k : Nat) : Exact :=
  let sc : Nat := if scaled r.fmt then (r.w32 x.c).toNat % 8 else 0
  (fF32.decode (fmtFtz r.fmt) (r.w32 (if k = 0 then x.a else x.b)).toNat).scale (-(sc : Int))

/-- PACK.N (R198). -/
def execPackN (h : Hdr) (x : FA) (s : State) : Out :=
  crossOp (.packN h x) h s (fun rs => rs.flatMap (fun r =>
    r.put x.d (packElems (nfmtWidth (fmtNfmt r.fmt)) 2 (fun k =>
      narrowElem rs (fmtRnd r.fmt) (fun q => packNSrc x q k) k r))))

/-- Element mod(b, 32 / w) of a, extended by FN bit 0 (R198). -/
def unpkVal (w : Nat) (fn : BitVec 8) (a b : Word) : Word :=
  BitVec.ofInt 32 (elemOf w (fn.getLsbD 0) a (b.toNat % (32 / w)))

/-- UNPK.H and UNPK.HU (R198). -/
def execUnpkH (h : Hdr) (x : FA) (s : State) : Out :=
  regOp (.unpkH h x) h s (fun r => r.put x.d (unpkVal 16 x.fn (r.w32 x.a) (r.w32 x.b)))

/-- UNPK.B and UNPK.BU (R198). -/
def execUnpkB (h : Hdr) (x : FA) (s : State) : Out :=
  regOp (.unpkB h x) h s (fun r => r.put x.d (unpkVal 8 x.fn (r.w32 x.a) (r.w32 x.b)))

/-- UNPK.N and UNPK.NU (R198). -/
def execUnpkN (h : Hdr) (x : FA) (s : State) : Out :=
  regOp (.unpkN h x) h s (fun r => r.put x.d (unpkVal 4 x.fn (r.w32 x.a) (r.w32 x.b)))

/-! ## RA40 -/

/-- The moduli and their product (R68). -/
def raMod (i : Nat) : Nat := 8191 + i
def raM : Nat := 8191 * 8192 * 8193

/-- The container of a value taken modulo each m_i, with a guard bit (R68, R69). -/
def raEncode (v : Int) (g : Bool) : DWord :=
  let res (i : Nat) : Nat := (v % (raMod i : Int)).toNat
  BitVec.ofNat 64 (res 0 + 2 ^ 13 * res 1 + 2 ^ 26 * res 2 + (if g then 2 ^ 63 else 0))

/-- The residues of a container, each reduced by its own modulus (R70). -/
def raResidues (w : Nat) : Nat × Nat × Nat := (w % 2 ^ 13 % 8191, w / 2 ^ 13 % 2 ^ 13, w / 2 ^ 26 % 2 ^ 14 % 8193)

/-- The value of bits 39:0 (R71). -/
def raDecode (w : Nat) : Int :=
  let (r0, r1, r2) := raResidues w
  let x := (r0 * 67117056 * 4096 + r1 * 67108863 * 8191 + r2 * 67100672 * 4097) % raM
  if x ≥ raM / 2 then (x : Int) - raM else x

/-- Whether a value lies in the RA40 range (R68). -/
def raInRange (v : Int) : Bool := -(raM / 2 : Nat) ≤ v && v < (raM / 2 : Nat)

/-- CVTRA (R199). -/
def execCvtra (h : Hdr) (x : FA) (s : State) : Out :=
  let g (r : Rd) : List RegWrite := if x.fn.getLsbD 2 then r.putPr x.c ((r.w64 x.a).getLsbD 63) else []
  let v (r : Rd) : Int := raDecode (r.w64 x.a).toNat
  match (x.fn.extractLsb' 0 2).toNat with
  | 0 => regOp (.cvtra h x) h s (fun r => r.put64 x.d (BitVec.ofInt 64 (v r)) ++ g r)
  | 1 =>
    cvtOp (.cvtra h x) h x s fF32 (fun r =>
      (Exact.ofInt (v r)).scale (if x.fn.getLsbD 3 then (r.w32 x.b).toInt else 0)) g
  | _ => regOp (.cvtra h x) h s (fun r => r.put x.d (BitVec.ofInt 32 (clampFmt false 32 (v r))) ++ g r)

/-- The container of an F32 source (R200). -/
def cvtarF (x : Exact) (mode : RMode) (up : Bool) : DWord :=
  match x with
  | .nan => raEncode 0 true
  | .inf neg => raEncode (if neg then -274877902848 else 274877902847) true
  | _ =>
    let v := x.toInt mode up
    raEncode v (!raInRange v)

/-- CVTAR (R200). -/
def execCvtar (h : Hdr) (x : FA) (s : State) : Out :=
  if x.fn == 2 then
    crossOp (.cvtar h x) h s (fun rs =>
      let val (r : Rd) : Exact := fF32.decode (fmtFtz r.fmt) (r.w32 x.a).toNat
      let tab := shTabInt rs val
      rs.flatMap (fun r => r.put64 x.d (cvtarF (val r) (fmtRnd r.fmt) (r.away tab 0))))
  else regOp (.cvtar h x) h s (fun r =>
    let v := if x.fn == 1 then (r.w64 x.a).toInt else (r.w32 x.a).toInt
    r.put64 x.d (raEncode v (!raInRange v)))

/-! ## The format register -/

/-- Setting the issuing tiller's FMT: a value that R61 forbids raises Illegal Operand and leaves FMT unchanged; a false
guard has no effect (R60, R201). -/
def setFmt (i : Instr) (h : Hdr) (s : State) (val : Rd → Word) : Out :=
  issue i s (fun f s =>
    if f.guardU h s.cycle then
      let w := val { s := s, f := f, lane := none }
      if fmtOk w then (s.updT f (fun t => { t with fmt := w })).advance f i
      else s.trapAll f i.size 0x02 0
    else s.advance f i)

/-- The low n bits of an immediate. -/
def immLow (n : Nat) : Imm → BitVec n
  | .short w => w.setWidth n
  | .long w => w.setWidth n

/-- SETFMT.R (R201). -/
def execSetfmtR (h : Hdr) (x : FI) (s : State) : Out := setFmt (.setfmtR h x) h s (fun r => r.w32 x.a)

/-- SETFMT with IMM24: SEED unchanged (R201). -/
def execSetfmt (h : Hdr) (x : FI) (s : State) : Out :=
  setFmt (.setfmt h x) h s (fun r => fmtSeed r.fmt ++ immLow 16 x.imm)

/-- SETFMT of the long form (R201). -/
def execSetfmtLong (h : Hdr) (x : FI) (s : State) : Out := setFmt (.setfmtLong h x) h s (fun _ => immLow 32 x.imm)

/-- SETFMT.SEED (R201). -/
def execSetfmtSeed (h : Hdr) (x : FI) (s : State) : Out :=
  setFmt (.setfmtSeed h x) h s (fun r => immLow 16 x.imm ++ r.fmt.extractLsb' 0 16)

/-- GETFMT (R202). -/
def execGetfmt (h : Hdr) (x : FA) (s : State) : Out := regOp (.getfmt h x) h s (fun r => r.put x.d r.fmt)

end Sys2Proof.Machine
end

