-- ==== Sys2Proof/Machine/Winnow.lean ====
section
/-! DEFINITION. Winnowing: next-use distances, deadlines, victims and credibility, and the L2 slices that every line passes
(R17, R113 to R115, R120, R121, R129 to R137). -/

namespace Sys2Proof.Machine

/-- How an access uses the caches: its core and context, NUD, the page's POL and PART, the group's rate, and the numbers of
the instruction or command whose access it is: all the events of one instruction on a line, and all the moves of one
command, are one access of that line (R131, R136; log 129). -/
structure Acc where
  core : Nat
  ctx : Nat
  nud : Nat
  pol : Nat
  part : Nat
  rate : Nat
  by_ : List Nat
  deriving DecidableEq, Repr

/-- The fields that a leaf gives an access (R117). -/
def Acc.ofLeaf (core ctx nud rate : Nat) (by_ : List Nat) (leaf : DWord) : Acc :=
  { core := core, ctx := ctx, nud := nud, pol := (leaf.extractLsb' 6 2).toNat, part := (leaf.extractLsb' 8 3).toNat,
    rate := rate, by_ := by_ }

/-- The access of a page-table walk (R115). A table has no PART; its lines take entry 0 of the partition table (log 131). -/
def Acc.ofWalk (core ctx : Nat) : Acc := { core := core, ctx := ctx, nud := 31, pol := 0, part := 0, rate := 16, by_ := [] }

/-! ## Winnowing (R129 to R137) -/

/-- The kind of line an access makes (R121, R129). -/
def kindOf (pol nud : Nat) : LineKind :=
  if pol = 1 then .stream else if pol = 2 then .retain
  else if nud = 0 then .stream else if nud = 30 then .retain else if nud = 31 then .dflt else .hinted

/-- Δ0 of a hinted line: min(ceil(D(d) × rate / 1,024), 4,095) with D(d) = 2^(d − 1) (R129). -/
def hintTicks (nud rate : Nat) : Nat := min ((2 ^ (nud - 1) * rate + 1023) / 1024) 4095

/-- Δ of an access in a cache where its context has credibility c (R131). -/
def deltaOf (kind : LineKind) (nud rate horizon c : Nat) : Nat :=
  match kind with
  | .hinted => min (hintTicks nud rate * 2 ^ (7 - c)) 4095
  | .dflt => min horizon 4095
  | _ => 0

/-- The fields that a fill or a hit sets (R131). -/
def LMeta.mark (m : LMeta) (now : Nat) (kind : LineKind) (delta ctx : Nat) (by_ : List Nat) : LMeta :=
  { m with kind := kind, dl := BitVec.ofNat 12 (now + delta), st := .ahead, ctx := ctx, counted := false, by_ := by_ }

/-- The 12-bit clock value at which a line leaves its status: DL + 1 for AHEAD, DL + 9 for GRACE (R131). -/
def LMeta.next (m : LMeta) : Option Nat :=
  if m.kind = .hinted ∨ m.kind = .dflt then
    match m.st with
    | .ahead => some ((m.dl.toNat + 1) % 4096)
    | .grace => some ((m.dl.toNat + 9) % 4096)
    | .overdue => none
  else none

/-- One winnow tick at a 12-bit clock value (R131). -/
def LMeta.tick1 (now : Nat) (m : LMeta) : LMeta :=
  if m.next = some now then { m with st := if m.st = .ahead then .grace else .overdue } else m

/-- Whether a value of the 12-bit clock is met within the n ticks after `last`. -/
def metWithin (last n at_ : Nat) : Bool := decide ((at_ + 4095 - last % 4096) % 4096 < n)

/-- n winnow ticks after the clock value `last`: the closed form of n times `tick1`. -/
def LMeta.ticks (last n : Nat) (m : LMeta) : LMeta :=
  match m.next with
  | none => m
  | some a =>
    if !metWithin last n a then m
    else
      let m1 := LMeta.tick1 a m
      match m1.next with
      | none => m1
      | some b =>
        let used := (a + 4095 - last % 4096) % 4096 + 1
        if metWithin a (n - used) b then LMeta.tick1 b m1 else m1

/-- ahead of R131, for a line. -/
def LMeta.ahead (m : LMeta) (now : Nat) : Nat :=
  if m.st = .ahead then (m.dl.toNat + 4096 - now % 4096) % 4096 else 0

/-- age of R131, for an OVERDUE line. -/
def LMeta.age (m : LMeta) (now : Nat) : Nat := (now % 4096 + 4096 - m.dl.toNat) % 4096

/-- Rank of a line as victim, greatest first (R132). -/
def LMeta.rank (m : LMeta) (now : Nat) : Nat :=
  match m.kind with
  | .stream => 4 * 4096
  | .retain => 0
  | _ => if m.st = .overdue then 3 * 4096 + m.age now else 4096 + m.ahead now

/-- The way a fill takes: the first empty allowed way, else the way of the line of greatest rank, the lowest way among
equals; none when no way is allowed (R132). -/
def chooseWay (now : Nat) (ways : List Nat) (held : List LMeta) : Option Nat :=
  match ways.find? (fun w => !held.any (fun m => m.way == w)) with
  | some w => some w
  | none =>
    let cand := held.filter (fun m => ways.contains m.way)
    let best := cand.foldl (fun b m => max b (m.rank now)) 0
    (ways.find? (fun w => cand.any (fun m => m.way == w && m.rank now == best)))

/-- Credibility of a context in one cache, 7 before any count (R133). -/
def credOf (l : List Cred) (cache ctx : Nat) : Cred :=
  (l.find? (fun c => c.cache == cache && c.ctx == ctx)).getD
    { cache := cache, ctx := ctx, c := 7, kept := 0, expired := 0, fills := 0 }

/-- Changing the counts of a context in one cache. -/
def updCred (l : List Cred) (cache ctx : Nat) (f : Cred → Cred) : List Cred :=
  f (credOf l cache ctx) :: l.filter (fun c => !(c.cache == cache && c.ctx == ctx))

/-- Whether a hit counts as kept: the first hit by the line's context on a hinted line that is AHEAD or GRACE, by another
access than the one that set the deadline (R133, R136). -/
def LMeta.keeps (m : LMeta) (ctx : Nat) (by_ : List Nat) : Bool :=
  m.kind == .hinted && m.ctx == ctx && m.st != .overdue && !m.counted && (by_ == [] || m.by_ != by_)

/-- Lines that became OVERDUE between two lists of the same lines, as counts of `expired` (R133). -/
def countExpired (cache : Nat) (old new : List LMeta) (l : List Cred) : List Cred :=
  (old.zip new).foldl (fun l e =>
    if e.1.kind == .hinted && e.1.st != .overdue && e.2.st == .overdue then
      updCred l cache e.2.ctx (fun c => { c with expired := c.expired + 1 })
    else l) l

/-- The passing of n winnow ticks after the clock value `last`, in every cache (R131, R137). -/
def State.ticks (s : State) (last n : Nat) : State :=
  if n = 0 then s
  else
    let up (t : LMeta) : LMeta := t.ticks last n
    let creds := s.cores.foldl (fun l c =>
      countExpired c.id (c.lines.map Line.tag) ((c.lines.map Line.tag).map up) l) s.creds
    let l2creds := s.l2.foldl (fun l x => countExpired (32 * x.die + x.slice) [x.tag] [up x.tag] l) s.l2creds
    { s with creds := creds, l2creds := l2creds,
             cores := s.cores.map (fun c => { c with lines := c.lines.map (fun x => { x with tag := up x.tag }) }),
             l2 := s.l2.map (fun x => { x with tag := up x.tag }) }

/-- Cycles pass, with the winnow ticks that fall in them (R6, R130, R131). -/
def State.pass (s : State) (n : Nat) : State :=
  let w0 := s.cycle / 64
  let w1 := (s.cycle + n) / 64
  { (s.ticks w0 (w1 - w0)) with cycle := s.cycle + n }

/-! ## L2 slices (R17, R114, R120, R132) -/

/-- The ways of a partition entry of a context; context 63 uses every way (R120, R414). -/
def State.partWays (s : State) (ctx part : Nat) : List Nat :=
  let m : BitVec 16 :=
    if ctx = 63 then BitVec.allOnes 16 else (s.ctxSt ctx).part.extractLsb' (16 * part) 16
  (List.range 16).filter (fun w => m == 0 || m.getLsbD w)

/-- The die whose L2 caches a line: the home's for device memory, the requester's for another device's line
(R17, R114). -/
def State.l2Die (s : State) (core line : Nat) : Nat :=
  if s.isLocal (line * 512) then homeDie (line * 512 % 2 ^ 41) else dieOf core

/-- The cache number of the L2 slice that holds a line for a core's accesses, and its die (R17, R114, R133). -/
def State.l2Cache (s : State) (core line : Nat) : Nat × Nat :=
  let die := s.l2Die core line
  (die, 32 * die + Config.l2Slice (line % 2 ^ 32) % 32)

/-- The lines of a line's set in its slice; a line is in one slice alone. -/
def State.l2Set (s : State) (core line : Nat) : List L2Line :=
  let (die, cache) := s.l2Cache core line
  s.l2.filter (fun x => x.die == die && x.tag.line % 256 == line % 256 &&
    (x.tag.line == line || 32 * die + x.slice == cache))

/-- The ways of a line's set that a fill may take: those of its partition that no pinned line holds (R120, R132, R134). -/
def State.l2Ways (s : State) (a : Acc) (line : Nat) : List Nat :=
  let pinned := ((s.l2Set a.core line).filter (fun x => x.pins != 0)).map (fun x => x.tag.way)
  (s.partWays a.ctx a.part).filter (fun w => !pinned.contains w)

/-- The line that L2 holds for a core's accesses. -/
def State.l2Line? (s : State) (core line : Nat) : Option L2Line :=
  (s.l2Set core line).find? (fun x => x.tag.line == line)

/-- Whether an access must wait for a pin's release: it is a fill, and every allowed way is pinned (R132). -/
def State.l2Full (s : State) (a : Acc) (line : Nat) : Bool := (s.l2Line? a.core line).isNone && (s.l2Ways a line).isEmpty

/-- A line entering its L2 slice with some of its sectors: it takes its place by R132, the victim's dirty sectors being written
back to the HBM that the slice stands before (R113); nothing when every allowed way is pinned. -/
def State.l2Enter (s : State) (a : Acc) (m : LMeta) (secs : BitVec 4) : State :=
  let (die, cache) := s.l2Cache a.core m.line
  match chooseWay s.winnow (s.l2Ways a m.line) ((s.l2Set a.core m.line).map L2Line.tag) with
  | none => s
  | some w =>
    let gone (x : L2Line) : Bool :=
      x.die == die && x.tag.line % 256 == m.line % 256 && x.tag.way == w && 32 * die + x.slice == cache
    let x : L2Line := { die := die, slice := cache % 32, tag := { m with way := w }, valid := secs, dirty := 0, pins := 0 }
    { s with l2creds := updCred s.l2creds cache a.ctx (fun c => { c with fills := c.fills + 1 }),
             l2 := x :: s.l2.filter (fun x => !gone x) }

/-- The place in L2 of a line that an L1 writes back: one that L2 does not hold is allocated (R113), with the fields that it has
in the L1 (log 130). -/
def State.l2Alloc (s : State) (core : Nat) (m : LMeta) (secs : BitVec 4) : State :=
  if (s.l2Line? core m.line).isSome then s
  else s.l2Enter { core := core, ctx := m.ctx, nud := 31, pol := 0, part := m.part, rate := 16, by_ := [] } m secs

/-- A fill or hit in the L2 slice of a line, for some of its sectors: its fields are set (R113, R131, R132). -/
def State.l2Touch (s : State) (a : Acc) (line : Nat) (secs : BitVec 4) : State :=
  let (die, cache) := s.l2Cache a.core line
  let kind := kindOf a.pol a.nud
  let c := (credOf s.l2creds cache a.ctx).c.toNat
  let delta := deltaOf kind a.nud a.rate (s.core a.core).horizon.toNat c
  let here (x : L2Line) : Bool := x.die == die && x.tag.line == line
  match s.l2Line? a.core line with
  | some x =>
    { s with l2creds := if x.tag.keeps a.ctx a.by_ then
               updCred s.l2creds cache a.ctx (fun c => { c with kept := c.kept + 1 })
             else s.l2creds,
             l2 := updWhere here (fun (x : L2Line) =>
               { x with tag := x.tag.mark s.winnow kind delta a.ctx a.by_, valid := x.valid ||| secs }) s.l2 }
  | none =>
    s.l2Enter a (LMeta.mark
      { way := 0, line := line, kind := kind, dl := 0, st := .ahead, ctx := a.ctx, counted := false, by_ := [], part := a.part }
      s.winnow kind delta a.ctx a.by_) secs

/-- The sectors of a line that n bytes at a PA of it meet. -/
def sectorsOf (pa n : Nat) : BitVec 4 :=
  (List.range 4).foldl (fun (m : BitVec 4) k =>
    if pa % 512 < 128 * (k + 1) ∧ 128 * k < pa % 512 + n then m ||| BitVec.ofNat 4 (2 ^ k) else m) 0

/-- Adding pins to the L2 line that a core's accesses use, and taking them away (R134). -/
def State.pin (s : State) (core line : Nat) : State :=
  let die := s.l2Die core line
  let put (x : L2Line) : L2Line := { x with pins := x.pins + 1 }
  { s with l2 := updWhere (fun x => x.die == die && x.tag.line == line) put s.l2 }

def State.unpin (s : State) (die line : Nat) : State :=
  let put (x : L2Line) : L2Line := { x with pins := x.pins - 1 }
  { s with l2 := updWhere (fun x => x.die == die && x.tag.line == line) put s.l2 }

end Sys2Proof.Machine
end

