-- ==== Sys2Proof/Machine/Translate.lean ====
section
/-! DEFINITION. Page tables, TLBs and the walk (R116 to R119, R122, R414). -/

namespace Sys2Proof.Machine

/-- What a translation gives. -/
inductive Walk where
  /-- A PA of 54 bits, with the leaf that mapped it. -/
  | ok (pa : Nat) (leaf : DWord)
  /-- An unresolvable case: unresolved address with no fault record (R118). -/
  | unresolved
  /-- A frame in the unpopulated range, which is the same to a thread; an engine's request there is reported (R16). -/
  | hole
  /-- The walk waits: for a pinned line's release (R132), for a held write (R164), or for the stack of a table (R419). -/
  | busy (on : Option Unanswered)
  /-- An entry was read from a poisoned sector (R118). -/
  | poison
  /-- A condition of R118's second table, with its reason code. -/
  | fault (reason : Nat)
  deriving DecidableEq, Repr

/-- What an access needs of a leaf (R118). -/
structure Perm where
  write : Bool
  fetch : Bool
  deriving DecidableEq, Repr

/-- VA bits below a page of a leaf at a level (R117). -/
def pageBits (lvl : Nat) : Nat := if lvl = 1 then 42 else if lvl = 2 then 29 else 16

/-- The leaf that the identity map of context 63 acts as: V, W, X and USR set (R414). -/
def identityLeaf : DWord := 0x400F

/-- The table index of a VA at a level (R116). -/
def levelIndex (lvl : Nat) (va : DWord) : Nat := va.toNat / 2 ^ pageBits lvl % 2 ^ 13

/-- PA[53:16] of an entry, as a PA. -/
def pfnPa (e : DWord) : Nat := (e.extractLsb' 16 38).toNat * 2 ^ 16

/-- Whether a PA lies in the unpopulated range of this device (R16). -/
def State.inHole (s : State) (pa : Nat) : Bool :=
  s.isLocal pa && decide (hbmEnd ≤ pa % 2 ^ 41) && decide (pa % 2 ^ 41 < mmioBase)

/-- The unresolvable cases of a valid leaf that its bits alone show (R118). -/
def badLeaf (lvl : Nat) (e : DWord) : Bool :=
  e.extractLsb' 54 10 != 0 ||
  (lvl == 2 && e.extractLsb' 16 13 != 0) || (lvl == 1 && e.extractLsb' 16 26 != 0) ||
  decide ((e.extractLsb' 41 13).toNat ≥ 6144)

/-- The row of R118's second table that a valid leaf meets, if any. -/
def leafReason (ctx : Nat) (p : Perm) (e : DWord) : Option Nat :=
  if p.write && !e.getLsbD 1 then some 1
  else if p.fetch && !e.getLsbD 2 then some 2
  else if ctx != 63 && !e.getLsbD 3 then some 3
  else if e.getLsbD 12 then some 4
  else none

/-- The PA that a leaf gives a VA (R117). -/
def leafPa (lvl : Nat) (e : DWord) (va : DWord) : Nat :=
  pfnPa e / 2 ^ pageBits lvl * 2 ^ pageBits lvl + va.toNat % 2 ^ pageBits lvl

/-- The result of a leaf for a VA: a frame that does not exist comes before the rows of R118's table. Of a large leaf, the
64 KiB frame that the VA lies in counts (R16, R118; log 132). -/
def State.leafWalk (s : State) (ctx : Nat) (p : Perm) (lvl : Nat) (e : DWord) (va : DWord) : Walk :=
  if s.inHole (leafPa lvl e va) then .hole
  else match leafReason ctx p e with
    | some r => .fault r
    | none => .ok (leafPa lvl e va) e

/-- A walk from a table at local PA `base`, `n` levels remaining: the leaf with its level and address, or why there
is none (R116 to R118). -/
def State.walkFrom (s : State) (va : DWord) : Nat → Nat → Except Walk (Nat × DWord × Nat)
  | 0, _ => .error .unresolved
  | n + 1, base =>
    let lvl := 3 - n
    let pte := base + 8 * levelIndex lvl va
    if s.poisoned pte 8 then .error .poison
    else
      let e : DWord := BitVec.ofNat 64 (cgetLE s.mem pte 8)
      if !e.getLsbD 0 then .error (.fault 0)
      else if n = 0 || e.getLsbD 15 then
        (if badLeaf lvl e then .error .unresolved else .ok (lvl, e, pte))
      else if e.extractLsb' 54 10 != 0 || e.extractLsb' 1 14 != 0 || !s.inHbm (pfnPa e) then .error .unresolved
      else s.walkFrom va n (pfnPa e % 2 ^ 41)

/-- The PAs of the entries that a walk reads (R116). -/
def State.walkPath (s : State) (va : DWord) : Nat → Nat → List Nat
  | 0, _ => []
  | n + 1, base =>
    let pte := base + 8 * levelIndex (3 - n) va
    let e : DWord := BitVec.ofNat 64 (cgetLE s.mem pte 8)
    let more := !s.poisoned pte 8 && e.getLsbD 0 && n != 0 && !e.getLsbD 15 && s.inHbm (pfnPa e)
    pte :: (if more then s.walkPath va n (pfnPa e % 2 ^ 41) else [])

/-- What a walk's read of an entry waits for: the stack of its table (R419). -/
def State.tableWaits (s : State) (pte : Nat) : Option Unanswered :=
  if s.stackReady (pte % 2 ^ 41) then none else some (.stack (stackOf (pte % 2 ^ 41)))

/-- Whether a walk's read of an entry must wait: for a pinned line (R132), for a write that is held at the home of a
read-duplicated page (R157, R164), or for the stack of its table (R419). -/
def State.tableHeld (s : State) (a : Acc) (pte : Nat) : Bool :=
  s.l2Full a (pte / 512) || (match s.rdOf pte with
    | some e => !e.held.isEmpty
    | none => false) || (s.tableWaits pte).isSome

/-- A walk's reads pass through L2, or one of them must wait (R115). -/
def State.walkReads (s : State) (core ctx : Nat) (va : DWord) (base : Nat) : Except (Option Unanswered) State :=
  let ptes := (s.walkPath va 3 base).map s.localPa
  let a := Acc.ofWalk core ctx
  if ptes.any (s.tableHeld a) then .error (ptes.findSome? s.tableWaits)
  else .ok (ptes.foldl (fun s p => s.l2Touch a (p / 512) (sectorsOf p 8)) s)

/-- The root table of a context, when enabled (R116, R402, R414). -/
def State.rootOf (s : State) (ctx : Nat) : Option Nat :=
  let r := if ctx = 63 then s.plat.fwPtRoot else (s.ctxSt ctx).ptRoot
  if r.getLsbD 0 then some (pfnPa r % 2 ^ 41) else none

/-- A walk by tables alone, without effect on TLBs or on A and D. -/
def State.peekWalk (s : State) (ctx : Nat) (p : Perm) (va : DWord) : Walk :=
  match s.rootOf ctx with
  | none =>
    if ctx = 63 then
      (if 2 ^ 41 ≤ va.toNat then .unresolved
       else if s.inHole (s.localPa va.toNat) then .hole
       else .ok (s.localPa va.toNat) identityLeaf)
    else .fault 0
  | some base =>
    match s.walkFrom va 3 base with
    | .error w => w
    | .ok (lvl, e, _) => s.leafWalk ctx p lvl e va

/-- A TLB entry that maps a VA (R122). -/
def TlbEntry.maps (e : TlbEntry) (ctx : Nat) (va : DWord) : Bool :=
  e.ctx == ctx && e.vpn == va.toNat / 2 ^ pageBits e.lvl

/-- Setting bits of a page-table entry by an atomic OR at its home (R119). -/
def State.orPte (s : State) (pte : Nat) (bits : Nat) : State :=
  let old := cgetLE s.mem pte 8
  if old ||| bits = old then s else s.homeWrite pte (bytesOf 8 (old ||| bits))

/-- Entering a translation in the core's TLB and its die's (R122). -/
def State.fillTlb (s : State) (core : Nat) (e : TlbEntry) : State :=
  let add (l : List TlbEntry) (n : Nat) : List TlbEntry :=
    (e :: l.filter (fun x => !(x.ctx == e.ctx && x.lvl == e.lvl && x.vpn == e.vpn))).take n
  (s.updCore core (fun c => { c with tlb := add c.tlb 2048 })).updDie (dieOf core)
    (fun d => { d with tlb := add d.tlb 32768 })

/-- The end of a walk whose reads have been made: the leaf, with A and D set and the TLB filled, or why there is none (R115 to
R119). -/
def State.walkLeaf (s : State) (core ctx : Nat) (p : Perm) (va : DWord) (base : Nat) : Walk × State :=
  match s.walkFrom va 3 base with
  | .error .poison => (.poison, s.report 3 ctx (dieOf core) (coreOf core) va.toNat 0)
  | .error w => (w, s)
  | .ok (lvl, e, pte) =>
    match s.leafWalk ctx p lvl e va with
    | .ok pa leaf =>
      let s := s.orPte pte (2 ^ 13 + (if p.write then 2 ^ 14 else 0))
      (.ok pa leaf, s.fillTlb core
        { ctx := ctx, lvl := lvl, vpn := va.toNat / 2 ^ pageBits lvl, leaf := e, pte := pte,
          dirty := p.write || e.getLsbD 14 })
    | w => (w, s)

/-- A walk with its effects: its reads pass through L2, A, and D for a write, are set, and the TLBs filled (R115, R119,
R122). A poisoned entry is reported (R118), at the VA that the access is for (log 133). -/
def State.walk (s : State) (core ctx : Nat) (p : Perm) (va : DWord) : Walk × State :=
  match s.rootOf ctx with
  | none => (s.peekWalk ctx p va, s)
  | some base =>
    match s.walkReads core ctx va base with
    | .error on => (.busy on, s)
    | .ok s => s.walkLeaf core ctx p va base

/-- Translating an access: core TLB, die TLB, then the walker (R122). A cached entry that does not permit the access is
dropped and walked again, as R122 allows (log 30). -/
def State.translate (s : State) (core ctx : Nat) (p : Perm) (va : DWord) : Walk × State :=
  let hit := match (s.core core).tlb.find? (fun e => e.maps ctx va) with
    | some e => some e
    | none => (s.die (dieOf core)).tlb.find? (fun e => e.maps ctx va)
  match hit with
  | none => s.walk core ctx p va
  | some e =>
    match s.leafWalk ctx p e.lvl e.leaf va with
    | .ok pa leaf =>
      if p.write && !e.dirty && !s.stackReady e.pte then (.busy (some (.stack (stackOf e.pte))), s)
      else if p.write && !e.dirty then (.ok pa leaf, (s.orPte e.pte (2 ^ 14)).fillTlb core { e with dirty := true })
      else (.ok pa leaf, s.fillTlb core e)
    | _ => s.walk core ctx p va

/-- A translation of one VA of a 64 KiB page, for another VA of it. -/
def Walk.at_ (w : Walk) (va : DWord) : Walk :=
  match w with
  | .ok pa leaf => .ok (pa / 65536 * 65536 + va.toNat % 65536) leaf
  | w => w

/-- Looking up the unique 64 KiB pages of some VAs, once each, in their order (R122): each page with what it gives. -/
def State.lookup (s : State) (core ctx : Nat) (p : Perm) (vas : List DWord) : List (Nat × Walk) × State :=
  vas.foldl (fun (acc : List (Nat × Walk) × State) va =>
    if acc.1.any (fun e => e.1 == va.toNat / 65536) then acc
    else
      let (w, s) := acc.2.translate core ctx p va
      (acc.1 ++ [(va.toNat / 65536, w)], s)) ([], s)

/-- What a lookup found for a VA. -/
def lookedUp (l : List (Nat × Walk)) (va : DWord) : Walk :=
  match l.find? (fun e => e.1 == va.toNat / 65536) with
  | some e => e.2.at_ va
  | none => .unresolved

/-- Which TLB entries a TLBI removes (R375, R402). -/
inductive TlbScope where
  | all
  | ctx (c : Nat)
  | page (c : Nat) (va : DWord)
  deriving DecidableEq, Repr

/-- Whether an entry is removed. -/
def TlbScope.hits (t : TlbScope) (e : TlbEntry) : Bool :=
  match t with
  | .all => true
  | .ctx c => e.ctx == c
  | .page c va => e.maps c va

/-- Removing translations from every core TLB and die TLB of the device (R375). -/
def State.tlbi (s : State) (t : TlbScope) : State :=
  { s with cores := s.cores.map (fun c => { c with tlb := c.tlb.filter (fun e => !t.hits e) }),
           dies := s.dies.map (fun d => { d with tlb := d.tlb.filter (fun e => !t.hits e) }) }

end Sys2Proof.Machine
end

