-- ==== Sys2Proof/Machine/Cache.lean ====
section
/-! DEFINITION. Homes, and the L1 caches: which ways are lent, lines and their sectors, write-back and invalidation, plain
reads and writes (R109 to R114, R120, R121, R138, R141, R154). -/

namespace Sys2Proof.Machine

/-! ## Homes -/

/-- Where a PA of 54 bits leads. -/
inductive Home where
  /-- Populated HBM of this device, at its local PA. -/
  | hbm (pa : Nat)
  /-- Another device's memory. -/
  | far (pa : Nat)
  /-- The register space, at an offset. -/
  | reg (off : Nat)
  /-- The host aperture, at a bus address. -/
  | host (bus : Nat)
  /-- An unpopulated range. -/
  | hole
  deriving DecidableEq, Repr

/-- The division of the address space (R16, R400, R411). -/
def State.homeOf (s : State) (pa : Nat) : Home :=
  if !s.isLocal pa then .far pa
  else
    let l := pa % 2 ^ 41
    if l < hbmEnd then .hbm l
    else if l < mmioBase then .hole
    else
      let o := l - mmioBase
      if o < 0x1000000 then .reg o
      else if o < 0x100000000 then .hole
      else .host (s.plat.hapbase.toNat + o - 0x100000000)

/-- Whether an access of the host aperture completes: the link is up, and the host answers without a completion error (R400,
R419; log 143). -/
def State.hostAnswers (s : State) (bus : Nat) : Bool := s.plat.ready0.getLsbD 0 && !Config.hostErrs s.cycle bus

/-- Whether the fabric has a port that carries a route (R411). -/
def State.fabricUp (s : State) : Bool := s.plat.ready1.extractLsb' 0 48 != 0

/-- Whether the device of a PA admits this one (R411). -/
def State.admitted (s : State) (pa : Nat) : Bool := s.peers.contains (pa / 2 ^ 41)

/-- Bytes at the home of a PA of device memory, local or another's. -/
def State.homeBytes (s : State) (pa n : Nat) : List Byte :=
  if s.isLocal pa then cgets s.mem (pa % 2 ^ 41) n else cgets s.remote pa n

/-! ## L1 (R109 to R113) -/

/-- Granules of a core that groups have taken (R107, R109). -/
def State.taken (s : State) (core : Nat) : List Nat :=
  (s.groups.filter (fun g => g.core == core)).flatMap Group.granules

/-- LENT granules of a core, the ways of its L1: those that no group has taken, and that are not being reclaimed, whether or
not the group that needed them is still there (R109). -/
def State.lent (s : State) (core : Nat) : List Nat :=
  let t := s.taken core ++ (s.core core).reclaiming
  (List.range 48).filter (fun k => !t.contains k)

/-- The core whose L1 holds a line for a core's accesses: its own, or by position in a fused L1 (R112). -/
def State.l1Of (s : State) (core line : Nat) : Nat :=
  match (s.core core).fused with
  | none => core
  | some (tl, w, h) =>
    let p := Config.fuseHash (line % 2 ^ 32) % (w * h)
    tl + p % w + 8 * (p / w)

/-- A cached line of a core. -/
def CoreSt.line? (c : CoreSt) (line : Nat) : Option Line := c.lines.find? (fun x => x.tag.line == line)

/-- Changing one cached line. -/
def CoreSt.updLine (c : CoreSt) (line : Nat) (f : Line → Line) : CoreSt :=
  { c with lines := updWhere (fun x => x.tag.line == line) f c.lines }

/-- Writing back the bytes written in one line to L2, which allocates it, and the home; the line stays valid and clean (R113). -/
def State.writeBack (s : State) (core line : Nat) : State :=
  match (s.core core).line? line with
  | none => s
  | some x =>
    if x.wrote.isEmpty then s
    else
      let s := s.updCore core (fun c => c.updLine line (fun x => { x with dirty := 0, wrote := [] }))
      (s.l2Alloc core x.tag x.dirty).homeMerge line (x.wrote.map (fun a => (a, cget x.data a)))

/-- Writing back and invalidating one line. -/
def State.dropLine (s : State) (core line : Nat) : State :=
  (s.writeBack core line).updCore core (fun c =>
    { c with lines := c.lines.filter (fun x => x.tag.line != line) })

/-- The cores that share a core's L1 (R112). -/
def State.l1Group (s : State) (core : Nat) : List Nat :=
  match (s.core core).fused with
  | none => [core]
  | some (tl, w, h) => (List.range h).flatMap (fun y => (List.range w).map (fun x => tl + x + 8 * y))

/-- Writing back every dirty line of the L1 that a core uses: what a release at panicle scope or wider needs
(R141, R145, R147). -/
def State.release (s : State) (core : Nat) : State :=
  (s.l1Group core).foldl (fun s k =>
    ((s.core k).lines.map (fun x => x.tag.line)).foldl (fun s l => s.writeBack k l) s) s

/-- Writing back and invalidating every line of the L1 that a core uses: what an acquire at panicle scope or wider
needs. -/
def State.acquire (s : State) (core : Nat) : State :=
  (s.l1Group core).foldl (fun s k =>
    ((s.core k).lines.map (fun x => x.tag.line)).foldl (fun s l => s.dropLine k l) s) s

/-- Bringing every line of the L1 that a core uses up to date: its dirty sectors are written back and its valid ones read again,
and its fields stay as they are (R135). -/
def State.refresh (s : State) (core : Nat) : State :=
  let anew (s : State) (x : Line) : Line :=
    { x with data := (List.range 4).foldl (fun d k =>
        let base := x.tag.line * 512 + 128 * k
        if x.valid.getLsbD k then csets d base (s.homeBytes base 128) else d) x.data }
  (s.l1Group core).foldl (fun s k =>
    let s := ((s.core k).lines.map (fun x => x.tag.line)).foldl (fun s l => s.writeBack k l) s
    s.updCore k (fun c => { c with lines := c.lines.map (anew s) })) s

/-- Changing the fields of a line for an access in an L1: a hit may count as kept (R131, R136). -/
def State.l1Mark (s : State) (a : Acc) (core line : Nat) (isHit : Bool) : State :=
  let kind := kindOf a.pol a.nud
  let c := (credOf s.creds core a.ctx).c.toNat
  let delta := deltaOf kind a.nud a.rate (s.core a.core).horizon.toNat c
  let kept := match (s.core core).line? line with
    | some x => isHit && x.tag.keeps a.ctx a.by_
    | none => false
  let s := if kept then { s with creds := updCred s.creds core a.ctx (fun c => { c with kept := c.kept + 1 }) } else s
  s.updCore core (fun c => c.updLine line (fun x => { x with tag := x.tag.mark s.winnow kind delta a.ctx a.by_ }))

/-- Making room for a line in an L1 and entering it with no valid sector; none when no way is lent (R110, R111,
R132). -/
def State.l1Alloc (s : State) (a : Acc) (core line : Nat) : Option State :=
  let ways := s.lent core
  let inSet := ((s.core core).lines.map Line.tag).filter (fun m => m.line % 32 == line % 32)
  match chooseWay s.winnow ways inSet with
  | none => none
  | some w =>
    let s := match inSet.find? (fun m => m.way == w) with
      | some m => s.dropLine core m.line
      | none => s
    let m : LMeta := { way := w, line := line, kind := .stream, dl := 0, st := .ahead, ctx := a.ctx, counted := false, by_ := [], part := a.part }
    let x : Line := { tag := m, valid := 0, dirty := 0, data := [], wrote := [] }
    let s := { s with creds := updCred s.creds core a.ctx (fun c => { c with fills := c.fills + 1 }) }
    some (s.updCore core (fun c => { c with lines := x :: c.lines }))

/-- Whether a line of a core lies in a way that is being reclaimed, which takes no new fills (R109). -/
def CoreSt.leaving (c : CoreSt) (x : Line) : Bool := c.reclaiming.contains x.tag.way

/-- Filling the sector of a PA in a line that has it not: bytes come from the home through L2 (R113). A line that is being
reclaimed is not filled (R109). -/
def State.l1Fill (s : State) (a : Acc) (core pa : Nat) : State :=
  let line := pa / 512
  match (s.core core).line? line with
  | none => s
  | some x =>
    if x.valid.getLsbD (sectorOf pa) || (s.core core).leaving x then s
    else
      let base := pa / 128 * 128
      let bytes := s.homeBytes base 128
      let s := s.l2Touch a line (sectorsOf pa 1)
      s.updCore core (fun c => c.updLine line (fun x =>
        { x with valid := setBit x.valid (sectorOf pa) true, data := csets x.data base bytes }))

/-- The line of a PA brought into the L1 that serves a core, with its sector; none when the access goes to L2 alone (no lent
way, POL bypass and no line held, or a sector that is missing in a line being reclaimed: R109, R111, R121). A line that is there
is hit, and fills no line, though it lacks the sector (R133, R136; log 156). -/
def State.l1Open (s : State) (a : Acc) (pa : Nat) : Option (Nat × State) :=
  let line := pa / 512
  let core := s.l1Of a.core line
  match (s.core core).line? line with
  | some x =>
    if (s.core core).leaving x && !x.valid.getLsbD (sectorOf pa) then none
    else some (core, (s.l1Fill a core pa).l1Mark a core line true)
  | none =>
    if a.pol = 3 then none
    else (s.l1Alloc a core line).map (fun s => (core, (s.l1Fill a core pa).l1Mark a core line false))

/-- A plain read of n bytes within one sector (R113, R141). -/
def State.cachedRead (s : State) (a : Acc) (pa n : Nat) : List Byte × State :=
  match s.l1Open a pa with
  | none => (s.homeBytes pa n, s.l2Touch a (pa / 512) (sectorsOf pa n))
  | some (core, s) =>
    match (s.core core).line? (pa / 512) with
    | some x => (cgets x.data pa n, s)
    | none => (s.homeBytes pa n, s)

/-- Whether an armed watch entry watches a line, whose writes are therefore performed at the home (R162). -/
def State.watched (s : State) (line : Nat) : Bool :=
  s.watches.any (fun w => w.armed && s.isLocal (line * 512) && w.pa.toNat / 512 == line)

/-- A plain write within one sector: residencies are marked before any agent sees it (R155), the line holds it dirty
(R113), and a watched line is written through (R162). -/
def State.cachedWrite (s : State) (a : Acc) (pa : Nat) (bytes : List Byte) : State :=
  let line := pa / 512
  let pas := (List.range bytes.length).map (fun i => pa + i)
  match s.l1Open a pa with
  | none => (s.l2Touch a line (sectorsOf pa bytes.length)).homeMerge line (cellsAt pa bytes)
  | some (core, s) =>
    let s := s.markStale (s.lineKey pa)
    let s := s.updCore core (fun c => c.updLine line (fun x =>
      { x with dirty := setBit x.dirty (sectorOf pa) true, data := csets x.data pa bytes,
               wrote := pas.filter (fun p => !x.wrote.contains p) ++ x.wrote }))
    if s.watched line then s.writeBack core line else s

/-- Bytes as the threads and streams of a core see them: its L1's copy of a sector it holds, else the home's; no line
is allocated (R115, R141). -/
def State.coreBytes (s : State) (core pa n : Nat) : List Byte :=
  (List.range n).map (fun i =>
    let p := pa + i
    match (s.core (s.l1Of core (p / 512))).line? (p / 512) with
    | some x => if x.valid.getLsbD (sectorOf p) then cget x.data p else (s.homeBytes p 1).headD 0
    | none => (s.homeBytes p 1).headD 0)

/-- Preparing an access at the home: the L1's own copy is written back and dropped, so that a thread's accesses to the
location stay coherent (R143, R146). -/
def State.toHome (s : State) (core pa : Nat) : State := s.dropLine (s.l1Of core (pa / 512)) (pa / 512)

end Sys2Proof.Machine
end

