-- ==== Sys2Proof/Machine/Move.lean ====
section
/-! DEFINITION. Memory as the agents other than threads reach it: reads of read-duplicated pages, reads and writes at a home,
accesses of engines, the driver's fault queue, and what an engine command names (R16, R104, R115, R123, R153 to R159, R164,
R254, R411, R419). -/

namespace Sys2Proof.Machine

/-! ## Reads of read-duplicated pages (R157, R159, R164) -/

/-- A read of a read-duplicated page by an agent of this device. -/
inductive RdRead where
  /-- The bytes of this device's replica, in which unlisted bytes are 0. -/
  | replica (bytes : List Byte)
  /-- The read goes to the home. -/
  | home
  /-- The read waits for the write held (R157, R164). -/
  | wait
  /-- This device has been removed from the holders (R159). -/
  | removed
  deriving DecidableEq, Repr

/-- Whether an access of one agent is by a thread that another agent acts for too: the same lane of a sheaf, or its scalar
unit, whose events are events of every thread (R204). -/
def Agent.shares (a b : Agent) : Bool :=
  match a, b with
  | .thread g x l, .thread h y k => g == h && x == y && (l == k || l.isNone || k.isNone)
  | _, _ => false

/-- Whether a held write of an agent's own thread covers a byte range. -/
def RdPage.ownHeld (e : RdPage) (who : Agent) (pa n : Nat) : Bool :=
  e.held.any (fun w => w.who.shares who && decide (w.pa < pa + n) && decide (pa < w.pa + w.bytes.length))

/-- How this device reads n bytes of a page (R157, R159, R164). -/
def State.rdRead (s : State) (e : RdPage) (who : Agent) (pa n : Nat) : RdRead :=
  if e.removed.contains s.devnum then .removed
  else if e.ownHeld who pa n then .wait
  else match e.replica with
    | some r => .replica (cgets r (pa % 65536) n)
    | none => if e.held.isEmpty then .home else .wait

/-- Whether some thread that an agent acts for has a write held anywhere (R144, R157). -/
def State.holdsFor (s : State) (who : Agent) : Bool := s.rds.any (fun e => e.held.any (fun w => w.who.shares who))

/-- The same, but for the place that the agent's own atomic keeps, which it performs in its turn (R146, R158). -/
def State.holdsElse (s : State) (who : Agent) : Bool :=
  s.rds.any (fun e => e.held.any (fun w => w.who.shares who && !(w.bytes.isEmpty && w.who == who)))

/-! ## Accesses of agents at device scope or wider -/

/-- Why an agent's access at a home is not performed. -/
inductive NoAccess where
  /-- It waits: for a stack, for the fabric, or for another access. -/
  | wait (on : Option Unanswered)
  /-- It fails. -/
  | fail
  /-- It fails because this device has been removed from the holders of its page, which is reported (R159). -/
  | removed
  deriving DecidableEq, Repr

/-- The context of an agent, 0xFF for none (R404). -/
def State.agentCtx (s : State) (who : Agent) : Nat :=
  let ofGroup (gid : Nat) : Nat := ((s.group? gid).map Group.ctx).getD 0xFF
  match who with
  | .thread gid _ _ | .stream gid => ofGroup gid
  | .save _ => 63
  | .cmd id => ((s.cmds.find? (fun c => c.id == id)).map Cmd.ctx).getD 0xFF
  | .load core id => (((s.core core).loads.find? (fun l => l.id == id)).map (fun l => ofGroup l.gid)).getD 0xFF
  | .grid id => ((s.grids.find? (fun x => x.id == id)).map Grid.ctx).getD 0xFF
  | .count core id => (((s.core core).bbcOut.find? (fun o => o.id == id)).map BbcOut.ctx).getD 0xFF
  | .seq core _ => ((s.core core).seqRun.map (fun r => ofGroup r.gid)).getD 0xFF
  | .sq q => (s.sq q).ctx.toNat
  | .host id => match (s.hostAccs.find? (fun a => a.id == id)).map HostAcc.port with
    | some (.vf c) => c
    | _ => 0xFF
  | .other => 0xFF

/-- Whether the fabric back-pressures the accesses of a context to the device of a PA (R363). -/
def State.lateFor (s : State) (ctx pa : Nat) : Bool :=
  s.latePeers.any (fun e => e.1 == pa / 2 ^ 41 && decide (ctx < 32) && e.2.getLsbD ctx)

/-- Whether an access of a context to n bytes at a PA can reach its target, and where that is (R16, R363, R400, R411, R419).
Another device answers for its HBM alone (R411; log 134). -/
def State.reach (s : State) (ctx pa : Nat) : Except NoAccess Home :=
  match s.homeOf pa with
  | .hbm l => if s.stackReady l then .ok (.hbm l) else .error (.wait (some (.stack (stackOf l))))
  | .far p =>
    if !s.fabricUp then .error (.wait (some .fabric))
    else if s.lateFor ctx p then .error (.wait (some (.peer (p / 2 ^ 41))))
    else if s.admitted p && decide (p % 2 ^ 41 < hbmEnd) then .ok (.far p) else .error .fail
  | .host b => if s.hostAnswers b then .ok (.host b) else .error .fail
  | .reg _ | .hole => .error .fail

/-- Bytes at a PA as an agent at device scope or wider reads them (R157, R255, R400, R405, R411). -/
def State.agentBytes (s : State) (who : Agent) (pa n : Nat) : Except NoAccess (List Byte) :=
  match s.reach (s.agentCtx who) pa with
  | .error e => .error e
  | .ok (.host b) => .ok (cgets s.hostMem b n)
  | .ok h =>
    let bad := match h with
      | .hbm l => s.poisoned l n
      | _ => false
    match (s.rdOf pa).map (fun e => s.rdRead e who pa n) with
    | some .removed => .error .removed
    | some .wait => .error (.wait none)
    | some (.replica bs) => .ok bs
    | some .home | none => if bad then .error .fail else .ok (s.homeBytes pa n)

/-- Bytes written at a PA, within one line, by an agent at device scope or wider. -/
def State.agentWrite (s : State) (who : Agent) (pa : Nat) (bytes : List Byte) : Except NoAccess State :=
  match s.reach (s.agentCtx who) pa with
  | .error e => .error e
  | .ok (.host b) => .ok { s with hostMem := csets s.hostMem b bytes }
  | .ok _ => .ok (s.homeStore who pa bytes)

/-- The turn of an atomic at the home of a read-duplicated page. One that writes nothing is a read there (R152, R223). A write
takes its place among those held, until every other holder has dropped the page and those before it have been performed; its
device then owns the page (R157, R158). -/
def State.rdTurn (s : State) (who : Agent) (e : RdPage) (pa : Nat) (writes : Bool) : Except NoAccess Unit × State :=
  let mine (w : HeldWrite) : Bool := w.bytes.isEmpty && w.who == who && w.pa == pa
  let own (s : State) : State := if writes then s.rdOwn e.page s.devnum else s
  if e.removed.contains s.devnum then (.error .removed, s)
  else match e.held.find? mine with
    | some w =>
      if !e.due.isEmpty || e.held.head? != some w then (.error (.wait none), s)
      else (.ok (), own (s.updRd e.page (fun e => { e with held := e.held.drop 1 })))
    | none =>
      if e.held.isEmpty && (!writes || (e.holders.filter (fun d => d != s.devnum)).isEmpty) then
        (.ok (), own s)
      else (.error (.wait none), s.rdWrite { dev := s.devnum, pa := pa, bytes := [], who := who })

/-! ## Accesses of engines -/

/-- How an engine command or another unit accesses memory: who it is, its core and context, its distance (R115), and the
rate of its group. -/
structure Use where
  who : Agent
  core : Nat
  ctx : Nat
  nud : Nat
  rate : Nat
  by_ : List Nat
  deriving DecidableEq, Repr

/-- The accesses of a core's unit in the firmware context. -/
def Use.firmware (core : Nat) : Use := { who := .other, core := core, ctx := 63, nud := 31, rate := 16, by_ := [] }

/-- The cache fields of an access through a leaf. -/
def Use.acc (u : Use) (leaf : DWord) : Acc := Acc.ofLeaf u.core u.ctx u.nud u.rate u.by_ leaf

/-- Why an engine's access does not go through. -/
inductive EngStop where
  /-- A record for the driver. -/
  | record (ctx va reason : Nat)
  /-- The command fails (R255). -/
  | fail
  /-- The command fails, and its request is reported: it presented an aperture address, or one in the unpopulated range, or
  met a page that its device has been removed from (R16, R104, R159). -/
  | refuse (va : Nat)
  | wait (on : Option Unanswered)
  deriving DecidableEq, Repr

/-- What an access that is not performed means to an engine. -/
def NoAccess.toEng (va : Nat) : NoAccess → EngStop
  | .wait on => .wait on
  | .fail => .fail
  | .removed => .refuse va

/-- A request that is refused is reported (R16, R104, R159, R404). -/
def State.noteRefusal (s : State) (core ctx : Nat) (e : EngStop) : State :=
  match e with
  | .refuse va => s.report 9 ctx (dieOf core) (coreOf core) va 0
  | _ => s

/-- Translating an engine's address. A fault of context 63 fails at once (R414); an aperture address is refused (R104);
an unresolvable case and a poisoned table fail the command (R118, R255). -/
def State.engPa (s : State) (core ctx : Nat) (write : Bool) (va : DWord) : Except EngStop (Nat × DWord) × State :=
  if va.extractLsb' 55 9 != 0 then (.error .fail, s)
  else if va.extractLsb' 42 13 == 0x1FFF then (.error (.refuse va.toNat), s)
  else
    match s.translate core ctx { write := write, fetch := false } va with
    | (.ok pa leaf, s) => (.ok (pa, leaf), s)
    | (.fault r, s) =>
      if ctx = 63 then (.error .fail, s) else (.error (.record ctx (va.toNat / 65536 * 65536) r), s)
    | (.hole, s) => (.error (.refuse va.toNat), s)
    | (.busy on, s) => (.error (.wait on), s)
    | (.unresolved, s) | (.poison, s) => (.error .fail, s)

/-- The passage of an engine's access through L2 (R115): none when its fill waits for a pinned line (R132). -/
def State.engTouch (s : State) (u : Use) (leaf : DWord) (pa n : Nat) : Option State :=
  match s.homeOf pa with
  | .hbm _ | .far _ =>
    if s.l2Full (u.acc leaf) (pa / 512) then none else some (s.l2Touch (u.acc leaf) (pa / 512) (sectorsOf pa n))
  | _ => some s

/-- Reading bytes within one line for an engine. -/
def State.engRead1 (s : State) (u : Use) (va n : Nat) : Except EngStop (List Byte) × State :=
  match s.engPa u.core u.ctx false (BitVec.ofNat 64 va) with
  | (.error e, s) => (.error e, s)
  | (.ok (pa, leaf), s) =>
    match s.agentBytes u.who pa n, s.engTouch u leaf pa n with
    | .error e, _ => (.error (e.toEng va), s)
    | .ok _, none => (.error (.wait none), s)
    | .ok b, some s => (.ok b, s)

/-- Reading n bytes at a VA for an engine. -/
def State.engRead (s : State) (u : Use) (va n : Nat) : Except EngStop (List Byte) × State :=
  (chunksOf va n).foldl (fun (acc : Except EngStop (List Byte) × State) c =>
    match acc with
    | (.error e, s) => (.error e, s)
    | (.ok bs, s) =>
      match s.engRead1 u c.1 c.2 with
      | (.error e, s) => (.error e, s)
      | (.ok b, s) => (.ok (bs ++ b), s)) (.ok [], s)

/-- Writing bytes within one line for an engine (R153). -/
def State.engWrite1 (s : State) (u : Use) (va : Nat) (bytes : List Byte) : Except EngStop Unit × State :=
  match s.engPa u.core u.ctx true (BitVec.ofNat 64 va) with
  | (.error e, s) => (.error e, s)
  | (.ok (pa, leaf), s) =>
    match s.engTouch u leaf pa bytes.length with
    | none => (.error (.wait none), s)
    | some s1 =>
      match s1.agentWrite u.who pa bytes with
      | .error e => (.error (e.toEng va), s)
      | .ok s => (.ok (), s)

/-- Writing bytes at a VA for an engine, line by line (R153). -/
def State.engWrite (s : State) (u : Use) (va : Nat) (bytes : List Byte) : Except EngStop Unit × State :=
  (chunksOf va bytes.length).foldl (fun (acc : Except EngStop Unit × State) c =>
    match acc with
    | (.error e, s) => (.error e, s)
    | (.ok _, s) => s.engWrite1 u c.1 ((bytes.drop (c.1 - va)).take c.2)) (.ok (), s)

/-! ## Accesses that wait for their answer (R363, R411, R419) -/

/-- Whether it is a stack that an access waits for, and not another device. -/
def Pend.stack (p : Pend) : Bool :=
  match p.on with
  | .stack _ => true
  | .fabric | .peer _ => false

/-- Whether a waiting access is this one of an agent's. -/
def Pend.of (p : Pend) (who : Agent) (ti : Nat) (fetch : Bool) : Bool := p.who == who && p.ti == ti && p.fetch == fetch

/-- Of one access of an agent, what it waits for now: each noted once, with the tick from which it waits, and what it waits for
no more forgotten. -/
def State.setPend (s : State) (who : Agent) (ti : Nat) (fetch : Bool) (ons : List Unanswered) : State :=
  let s := if s.pends.isEmpty then s
    else { s with pends := s.pends.filter (fun p => !p.of who ti fetch || ons.contains p.on) }
  ons.foldl (fun s on =>
    if s.pends.any (fun p => p.of who ti fetch && p.on == on) then s
    else
      let (id, s) := s.fresh
      { s with pends := s.pends ++ [{ id := id, who := who, ti := ti, fetch := fetch, on := on, since := s.stc }] }) s

/-- Noting what an agent other than a tiller waits for, if it is an answer. -/
def State.noteWait (s : State) (who : Agent) (on : Option Unanswered) : State := s.setPend who 0 false on.toList

/-- An answer has come to whatever waited for it: the stack is ready, or the fabric is up (R411, R419). -/
def State.unpend (s : State) (on : Unanswered) : State := { s with pends := s.pends.filter (fun p => p.on != on) }

/-- Forgetting the waiting accesses of an agent other than a tiller. -/
def State.dropPend (s : State) (who : Agent) : State :=
  if s.pends.isEmpty then s else { s with pends := s.pends.filter (fun p => p.who != who) }

/-! ## The driver's fault queue (R123) -/

/-- Whether the fault queue is full (R123, R401). -/
def State.fqFull (s : State) : Bool :=
  match ringLog s.plat.fqBase with
  | none => true
  | some n => (s.plat.fqTail - s.plat.fqHead).toNat == 2 ^ n

/-- The 32 bytes of a fault record (R123). -/
def FaultRec.bytes (r : FaultRec) : List Byte :=
  bytesOf 8 (r.va.toNat / 65536 * 65536) ++ bytesOf 1 r.ctx ++ bytesOf 1 (dieOf r.core) ++ bytesOf 1 (coreOf r.core) ++
    bytesOf 1 r.qs ++ bytesOf 1 r.kind ++ bytesOf 1 r.reason ++ bytesOf 2 0 ++ bytesOf 8 r.stc.toNat ++
    bytesOf 4 r.tag ++ bytesOf 4 0

/-- Writing a record to the ring. -/
def State.fqPut (s : State) (r : FaultRec) : State :=
  match ringLog s.plat.fqBase with
  | none => s
  | some n =>
    let s := s.homeWrite (ringPa s.plat.fqBase + 32 * (s.plat.fqTail.toNat % 2 ^ n)) r.bytes
    { s with plat := { s.plat with fqTail := s.plat.fqTail + 1 },
             faults := updWhere (fun x => x.tag == r.tag) (fun x => { x with written := true }) s.faults }

/-- Writing the records that wait for space, oldest first, while there is space (R123). -/
def State.fqDrain (s : State) : State :=
  s.faults.foldl (fun s r => if r.written || s.fqFull then s else s.fqPut r) s

/-- Posting a fault record: its tag, and the machine with the record in the ring, or waiting for space (R123). -/
def State.postFault (s : State) (who : FWho) (va : Nat) (ctx core qs kind reason : Nat) : Nat × State :=
  let (tag, s) := s.fresh
  let r : FaultRec :=
    { tag := tag, who := who, va := BitVec.ofNat 64 (va / 65536 * 65536), ctx := ctx, core := core, qs := qs,
      kind := kind, reason := reason, stc := BitVec.ofNat 64 s.stc, written := false }
  (tag, { s with faults := s.faults ++ [r] }.fqDrain)

/-- Quarter and sheaf slot as a fault record gives them (R123). -/
def Sheaf.qs (x : Sheaf) : Nat := x.quarter % 4 + 4 * (x.slot % 16)

/-! ## Engine commands (R253, R254) -/

/-- Destination VA of a command (R254). -/
def Cmd.dst (c : Cmd) : Nat := if c.eng = 3 then c.a.toNat else c.b.toNat

/-- Bytes of a collective's element: 8 for RA40, else 4 (R254). -/
def collWidth (op : Nat) : Nat := if op = 0 then 8 else 4

/-- Operation of a collective command (R254). -/
def Cmd.collOp (c : Cmd) : Nat := (c.c.extractLsb' 32 4).toNat

/-- A drive entry as registers give it (R409). -/
def State.drive (s : State) (d : Nat) : List Byte :=
  ((s.drives.find? (fun x => x.d == d)).map Drive.bytes).getD (List.replicate 32 0)

/-- A drive entry as it stands after reset, its queues empty (R409). -/
def Drive.init (d : Nat) : Drive := { d := d, bytes := List.replicate 32 0, tail := 0, cid := 0, head := 0, tag := true }

/-- A drive entry with the engine's place in its queues (R408). -/
def State.driveOf (s : State) (d : Nat) : Drive := (s.drives.find? (fun x => x.d == d)).getD (.init d)

/-- A field of a drive entry (R409). -/
def Drive.field (x : Drive) (off n : Nat) : Nat := natOf ((x.bytes.drop off).take n)

/-- The size of a drive's queues (R409). -/
def Drive.size (x : Drive) : Nat := x.field 14 2 + 1

/-- LBADS of a drive (R409). -/
def State.lbads (s : State) (d : Nat) : Nat := ((s.drive d).getD 9 0).toNat

/-- How many bytes a command writes (R254, R408). -/
def State.cmdLen (s : State) (c : Cmd) : Nat :=
  match c.eng with
  | 0 => (c.c.extractLsb' 0 32).toNat
  | 1 => (c.d.extractLsb' 0 16).toNat * (c.d.extractLsb' 16 13).toNat
  | 2 => (c.c.extractLsb' 0 32).toNat * collWidth c.collOp
  | _ => ((c.c.extractLsb' 0 16).toNat + 1) * 2 ^ s.lbads (c.c.extractLsb' 16 4).toNat

/-- The bytes of a member descriptor: N, and each member's device, context and source VA (R410). -/
structure Member where
  dev : Nat
  ctx : Nat
  va : Nat
  deriving DecidableEq, Repr

/-- A collective's members, from its descriptor (R410); none when the descriptor breaks R410. -/
def membersOf (bytes : List Byte) : Option (List Member) :=
  let n := natOf (bytes.take 4)
  if n < 2 ∨ n > 64 then none
  else some ((List.range n).map (fun j =>
    let e := (bytes.drop (16 + 16 * j)).take 16
    { dev := natOf (e.take 2), ctx := natOf ((e.drop 2).take 1), va := natOf ((e.drop 8).take 8) }))

end Sys2Proof.Machine
end

