-- ==== Sys2Proof/Machine/Engine.lean ====
section
/-! DEFINITION. What an engine command moves, when it moves it, and recalls (R153, R154, R254, R255, R410). -/

namespace Sys2Proof.Machine

/-- The quarter and sheaf slot that a command's fault records name. -/
def State.cmdQs (s : State) (c : Cmd) : Nat :=
  match c.owner with
  | none => 0
  | some (gid, sh) => ((s.sheaf? gid sh).map Sheaf.qs).getD 0

/-- The rate of a command's group, or the rate that a group starts with for a command of the front end (R130; log 131). -/
def State.cmdRate (s : State) (c : Cmd) : Nat :=
  match c.owner with
  | some (gid, _) => ((s.group? gid).map Group.rate).getD 16
  | none => 16

/-- The accesses of a command that carry a distance (R115, R254). -/
def State.cmdUse (s : State) (c : Cmd) (nud : Nat) : Use :=
  { who := .cmd c.id, core := c.core, ctx := c.ctx, nud := nud, rate := s.cmdRate c, by_ := [c.id] }

/-- The distances that a copy gives its source, and a copy or gather its destination; 31 for the rest (R115, R254). -/
def Cmd.srcNud (c : Cmd) : Nat := if c.eng = 0 then (c.c.extractLsb' 37 5).toNat else 31
def Cmd.dstNud (c : Cmd) : Nat :=
  if c.eng = 0 then (c.c.extractLsb' 32 5).toNat else if c.eng = 1 then (c.d.extractLsb' 29 5).toNat else 31

/-- The source bytes of a gather: for each index read, Z bytes from base + index × Z (R254). -/
def State.gatherData (s : State) (c : Cmd) : Except EngStop (List Byte) × State :=
  let e := (c.d.extractLsb' 0 16).toNat
  let z := (c.d.extractLsb' 16 13).toNat
  match s.engRead (s.cmdUse c c.srcNud) c.a.toNat (4 * e) with
  | (.error x, s) => (.error x, s)
  | (.ok idx, s) =>
    (List.range e).foldl (fun (acc : Except EngStop (List Byte) × State) i =>
      match acc with
      | (.error x, s) => (.error x, s)
      | (.ok bs, s) =>
        let k := natOf ((idx.drop (4 * i)).take 4)
        match s.engRead (s.cmdUse c c.srcNud) ((c.c.toNat + k * z) % 2 ^ 64) z with
        | (.error x, s) => (.error x, s)
        | (.ok b, s) => (.ok (bs ++ b), s)) (.ok [], s)

/-- The member descriptor of a collective: N, index, TAG and members (R410). -/
def State.collDesc (s : State) (c : Cmd) : Except EngStop (Nat × Nat × List Member) × State :=
  match s.engRead (s.cmdUse c 31) c.d.toNat 16 with
  | (.error x, s) => (.error x, s)
  | (.ok hd, s) =>
    let n := natOf (hd.take 4)
    if n < 2 ∨ n > 64 then (.error .fail, s)
    else
      match s.engRead (s.cmdUse c 31) (c.d.toNat + 16) (16 * n) with
      | (.error x, s) => (.error x, s)
      | (.ok es, s) =>
        match membersOf (hd ++ es) with
        | none => (.error .fail, s)
        | some ms => (.ok (natOf ((hd.drop 4).take 4), natOf ((hd.drop 8).take 4), ms), s)

/-- One element of a collective: the members' elements combined in ascending order (R78, R254). -/
def collElem (op : Nat) (xs : List Nat) : Nat :=
  match op with
  | 0 =>
    let sum := (xs.map raDecode).foldl (· + ·) 0
    let g := xs.any (fun x => x / 2 ^ 63 % 2 == 1) || !raInRange sum
    (raEncode sum g).toNat
  | 1 => xs.foldl (fun a b => (a + b) % 2 ^ 32) 0
  | 2 =>
    match xs with
    | [] => 0
    | x :: r => r.foldl (fun a b =>
        fF32.round .rne false false false ((fF32.decode false a).add .rne (fF32.decode false b))) x
  | _ =>
    match xs with
    | [] => 0
    | x :: r => r.foldl (fun a b => if sextNat 32 b > sextNat 32 a then b else a) x

/-- The source bytes of one member: this device's through its tables, another's as a free value (log 10). -/
def State.memberData (s : State) (c : Cmd) (m : Member) (n : Nat) : Except EngStop (List Byte) × State :=
  if m.dev = s.devnum then s.engRead { s.cmdUse c 31 with ctx := m.ctx } m.va n
  else (.ok ((List.range n).map (fun i => Config.freeByte (s.freeCtr + i))), { s with freeCtr := s.freeCtr + n })

/-- The data of a collective (R254, R410). -/
def State.collData (s : State) (c : Cmd) : Except EngStop (List Byte) × State :=
  match s.collDesc c with
  | (.error x, s) => (.error x, s)
  | (.ok (_, _, ms), s) =>
    let w := collWidth c.collOp
    let n := s.cmdLen c
    let r := ms.foldl (fun (acc : Except EngStop (List (List Byte)) × State) m =>
      match acc with
      | (.error x, s) => (.error x, s)
      | (.ok l, s) =>
        match s.memberData c m n with
        | (.error x, s) => (.error x, s)
        | (.ok b, s) => (.ok (l ++ [b]), s)) (.ok [], s)
    match r with
    | (.error x, s) => (.error x, s)
    | (.ok cols, s) =>
      (.ok ((List.range (n / w)).flatMap (fun e =>
        bytesOf w (collElem c.collOp (cols.map (fun b => natOf ((b.drop (w * e)).take w)))))), s)

/-- The bytes a command writes, from its sources as they stand (R254). -/
def State.cmdData (s : State) (c : Cmd) : Except EngStop (List Byte) × State :=
  match c.eng with
  | 0 => s.engRead (s.cmdUse c c.srcNud) c.a.toNat (s.cmdLen c)
  | 1 => s.gatherData c
  | 2 => s.collData c
  | _ => (.ok (c.data.getD []), s)

/-- Taking ownership of every destination line: every destination page is translated, and every line can be reached and
written; a storage destination must be local HBM (R153, R408). -/
def State.own (s : State) (c : Cmd) : Except EngStop Unit × State :=
  (chunksOf c.dst (s.cmdLen c)).foldl (fun (acc : Except EngStop Unit × State) k =>
    match acc with
    | (.error x, s) => (.error x, s)
    | (.ok _, s) =>
      match s.engPa c.core c.ctx true (BitVec.ofNat 64 k.1) with
      | (.error x, s) => (.error x, s)
      | (.ok (pa, leaf), s) =>
        if c.eng = 3 && !s.inHbm pa then (.error .fail, s)
        else match s.reach c.ctx pa with
          | .error e => (.error (e.toEng k.1), s)
          | .ok _ =>
            (if (s.engTouch (s.cmdUse c c.dstNud) leaf pa 1).isNone then .error (.wait none) else .ok (), s)) (.ok (), s)

/-- Changing one command. -/
def State.updCmd (s : State) (id : Nat) (f : Cmd → Cmd) : State :=
  { s with cmds := updWhere (fun c => c.id == id) f s.cmds }

/-- Why a command does not go on: a record for the driver, its failure, a refusal that is reported, or that it waits (R16, R104,
R255, R419). -/
def State.stopCmd (s : State) (c : Cmd) (e : EngStop) : State :=
  match e with
  | .fail => s.updCmd c.id (fun c => { c with failed := true })
  | .refuse _ => (s.updCmd c.id (fun c => { c with failed := true })).noteRefusal c.core c.ctx e
  | .wait on => s.noteWait (.cmd c.id) on
  | .record ctx va reason =>
    let (tag, s) := s.postFault (.cmd c.id) va ctx c.core (s.cmdQs c) 4 reason
    s.updCmd c.id (fun c => { c with tag := some tag })

/-- Whether every member of a collective has accepted a matching command in its context: those on this device by their commands,
others as the devices that answer (R410; log 10). -/
def State.collReady (s : State) (ctx tag : Nat) (ms : List Member) : Bool :=
  ms.zipIdx.all (fun m =>
    if m.1.dev = s.devnum then
      s.cmds.any (fun k => k.eng == 2 && !k.ended && k.ctx == m.1.ctx && match s.collDesc k with
        | (.ok (j, t, l), _) => j == m.2 && t == tag && l == ms
        | (.error _, _) => false)
    else s.peers.contains m.1.dev && s.fabricUp && !s.lateFor ctx (m.1.dev * 2 ^ 41))

/-- Noting, for every collective command whose members are all present, that they are; one whose descriptor cannot be read stops
as any command does (R16, R255, R410). -/
def State.meet (s : State) : State :=
  (s.cmds.filter (fun c => c.eng == 2 && !c.met && !c.ended && !c.failed && c.tag.isNone)).foldl (fun s c =>
    match s.collDesc c with
    | (.error e, s) => s.stopCmd c e
    | (.ok (_, tag, ms), s) =>
      let s := s.dropPend (.cmd c.id)
      if s.collReady c.ctx tag ms then s.updCmd c.id (fun c => { c with met := true }) else s) s

/-- Performing a command's reads and writes, or noting why it cannot (R153, R254). -/
def State.moveCmd (s : State) (c : Cmd) : State :=
  match s.own c with
  | (.error e, s) => s.stopCmd c e
  | (.ok _, s) =>
    match s.cmdData c with
    | (.error e, s) => s.stopCmd c e
    | (.ok bs, s) =>
      match s.engWrite (s.cmdUse c c.dstNud) c.dst bs with
      | (.error e, s) => s.stopCmd c e
      | (.ok _, s) => (s.updCmd c.id (fun c => { c with moved := true })).dropPend (.cmd c.id)

/-- Whether some write of an agent other than a thread is held at the home of a read-duplicated page (R157). -/
def State.holdsOf (s : State) (who : Agent) : Bool := s.rds.any (fun e => e.held.any (fun w => w.who == who))

/-- Whether a command can go on: it waits for no verdict, no drive and no member, and has neither moved nor failed. -/
def Cmd.canMove (c : Cmd) : Bool :=
  !c.moved && !c.failed && !c.ended && c.tag.isNone && (c.eng != 3 || c.data.isSome) && (c.eng != 2 || c.met)

/-- Whether a command owns the line of a PA as a destination line (R153). -/
def State.owns (s : State) (c : Cmd) (pa : Nat) : Bool :=
  (chunksOf c.dst (s.cmdLen c)).any (fun k =>
    match s.peekWalk c.ctx { write := true, fetch := false } (BitVec.ofNat 64 k.1) with
    | .ok p _ => p / 512 == pa / 512
    | _ => false)

/-- A recall: an access that reaches the home of a line owned by an engine comes after that command's writes, which
are performed now (R154). -/
def State.recall (s : State) (pa : Nat) : State :=
  s.cmds.foldl (fun s c => if c.canMove && s.owns c pa then s.moveCmd c else s) s

/-- A write of the aligned n bytes of a PA at their home, from what they hold there (R77, R152, R344): it waits as any access of
its agent does, and in its turn on a read-duplicated page. One that does not read meets no poison. -/
def State.homeAtomic (s : State) (who : Agent) (pa n : Nat) (reads : Bool) (f : Nat → Nat) : Except NoAccess Unit × State :=
  let act (s : State) : State :=
    let s := s.recall pa
    s.homeMerge (pa / 512) (cellsAt pa (bytesOf n (f (natOf (s.homeBytes pa n)) % 2 ^ (8 * n))))
  match s.reach (s.agentCtx who) pa with
  | .error e => (.error e, s)
  | .ok (.host b) => (.ok (), { s with hostMem := csetLE s.hostMem b n (f (cgetLE s.hostMem b n) % 2 ^ (8 * n)) })
  | .ok h =>
    let bad := match h with
      | .hbm l => reads && s.poisoned l n
      | _ => false
    if bad then (.error .fail, s)
    else match s.rdOf pa with
      | none => (.ok (), act s)
      | some e =>
        match s.rdTurn who e pa true with
        | (.error e, s) => (.error e, s)
        | (.ok _, s) => (.ok (), (act s).rdPerform e.page)

end Sys2Proof.Machine
end

