-- ==== Sys2Proof/Machine/Regs.lean ====
section
/-! DEFINITION. The register space as it reads (R20, R401 to R403, R406, R409, R421). -/

namespace Sys2Proof.Machine

/-- The capability registers in order (R20). -/
def capRegs : List Nat := [4, 0x00090008, 71, 4, 1024, 48, 32, 32, 12, 32, 96, 1]

/-- PREEMPT as it reads (R402). -/
def PreSt.code : PreSt → Nat
  | .running => 0
  | .preempting => 1
  | .preempted => 2
  | .reset => 3

/-- STATE of a submission queue (R342). -/
def SqSt.code : SqSt → Nat
  | .stopped => 0
  | .running => 1
  | .error => 2

/-- Global registers of a fixed value or field, as offset, bytes and value; write-only registers are absent and read
zero (R5, R401). -/
def State.regTable (s : State) : List (Nat × Nat × Nat) :=
  let p := s.plat
  [(0x40, 8, p.ready0.toNat), (0x48, 8, p.ready1.toNat), (0x50, 8, s.stc), (0x58, 4, p.devnum),
   (0x60, 4, (p.powerNext.getD p.powerCap).toNat), (0x64, 4, p.powerNow.toNat), (0x68, 8, p.hapbase.toNat),
   (0x70, 8, p.rcvAddr.toNat), (0x80, 8, p.fqBase.toNat), (0x88, 4, p.fqHead.toNat), (0x8C, 4, p.fqTail.toNat),
   (0xA0, 8, p.errBase.toNat), (0xA8, 4, p.errHead.toNat), (0xAC, 4, p.errTail.toNat), (0xB8, 4, p.errDrop.toNat)]

/-- Registers that only steward sheaves reach; those whose write is an action read what the last accepted write set (R5, R401,
R421). -/
def State.regTableSO (s : State) : List (Nat × Nat × Nat) :=
  let p := s.plat
  [(0x380, 8, p.fwPtRoot.toNat), (0x388, 8, p.fwHndCode.toNat), (0x390, 8, p.fwHndArg.toNat),
   (0x398, 4, p.fwHndRegs.toNat), (0x340, 4, p.measExt.toNat), (0x400, 4, p.doeReqLen.toNat),
   (0x404, 4, p.doeRspLen.toNat), (0x410, 8, p.signGo.toNat), (0x41C, 4, p.idxResv.toNat), (0x418, 4, s.sign.stat),
   (0x420, 4, s.sign.idxNext), (0x424, 4, s.sign.floor)]

/-- A context page's registers (R402). -/
def CtxSt.regTable (c : CtxSt) : List (Nat × Nat × Nat) :=
  [(0x00, 8, c.ptRoot.toNat), (0x10, 8, c.part.toNat % 2 ^ 64), (0x18, 8, c.part.toNat / 2 ^ 64),
   (0x28, 8, c.hndCode.toNat), (0x30, 8, c.hndArg.toNat), (0x38, 4, c.hndRegs.toNat), (0x40, 4, c.pre.code)]

/-- A submission queue's entry (R403). -/
def Sq.regTable (x : Sq) : List (Nat × Nat × Nat) :=
  [(0, 8, x.ring.toNat), (8, 1, x.logsz.toNat), (9, 1, x.ctx.toNat), (10, 1, x.prio.toNat), (11, 1, x.st.code),
   (12, 4, x.head.toNat), (16, 4, x.tail.toNat)]

/-- A watch entry (R406). -/
def Watch.regTable (w : Watch) : List (Nat × Nat × Nat) :=
  [(0, 8, w.pa.toNat), (8, 4, w.mask.toNat), (12, 4, w.value.toNat),
   (16, 1, w.cmp.toNat + 4 * w.action.toNat + (if w.armed then 128 else 0)), (18, 2, w.vector.toNat),
   (24, 8, w.bus.toNat)]

/-- The byte at an offset of a table of registers; 0 between them. -/
def tableByte (t : List (Nat × Nat × Nat)) (off : Nat) : Byte :=
  match t.find? (fun e => decide (e.1 ≤ off) && decide (off < e.1 + e.2.1)) with
  | some e => BitVec.ofNat 8 (e.2.2 / 2 ^ (8 * (off - e.1)))
  | none => 0

/-- A watch entry by number (R406). -/
def State.watch (s : State) (e : Nat) : Watch := (s.watches.find? (fun w => w.e == e)).getD (.reset e)

/-- The named bytes of a drive entry; the rest read zero (R5, R409). -/
def driveByte (l : List Byte) (off : Nat) : Byte := if off < 32 then l.getD off 0 else 0

/-- One byte of the register space as the steward, or another agent, reads it (R5, R401 to R403, R421). -/
def State.regByte (s : State) (steward : Bool) (off : Nat) : Byte :=
  let so (b : Byte) : Byte := if steward then b else 0
  let p := s.plat
  if off < 0x30 then BitVec.ofNat 8 (capRegs.getD (off / 4) 0 / 2 ^ (8 * (off % 4)))
  else if off < 0x100 then tableByte s.regTable off
  else if off < 0x300 then ((p.meas.getD ((off - 0x100) / 64) []).getD (off % 64) 0)
  else if off < 0x340 then so (cget p.measData (off - 0x300))
  else if off < 0x500 then so (tableByte s.regTableSO off)
  else if off < 0x540 then so (cget p.signMsg (off - 0x500))
  else if off < 0x800 then 0
  else if off < 0xC00 then so (cget p.doeReq (off - 0x800))
  else if off < 0x1000 then 0
  else if off < 0x3000 then so (cget p.doeRsp (off - 0x1000))
  else if off < 0x3300 then so (cget p.admits (off - 0x3000))
  else if off < 0x10000 then 0
  else if off < 0x30000 then tableByte (s.ctxSt ((off - 0x10000) / 0x1000)).regTable (off % 0x1000)
  else if off < 0x40000 then 0
  else if off < 0x48000 then tableByte (s.sq ((off - 0x40000) / 32)).regTable (off % 32)
  else if off < 0x80000 then 0
  else if off < 0xA0000 then tableByte (s.watch ((off - 0x80000) / 32)).regTable (off % 32)
  else if off < 0xC0000 then 0
  else if off < 0xC0400 then driveByte (s.drive ((off - 0xC0000) / 64)) (off % 64)
  else 0

/-- Taking the oldest dispatcher request of a die, and the next one the dispatcher holds back: 0 when none is pending
(R377). -/
def State.dspPop (s : State) (d : Nat) : Nat × State :=
  match (s.die d).dspreq with
  | [] => (0, s)
  | r :: rest =>
    (2 ^ 63 + r.kind % 8 * 2 ^ 60 + r.tag % 2 ^ 16 * 2 ^ 32 + r.locator % 2 ^ 14,
     s.updDie d (fun x => { x with dspreq := rest }))

/-- A steward's read of n bytes of the register space, with its side effects: DSPREQ gives up its oldest request, and
TRNG gives fresh bits (R377, R401, R421). -/
def State.regRead (s : State) (off n : Nat) : Nat × State :=
  if 0x360 ≤ off ∧ off < 0x380 then
    let (v, s) := s.dspPop ((off - 0x360) / 8)
    (v / 2 ^ (8 * (off % 8)) % 2 ^ (8 * n), s)
  else if 0x408 ≤ off ∧ off < 0x410 then
    let (v, s) := s.freshFree
    (v.toNat % 2 ^ (8 * n), s)
  else (natOf ((List.range n).map (fun i => s.regByte true (off + i))), s)

end Sys2Proof.Machine
end

