-- ==== Sys2Proof/Machine/Access.lean ====
section
/-! DEFINITION. Memory accesses of threads: effective addresses, the spaces they lead to, faults, one lane's access,
and the lanes of one instruction with its operand-log entry (R102 to R105, R121 to R127, R142 to R146, R213 to R225). -/

namespace Sys2Proof.Machine

/-! ## Forms -/

/-- A load (0), store (1) or atomic (2) as its fields give it (R84, R85, R213, R221). -/
structure MemForm where
  kind : Nat
  sz : Nat
  spc : Nat
  ord : Nat
  nud : Nat
  off : DWord
  d : Opd
  a : Opd
  b : Opd
  c : Opd
  /-- FN of an atomic, with OP 9 for ACAS. -/
  fn : BitVec 8
  /-- It writes D. -/
  ret : Bool
  deriving DecidableEq, Repr

/-- A byte offset as a 64-bit value (R85, R102). -/
def offVal : Off → DWord
  | .short w => w.signExtend 64
  | .long w => w.signExtend 64

/-- The form of a load or store. -/
def formM (kind : Nat) (x : FM) : MemForm :=
  { kind := kind, sz := x.sz.toNat, spc := x.spc.toNat, ord := x.ord.toNat, nud := x.nud.toNat, off := offVal x.off,
    d := x.d, a := x.a, b := .sz, c := .sz, fn := 0, ret := kind == 0 }

/-- The form of an atomic. -/
def formT (cas ret : Bool) (x : FT) : MemForm :=
  { kind := 2, sz := x.sz.toNat, spc := x.spc.toNat, ord := x.ord.toNat, nud := x.nud.toNat,
    off := x.off.signExtend 64, d := x.d, a := x.a, b := x.b, c := x.c,
    fn := if cas then x.fn ||| 9 else x.fn, ret := ret }

/-- The form of a memory or atomic instruction (R213, R221). -/
def memForm : Instr → Option MemForm
  | .ld _ x | .ldu _ x | .ldc _ x => some (formM 0 x)
  | .st _ x | .stu _ x => some (formM 1 x)
  | .atom _ x | .atomu _ x => some (formT false true x)
  | .acas _ x => some (formT true true x)
  | .red _ x => some (formT false false x)
  | _ => none

/-- The events of an access by SZ: byte offset and bytes (R84, R142, R214). -/
def szUnits (sz : Nat) : List (Nat × Nat) :=
  match sz with
  | 0 => [(0, 1)]
  | 1 => [(0, 2)]
  | 2 => [(0, 4)]
  | 3 => [(0, 8)]
  | 4 => [(0, 4), (4, 4), (8, 4), (12, 4)]
  | _ => [(0, 4), (4, 4)]

/-- Natural alignment by SZ (R105). -/
def szAlign (sz : Nat) : Nat :=
  match sz with
  | 0 => 1
  | 1 => 2
  | 2 => 4
  | 3 => 8
  | 4 => 16
  | _ => 4

/-- Whether ORD makes a read an acquire, or a write a release (R145). -/
def ordAcq (ord : Nat) : Bool := ord == 1 || ord == 3
def ordRel (ord : Nat) : Bool := ord == 2 || ord == 3

/-! ## Spaces (R102 to R104) -/

/-- S: the scratch bytes rounded up to a multiple of 1,024 (R102). -/
def Group.sBytes (g : Group) : Nat := (g.launch.scratch.toNat + 1023) / 1024 * 1024

/-- Groups of its panicle: w × h, or one without a shape (R22, R102). -/
def Group.slots (g : Group) : Nat := max 1 (g.launch.pw.toNat * g.launch.ph.toNat)

/-- The place an effective address names. -/
inductive Place where
  | generic (va : DWord)
  | own (off : Nat)
  | pan (slot off : Nat)
  | engine (off : Nat)
  deriving DecidableEq, Repr

/-- The place of an address in scratch, panicle window or engine window (R102, R103, R251). -/
def windowOf (g : Group) (spc off n : Nat) : Except (BitVec 8) Place :=
  match spc with
  | 1 => if off < g.sBytes then .ok (.own off) else .error 0x06
  | 2 =>
    if off / 0x40000 < g.slots ∧ off % 0x40000 < g.sBytes then .ok (.pan (off / 0x40000) (off % 0x40000))
    else .error 0x06
  | _ => if off < 0x30 ∧ (n = 4 ∨ n = 8) then .ok (.engine off) else .error 0x06

/-- The place of an effective address, or its fault (R102 to R104). `n` is the access size of an engine-window access:
4 or 8, or another value for any other size. -/
def placeOf (g : Group) (spc : Nat) (ea : DWord) (n : Nat) : Except (BitVec 8) Place :=
  if spc ≠ 0 then windowOf g spc ea.toNat n
  else if ea.extractLsb' 55 9 != 0 then .error 0x05
  else if ea.extractLsb' 42 13 != 0x1FFF then .ok (.generic ea)
  else
    let a := ea.toNat
    if 0x7FFC0000000000 ≤ a ∧ a ≤ 0x7FFC000003FFFF then windowOf g 1 (a - 0x7FFC0000000000) n
    else if 0x7FFC0100000000 ≤ a ∧ a ≤ 0x7FFC01005FFFFF then windowOf g 2 (a - 0x7FFC0100000000) n
    else if 0x7FFC0200000000 ≤ a ∧ a ≤ 0x7FFC0200000FFF then windowOf g 3 (a - 0x7FFC0200000000) n
    else .error 0x05

/-! ## One access -/

/-- The agent that accesses: a lane of a sheaf, or its scalar unit (lane none). -/
structure Port where
  g : Group
  sh : Sheaf
  lane : Option Nat
  /-- The lane is a helper (R32); false for the scalar unit. -/
  helper : Bool
  deriving DecidableEq, Repr

/-- The thread as the directory of a read-duplicated page knows it. -/
def Port.who (p : Port) : Agent := .thread p.g.gid p.sh.idx p.lane

/-- What one lane's access comes to: values of its events, a trap, a record for the driver, or waiting for an answer or
(`none`) for another access. -/
inductive Got where
  | done (vals : List Nat)
  | park (cause : BitVec 8)
  | record (va reason : Nat)
  | wait (on : Option Unanswered)
  deriving DecidableEq, Repr

/-- Where one event of an access is performed. `pan` tells that a scratch word is also a word of a panicle's window: ORD
then orders at panicle scope, by either way (R141, R145; log 72). -/
inductive Target where
  | gran (gid off : Nat) (pan : Bool)
  | engine (off : Nat)
  | mem (pa : Nat) (leaf : DWord)
  | reg (off : Nat)
  | host (bus : Nat)
  deriving DecidableEq, Repr

/-- A group of a panicle by its slot (R102, R108). -/
def State.panGroup (s : State) (g : Group) (slot : Nat) : Nat :=
  if slot = g.pslot then g.gid
  else ((s.groups.find? (fun x => x.grid == g.grid && x.pan == g.pan && x.pslot == slot && x.ctx == g.ctx)).map
    Group.gid).getD g.gid

/-- What a translation fault of a thread's access comes to: zero for a helper's load (R32), at once for context 63
(R414), else a record (R123). -/
def faultGot (p : Port) (kind units va reason : Nat) : Got :=
  if kind = 0 && p.helper then .done (List.replicate units 0)
  else if p.g.ctx = 63 then .park (if reason = 0 then 0x05 else 0x06)
  else .record (va / 65536 * 65536) reason

/-- Zero for a helper's load, else a trap (R32, R205). -/
def parkGot (p : Port) (kind units : Nat) (cause : BitVec 8) : Got :=
  if kind = 0 && p.helper then .done (List.replicate units 0) else .park cause

/-- Where one event is performed, or why it is not, after the lookup of its page: what the translation gives, then what the
PA leads to (R122, R217, R224, R400, R411, R419). A store whose walk meets a poisoned table entry ends with nothing written and no
trap (R118, R217; log 99). Another device answers for its HBM alone (log 134). -/
def State.target (s : State) (p : Port) (tr : List (Nat × Walk)) (kind units n : Nat) (pl : Place) : Except Got Target :=
  match pl with
  | .own off => .ok (.gran p.g.gid off (p.g.launch.pw != 0))
  | .pan slot off => .ok (.gran (s.panGroup p.g slot) off true)
  | .engine off => if kind = 2 then .error (.park 0x06) else .ok (.engine off)
  | .generic va =>
    match lookedUp tr va with
    | .unresolved | .hole => .error (parkGot p kind units 0x05)
    | .poison => .error (if kind = 1 then .done [] else parkGot p kind units 0x0F)
    | .fault r => .error (faultGot p kind units va.toNat r)
    | .busy on => .error (.wait on)
    | .ok pa leaf =>
      match s.homeOf pa with
      | .hbm l =>
        if !s.stackReady l then .error (.wait (some (.stack (stackOf l))))
        else if kind != 1 && s.poisoned l n then .error (parkGot p kind units 0x0F)
        else .ok (.mem pa leaf)
      | .far _ =>
        if !s.fabricUp then .error (.wait (some .fabric))
        else if s.lateFor p.g.ctx pa then .error (.wait (some (.peer (pa / 2 ^ 41))))
        else if s.admitted pa && decide (pa % 2 ^ 41 < hbmEnd) then .ok (.mem pa leaf)
        else .error (.park 0x06)
      | .reg off => if kind = 2 || p.g.ctx != 63 then .error (.park 0x06) else .ok (.reg off)
      | .host b =>
        if kind = 2 then .error (.park 0x06)
        else if !s.hostAnswers b then .error (.park 0x05) else .ok (.host b)
      | .hole => .error (.park 0x06)

/-- A 64-bit register of the engine window as it reads: staging words, 0 for EQGO, and EQSTAT (R251). -/
def State.windowWord (s : State) (p : Port) (k : Nat) : DWord :=
  match s.sheaf? p.g.gid p.sh.idx with
  | none => 0
  | some x =>
    match k with
    | 0 => x.eqa
    | 1 => x.eqb
    | 2 => x.eqc
    | 3 => x.eqd
    | 5 =>
      let n := (s.cmds.filter (fun c => c.owner == some (p.g.gid, x.idx) && c.batch.isNone)).length
      BitVec.ofNat 64 (x.lastb.toNat + 2 ^ 16 * min n 127)
    | _ => 0

/-- Whether a line's sector stands in the L1 that serves a core. -/
def State.inL1 (s : State) (core pa : Nat) : Bool :=
  match (s.core (s.l1Of core (pa / 512))).line? (pa / 512) with
  | some x => x.valid.getLsbD (sectorOf pa)
  | none => false

/-- The cache fields of one instruction's access through a leaf: the instruction is known by its cycle and its tiller. -/
def State.accOf (s : State) (p : Port) (m : MemForm) (leaf : DWord) : Acc :=
  Acc.ofLeaf p.g.core p.g.ctx m.nud p.g.rate [s.cycle, p.g.gid, p.sh.idx, s.cur.ti] leaf

/-- A directory entry of a page that the driver has registered for no device: a page with RD = 1 and no holder. -/
def RdPage.none_ (page home : Nat) : RdPage :=
  { page := page, home := home, holders := [], due := [], held := [], since := 0, removed := [], owner := none,
    replica := none }

/-- The directory's entry of a read-duplicated page, by the page's leaf (R157). -/
def State.rdEntry (s : State) (pa : Nat) (leaf : DWord) : Option RdPage :=
  if leaf.getLsbD 11 then some ((s.rdOf pa).getD (.none_ (pa / 65536) (pa / 2 ^ 41))) else none

/-- What an acquire or a release of an access's ORD does at device scope or wider (R145). -/
def State.acqBy (s : State) (core ord : Nat) : State := if ordAcq ord then s.acquire core else s
def State.relBy (s : State) (core ord : Nat) : State := if ordRel ord then s.release core else s

/-- Whether one event must wait for another access (R132, R144, R146, R157): a volatile one, as every access of the MMIO window
is, for a held write of its own thread; one to a read-duplicated page for the writes held there; one whose fill finds every
allowed way pinned. -/
def State.mustWait (s : State) (p : Port) (m : MemForm) (n : Nat) (t : Target) : Bool :=
  match t with
  | .gran .. | .engine _ => false
  | .reg _ | .host _ => s.holdsFor p.who
  | .mem pa leaf =>
    (m.ord == 4 && (if m.kind = 2 then s.holdsElse p.who else s.holdsFor p.who)) ||
    (match s.rdEntry pa leaf with
     | some e => match m.kind with
       | 0 => s.rdRead e p.who pa n == .wait
       | 1 => e.ownHeld p.who pa n
       | _ => false
     | none => false) ||
    (!(s.inL1 p.g.core pa && m.kind != 2 && m.ord != 4) && s.l2Full (s.accOf p m leaf) (pa / 512))

/-- A read or write at the home: the L1's own copy goes first, an engine's line is recalled, and the access passes through L2
(R113, R141, R146, R154). -/
def State.goHome (s : State) (p : Port) (m : MemForm) (leaf : DWord) (pa n : Nat) : State :=
  ((s.toHome p.g.core pa).recall pa).l2Touch (s.accOf p m leaf) (pa / 512) (sectorsOf pa n)

/-- The read of one event (R113, R141, R145, R146, R154, R157). The value, or why there is none. -/
def State.readUnit (s : State) (p : Port) (m : MemForm) (n : Nat) (t : Target) : Except Got Nat × State :=
  match t with
  | .gran gid off pan =>
    let v := ((s.group? gid).map (fun g => cgetLE g.scratch off n)).getD 0
    (.ok v, if pan && ordAcq m.ord then s.acquire p.g.core else s)
  | .engine off => (.ok ((s.windowWord p (off / 8)).toNat / 2 ^ (8 * (off % 8)) % 2 ^ (8 * n)), s)
  | .reg off => let (v, s) := s.regRead off n; (.ok v, s.acqBy p.g.core m.ord)
  | .host b => (.ok (cgetLE s.hostMem b n), s.acqBy p.g.core m.ord)
  | .mem pa leaf =>
    let atHome (s : State) : Except Got Nat × State :=
      let s := s.goHome p m leaf pa n
      (.ok (natOf (s.homeBytes pa n)), s.acqBy p.g.core m.ord)
    match (s.rdEntry pa leaf).map (fun e => s.rdRead e p.who pa n) with
    | some (.replica bs) => (.ok (natOf bs), s.acqBy p.g.core m.ord)
    | some .home => atHome s
    | some .wait => (.error (.wait none), s)
    | some .removed => (.error (.park 0x05), s.report 9 p.g.ctx (dieOf p.g.core) (coreOf p.g.core) pa 5)
    | none =>
      if m.ord = 4 then atHome s
      else
        let s := if s.inL1 p.g.core pa then s else s.recall pa
        let (bs, s) := s.cachedRead (s.accOf p m leaf) pa n
        (.ok (natOf bs), s.acqBy p.g.core m.ord)

/-- A write of the register space that waits for its turn. -/
def Turn.isRegWrite (t : Turn) : Bool :=
  match t.act with
  | .event (.registerWrite ..) => t.cycles == 0
  | _ => false

/-- A register write takes the next turn, after those of the same instruction. -/
def State.putRegTurn (s : State) (t : Turn) : State :=
  { s with agenda := s.agenda.takeWhile Turn.isRegWrite ++ t :: s.agenda.dropWhile Turn.isRegWrite }

/-- The write of one event (R113, R141, R145, R146, R154, R155, R157). -/
def State.writeUnit (s : State) (p : Port) (m : MemForm) (n v : Nat) (t : Target) : Except Got Unit × State :=
  let bytes := bytesOf n v
  match t with
  | .gran gid off pan =>
    let s := if pan && ordRel m.ord then s.release p.g.core else s
    (.ok (), s.updGroup gid (fun g => { g with scratch := csets g.scratch off bytes }))
  | .engine off =>
    let put (w : DWord) : DWord :=
      let k := 8 * (off % 8)
      let mask : DWord := BitVec.ofNat 64 ((2 ^ (8 * n) - 1) * 2 ^ k)
      (w &&& ~~~mask) ||| BitVec.ofNat 64 (v % 2 ^ (8 * n) * 2 ^ k)
    (.ok (), s.updSheaf p.g.gid p.sh.idx (fun x =>
      match off / 8 with
      | 0 => { x with eqa := put x.eqa }
      | 1 => { x with eqb := put x.eqb }
      | 2 => { x with eqc := put x.eqc }
      | 3 => { x with eqd := put x.eqd }
      | _ => x))
  | .reg off =>
    let e : Instr := .registerWrite true (BitVec.ofNat 24 off) n (BitVec.ofNat 64 v)
    (.ok (), (s.relBy p.g.core m.ord).putRegTurn { cycles := 0, act := .event e })
  | .host b => let s := s.relBy p.g.core m.ord; (.ok (), { s with hostMem := csets s.hostMem b bytes })
  | .mem pa leaf =>
    let s := s.relBy p.g.core m.ord
    match s.rdEntry pa leaf with
    | some _ => (.ok (), (s.goHome p m leaf pa n).homeStore p.who pa bytes)
    | none =>
      if m.ord = 4 then (.ok (), (s.goHome p m leaf pa n).homeMerge (pa / 512) (cellsAt pa bytes))
      else
        let s := if s.inL1 p.g.core pa then s else s.recall pa
        let s := s.cachedWrite (s.accOf p m leaf) pa bytes
        (.ok (), if ordRel m.ord then s.writeBack (s.l1Of p.g.core (pa / 512)) (pa / 512) else s)

/-- What an atomic writes for an old value, b and c, or nothing (R222). `fn` holds TYPE and OP. -/
def atomNew (fn : BitVec 8) (old b c : Nat) : Option Nat :=
  let ty := (fn.extractLsb' 4 3).toNat
  let op := (fn.extractLsb' 0 4).toNat
  let w := if ty = 2 ∨ ty = 3 then 64 else 32
  let fl (f : FFmt) (o y : Nat) : Nat :=
    let xo := f.decode false o
    let xy := f.decode false y
    match op with
    | 0 => f.round .rne false false false (xo.add .rne xy)
    | 1 => f.round .rne false false false (xo.min2 xy)
    | 2 => f.round .rne false false false (xo.max2 xy)
    | _ => y
  let pair (f : FFmt) : Nat := fl f (old % 2 ^ 16) (b % 2 ^ 16) + 2 ^ 16 * fl f (old / 2 ^ 16) (b / 2 ^ 16)
  if op = 9 then (if old = c then some b else none)
  else if ty = 4 then some (fl fF32 old b)
  else if ty = 5 then some (pair fF16)
  else if ty = 6 then some (pair fBF16)
  else
    let i (x : Nat) : Int := if ty = 0 ∨ ty = 2 then sextNat w x else x
    match op with
    | 0 => some ((old + b) % 2 ^ w)
    | 1 => some (if i b < i old then b else old)
    | 2 => some (if i b > i old then b else old)
    | 3 => some (old &&& b)
    | 4 => some (old ||| b)
    | 5 => some (old ^^^ b)
    | 6 => some b
    | 7 => some (if old ≥ b then 0 else old + 1)
    | _ => some (if old = 0 ∨ old > b then b else old - 1)

/-- The read and write of an atomic, with nothing between them (R148, R152, R223). -/
def State.atomUnit (s : State) (p : Port) (m : MemForm) (n b c : Nat) (t : Target) : Except Got Nat × State :=
  match t with
  | .gran gid off pan =>
    let old := ((s.group? gid).map (fun g => cgetLE g.scratch off n)).getD 0
    let s := if pan && ordRel m.ord then s.release p.g.core else s
    let s := match atomNew m.fn old b c with
      | some v => s.updGroup gid (fun g => { g with scratch := csetLE g.scratch off n v })
      | none => s
    (.ok old, if pan && ordAcq m.ord then s.acquire p.g.core else s)
  | .mem pa leaf =>
    let perform (s : State) : Except Got Nat × State :=
      let s := (s.relBy p.g.core m.ord).goHome p m leaf pa n
      let old := natOf (s.homeBytes pa n)
      let s := match atomNew m.fn old b c with
        | some v => s.homeMerge (pa / 512) (cellsAt pa (bytesOf n v))
        | none => s
      (.ok old, s.acqBy p.g.core m.ord)
    match s.rdEntry pa leaf with
    | some e =>
      match s.rdTurn p.who e pa (atomNew m.fn (natOf (s.homeBytes pa n)) b c).isSome with
      | (.ok _, s) =>
        let r := perform s
        (r.1, r.2.rdPerform e.page)
      | (.error (.wait on), s) => (.error (.wait on), s)
      | (.error _, s) => (.error (.park 0x05), s.report 9 p.g.ctx (dieOf p.g.core) (coreOf p.g.core) pa 5)
    | none => perform s
  | _ => (.error (.park 0x06), s)

/-- The sources of an access as read at issue (R124): address operand, then store data or operands B and C. -/
structure Src where
  a : DWord
  b : DWord
  c : DWord
  deriving DecidableEq, Repr

/-- Operand B of a packed 16-bit atomic: an inline F32 constant supplies both halves (R87, R222). -/
def Rd.packed (r : Rd) (fmt : FFmt) (o : Opd) : Word := BitVec.ofNat 32 (r.half fmt o 0 + 2 ^ 16 * r.half fmt o 1)

/-- Operand B of an atomic of 32 bits, by its type (R87, R221). -/
def Rd.atomB (r : Rd) (m : MemForm) : Word :=
  match (m.fn.extractLsb' 4 3).toNat with
  | 5 => r.packed fF16 m.b
  | 6 => r.packed fBF16 m.b
  | _ => r.w32 m.b

/-- Reading the sources of an access (R102, R213, R214, R221). -/
def Rd.src (r : Rd) (m : MemForm) : Src :=
  let a : DWord := if m.spc = 0 then r.w64 m.a else (r.w32 m.a).setWidth 64
  if m.kind = 1 then
    if m.sz = 4 then { a := a, b := r.reg m.d 1 ++ r.reg m.d 0, c := r.reg m.d 3 ++ r.reg m.d 2 }
    else { a := a, b := if szUnits m.sz == [(0, 8)] || m.sz = 5 then r.w64 m.d else (r.w32 m.d).setWidth 64, c := 0 }
  else if m.kind = 2 then
    let w := m.sz == 3
    { a := a, b := if w then r.w64 m.b else (r.atomB m).setWidth 64,
      c := if w then r.w64 m.c else (r.w32 m.c).setWidth 64 }
  else { a := a, b := 0, c := 0 }

/-- The effective address (R102). -/
def Src.ea (x : Src) (m : MemForm) : DWord := x.a + m.off

/-- The place of each event of an access, after the alignment check and the range check of each (R103, R105). -/
def Src.places (x : Src) (g : Group) (m : MemForm) : Except (BitVec 8) (List (Place × Nat)) :=
  let ea := x.ea m
  if ea.toNat % szAlign m.sz ≠ 0 then .error 0x04
  else
    let n := match szUnits m.sz with
      | [(_, n)] => n
      | _ => 16
    (szUnits m.sz).foldr (fun u acc =>
      match placeOf g m.spc (ea + BitVec.ofNat 64 u.1) n, acc with
      | .ok p, .ok l => .ok ((p, u.2) :: l)
      | .error c, _ => .error c
      | _, .error c => .error c) (.ok [])

/-- The targets of the events of an access; the first that has none decides. -/
def State.targets (s : State) (p : Port) (tr : List (Nat × Walk)) (kind : Nat) (us : List (Place × Nat)) :
    Except Got (List (Target × Nat)) :=
  us.foldr (fun u acc =>
    match s.target p tr kind us.length u.2 u.1, acc with
    | .error e, _ => .error e
    | .ok _, .error e => .error e
    | .ok t, .ok l => .ok ((t, u.2) :: l)) (.ok [])

/-- The faulting pages of an access, one for each of its events that lies in one (R123). -/
def State.faultsOf (s : State) (p : Port) (tr : List (Nat × Walk)) (m : MemForm) (x : Src) : List (Nat × Nat) :=
  match x.places p.g m with
  | .error _ => []
  | .ok us => us.filterMap (fun u => match s.target p tr m.kind us.length u.2 u.1 with
    | .error (.record va reason) => some (va, reason)
    | _ => none)

/-- One event of an access, the k-th, with its value for a load or an atomic. -/
def State.memUnit (s : State) (p : Port) (m : MemForm) (x : Src) (k n : Nat) (t : Target) : Except Got (List Nat) × State :=
  match m.kind with
  | 0 => match s.readUnit p m n t with
    | (.error e, s) => (.error e, s)
    | (.ok v, s) => (.ok [v], s)
  | 1 => match s.writeUnit p m n ((x.c ++ x.b).toNat / 2 ^ (8 * n * k) % 2 ^ (8 * n)) t with
    | (.error e, s) => (.error e, s)
    | (.ok _, s) => (.ok [], s)
  | _ => match s.atomUnit p m n x.b.toNat x.c.toNat t with
    | (.error e, s) => (.error e, s)
    | (.ok v, s) => (.ok [v], s)

/-- One lane's access, after the lookups of its pages: its events in ascending address, none before all can be performed
(R214, R223). -/
def State.laneWith (s : State) (p : Port) (tr : List (Nat × Walk)) (m : MemForm) (x : Src) : Got × State :=
  match x.places p.g m with
  | .error c => (.park c, s)
  | .ok us =>
    match s.targets p tr m.kind us with
    | .error e => (e, s)
    | .ok ts =>
      if ts.any (fun t => s.mustWait p m t.2 t.1) then (.wait none, s)
      else
        let r := ts.zipIdx.foldl (fun (acc : Except Got (List Nat) × State) t =>
          match acc with
          | (.error e, s) => (.error e, s)
          | (.ok vs, s) => match s.memUnit p m x t.2 t.1.2 t.1.1 with
            | (.error e, s) => (.error e, s)
            | (.ok v, s) => (.ok (vs ++ v), s)) (.ok [], s)
        match r with
        | (.error e, s) => (e, s)
        | (.ok vs, s) => (.done vs, s)

/-- The VAs that an access translates. -/
def Src.vas (x : Src) (g : Group) (m : MemForm) : List DWord :=
  match x.places g m with
  | .error _ => []
  | .ok us => us.filterMap (fun u => match u.1 with
    | .generic va => some va
    | _ => none)

/-- The lookups of an access by a group's threads (R122). -/
def State.lookupFor (s : State) (g : Group) (m : MemForm) (xs : List Src) : List (Nat × Walk) × State :=
  s.lookup g.core g.ctx { write := m.kind != 0, fetch := false } (xs.flatMap (fun x => x.vas g m))

/-- One lane's access by itself (R214, R223). -/
def State.memLane (s : State) (p : Port) (m : MemForm) (x : Src) : Got × State :=
  let (tr, s) := s.lookupFor p.g m [x]
  s.laneWith p tr m x

/-- The registers that an access's values go to: a value of more than 32 bits fills a pair (R214, R223). -/
def unitWords (sz : Nat) (vs : List Nat) : List Word :=
  if sz = 3 then vs.flatMap (fun v => [BitVec.ofNat 32 v, BitVec.ofNat 32 (v / 2 ^ 32)])
  else vs.map (BitVec.ofNat 32)

/-- Register writes of one lane. -/
def laneWrites (lane : Option Nat) (d : Opd) (ws : List Word) : List RegWrite :=
  ws.zipIdx.flatMap (fun e =>
    match d with
    | .v n => [{ key := .v (n.val + e.2) (lane.getD 0), val := e.1 }]
    | .s n => [{ key := .s (n.val + e.2), val := e.1 }]
    | _ => [])

/-! ## The lanes of one instruction -/

/-- What the accesses of an instruction's lanes come to. -/
structure MemRes where
  s : State
  writes : List RegWrite
  parks : List (Option Nat × BitVec 8)
  recs : List (Option Nat × Nat × Nat)
  waits : List (Option Nat × Option Unanswered)
  deriving DecidableEq, Repr

/-- The accesses of lanes in ascending order, each with its sources, after one lookup of each of their pages (R122, R216, R225).
An access of the scalar unit is every active thread's, and so a helper's where `help` says that all of them are (R204, R205). -/
def State.memLanes (s : State) (g : Group) (sh : Sheaf) (m : MemForm) (help : Bool) (ls : List (Option Nat × Src)) : MemRes :=
  let (tr, s) := s.lookupFor g m (ls.map Prod.snd)
  ls.foldl (fun (r : MemRes) l =>
    let helper := match l.1 with
      | some t => sh.helpers.getLsbD t
      | none => help
    let p : Port := { g := g, sh := sh, lane := l.1, helper := helper }
    match r.s.laneWith p tr m l.2 with
    | (.done vs, s) =>
      { r with s := s, writes := r.writes ++ (if m.ret then laneWrites l.1 m.d (unitWords m.sz vs) else []) }
    | (.park c, s) => { r with s := s, parks := r.parks ++ [(l.1, c)] }
    | (.record _ _, s) => { r with s := s, recs := r.recs ++ (s.faultsOf p tr m l.2).map (fun e => (l.1, e.1, e.2)) }
    | (.wait on, s) => { r with s := s, waits := r.waits ++ [(l.1, on)] })
    { s := s, writes := [], parks := [], recs := [], waits := [] }

/-- The payload of a cause raised by a memory access of a kind (R367). -/
def memPayload (cause : BitVec 8) (kind : Nat) : BitVec 24 :=
  if cause = 0x05 ∨ cause = 0x06 then BitVec.ofNat 24 kind else 0

/-- Pages with their reason and lanes, one record each (R123). -/
def pagesOf (recs : List (Option Nat × Nat × Nat)) (all : Mask) : List (Nat × Nat × Mask) :=
  recs.foldl (fun (l : List (Nat × Nat × Mask)) r =>
    let m := match r.1 with
      | some t => Mask.ofLanes [t]
      | none => all
    if l.any (fun e => e.1 == r.2.1) then l.map (fun e => if e.1 == r.2.1 then (e.1, e.2.1, e.2.2 ||| m) else e)
    else l ++ [(r.2.1, r.2.2, m)]) []

/-- The sources of lanes as an operand-log entry holds them (R124). -/
def srcCells (ls : List (Option Nat × Src)) (all : Mask) : Cells 64 :=
  ls.foldl (fun c l =>
    let ts := match l.1 with
      | some t => [t]
      | none => all.lanes
    ts.foldl (fun c t => cset (cset (cset c (4 * t) l.2.a) (4 * t + 1) l.2.b) (4 * t + 2) l.2.c) c) []

/-- Posting one record for each page of an operand-log entry: tags with their lanes (R123, R124). -/
def State.postPages (s : State) (g : Group) (sh : Sheaf) (log kind : Nat) (pages : List (Nat × Nat × Mask)) :
    List (Nat × Mask) × State :=
  pages.foldl (fun acc e =>
    let (tag, s) := acc.2.postFault (.log g.gid sh.idx log) e.1 g.ctx g.core sh.qs kind e.2.1
    (acc.1 ++ [(tag, e.2.2)], s)) ([], s)

/-- Taking an operand-log entry for the lanes whose translation faulted (R124). -/
def State.takeLog (s : State) (f : Frame) (i : Instr) (m : MemForm) (r : MemRes) (ls : List (Option Nat × Src)) :
    State :=
  if r.recs.isEmpty then s
  else
    let (id, s) := s.fresh
    let pages := pagesOf r.recs f.t.mask
    let mask := pages.foldl (fun a e => a ||| e.2.2) (0 : Mask)
    let (tags, s) := s.postPages f.g f.sh id m.kind pages
    let faulted := ls.filter (fun l => r.recs.any (fun e => e.1 == l.1))
    let e : LogEntry :=
      { id := id, ti := f.t.idx, instr := i, pc := f.t.pc, mask := mask, src := srcCells faulted f.t.mask,
        tags := tags, failed := [] }
    s.updS f (fun x => { x with oplog := x.oplog ++ [e] })

/-- GRC counts an instruction; at a multiple of 1,024 the rate register takes the winnow ticks since the last such
point, clamped to 1 to 65,535 (R130, R238). -/
def State.countGrc (s : State) (gid : Nat) : State :=
  let now := s.cycle / 64
  s.updGroup gid (fun g =>
    let n := g.grc + 1
    if n.toNat % 1024 = 0 then
      { g with grc := n, rate := max 1 (min 65535 (now - g.rateMark)), rateMark := now }
    else { g with grc := n })

/-- Whether a waiting access is of a tiller's instruction. -/
def Pend.ofTiller (p : Pend) (gid sh ti : Nat) : Bool :=
  match p.who with
  | .thread g x _ => g == gid && x == sh && p.ti == ti
  | _ => false

/-- The accesses of a tiller's instruction that wait for an answer are now those of some lanes alone, noted where they are
new. -/
def State.pendLanes (s : State) (f : Frame) (ws : List (Option Nat × Option Unanswered)) : State :=
  let still (p : Pend) : Bool := !p.ofTiller f.g.gid f.sh.idx f.t.idx || p.fetch ||
    ws.any (fun w => w.2.isSome && p.who == .thread f.g.gid f.sh.idx w.1)
  let s := if s.pends.isEmpty then s else { s with pends := s.pends.filter still }
  ws.foldl (fun s w => s.setPend (.thread f.g.gid f.sh.idx w.1) f.t.idx false (ws.filterMap (fun v =>
    if v.1 = w.1 then v.2 else none))) s

/-- No access of a tiller's instruction waits any more. -/
def State.dropPends (s : State) (f : Frame) : State := s.pendLanes f []

/-- The traps of an instruction's lanes; the scalar unit's trap is taken by every active lane (R81, R126, R217). -/
def laneTraps (f : Frame) (size kind : Nat) (parks : List (Option Nat × BitVec 8)) : List Trap :=
  parks.flatMap (fun p =>
    let ts := match p.1 with
      | some t => [t]
      | none => f.t.mask.lanes
    ts.map (f.trapAt size p.2 (memPayload p.2 kind)))

/-- Moving a tiller past an instruction unless every lane of it has parked (R39). -/
def State.moveOn (s : State) (f : Frame) (i : Instr) : State :=
  s.updT f (fun t => if t.mask = 0 then { t with todo := none } else t.advance s.cycle i)

/-- Leaving the lanes that wait to perform the instruction again: in EVENT-WAIT for room for a command, BLOCKED for a
stack or the fabric (R253, R387, R419). -/
def State.stayFor (s : State) (f : Frame) (lanes : Mask) (st : TSt) : State :=
  s.updT f (fun t =>
    if t.mask = 0 then { t with todo := none } else { t with todo := some (lanes &&& t.mask), st := st })

/-- The lanes that an instruction performs: those still to act, or every active lane whose guard is true. -/
def todoLanes (f : Frame) (h : Hdr) (s : State) : List (Option Nat) :=
  if h.u then
    (match f.t.todo with
     | some d => if d = 0 then [] else [none]
     | none => if f.guardU h s.cycle then [none] else [])
  else
    let m := match f.t.todo with
      | some d => d &&& f.t.mask
      | none => f.active h s.cycle
    m.lanes.map some

/-- Whether an access is suppressed for helpers: a store or atomic of a helper, or of the scalar unit when every
active lane is one (R32, R205). -/
def Frame.suppressed (f : Frame) (lane : Option Nat) : Bool :=
  match lane with
  | some t => f.sh.helpers.getLsbD t
  | none => f.t.mask &&& ~~~f.sh.helpers == 0

/-- Closing an instruction that accessed memory: results wait in the scoreboard (R92), faulted lanes take a log entry
(R124), trapped lanes park (R217), and the tiller moves on, or stays for the lanes that wait. `full` tells
that a store to EQGO waits for room for its command (R253). -/
def State.closeMem (f : Frame) (i : Instr) (m : MemForm) (full : Bool) (r : MemRes)
    (ls : List (Option Nat × Src)) : State :=
  let s := r.s
  let s := if r.writes.isEmpty then s
    else s.updS f (fun x => { x with board := x.board ++ [{ mem := true, writes := r.writes }] })
  let s := s.takeLog f i m r ls
  let s := s.park f (laneTraps f i.size m.kind r.parks)
  let s := s.pendLanes f r.waits
  if r.waits.isEmpty then s.moveOn f i
  else
    s.stayFor f (r.waits.foldl (fun a w => match w.1 with
      | some t => a ||| Mask.ofLanes [t]
      | none => f.t.mask) 0) (if full then .eventWait .retry else .blocked .room)

end Sys2Proof.Machine
end

