-- ==== Sys2Proof/Machine/Memory.lean ====
section
/-! DEFINITION. Loads, stores, cache control and atomics (R213 to R225, R251 to R253). -/

namespace Sys2Proof.Machine

/-! ## Loads -/

/-- The common effect of loads and atomics: GRC counts once, lanes act in ascending order, suppressed ones not at all
(R32, R205, R214, R223, R225, R238). -/
def memEffect (i : Instr) (h : Hdr) (m : MemForm) (f : Frame) (s : State) : State :=
  let s1 := if f.t.todo.isNone then s.countGrc f.g.gid else s
  let lanes := (todoLanes f h s).filter (fun l => !(m.kind != 0 && f.suppressed l))
  let ls := lanes.map (fun l => (l, Rd.src { s := s, f := f, lane := l } m))
  State.closeMem f i m false (s1.memLanes f.g f.sh m (f.suppressed none) ls) ls

/-- LD (R213, R214): a load in each active thread. -/
def execLd (h : Hdr) (x : FM) (s : State) : Out := issue (.ld h x) s (memEffect (.ld h x) h (formM 0 x))

/-- LDU (R204, R213): one load into scalars. -/
def execLdu (h : Hdr) (x : FM) (s : State) : Out := issue (.ldu h x) s (memEffect (.ldu h x) h (formM 0 x))

/-- LDC (R213, R218): a load, per thread or uniform. -/
def execLdc (h : Hdr) (x : FM) (s : State) : Out := issue (.ldc h x) s (memEffect (.ldc h x) h (formM 0 x))

/-! ## Stores and the engine window -/

/-- Whether a lane's store is aimed at the engine window (R104, R252). -/
def aimsEngine (g : Group) (m : MemForm) (x : Src) : Bool :=
  m.spc == 3 ||
    (match placeOf g m.spc (x.ea m) (match szUnits m.sz with
      | [(_, n)] => n
      | _ => 16) with
     | .ok (.engine _) => true
     | _ => false)

/-- A store to EQGO: the value it names the engine by, when the lane's address is there (R251, R253). The half of EQGO
that a 32-bit store does not reach is zero. -/
def goValue (g : Group) (m : MemForm) (x : Src) : Option Nat :=
  match x.places g m with
  | .ok [(.engine off, n)] =>
    if off / 8 = 4 then some (x.b.toNat % 2 ^ (8 * n) * 2 ^ (8 * (off % 8))) else none
  | _ => none

/-- A VA that an engine may be given: bits 63:55 clear and outside the aperture region (R253). -/
def engVa (a : DWord) : Bool := a.extractLsb' 55 9 == 0 && a.extractLsb' 42 13 != 0x1FFF

/-- Validation of the staging words for an engine (R253, R254, R408). -/
def State.cmdValid (s : State) (eng : Nat) (a b c d : DWord) : Bool :=
  match eng with
  | 0 => engVa a && engVa b && c.extractLsb' 42 22 == 0 && d == 0
  | 1 =>
    engVa a && engVa b && engVa c && a.extractLsb' 0 2 == 0 && d.extractLsb' 0 16 != 0 &&
      decide (1 ≤ (d.extractLsb' 16 13).toNat) && decide ((d.extractLsb' 16 13).toNat ≤ 4096) &&
      d.extractLsb' 34 30 == 0
  | 2 => engVa a && engVa b && engVa d && c.extractLsb' 36 28 == 0 && c.extractLsb' 32 4 ≤ 3
  | 3 =>
    let dr := (c.extractLsb' 16 4).toNat
    engVa a && a.extractLsb' 0 12 == 0 && c.extractLsb' 20 44 == 0 && d.extractLsb' 32 32 == 0 &&
      ((s.drive dr).getD 10 0).getLsbD 0 &&
      decide (((c.extractLsb' 0 16).toNat + 1) * 2 ^ s.lbads dr ≤ 2 ^ 21)
  | _ => false

/-- Commands of a sheaf that have not ended (R253). -/
def State.liveCmds (s : State) (gid sh : Nat) : Nat :=
  (s.cmds.filter (fun c => c.owner == some (gid, sh) && !c.ended)).length

/-- Accepting the command that a sheaf's staging words describe (R253): the release of R151 comes first, and the
command joins those accepted since the last BCLOSE. A copy of no bytes ends at once (R254). -/
def State.acceptCmd (s : State) (gid sh eng : Nat) : Option Cmd × State :=
  match s.group? gid with
  | none => (none, s)
  | some g =>
    match g.sheaf? sh with
    | none => (none, s)
    | some x =>
      if !s.cmdValid eng x.eqa x.eqb x.eqc x.eqd || decide (64 ≤ s.liveCmds gid sh) then (none, s)
      else
        let s := s.release g.core
        let (id, s) := s.fresh
        let c : Cmd :=
          { id := id, owner := some (gid, sh), core := g.core, ctx := g.ctx, eng := eng, a := x.eqa, b := x.eqb,
            c := x.eqc, d := x.eqd, batch := none, moved := false, met := false, tag := none, failed := false,
            ended := eng == 0 && x.eqc.extractLsb' 0 32 == 0, startedAt := s.stc, queue := none, posted := false, cid := 0, data := none }
        (some c, { s with cmds := s.cmds ++ [c] })

/-- The event by which a store to EQGO issues its command (R253, R254). -/
def engineEvent (eng gid sh : Nat) : Instr :=
  match eng with
  | 0 => .engineCopy gid sh
  | 1 => .engineGather gid sh
  | 2 => .engineCollective gid sh
  | _ => .engineStorage gid sh

/-- Accesses of a store's lanes, a store to the engine window taking effect once, from the highest of the lanes that
aim there (R216, R252). A store to EQGO also waits until the sheaf's held writes have been performed, since it is a release of
them (R151, R157). Every lane's address is checked, so that one whose address is bad traps though its store would take no effect
(R252; log 158). -/
def storeEffect (i : Instr) (h : Hdr) (m : MemForm) (f : Frame) (s : State) : State :=
  let s1 := if f.t.todo.isNone then s.countGrc f.g.gid else s
  let lanes := (todoLanes f h s).filter (fun l => !f.suppressed l)
  let ls := lanes.map (fun l => (l, Rd.src { s := s, f := f, lane := l } m))
  let eng := ls.filter (fun l => aimsEngine f.g m l.2)
  let last := eng.getLast?.map Prod.fst
  let keep (l : Option Nat × Src) : Bool :=
    !aimsEngine f.g m l.2 || some l.1 == last || (match l.2.places f.g m with
      | .ok _ => false
      | .error _ => true)
  match (eng.getLast?).bind (fun l => goValue f.g m l.2) with
  | none => State.closeMem f i m false (s1.memLanes f.g f.sh m false (ls.filter keep)) ls
  | some v =>
    let others := ls.filter (fun l => keep l && some l.1 != last)
    let r := s1.memLanes f.g f.sh m false others
    let lane := last.getD none
    if !s.cmdValid v f.sh.eqa f.sh.eqb f.sh.eqc f.sh.eqd then
      State.closeMem f i m false { r with parks := r.parks ++ [(lane, 0x0E)] } ls
    else if 64 ≤ s.liveCmds f.g.gid f.sh.idx ∨ s.holdsFor (.thread f.g.gid f.sh.idx none) then
      State.closeMem f i m true { r with waits := r.waits ++ [(lane, none)] } ls
    else
      let s2 := State.closeMem f i m false r ls
      { s2 with agenda := { cycles := 0, act := .event (engineEvent v f.g.gid f.sh.idx) } :: s2.agenda }

/-- ST (R213, R214, R216): a store in each active thread that is not a helper. -/
def execSt (h : Hdr) (x : FM) (s : State) : Out := issue (.st h x) s (storeEffect (.st h x) h (formM 1 x))

/-- STU (R204, R213): one store. -/
def execStu (h : Hdr) (x : FM) (s : State) : Out := issue (.stu h x) s (storeEffect (.stu h x) h (formM 1 x))

/-! ## Atomics -/

/-- ATOM (R221 to R225). -/
def execAtom (h : Hdr) (x : FT) (s : State) : Out :=
  issue (.atom h x) s (memEffect (.atom h x) h (formT false true x))

/-- ACAS (R223). -/
def execAcas (h : Hdr) (x : FT) (s : State) : Out :=
  issue (.acas h x) s (memEffect (.acas h x) h (formT true true x))

/-- RED (R221 to R223): an atomic that writes no register. -/
def execRed (h : Hdr) (x : FT) (s : State) : Out :=
  issue (.red h x) s (memEffect (.red h x) h (formT false false x))

/-- ATOMU (R204, R221 to R223): one atomic into scalars. -/
def execAtomu (h : Hdr) (x : FT) (s : State) : Out :=
  issue (.atomu h x) s (memEffect (.atomu h x) h (formT false true x))

/-! ## PREF and CCTL -/

/-- The line of a translated address for PREF or CCTL, with its leaf; nothing when it does not translate or is no line of
memory that can be reached (R219, R220). -/
def State.hintLine (s : State) (ctx : Nat) (w : Walk) : Option (Nat × DWord) :=
  match w with
  | .ok pa leaf => match s.reach ctx pa with
    | .ok (.hbm _) | .ok (.far _) => some (pa, leaf)
    | _ => none
  | _ => none

/-- An instruction that acts on the line of each lane's address, without events or faults, after one lookup of each page (R122,
R219, R220). A lane for which `act` gives nothing, or whose walk must wait, waits for a pinned line's release and acts again
(R132). The address need have no alignment (R219; log 157). -/
def hintEffect (i : Instr) (h : Hdr) (x : FM) (act : State → Group → Nat → DWord → Option State) (f : Frame) (s0 s : State) :
    State :=
  let m := formM 0 x
  let ls := (todoLanes f h s0).map (fun l => (l, (Rd.src { s := s0, f := f, lane := l } m).ea m))
  let inRange (va : DWord) : Bool := va.extractLsb' 55 9 == 0 && va.extractLsb' 42 13 != 0x1FFF
  let ls := ls.filter (fun l => inRange l.2)
  let (tr, s) := s.lookup f.g.core f.g.ctx { write := false, fetch := false } (ls.map Prod.snd)
  let r := ls.foldl (fun (acc : Mask × State) l =>
    let stay : Mask := match l.1 with
      | some t => Mask.ofLanes [t]
      | none => f.t.mask
    if lookedUp tr l.2 = .busy none then (acc.1 ||| stay, acc.2)
    else match acc.2.hintLine f.g.ctx (lookedUp tr l.2) with
      | none => acc
      | some (pa, leaf) => match act acc.2 f.g pa leaf with
        | none => (acc.1 ||| stay, acc.2)
        | some s => (acc.1, s)) (0, s)
  if r.1 = 0 then r.2.advance f i else r.2.stayFor f r.1 (.blocked .room)

/-- Filling the whole line of a PA in the L1 that serves a core (R219). -/
def State.fillLine (s : State) (a : Acc) (pa : Nat) : State :=
  match s.l1Open a pa with
  | none => s.l2Touch a (pa / 512) 0xF
  | some (core, s) => (List.range 4).foldl (fun s k => s.l1Fill a core (pa / 512 * 512 + 128 * k)) s

/-- PREF (R219): fills L1 and L2, or L2 alone, and counts once in GRC. A line of a read-duplicated page is never in an L1, so that
L2 alone takes it. -/
def execPref (h : Hdr) (x : FM) (s : State) : Out :=
  issue (.pref h x) s (fun f s =>
    hintEffect (.pref h x) h x (fun s g pa leaf =>
      let a := Acc.ofLeaf g.core g.ctx x.nud.toNat g.rate [s.cycle, f.g.gid, f.sh.idx, f.t.idx] leaf
      if s.l2Full a (pa / 512) then none
      else some (if x.sz == 1 || leaf.getLsbD 11 then s.l2Touch a (pa / 512) 0xF else s.fillLine a pa)) f s
      (if f.t.todo.isNone then s.countGrc f.g.gid else s))

/-- CCTL.WB (R220). -/
def execCctlWb (h : Hdr) (x : FM) (s : State) : Out :=
  issue (.cctlWb h x) s (fun f s =>
    hintEffect (.cctlWb h x) h x (fun s g pa _ => some (s.writeBack (s.l1Of g.core (pa / 512)) (pa / 512))) f s s)

/-- CCTL.INV (R220). -/
def execCctlInv (h : Hdr) (x : FM) (s : State) : Out :=
  issue (.cctlInv h x) s (fun f s => hintEffect (.cctlInv h x) h x (fun s g pa _ => some (s.toHome g.core pa)) f s s)

/-- Changing the winnowing fields of a line where L1 and L2 hold it; a pinned line keeps its own (R220). -/
def State.retag (s : State) (core pa : Nat) (f1 f2 : LMeta → LMeta) : State :=
  let line := pa / 512
  let s := s.updCore (s.l1Of core line) (fun c => c.updLine line (fun x => { x with tag := f1 x.tag }))
  let die := s.l2Die core line
  let here (x : L2Line) : Bool := x.die == die && x.tag.line == line && x.pins == 0
  { s with l2 := updWhere here (fun x => { x with tag := f2 x.tag }) s.l2 }

/-- A line made a stream line (R220). -/
def LMeta.demote (m : LMeta) : LMeta := { m with kind := .stream }

/-- CCTL.DEMOTE (R220): a stream line in L1 and at its L2 home. -/
def execCctlDemote (h : Hdr) (x : FM) (s : State) : Out :=
  issue (.cctlDemote h x) s (fun f s =>
    hintEffect (.cctlDemote h x) h x (fun s g pa _ =>
      some (s.retag g.core pa LMeta.demote LMeta.demote)) f s s)

/-- CCTL.RENUD (R220): the fields are set as a hit would set them, and nothing is counted; the next hit finds a deadline that
none of its own instruction's accesses has set (R136). -/
def execCctlRenud (h : Hdr) (x : FM) (s : State) : Out :=
  issue (.cctlRenud h x) s (fun f s =>
    hintEffect (.cctlRenud h x) h x (fun s g pa leaf =>
      let a := Acc.ofLeaf g.core g.ctx x.nud.toNat g.rate [] leaf
      let line := pa / 512
      let kind := kindOf a.pol a.nud
      let hor := (s.core g.core).horizon.toNat
      let mk (c : Nat) (m : LMeta) : LMeta := m.mark s.winnow kind (deltaOf kind a.nud a.rate hor c) a.ctx []
      let c1 := (credOf s.creds (s.l1Of g.core line) a.ctx).c.toNat
      let c2 := (credOf s.l2creds (32 * s.l2Die g.core line + Config.l2Slice (line % 2 ^ 32) % 32) a.ctx).c.toNat
      some (s.retag g.core pa (mk c1) (mk c2))) f s s)

end Sys2Proof.Machine
end

