-- ==== Sys2Proof/Machine/Sync.lean ====
section
/-! DEFINITION. Fences, phase barriers, WAITV, YIELD and STAMP, with the events that end a wait or a yield
(R147, R226 to R236). -/

namespace Sys2Proof.Machine

/-- Whether an instruction acts at all: a uniform one when its guard is true, another when some active thread's is
(R81). -/
def Frame.acts (f : Frame) (h : Hdr) (cycle : Nat) : Bool :=
  if h.u then f.guardU h cycle else f.active h cycle != 0

/-- The scalar unit's reader. -/
def Frame.scalar (f : Frame) (s : State) : Rd := { s := s, f := f, lane := none }

/-! ## FENCE -/

/-- FENCE (R147, R226). Threads of one group share an L1, and the group's stream sees it (R141): a fence at panicle scope
or wider writes the L1 back, and invalidates it unless its kind is .REL. -/
def execFence (h : Hdr) (x : FA) (s : State) : Out :=
  issue (.fence h x) s (fun f s =>
    let scope := ((f.scalar s).w32 x.a).toNat
    let s1 :=
      if !f.acts h s.cycle || decide (scope < 3) then s
      else if x.fn == 2 then s.release f.g.core
      else s.acquire f.g.core
    s1.advance f (.fence h x))

/-! ## Phase barriers -/

/-- EXP, ARR and PH of a phase barrier word (R227). -/
def pbExp (w : DWord) : Nat := (w.extractLsb' 0 16).toNat
def pbArr (w : DWord) : Nat := (w.extractLsb' 16 16).toNat
def pbPh (w : DWord) : Bool := w.getLsbD 32

/-- A phase barrier word. -/
def pbWord (exp arr : Nat) (ph : Bool) : DWord :=
  BitVec.ofNat 64 (exp % 2 ^ 16 + 2 ^ 16 * (arr % 2 ^ 16) + (if ph then 2 ^ 32 else 0))

/-- PBARI on a barrier word: EXP := n, ARR := 0 (R229). -/
def pbInit (w : DWord) (n : Nat) : DWord := pbWord n 0 (pbPh w)

/-- An arrival of n (R229): a completing one inverts PH, and arrivals beyond EXP are discarded. -/
def pbArrive (w : DWord) (n : Nat) : DWord :=
  if n = 0 then w
  else if pbExp w ≤ pbArr w + n then pbWord (pbExp w) 0 (!pbPh w)
  else pbWord (pbExp w) (pbArr w + n) (pbPh w)

/-- Phase barrier b of a group (R227). -/
def Group.pbar (g : Group) (b : Nat) : DWord := cget g.pbars b

/-- KIND, CMP, SGN and SPC of a condition (R231). -/
def Cond.kind (c : Cond) : Nat := (c.ctl.extractLsb' 0 3).toNat
def Cond.cmp (c : Cond) : Nat := (c.ctl.extractLsb' 4 2).toNat
def Cond.sgn (c : Cond) : Bool := c.ctl.getLsbD 6
def Cond.spc (c : Cond) : Nat := (c.ctl.extractLsb' 8 2).toNat

/-- Latching the conditions of a wait that a test picks out (R232). -/
def WaitSt.latch (w : WaitSt) (p : Cond → Bool) : WaitSt :=
  { w with latched := w.conds.zipIdx.foldl (fun (l : BitVec 4) c => if p c.1 then setBit l c.2 true else l) w.latched }

/-- Whether what comes about at an STC value still counts for a wait: not past its deadline (R233). -/
def WaitSt.counts (w : WaitSt) (stc : Nat) : Bool := w.noLimit || decide (stc ≤ w.dlv)

/-- What a barrier word means at an STC value to a tiller that waits: PBARW ends when PH differs from its phase, and so does a
condition of WAITV latch, unless its deadline has passed (R229, R231 to R233). -/
def Tiller.sees (stc b : Nat) (ph : Bool) (t : Tiller) : Tiller :=
  match t.st with
  | .eventWait (.pbarw c k) => if c = b ∧ ph ≠ k then { t with st := .ready, age := 0 } else t
  | .eventWait (.waitv w) => { t with st := .eventWait (.waitv (w.latch (fun c =>
      c.kind == 2 && c.w1.toNat % 32 == b && ph != c.w3.getLsbD 0 && w.counts stc))) }
  | _ => t

/-- What it means to a stream that waits in MWAIT (R293). -/
def Stream.sees (b : Nat) (ph : Bool) (t : Stream) : Stream :=
  match t.mwait with
  | some (c, k, _) => if c = b ∧ ph ≠ k then { t with mwait := some (c, k, true) } else t
  | none => t

/-- Changing a phase barrier: a wait that the change satisfies ends, whatever comes to the barrier after (R228, R229). -/
def Group.setPbar (g : Group) (stc b : Nat) (w : DWord) : Group :=
  { g with pbars := cset g.pbars b w, stream := g.stream.sees b (pbPh w),
           sheaves := g.sheaves.map (fun x => { x with tillers := x.tillers.map (Tiller.sees stc b (pbPh w)) }) }

/-- The barrier that operand A selects: an inline integer, or bits 4:0 of a scalar (R229). -/
def barOf (r : Rd) (o : Opd) (n : Nat) : Nat := (r.w32 o).toNat % n

/-- PBARI (R229). An n above 65,535 raises Illegal Operand and changes nothing. -/
def execPbari (h : Hdr) (x : FA) (s : State) : Out :=
  issue (.pbari h x) s (fun f s =>
    let r := f.scalar s
    let n := (r.w32 x.b).toNat
    if !f.guardU h s.cycle then s.advance f (.pbari h x)
    else if n > 65535 then s.trapAll f 8 0x02 0
    else
      let b := barOf r x.a 32
      (s.updGroup f.g.gid (fun g => g.setPbar s.stc b (pbInit (g.pbar b) n))).advance f (.pbari h x))

/-- PBARA (R229): d receives PH as it stood. -/
def execPbara (h : Hdr) (x : FA) (s : State) : Out :=
  issue (.pbara h x) s (fun f s =>
    let r := f.scalar s
    let n := (r.w32 x.b).toNat
    if !f.guardU h s.cycle then s.advance f (.pbara h x)
    else if n > 65535 then s.trapAll f 8 0x02 0
    else
      let b := barOf r x.a 32
      let s1 := s.updGroup f.g.gid (fun g => g.setPbar s.stc b (pbArrive (g.pbar b) n))
      (s1.retire f (.pbara h x) (r.put x.d (if pbPh (f.g.pbar b) then 1 else 0))).advance f (.pbara h x))

/-- PBARW (R229): the tiller waits until PH differs from ph. -/
def execPbarw (h : Hdr) (x : FA) (s : State) : Out :=
  issue (.pbarw h x) s (fun f s =>
    let r := f.scalar s
    let b := barOf r x.a 32
    let ph := (r.w32 x.b).getLsbD 0
    let s1 := s.advance f (.pbarw h x)
    if !f.guardU h s.cycle || pbPh (f.g.pbar b) != ph then s1
    else s1.updT f (fun t => { t with st := .eventWait (.pbarw b ph) }))

/-! ## WAITV -/

/-- A reserved control value (R231). -/
def Cond.reserved (c : Cond) : Bool :=
  c.ctl.getLsbD 3 || c.ctl.getLsbD 7 || c.ctl.extractLsb' 10 22 != 0 || decide (4 ≤ c.kind) ||
    (c.kind == 0 && c.spc == 3)

/-- CMP on a memory word and v (R231). -/
def condRel (cmp : Nat) (sgn : Bool) (a v : Word) : Bool :=
  match cmp with
  | 0 => a == v
  | 1 => a != v
  | 2 => if sgn then decide (a.toInt ≥ v.toInt) else decide (a.toNat ≥ v.toNat)
  | _ => if sgn then decide (a.toInt < v.toInt) else decide (a.toNat < v.toNat)

/-- The batches that BWAIT n covers: m ≠ 0 with mod(n − m, 65,536) < 32,768, and none for n = 0 (R258). -/
def covers (n m : BitVec 16) : Bool := n != 0 && m != 0 && decide ((n - m).toNat < 32768)

/-- Whether BWAIT n would release: no covered batch is RUNNING (R258). -/
def Sheaf.batchDone (x : Sheaf) (n : BitVec 16) : Bool :=
  x.batches.all (fun b => !(covers n b.num && b.st == .running))

/-- The form of a condition's memory read: a B32 volatile read (R231, R232). -/
def condForm (c : Cond) : MemForm :=
  { kind := 0, sz := 2, spc := c.spc, ord := 4, nud := 31, off := 0, d := .sz, a := .sz, b := .sz, c := .sz, fn := 0,
    ret := false }

/-- What evaluating one condition gives: whether it is satisfied, or why its read goes no further (R231, R428). -/
def State.evalCond (s : State) (f : Frame) (c : Cond) : Except Got Bool × State :=
  match c.kind with
  | 0 =>
    let help := f.t.mask &&& ~~~f.sh.helpers == 0
    let addr : DWord := if c.spc = 0 then c.w2 ++ c.w1 else c.w1.setWidth 64
    match s.memLane { g := f.g, sh := f.sh, lane := none, helper := help } (condForm c) { a := addr, b := 0, c := 0 } with
    | (.done vs, s) => (.ok (condRel c.cmp c.sgn (BitVec.ofNat 32 (vs.headD 0)) c.w3), s)
    | (g, s) => (.error g, s)
  | 1 => (.ok (f.sh.batchDone (c.w1.setWidth 16)), s)
  | 2 => (.ok (pbPh (f.g.pbar (c.w1.toNat % 32)) != c.w3.getLsbD 0), s)
  | _ => (.ok (decide (s.stc ≥ (c.w2 ++ c.w1).toNat)), s)

/-- Evaluating every condition that has not latched; a memory read that latches is an acquire at system scope (R151,
R232). A read that must wait satisfies nothing yet, and one that waits for an answer is noted (R411, R419); the first read that
goes no further stops the evaluation. -/
def State.evalConds (s : State) (f : Frame) (w : WaitSt) : Option Got × WaitSt × State :=
  w.conds.zipIdx.foldl (fun (acc : Option Got × WaitSt × State) c =>
    match acc with
    | (some g, w, s) => (some g, w, s)
    | (none, w, s) =>
      if w.latched.getLsbD c.2 then (none, w, s)
      else
        match s.evalCond f c.1 with
        | (.error (.wait on), s) => (none, { w with ons := w.ons ++ on.toList }, s)
        | (.error g, s) => (some g, w, s)
        | (.ok false, s) => (none, w, s)
        | (.ok true, s) =>
          (none, { w with latched := setBit w.latched c.2 true },
           if c.1.kind = 0 then s.acquire f.g.core else s)) (none, { w with ons := [] }, s)

/-- Whether the latched set releases the wait: one under .ANY, all under .ALL (R232). -/
def WaitSt.released (w : WaitSt) : Bool :=
  if w.x.fn.getLsbD 2 then (List.range w.conds.length).all (fun i => w.latched.getLsbD i) else w.latched != 0

/-- The result word (R233). -/
def WaitSt.result (w : WaitSt) (timeout : Bool) : Word :=
  BitVec.ofNat 32 (w.latched.toNat + (if timeout then 16 else 0) + (if w.sw then 32 else 0))

/-- Releasing a WAITV: its result is written and the tiller moves past it (R233). -/
def State.endWait (s : State) (f : Frame) (w : WaitSt) (timeout : Bool) : State :=
  let i : Instr := .waitv w.h w.x
  let s := (s.dropPends f).retire f i ((f.scalar s).put w.x.d (w.result timeout))
  s.updT f (fun t => { (t.advance s.cycle i) with age := 0 })

/-- A WAITV evaluated: released by a latch, or else by its deadline, stopped by a fault of a read (R428), or waiting. -/
def State.evalWait (s : State) (f : Frame) (w : WaitSt) : State :=
  match s.evalConds f w with
  | (some (.park c), _, s) => s.trapAll f 8 c (memPayload c 0)
  | (some (.record va reason), w, s) =>
    let (tag, s) := s.postFault (.read f.g.gid f.sh.idx f.t.idx none) va f.g.ctx f.g.core f.sh.qs 0 reason
    s.updT f (fun t => { t with st := .eventWait (.waitv { w with tag := some tag }) })
  | (_, w, s) =>
    if w.released then s.endWait f w false
    else if !w.noLimit && decide (w.dlv ≤ s.stc) then s.endWait f w true
    else (s.setPend (.thread f.g.gid f.sh.idx none) f.t.idx false w.ons).updT f (fun t => { t with st := .eventWait (.waitv w) })

/-- A WAITV evaluated at the present tick: past its deadline, what had not been satisfied by then no longer counts (R233). -/
def State.runWait (s : State) (f : Frame) (w : WaitSt) : State :=
  if !w.noLimit && decide (w.dlv < s.stc) then
    let w := w.latch (fun c => c.kind == 3 && decide ((c.w2 ++ c.w1).toNat ≤ w.dlv))
    s.endWait f w (!w.released)
  else s.evalWait f w

/-- The condition block of a WAITV, as its scalars stand (R230, R231). -/
def waitConds (r : Rd) (x : FA) : List Cond :=
  (List.range ((x.fn.extractLsb' 0 2).toNat + 1)).map (fun i =>
    { ctl := r.reg x.a (4 * i), w1 := r.reg x.a (4 * i + 1), w2 := r.reg x.a (4 * i + 2), w3 := r.reg x.a (4 * i + 3) })

/-- WAITV (R230 to R234): a reserved control value raises Illegal Operand; else every condition is evaluated at once. -/
def execWaitv (h : Hdr) (x : FA) (s : State) : Out :=
  issue (.waitv h x) s (fun f s =>
    let r := f.scalar s
    if !f.guardU h s.cycle then s.advance f (.waitv h x)
    else
      let conds := waitConds r x
      if conds.any Cond.reserved then s.trapAll f 8 0x02 0
      else
        let t := (r.w64 x.b).toNat
        s.runWait f
          { h := h, x := x, conds := conds, latched := 0, dlv := min (s.stc + t) (2 ^ 64 - 1),
            noLimit := t == 2 ^ 64 - 1, sw := false, tag := none, ons := [] })

/-- The wait a tiller is in, when it waits for no verdict. -/
def Tiller.waiting (t : Tiller) : Option WaitSt :=
  match t.st with
  | .eventWait (.waitv w) => if w.tag.isNone then some w else none
  | _ => none

/-- Evaluating a tiller's wait again; that of a group being restored is evaluated once the restore has ended (R234). -/
def State.rewait (s : State) (gid sh ti : Nat) : State :=
  match s.frameOf gid sh ti with
  | none => s
  | some f =>
    match f.t.waiting with
    | none => s
    | some w => if f.g.st = .reclaim then s else s.runWait f w

/-- WAITV_REEVALUATE (R232): the conditions of a waiting tiller are evaluated again. -/
def execWaitvReevaluate (gid sh ti : Nat) (s : State) : Out := .next (s.rewait gid sh ti)

/-- WAITV_TIMEOUT (R228, R233): a wait that a barrier's change has satisfied is released; when STC has reached the deadline, the
conditions are evaluated, a latch winning, and the wait is released. -/
def execWaitvTimeout (gid sh ti : Nat) (s : State) : Out :=
  .next (match s.frameOf gid sh ti with
    | none => s
    | some f => match f.t.waiting with
      | none => s
      | some w =>
        if w.released && f.g.st != .reclaim then s.endWait f w false
        else if !w.noLimit && decide (w.dlv ≤ s.stc) then s.rewait gid sh ti else s)

/-! ## YIELD and STAMP -/

/-- YIELD (R235): the tiller is BLOCKED for min(n, 65,535) cycles, then READY with age 0. -/
def execYield (h : Hdr) (x : FA) (s : State) : Out :=
  issue (.yield h x) s (fun f s =>
    let n := min ((f.scalar s).w32 x.a).toNat 65535
    let s1 := s.advance f (.yield h x)
    if !f.guardU h s.cycle then s1
    else if n = 0 then s1.updT f (fun t => { t with age := 0 })
    else s1.updT f (fun t => { t with st := .blocked (.yield (s.cycle + 1 + max n h.st.toNat)), age := 0 }))

/-- YIELD_END (R235): a yield that has run out makes its tiller READY with age 0. -/
def execYieldEnd (gid sh ti : Nat) (s : State) : Out :=
  .next (s.updTiller gid sh ti (fun t =>
    match t.st with
    | .blocked (.yield u) => if u ≤ s.cycle then { t with st := .ready, age := 0 } else t
    | _ => t))

/-- STALL_COUNT_EXPIRY (R92): a stall count that has run out makes its tiller READY. -/
def execStallCountExpiry (gid sh ti : Nat) (s : State) : Out :=
  .next (s.updTiller gid sh ti (fun t =>
    match t.st with
    | .blocked (.stall u) => if u ≤ s.cycle then { t with st := .ready, age := 0 } else t
    | _ => t))

/-- A STAMP value for a tile: the open record takes it when it has none of that kind, else it is held (R236, R311). -/
def Group.stamp (g : Group) (tile : Nat) (cie : Bool) (stc : Nat) : Group :=
  let wants (r : OpenRec) : Bool := r.tile == tile && (if cie then r.cie else r.cis).isNone
  let put (r : OpenRec) : OpenRec := if cie then { r with cie := some stc } else { r with cis := some stc }
  if g.stream.recs.any wants then
    { g with stream := { g.stream with recs := updWhere wants put g.stream.recs } }
  else { g with stamps := (tile, cie, stc) :: g.stamps.filter (fun e => !(e.1 == tile && e.2.1 == cie)) }

/-- STAMP of one kind (R236): d receives STC at issue. -/
def stampOp (i : Instr) (h : Hdr) (x : FA) (cie : Bool) (s : State) : Out :=
  issue i s (fun f s =>
    let r := f.scalar s
    if !f.guardU h s.cycle then s.advance f i
    else
      let s1 := s.updGroup f.g.gid (fun g => g.stamp ((r.w32 x.a).toNat % 4) cie s.stc)
      (s1.retire f i (r.put64 x.d (BitVec.ofNat 64 s.stc))).advance f i)

/-- STAMP.CIS (R236). -/
def execStampCis (h : Hdr) (x : FA) (s : State) : Out := stampOp (.stampCis h x) h x false s

/-- STAMP.CIE (R236). -/
def execStampCie (h : Hdr) (x : FA) (s : State) : Out := stampOp (.stampCie h x) h x true s

/-! ## Results of variable latency -/

/-- Writing the oldest outstanding result of a sheaf that memory returns, or that it does not (R92, R168, R214). -/
def Sheaf.deliver (x : Sheaf) (mem : Bool) : Sheaf :=
  match x.board.find? (fun b => b.mem == mem) with
  | none => x
  | some b => { (x.write b.writes) with board := x.board.erase b }

/-- MEMORY_ACCESS_COMPLETE (R214, R223): a load or atomic writes its destination. -/
def execMemoryAccessComplete (gid sh : Nat) (s : State) : Out :=
  .next (s.updSheaf gid sh (fun x => x.deliver true))

/-- VARIABLE_LATENCY_RESULT (R168, R203, R239): another variable-latency result is written. -/
def execVariableLatencyResult (gid sh : Nat) (s : State) : Out :=
  .next (s.updSheaf gid sh (fun x => x.deliver false))

end Sys2Proof.Machine
end

