-- ==== Sys2Proof/Machine/Flow.lean ====
section
/-! DEFINITION. Control flow: branches and splits, joins, exits and the end of a sheaf, barriers, traps (R31, R34 to R42,
R48, R49, R241 to R249, R257), and the deadline of a bounded join. -/

namespace Sys2Proof.Machine

/-! ## Splits (R34, R35, R243) -/

/-- Pushing a token unless it is on top (R34); the top is the head. -/
def pushTok (st : List (BitVec 8)) (tok : BitVec 8) : List (BitVec 8) := if st.head? = some tok then st else tok :: st

/-- Popping down to and including a token that is present (R36); a JOIN without a valid record pops likewise the tokens above
its own, which the manual does not mention (log 119). -/
def popTo (st : List (BitVec 8)) (tok : BitVec 8) : List (BitVec 8) :=
  if st.contains tok then (st.dropWhile (fun t => t != tok)).drop 1 else st

/-- The join record of a token, when valid (R35). -/
def Sheaf.join? (x : Sheaf) (tok : BitVec 8) : Option JoinRec := x.joins.find? (fun r => r.tok == tok)

/-- Changing one join record. -/
def Sheaf.updJoin (x : Sheaf) (tok : BitVec 8) (f : JoinRec → JoinRec) : Sheaf :=
  { x with joins := updWhere (fun r => r.tok == tok) f x.joins }

/-- A split naming a token: its record becomes valid, or its EXP widens (R35). -/
def Sheaf.noteSplit (x : Sheaf) (tok : BitVec 8) (mask : Mask) : Sheaf :=
  match x.join? tok with
  | some _ => x.updJoin tok (fun r => { r with exp := r.exp ||| mask })
  | none =>
    let r : JoinRec := { tok := tok, exp := mask, arr := 0, dl := none, first := 0, last := 0 }
    { x with joins := putBy (fun r => r.tok.toNat) r x.joins }

/-- Number of lanes of a mask. -/
def lanesCount (m : Mask) : Nat := m.lanes.length

/-- The lanes of a tiller going to several targets: those of `stay` keep the entry, every other side becomes a new
tiller in the order given; a 65th token raises join deadlock instead (R34, R35, R48, R243). -/
def State.split (s : State) (f : Frame) (i : Instr) (stay : Mask × DWord) (others : List (Mask × DWord))
    (tok : BitVec 8) : State :=
  let stack := pushTok f.t.stack tok
  if stack.length > 64 then s.trapAll f i.size 0x08 (tok.setWidth 24)
  else
    let whole := others.foldl (fun m e => m ||| e.1) stay.1
    s.updS f (fun x =>
      let x := x.noteSplit tok whole
      let x := x.updTiller f.t.idx (fun t =>
        { (t.advance s.cycle i) with mask := stay.1, pc := stay.2, stack := stack })
      let t := f.t.advance s.cycle i
      others.foldl (fun x e => x.addTiller e.2 e.1 t.fmt stack t.st t.prods t.stallEnd 0) x)

/-- The target of a branch: PC + 8 × sext(OFF32) (R241). -/
def branchTarget (pc : DWord) (off : BitVec 32) : DWord := pc + (off.signExtend 64) * 8

/-- BRA and CALL (R241): `link` is what each taken reader writes. -/
def branchOp (i : Instr) (h : Hdr) (x : FB) (link : Rd → List RegWrite) (s : State) : Out :=
  issue i s (fun f s =>
    let target := branchTarget f.t.pc x.off
    let go (s : State) (pc : DWord) : State := s.updT f (fun t => { (t.advance s.cycle i) with pc := pc })
    let next := f.t.pc + 8
    if h.u then
      (if f.guardU h s.cycle then go (s.retire f i (link (f.scalar s))) target else go s next)
    else
      let taken := f.active h s.cycle
      let rest := f.t.mask &&& ~~~taken
      let s1 := s.retire f i ((readers f h s).flatMap link)
      if rest = 0 then go s1 target
      else if taken = 0 then go s1 next
      else if (pushTok f.t.stack x.tok).length > 64 then s.trapAll f 8 0x08 (x.tok.setWidth 24)
      else if lanesCount taken > lanesCount rest then s1.split f i (taken, target) [(rest, next)] x.tok
      else s1.split f i (rest, next) [(taken, target)] x.tok)

/-- BRA (R241). -/
def execBra (h : Hdr) (x : FB) (s : State) : Out := branchOp (.bra h x) h x (fun _ => []) s

/-- The link register pair of CALL: FN4 = k names v(2k):v(2k+1), or s(2k):s(2k+1) with U = 1 (R241). -/
def linkOpd (u : Bool) (k : BitVec 4) : Opd :=
  if u then .s ⟨2 * k.toNat, by have := k.isLt; omega⟩ else .v ⟨2 * k.toNat, by have := k.isLt; omega⟩

/-- CALL (R241): link := PC + 8 in every taken lane. -/
def execCall (h : Hdr) (x : FB) (s : State) : Out :=
  branchOp (.call h x) h x (fun r => r.put64 (linkOpd h.u x.fn4) (r.f.t.pc + 8)) s

/-- Whether a branch target is faulty, and how (R242): misaligned, or unresolved with access kind 3. -/
def targetFault (v : DWord) : Option (BitVec 8 × BitVec 24) :=
  if v.extractLsb' 0 3 != 0 then some (0x04, 0)
  else if v.extractLsb' 55 9 != 0 then some (0x05, 3)
  else none

/-- Putting lanes into the group of their target; groups stay in ascending order of target. -/
def addTarget (l : List (DWord × Mask)) (v : DWord) (m : Mask) : List (DWord × Mask) :=
  match l with
  | [] => [(v, m)]
  | e :: r => if v.toNat < e.1.toNat then (v, m) :: e :: r else if v = e.1 then (v, e.2 ||| m) :: r
    else e :: addTarget r v m

/-- The group that stays in the tiller's entry: the largest, the lower target among equals (R243). -/
def largestGroup (l : List (DWord × Mask)) : Option (DWord × Mask) :=
  l.foldl (fun b e =>
    match b with
    | none => some e
    | some c => if lanesCount c.2 < lanesCount e.2 then some e else some c) none

/-- BRX and RET (R242, R243): lanes with a faulty target park, which discards the pending records of the rest (R93; log 149), or
stops a handler sheaf (R368); the others go on by target. -/
def indirectOp (i : Instr) (h : Hdr) (x : FA) (s : State) : Out :=
  issue i s (fun f s =>
    let all := readers f h s
    let lanesOf (r : Rd) : List Nat :=
      match r.lane with
      | some t => [t]
      | none => f.t.mask.lanes
    let bad := all.filter (fun r => (targetFault (r.w64 x.a)).isSome)
    let good := all.filter (fun r => (targetFault (r.w64 x.a)).isNone)
    let traps := bad.flatMap (fun r =>
      match targetFault (r.w64 x.a) with
      | some (c, p) => (lanesOf r).map (f.trapAt 8 c p)
      | none => [])
    let idle := f.t.mask &&& ~~~(Mask.ofLanes (all.flatMap lanesOf))
    let groups := good.foldl (fun l r => addTarget l (r.w64 x.a) (Mask.ofLanes (lanesOf r))) []
    let groups := if idle = 0 then groups else addTarget groups (f.t.pc + 8) idle
    let s1 := s.park f traps
    let left : Frame := { f with t :=
      { f.t with mask := f.t.mask &&& ~~~(Mask.ofLanes (traps.map Trap.lane)), prods := if traps.isEmpty then f.t.prods else [] } }
    match largestGroup groups with
    | none => s1
    | some stay =>
      let others := (groups.filter (fun e => e.1 != stay.1)).map (fun e => (e.2, e.1))
      if f.g.kind = .handler ∧ !traps.isEmpty then s1
      else if others.isEmpty then s1.updT f (fun t => { (t.advance s.cycle i) with pc := stay.1 })
      else s1.split left i (stay.2, stay.1) others x.fn)

/-- BRX (R242, R243). -/
def execBrx (h : Hdr) (x : FA) (s : State) : Out := indirectOp (.brx h x) h x s

/-- RET (R242): the effect of BRX. -/
def execRet (h : Hdr) (x : FA) (s : State) : Out := indirectOp (.ret h x) h x s

/-! ## Joins (R36, R37, R40, R42) -/

/-- Fusing tillers into one entry: lanes, pending records, stall counts and parked lanes of all, FMT and stack of the tiller
in that entry (R36, R49, R92, R93, R369). -/
def Sheaf.fuse (x : Sheaf) (ids : List Nat) (first : Nat) (pc : DWord) (stack : List (BitVec 8)) (st : TSt) : Sheaf :=
  let ws := x.tillers.filter (fun t => ids.contains t.idx)
  let mask := ws.foldl (fun m t => m ||| t.mask) (0 : Mask)
  let prods := ws.flatMap Tiller.prods
  let up (t : Tiller) : Tiller :=
    if t.idx = first then
      { t with mask := mask, pc := pc, stack := stack, st := st, age := 0, prods := prods, todo := none, probed := false,
               stallEnd := (ws.map Tiller.stallEnd).foldl max 0, queued := none }
    else t
  let own (n : Nat) : Nat := if ids.contains n then first else n
  { x with tillers := (x.tillers.filter (fun t => t.idx == first || !ids.contains t.idx)).map up,
           parked := x.parked.map (fun p => { p with ti := own p.ti }),
           oplog := x.oplog.map (fun e => { e with ti := own e.ti }) }

/-- Whether a tiller waits at a token. -/
def Tiller.waitsAt (t : Tiller) (tok : BitVec 8) : Bool :=
  match t.st with
  | .joinWait k _ => k == tok
  | _ => false

/-- Setting a predicate of lanes to one value. -/
def Sheaf.setPreds (x : Sheaf) (p : Nat) (lanes : Mask) (b : Bool) : Sheaf :=
  let old := cget x.preds p
  { x with preds := cset x.preds p (if b then old ||| lanes else old &&& ~~~lanes) }

/-- The waiting tillers of a token fuse into FIRST, resume after the last arrival's JOIN, and each JOINT's predicate is
set in its lanes: false at a release, true at a timeout (R36, R37). When no tiller waits in entry FIRST any more, its lanes
having been skipped past the JOIN or having exited, the lowest waiting entry takes its place (log 120). -/
def Sheaf.fuseJoin (x : Sheaf) (r : JoinRec) (timeout : Bool) : Sheaf :=
  let ws := x.tillers.filter (fun t => t.waitsAt r.tok)
  match ws with
  | [] => x
  | w0 :: _ =>
    let first := (ws.find? (fun t => t.idx == r.first)).getD w0
    let x := ws.foldl (fun x t =>
      match t.st with
      | .joinWait _ (some p) => if p < 15 then x.setPreds p t.mask timeout else x
      | _ => x) x
    x.fuse (ws.map Tiller.idx) first.idx r.last (popTo first.stack r.tok) .ready

/-- Whether a lane that has arrived at a token is parked by a trap of its wait: it returns to JOIN-WAIT (R50). -/
def Sheaf.away (x : Sheaf) (r : JoinRec) : Bool :=
  x.parked.any (fun p => match p.back with
    | .join k _ => k == r.tok && r.arr.getLsbD p.lane
    | _ => false)

/-- Releasing the record of a token when every lane of EXP that has not exited has arrived (R36), and none that has arrived
is parked (R40, R50; log 121); a record with an empty EXP and no tiller waiting becomes not valid (R38). -/
def Sheaf.tryRelease (x : Sheaf) (tok : BitVec 8) : Sheaf :=
  match x.join? tok with
  | none => x
  | some r =>
    let drop (x : Sheaf) : Sheaf := { x with joins := x.joins.filter (fun q => q.tok != tok) }
    if r.exp &&& ~~~r.arr &&& ~~~x.exited != 0 || x.away r then x
    else if x.tillers.any (fun t => t.waitsAt tok) then drop (x.fuseJoin r false)
    else if r.exp &&& ~~~x.exited == 0 then drop x
    else x

/-- Lanes of a sheaf that wait at a barrier. -/
def Sheaf.barLanes (x : Sheaf) : Mask :=
  x.tillers.foldl (fun m t => match t.st with
    | .barWait _ => m ||| t.mask
    | _ => m) 0

/-- The trap of a waiting tiller's lanes: they go back to their wait, or on after it (R50). -/
def Frame.waitTraps (f : Frame) (cause : BitVec 8) (payload : BitVec 24) : List Trap :=
  let back : Back := match f.t.st with
    | .joinWait tok p => .join tok p
    | .barWait b => .bar b (((f.g.bars.find? (fun r => r.num == b)).map Bar.gen).getD 0)
    | _ => .none
  f.t.mask.lanes.map (fun l =>
    { lane := l, cause := cause, payload := payload, pc := f.t.pc - 8, resume := f.t.pc - 8, skipTo := f.t.pc,
      log := none, back := back })

/-- Join deadlock and barrier divergence of a sheaf, with the token of the arrival that was made, if one was: cause 0x08
when every live tiller waits at a join, no record has a deadline and none can release (R40); 0x09 when every live
tiller waits and some lane waits at a join that needs a lane waiting at a barrier (R42). -/
def Sheaf.stuck (x : Sheaf) (tok : Option (BitVec 8)) : Option (BitVec 8 × BitVec 24) :=
  let waits (t : Tiller) : Bool := match t.st with
    | .joinWait .. | .barWait _ => true
    | _ => false
  let bars := x.barLanes
  if x.tillers.isEmpty || !x.tillers.all waits then none
  else if bars = 0 then
    if x.joins.any (fun r => r.dl.isSome || r.exp &&& ~~~r.arr &&& ~~~x.exited == 0) then none
    else
      let t0 := x.tillers.findSome? (fun t => match t.st with
        | .joinWait k _ => some k
        | _ => none)
      some (0x08, ((tok.orElse (fun _ => t0)).getD 0).setWidth 24)
  else
    let needs (t : Tiller) : Bool := match t.st with
      | .joinWait k _ => match x.join? k with
        | some r => r.exp &&& ~~~r.arr &&& bars != 0
        | none => false
      | _ => false
    if x.tillers.any needs then
      let b := x.tillers.findSome? (fun t => match t.st with
        | .barWait b => some b
        | _ => none)
      some (0x09, BitVec.ofNat 24 (b.getD 0))
    else none

/-- Raising join deadlock or barrier divergence in every lane of a sheaf when the condition holds (R40, R42). -/
def State.checkStuck (s : State) (gid sh : Nat) (tok : Option (BitVec 8)) : State :=
  match s.sheaf? gid sh with
  | none => s
  | some x =>
    match x.stuck tok with
    | none => s
    | some (c, p) =>
      s.parkAll (x.tillers.filterMap (fun t =>
        (s.frameOf gid sh t.idx).map (fun f => (f, f.waitTraps c p))))

/-- The arrival of a tiller that has moved past its JOIN: ARR takes its lanes, FIRST and the last arrival are noted, and
it waits (R36, R37). -/
def Sheaf.arrive (x : Sheaf) (ti : Nat) (tok : BitVec 8) (pred dl : Option Nat) : Sheaf :=
  match x.tiller? ti with
  | none => x
  | some t =>
    let x := x.updJoin tok (fun r =>
      { r with arr := r.arr ||| t.mask, first := if r.arr = 0 then ti else r.first, last := t.pc,
               dl := if r.dl.isNone then dl else r.dl })
    x.updTiller ti (fun t => { t with st := .joinWait tok pred })

/-- JOIN and JOINT (R36, R37, R244). An arrival in the cycle in which STC reaches DL wins; what is not released at the end of
that cycle times out in it (`State.clock`), a JOINT with t = 0 with it. -/
def joinOp (i : Instr) (tok : BitVec 8) (pred dl : State → Option Nat) (s : State) : Out :=
  issue i s (fun f s =>
    let s1 := s.advance f i
    match f.sh.join? tok with
    | none => s1.updT f (fun t => { t with stack := popTo t.stack tok })
    | some _ =>
      let s2 := s1.updS f (fun x => (x.arrive f.t.idx tok (pred s) (dl s)).tryRelease tok)
      s2.checkStuck f.g.gid f.sh.idx (some tok))

/-- JOIN (R36, R244). -/
def execJoin (h : Hdr) (x : FB) (s : State) : Out := joinOp (.join h x) x.tok (fun _ => none) (fun _ => none) s

/-- JOINT (R37, R244): a deadline of STC + t unless one is set. -/
def execJoint (h : Hdr) (x : FB) (s : State) : Out :=
  joinOp (.joint h x) x.tok (fun _ => some x.fn4.toNat) (fun s => some (s.stc + x.off.toNat)) s

/-- A bounded join whose deadline STC has reached (R37); while lanes that have arrived are parked, it waits for their return
(log 121). -/
def Sheaf.joinTimeout (x : Sheaf) (tok : BitVec 8) (stc : Nat) : Option Sheaf :=
  match x.join? tok with
  | none => none
  | some r =>
    match r.dl with
    | none => none
    | some dl =>
      if stc < dl || x.away r then none
      else
        let y := x.fuseJoin r true
        let y := y.updJoin tok (fun r => { r with exp := r.exp &&& ~~~r.arr, arr := 0, dl := none })
        some { y with joins := y.joins.filter (fun q => !(q.tok == tok && q.exp == 0)) }

/-- JOINT_TIMEOUT (R37): the waiting tillers resume without the lanes still to come. -/
def execJointTimeout (gid sh tok : Nat) (s : State) : Out :=
  .next (match (s.sheaf? gid sh).bind (fun x => x.joinTimeout (BitVec.ofNat 8 tok) s.stc) with
    | none => s
    | some y => (s.updSheaf gid sh (fun _ => y)).checkStuck gid sh none)

/-! ## Batches (R257) -/

/-- The next batch number: 0xFFFF is followed by 0x0001 (R257). -/
def nextBatch (n : BitVec 16) : BitVec 16 := if n = 0xFFFF then 1 else n + 1

/-- A batch that has no running command left becomes COMPLETE, or FAILED when some command failed (R257). -/
def State.settleBatch (s : State) (gid sh : Nat) (n : BitVec 16) : State :=
  let mine (c : Cmd) : Bool := c.owner == some (gid, sh) && c.batch == some n
  let cs := s.cmds.filter mine
  if cs.any (fun c => !c.ended) then s
  else
    let bad := cs.any (fun c => c.failed)
    let s := { s with cmds := s.cmds.filter (fun c => !mine c) }
    s.updSheaf gid sh (fun x =>
      if bad then { x with batches := updWhere (fun b => b.num == n) (fun b => { b with st := .failed }) x.batches }
      else { x with batches := x.batches.filter (fun b => b.num != n) })

/-- Closing the commands accepted since the last BCLOSE into a batch, when there are any (R246, R257). -/
def State.closeBatch (s : State) (gid sh : Nat) : State :=
  let mine (c : Cmd) : Bool := c.owner == some (gid, sh) && c.batch.isNone
  match s.sheaf? gid sh with
  | none => s
  | some x =>
    if !s.cmds.any mine then s
    else
      let n := nextBatch x.lastb
      let s := { s with cmds := updWhere mine (fun c => { c with batch := some n }) s.cmds }
      let s := s.updSheaf gid sh (fun x =>
        { x with lastb := n, batches := x.batches.filter (fun b => b.num != n) ++ [{ num := n, st := .running }] })
      s.settleBatch gid sh n

/-! ## Barriers (R41, R248) -/

/-- The state of barrier b (R248). -/
def Group.bar (g : Group) (b : Nat) : Bar :=
  (g.bars.find? (fun r => r.num == b)).getD { num := b, gen := 0, arrived := [] }

/-- ARRIVED of one sheaf at a barrier. -/
def Bar.of (r : Bar) (sh : Nat) : Mask := ((r.arrived.find? (fun e => e.1 == sh)).map Prod.snd).getD 0

/-- Lanes of a sheaf entering or leaving ARRIVED. -/
def Bar.set (r : Bar) (sh : Nat) (m : Mask) : Bar :=
  let rest := r.arrived.filter (fun e => e.1 != sh)
  { r with arrived := if m = 0 then rest else putBy Prod.fst (sh, m) rest }

/-- Changing barrier b. -/
def Group.setBar (g : Group) (b : Bar) : Group := { g with bars := putBy Bar.num b g.bars }

/-- Completing a generation in which every thread of the group has arrived or exited: ARRIVED empties and the waiters
resume (R41, R248). -/
def Group.tryBar (g : Group) (b : Nat) : Group :=
  let r := g.bar b
  let full := g.sheaves.all (fun x => r.of x.idx ||| x.exited == Mask.full)
  if r.arrived.isEmpty || !full then g
  else
    let up (t : Tiller) : Tiller := if t.st = .barWait b then { t with st := .ready, age := 0 } else t
    { (g.setBar { r with gen := r.gen + 1, arrived := [] }) with
      sheaves := g.sheaves.map (fun x => { x with tillers := x.tillers.map up }) }

/-- The tiller of a list that entered BAR-WAIT first (R49). -/
def firstIn (ws : List Tiller) : Option Tiller :=
  ws.foldl (fun b t => match b with
    | none => some t
    | some w => if t.since < w.since then some t else some w) none

/-- A tiller that has moved past its BAR or BARW enters BAR-WAIT, fusing with every tiller of its sheaf that waits there
already, in the entry of the one that came there first (R41, R49; log 122). -/
def Sheaf.barWait (x : Sheaf) (ti b cycle : Nat) : Sheaf :=
  match x.tiller? ti with
  | none => x
  | some t =>
    let ws := x.tillers.filter (fun w => w.st == .barWait b)
    match firstIn ws with
    | some w => x.fuse (ws.map Tiller.idx ++ [ti]) w.idx t.pc w.stack (.barWait b)
    | none => x.updTiller ti (fun t => { t with st := .barWait b, since := cycle })

/-- BAR, BARA and BARW (R247, R248): whether the instruction arrives, and whether it waits. -/
def barOp (i : Instr) (x : FA) (arrives waits : Bool) (s : State) : Out :=
  issue i s (fun f s =>
    let b := barOf (f.scalar s) x.a 16
    let here := (f.g.bar b).of f.sh.idx
    if arrives && here &&& f.t.mask != 0 then s.updT f (fun t => { t with st := .blocked .room })
    else
      let s1 := s.advance f i
      let s2 := if arrives then
          s1.updGroup f.g.gid (fun g => g.setBar ((g.bar b).set f.sh.idx (here ||| f.t.mask)))
        else s1
      let s3 := if waits && (arrives || here &&& f.t.mask != 0) then s2.updS f (fun y => y.barWait f.t.idx b s.cycle) else s2
      (s3.updGroup f.g.gid (fun g => g.tryBar b)).checkStuck f.g.gid f.sh.idx none)

/-- BAR (R41, R248): BARA followed by BARW. -/
def execBar (h : Hdr) (x : FA) (s : State) : Out := barOp (.bar h x) x true true s

/-- BARA (R248): arrives without waiting. -/
def execBara (h : Hdr) (x : FA) (s : State) : Out := barOp (.bara h x) x true false s

/-- BARW (R248): waits for the generation in which a lane of the tiller arrived. -/
def execBarw (h : Hdr) (x : FA) (s : State) : Out := barOp (.barw h x) x false true s

/-! ## Exit (R31, R38, R245, R246, R369) -/

/-- Lanes with the helpers of every quad whose last non-helper thread is among them (R31). -/
def Sheaf.withHelpers (x : Sheaf) (m : Mask) : Mask :=
  (List.range 16).foldl (fun m q =>
    let quad : Mask := Mask.ofLanes [4 * q, 4 * q + 1, 4 * q + 2, 4 * q + 3]
    if m &&& quad != 0 && quad &&& ~~~x.exited &&& ~~~m &&& ~~~x.helpers == 0 then m ||| (quad &&& ~~~x.exited)
    else m) m

/-- Lanes leaving a sheaf: its tillers, join records, parked lanes and operand log (R38). -/
def Sheaf.removeLanes (x : Sheaf) (m : Mask) : Sheaf :=
  let ts := x.tillers.map (fun t => { t with mask := t.mask &&& ~~~m, todo := t.todo.map (fun d => d &&& ~~~m) })
  let parked := x.parked.filter (fun p => !m.getLsbD p.lane)
  let keep := ts.filter (fun t => t.mask != 0 || parked.any (fun p => p.ti == t.idx))
  { x with exited := x.exited ||| m, parked := parked,
           tillers := keep.map (fun t =>
             if t.mask = 0 then { t with st := .parked, todo := none, queued := none } else t),
           joins := x.joins.map (fun r => { r with exp := r.exp &&& ~~~m, arr := r.arr &&& ~~~m }),
           oplog := (x.oplog.map (fun e => { e with mask := e.mask &&& ~~~m })).filter (fun e => e.mask != 0) }

/-- Releasing whatever a removal of lanes has made releasable (R38). -/
def Sheaf.releaseAll (x : Sheaf) : Sheaf := (x.joins.map JoinRec.tok).foldl Sheaf.tryRelease x

/-- The end of a sheaf whose 64 threads have exited: its commands form a final batch (R38, R246). -/
def State.endSheaf (s : State) (gid sh : Nat) : State :=
  match s.sheaf? gid sh with
  | none => s
  | some x =>
    if x.ended || x.exited != Mask.full then s
    else (s.closeBatch gid sh).updSheaf gid sh (fun x => { x with ended := true, tillers := [], joins := [] })

/-- Lanes of a sheaf exit (R38): records and barriers that this completes release in the same cycle. -/
def State.exitCore (s : State) (gid sh : Nat) (m : Mask) : State :=
  let s := s.updSheaf gid sh (fun x => (x.removeLanes (x.withHelpers (m &&& ~~~x.exited))).releaseAll)
  let s := s.updGroup gid (fun g => (List.range 16).foldl Group.tryBar g)
  s.endSheaf gid sh

/-- Raising join deadlock or barrier divergence in each of some sheaves, by group and sheaf, in which the condition has come to hold
by one instruction (R40, R42). -/
def State.checkAll (s : State) (l : List (Nat × Nat)) : State := l.eraseDups.foldl (fun s e => s.checkStuck e.1 e.2 none) s

/-- The entries of a handler sheaf's threads that are not yet resumed. -/
def Group.entriesOf (g : Group) (m : Mask) : List Entry :=
  (g.entries.zipIdx.filter (fun e => m.getLsbD e.2 && !e.1.resumed)).map Prod.fst

/-- The origin lane of a handler thread that exits unresumed acts as EXIT (R369). -/
def State.exitOrigins (s : State) (g : Group) (m : Mask) : State :=
  let es := g.entriesOf m
  let s := s.updGroup g.gid (fun g =>
    { g with entries := g.entries.zipIdx.map (fun e => if m.getLsbD e.2 then { e.1 with resumed := true } else e.1) })
  es.foldl (fun s e => if e.empty then s else s.exitCore e.gid e.sh (Mask.ofLanes [e.lane])) s

/-- Lanes of any sheaf exit, with the origin lanes of a handler's (R38, R369). -/
def State.exitLanes (s : State) (gid sh : Nat) (m : Mask) : State :=
  match s.group? gid with
  | none => s
  | some g =>
    if g.kind = .handler then
      ((s.exitOrigins g m).exitCore gid sh m).checkAll ((g.entriesOf m).map (fun e => (e.gid, e.sh)) ++ [(gid, sh)])
    else (s.exitCore gid sh m).checkStuck gid sh none

/-- EXIT (R38, R245). -/
def execExit (h : Hdr) (x : FA) (s : State) : Out :=
  issue (.exit h x) s (fun f s => (s.advance f (.exit h x)).exitLanes f.g.gid f.sh.idx (f.active h s.cycle))

/-- The threads of EXIT.H that become helpers: those whose quad has another thread that has neither exited nor become a helper
(R31). Several threads of a quad are taken in ascending index (log 123). -/
def Sheaf.newHelpers (x : Sheaf) (m : Mask) : Mask :=
  (m.lanes.foldl (fun (acc : Mask × Mask) t =>
    let q := t / 4
    let quad : Mask := Mask.ofLanes [4 * q, 4 * q + 1, 4 * q + 2, 4 * q + 3]
    let self : Mask := Mask.ofLanes [t]
    if quad &&& ~~~x.exited &&& ~~~(x.helpers ||| acc.1) &&& ~~~acc.2 &&& ~~~self != 0 then (acc.1 ||| self, acc.2)
    else (acc.1, acc.2 ||| self)) (0, 0)).1

/-- EXIT.H (R31, R245). -/
def execExitH (h : Hdr) (x : FA) (s : State) : Out :=
  issue (.exitH h x) s (fun f s =>
    let act := f.active h s.cycle
    let hs := f.sh.newHelpers act
    let s1 := (s.advance f (.exitH h x)).updS f (fun y => { y with helpers := y.helpers ||| hs })
    let out := act &&& ~~~hs
    if out = 0 then s1 else s1.exitLanes f.g.gid f.sh.idx out)

/-! ## Traps and breakpoints (R249) -/

/-- Delivering every outstanding result of a sheaf. -/
def Sheaf.deliverAll (x : Sheaf) : Sheaf :=
  { (x.board.foldl (fun y b => y.write b.writes) x) with board := [] }

/-- The 24-bit immediate of TRAP, BKPT and BBC. -/
def imm24 (x : FI) : BitVec 24 :=
  match x.imm with
  | .short w => w
  | .long _ => 0

/-- TRAP and BKPT (R249): earlier instructions complete, then each active lane whose guard is true parks. -/
def trapOp (i : Instr) (h : Hdr) (x : FI) (cause : BitVec 8) (s : State) : Out :=
  issue i s (fun f s =>
    let lanes :=
      if h.u then (if f.guardU h s.cycle then f.t.mask.lanes else []) else (f.active h s.cycle).lanes
    let s1 := s.updS f Sheaf.deliverAll
    (s1.park f (lanes.map (f.trapAt 8 cause (imm24 x)))).moveOn f i)

/-- TRAP (R249). -/
def execTrap (h : Hdr) (x : FI) (s : State) : Out := trapOp (.trap h x) h x 0x0B s

/-- BKPT (R249). -/
def execBkpt (h : Hdr) (x : FI) (s : State) : Out := trapOp (.bkpt h x) h x 0x0C s

end Sys2Proof.Machine
end

