-- ==== Sys2Proof/Machine/Queue.lean ====
section
/-! DEFINITION. Engine batches and the ends of engine commands, device work queues, deques and stealing, and launches from
the device (R251 to R269, R273, R275, R276, R408, R410). -/

namespace Sys2Proof.Machine

/-! ## Batches (R256 to R258) -/

/-- BCLOSE (R256, R257). -/
def execBclose (h : Hdr) (x : FA) (s : State) : Out :=
  issue (.bclose h x) s (fun f s =>
    if !f.guardU h s.cycle then s.advance f (.bclose h x)
    else
      let s1 := s.closeBatch f.g.gid f.sh.idx
      let n := ((s1.sheaf? f.g.gid f.sh.idx).map Sheaf.lastb).getD 0
      (s1.retire f (.bclose h x) ((f.scalar s).put x.d (n.setWidth 32))).advance f (.bclose h x))

/-- The lowest failed batch that BWAIT n covers (R258). -/
def Sheaf.lowestFailed (x : Sheaf) (n : BitVec 16) : Option (BitVec 16) :=
  (x.batches.filter (fun b => covers n b.num && b.st == .failed)).foldl (fun m b =>
    match m with
    | none => some b.num
    | some k => some (if b.num.toNat < k.toNat then b.num else k)) none

/-- BWAIT n once every covered batch has ended: a failure is raised and reported as seen, else the tiller goes on with an
acquire at domain scope (R151, R258). -/
def State.endBwait (s : State) (f : Frame) (i : Instr) (n : BitVec 16) : State :=
  match f.sh.lowestFailed n with
  | some k =>
    let s1 := s.updS f (fun x => { x with batches := x.batches.filter (fun b => !(covers n b.num && b.st == .failed)) })
    (s1.updT f (fun t => { t with st := .ready })).trapAll f 8 0x0E (k.setWidth 24)
  | none => (s.acquire f.g.core).updT f (fun t => { (t.advance s.cycle i) with age := 0 })

/-- BWAIT (R256, R258). -/
def execBwait (h : Hdr) (x : FA) (s : State) : Out :=
  issue (.bwait h x) s (fun f s =>
    let n : BitVec 16 := ((f.scalar s).w32 x.a).setWidth 16
    if !f.guardU h s.cycle then s.advance f (.bwait h x)
    else if f.sh.batchDone n then s.endBwait f (.bwait h x) n
    else s.updT f (fun t => { t with st := .eventWait (.bwait h x n) }))

/-- Ending the BWAITs of a sheaf whose covered batches have all ended (R258). -/
def State.wakeBwait (s : State) (gid sh : Nat) : State :=
  match s.sheaf? gid sh with
  | none => s
  | some x =>
    x.tillers.foldl (fun s t =>
      match t.st with
      | .eventWait (.bwait h y n) =>
        (match s.frameOf gid sh t.idx with
         | some f => if f.sh.batchDone n then s.endBwait f (.bwait h y) n else s
         | none => s)
      | _ => s) s

/-! ## Commands (R253 to R255, R408, R410) -/

/-- ENGINE_COPY (R254): a store of 0 to EQGO issues a copy command. -/
def execEngineCopy (gid sh : Nat) (s : State) : Out := .next (s.acceptCmd gid sh 0).2

/-- ENGINE_GATHER (R254). -/
def execEngineGather (gid sh : Nat) (s : State) : Out := .next (s.acceptCmd gid sh 1).2

/-- ENGINE_COLLECTIVE (R254, R410). -/
def execEngineCollective (gid sh : Nat) (s : State) : Out := .next (s.acceptCmd gid sh 2).2.meet

/-- Changing one drive entry. -/
def State.updDrive (s : State) (d : Nat) (f : Drive → Drive) : State :=
  { s with drives := putBy Drive.d (f (s.driveOf d)) s.drives }

/-- The 64-byte submission entry of a Read: opcode 0x02, CID, namespace, data pointers (which lie in memory of the
engine's own: free values, log 10), SLBA and NLB (R408; the places of the fields are NVMe 2.0's, log 41). -/
def nvmeEntry (cid ns : Nat) (prp1 prp2 slba : DWord) (nlb : Nat) : List Byte :=
  bytesOf 1 2 ++ bytesOf 1 0 ++ bytesOf 2 cid ++ bytesOf 4 ns ++ bytesOf 16 0 ++ bytesOf 8 prp1.toNat ++
    bytesOf 8 prp2.toNat ++ bytesOf 8 slba.toNat ++ bytesOf 2 nlb ++ bytesOf 14 0

/-- The drive of a storage command (R254). -/
def Cmd.drive (c : Cmd) : Nat := (c.c.extractLsb' 16 4).toNat

/-- Posting a storage command to its drive: a fresh CID, the entry at the submission queue's tail, and the tail doorbell
through the host aperture (R407, R408). -/
def State.postNvme (s : State) (c : Cmd) : State :=
  let dr := s.driveOf c.drive
  let cid := (dr.cid + 1) % 2 ^ 16
  let (p1, s) := s.freshFree
  let (p2, s) := s.freshFree
  let s := s.homeWriteLines (dr.field 16 8 % 2 ^ 41 + 64 * (dr.tail % dr.size))
    (nvmeEntry cid (c.d.extractLsb' 0 32).toNat p1 p2 c.b (c.c.extractLsb' 0 16).toNat)
  let tail := (dr.tail + 1) % dr.size
  let bell := dr.field 0 8 + 2 * dr.field 12 2 * (4 * 2 ^ dr.field 8 1)
  let s := { s with hostMem := csetLE s.hostMem bell 4 tail }
  (s.updDrive c.drive (fun x => { x with tail := tail, cid := cid })).updCmd c.id
    (fun c => { c with posted := true, cid := cid })

/-- Starting a storage command: its destination pages are translated first, and one that is not local HBM fails it
(R408). -/
def State.startNvme (s : State) (c : Cmd) : State :=
  match s.own c with
  | (.ok _, s) => (s.postNvme c).dropPend (.cmd c.id)
  | (.error e, s) => s.stopCmd c e

/-- ENGINE_STORAGE (R254, R408): a store of 3 to EQGO issues an NVMe Read. -/
def execEngineStorage (gid sh : Nat) (s : State) : Out :=
  .next (match s.acceptCmd gid sh 3 with
    | (some c, s) => s.startNvme c
    | (none, s) => s)

/-- A packet of a queue that waits for a grid or command has completed (R344). -/
def State.packetDone (s : State) (q id : Nat) : State :=
  s.updSq q (fun x => { x with pending := x.pending.filter (fun e => e.1 != id) })

/-- A command that has ended: its batch may settle; a COPY packet completes, and a failure of it is reported (R257,
R344). -/
def State.endCmd (s : State) (c : Cmd) : State :=
  match c.owner with
  | some (gid, sh) =>
    let s := s.updCmd c.id (fun c => { c with ended := true })
    (match c.batch with
     | some n => s.settleBatch gid sh n
     | none => s).wakeBwait gid sh
  | none =>
    let q := c.queue.getD 0
    let n := (((s.sq q).pending.find? (fun e => e.1 == c.id)).map Prod.snd).getD 0
    let bad := s.cmds.any (fun k => k.id == c.id && k.failed)
    let s := { s with cmds := s.cmds.filter (fun k => k.id != c.id) }.packetDone q c.id
    if bad then s.report 6 c.ctx 0xFF 0xFF q n else s

/-- Bringing one engine command to its end as far as it can go: one that has moved ends once its writes have been performed,
those held at a read-duplicated page's home among them (R253, R255, R157). -/
def State.finishCmd (s : State) (id : Nat) : State :=
  match s.cmds.find? (fun c => c.id == id && !c.ended && c.eng != 4) with
  | none => s
  | some c =>
    if s.cutHolds c.ctx then s
    else
    let s := if c.eng = 2 && !c.met then s.meet else s
    let s := if c.eng = 3 && !c.posted && c.tag.isNone && !c.failed then s.startNvme c else s
    match s.cmds.find? (fun c => c.id == id) with
    | none => s
    | some c =>
      let s := if c.canMove then s.moveCmd c else s
      match s.cmds.find? (fun c => c.id == id) with
      | none => s
      | some c => if (c.moved && !s.holdsOf (.cmd c.id)) || c.failed then s.endCmd c else s

/-- ENGINE_COMMAND_END (R255, R257): a command's moves are performed and it ends, or it fails. -/
def execEngineCommandEnd (cmd : Nat) (s : State) : Out := .next (s.finishCmd cmd)

/-- A completion entry: dword 2 names the queue, dword 3 holds the CID, the phase tag and the status (R408; log 41). -/
def nvmeCqe (sq cid status : Nat) (tag : Bool) : List Byte :=
  bytesOf 8 0 ++ bytesOf 2 0 ++ bytesOf 2 sq ++ bytesOf 2 cid ++ bytesOf 2 (2 * status + tag.toNat)

/-- Where the engine reads a drive's next completion (R408, R409). -/
def Drive.cqAt (x : Drive) : Nat := x.field 24 8 % 2 ^ 41 + 16 * (x.head % x.size)

/-- A drive writes a completion at the place that follows the last, with the phase tag of its passage through the queue (R408;
log 41). -/
def State.postCqe (s : State) (d cid status : Nat) : State :=
  let x := s.driveOf d
  s.homeWriteLines x.cqAt (nvmeCqe (x.field 12 2) cid (status % 2 ^ 15) x.tag)

/-- The engine reads a drive's completion queue by phase tag (R408): an entry of the tag that it expects ends the command of its
CID, with the data that the drive has returned or with its status; one for no command that waits is ignored and reported. -/
def State.readCq (s : State) (d : Nat) (data : List Byte) : State :=
  let x := s.driveOf d
  let e := s.homeRead x.cqAt 16
  let w := natOf ((e.drop 14).take 2)
  let cid := natOf ((e.drop 12).take 2)
  if w % 2 ≠ x.tag.toNat then s
  else
    let head := (x.head + 1) % x.size
    let s := s.updDrive d (fun x => { x with head := head, tag := if head = 0 then !x.tag else x.tag })
    match s.cmds.find? (fun c => c.eng == 3 && c.drive == d && c.cid == cid && c.posted && !c.ended && !c.failed &&
      c.data.isNone) with
    | none => s.report 9 0xFF 0xFF 0xFF cid 0
    | some c =>
      if w / 2 ≠ 0 then s.updCmd c.id (fun c => { c with failed := true })
      else
        let n := s.cmdLen c
        s.updCmd c.id (fun c => { c with data := some ((data ++ List.replicate n 0).take n) })

/-- NVME_COMPLETION (R408): the drive of a command that has been posted completes it: it writes the completion, which the engine
reads. While the queue's stack is not ready neither is done (R419). One for a command that is no more is ignored and reported. -/
def execNvmeCompletion (cmd status : Nat) (data : List (BitVec 8)) (s : State) : Out :=
  .next (match s.cmds.find? (fun c => c.id == cmd && c.eng == 3 && c.posted) with
    | none => s.report 9 0xFF 0xFF 0xFF cmd 0
    | some c =>
      if !s.stackReady (s.driveOf c.drive).cqAt then s else (s.postCqe c.drive c.cid status).readCq c.drive data)

/-- NVME_TIMEOUT (R408): no completion within 1,000,000,000 ticks. -/
def execNvmeTimeout (cmd : Nat) (s : State) : Out :=
  .next (s.updCmd cmd (fun c =>
    if c.eng = 3 && !c.ended && c.data.isNone && decide (c.startedAt + 1000000000 ≤ s.stc) then { c with failed := true }
    else c))

/-- MEMBER_ABSENT_TIMEOUT (R410): a member is absent for 2,000,000 ticks. -/
def execMemberAbsentTimeout (cmd : Nat) (s : State) : Out :=
  .next (s.updCmd cmd (fun c =>
    if c.eng = 2 && !c.ended && !c.met && decide (c.startedAt + 2000000 ≤ s.stc) then { c with failed := true } else c))

/-! ## Sequential thread operations -/

/-- What one thread's operation on a queue, a deque or a launch comes to. -/
inductive QRes where
  | done (ws : List RegWrite)
  | park (cause : BitVec 8)
  /-- It waits for another agent's step, or for an answer to its read; later threads wait behind it. -/
  | wait (on : Option Unanswered)
  /-- It waits for the verdict on a record of the queue unit's read. -/
  | record (va reason die q : Nat)
  deriving DecidableEq, Repr

/-- The lanes of a list as a mask; the scalar unit stands for all. -/
def maskOf (f : Frame) (ls : List (Option Nat)) : Mask :=
  ls.foldl (fun m l => match l with
    | some t => m ||| Mask.ofLanes [t]
    | none => f.t.mask) 0

/-- Leaving a tiller in EVENT-WAIT for its remaining lanes. -/
def State.hold (s : State) (f : Frame) (ls : List (Option Nat)) (w : Wait) : State :=
  s.updT f (fun t => if t.mask = 0 then { t with todo := none }
    else { t with todo := some (maskOf f ls &&& t.mask), st := .eventWait w })

/-- Register results that wait in the scoreboard (R92). -/
def State.board (s : State) (f : Frame) (ws : List RegWrite) : State :=
  if ws.isEmpty then s else s.updS f (fun x => { x with board := x.board ++ [{ mem := false, writes := ws }] })

/-- The kind-0 payload of 0x05 and 0x06, else 0 (R367). -/
def qPayload (cause : BitVec 8) : BitVec 24 := memPayload cause 0

/-- Threads acting one after another in ascending index; one that waits, in the given wait, holds back those behind it
(R261, R264). -/
def seqLanes (i : Instr) (f : Frame) (w : Wait) (act : State → Option Nat → QRes × State) : List (Option Nat) → State → State
  | [], s => s.moveOn f i
  | l :: rest, s =>
    match act s l with
    | (.done ws, s) => seqLanes i f w act rest ((s.dropPends f).board f ws)
    | (.park c, s) => seqLanes i f w act rest ((s.dropPends f).park f (laneTraps f i.size 0 [(l, c)]))
    | (.wait on, s) => (s.pendLanes f [(l, on)]).hold f (l :: rest) w
    | (.record va reason die q, s) =>
      let (tag, s) := s.postFault (.queue die q f.g.gid f.sh.idx f.t.idx l) va f.g.ctx f.g.core f.sh.qs 0 reason
      ((s.dropPends f).updDie die (fun d =>
        { d with wqs := updWhere (fun w => w.q == q) (fun w => { w with tag := some tag }) d.wqs })).hold f (l :: rest) .retry

/-- Lanes that act: not helpers (R32, R261, R264). -/
def actLanes (f : Frame) (h : Hdr) (s : State) : List (Option Nat) :=
  (todoLanes f h s).filter (fun l => !f.suppressed l)

/-- A sequential operation as an instruction. -/
def seqOp (i : Instr) (h : Hdr) (w : Wait) (s : State) (act : Frame → State → Option Nat → QRes × State) : Out :=
  issue i s (fun f s => seqLanes i f w (act f) (actLanes f h s) s)

/-! ## Device work queues (R259 to R262, R275, R276) -/

/-- The 64 bytes of a descriptor (R259). -/
def WorkQ.bytes (w : WorkQ) : List Byte :=
  bytesOf 8 w.ring.toNat ++ bytesOf 1 w.logcap ++ bytesOf 1 w.ctx ++ bytesOf 6 0 ++ bytesOf 4 w.rsv.toNat ++
    bytesOf 4 w.pubp.toNat ++ bytesOf 4 w.head.toNat ++ bytesOf 4 w.thresh.toNat ++ bytesOf 4 w.stuckSeq.toNat ++
    bytesOf 1 (if w.stuck then 1 else 0) ++ bytesOf 27 0

/-- Changing a queue's held state and writing its descriptor back (R259). -/
def State.setWq (s : State) (die : Nat) (w : WorkQ) : State :=
  let s := s.updDie die (fun d => { d with wqs := updWhere (fun x => x.q == w.q) (fun _ => w) d.wqs })
  let pa := (s.die die).wqbase.toNat % 2 ^ 41 + 64 * w.q
  let s := s.markStale (pa / 512)
  let s := { s with mem := csets s.mem pa w.bytes }
  s.evalWatches (pa / 512)

/-- The queue of a handle, for a context: none for a bad handle, an unregistered queue or another context's (R261). -/
def State.wqOf (s : State) (ctx : Nat) (hd : Word) : Option (Nat × WorkQ) :=
  if hd.extractLsb' 14 18 != 0 then none
  else
    let die := (hd.extractLsb' 12 2).toNat
    match (s.die die).wqs.find? (fun w => w.q == (hd.extractLsb' 0 12).toNat && w.ctx == ctx) with
    | some w => some (die, w)
    | none => none

/-- The queue of a handle for an instruction: none for one that has been unregistered while the instruction waits (R412). -/
def State.wqFor (s : State) (f : Frame) (hd : Word) : Option (Nat × WorkQ) :=
  let gone := ((f.t.queued.map Queued.gone).getD []).contains ((hd.extractLsb' 12 2).toNat, (hd.extractLsb' 0 12).toNat)
  if gone then none else s.wqOf f.g.ctx hd

/-- Whether a thread of a tiller is still to perform its part of an instruction that waits. -/
def State.stillWaits (s : State) (gid sh ti : Nat) (lane : Option Nat) : Bool :=
  match s.frameOf gid sh ti with
  | none => false
  | some f => f.t.st == .eventWait .retry && (match f.t.todo, lane with
    | some d, some t => d.getLsbD t
    | some d, none => d != 0
    | none, _ => false)

/-- Whether a queue's operations wait: for the verdict on a DEQ's record, or for the slot that another thread's DEQ reads (R261). -/
def State.wqHeld (s : State) (f : Frame) (l : Option Nat) (w : WorkQ) : Bool :=
  w.tag.isSome || (match w.reader with
    | some (g, x, t, k) => (g, x, t, k) != (f.g.gid, f.sh.idx, f.t.idx, l) && s.stillWaits g x t k
    | none => false)

/-- ENQ in one thread (R261). -/
def enqAct (x : FA) (f : Frame) (s : State) (l : Option Nat) : QRes × State :=
  let r : Rd := { s := s, f := f, lane := l }
  match s.wqFor f (r.w32 x.a) with
  | none => (.park 0x06, s)
  | some (die, w) =>
    let n := (r.w32 x.b).toNat
    if s.wqHeld f l w then (.wait none, s)
    else if 1 ≤ n ∧ n ≤ 64 ∧ n + (w.rsv - w.head).toNat ≤ 2 ^ w.logcap then
      let seqs := (List.range n).map (fun k => (w.rsv + BitVec.ofNat 32 k, s.stc))
      (.done (r.put x.d w.rsv ++ r.putPr x.c true),
       s.setWq die { w with rsv := w.rsv + BitVec.ofNat 32 n, resAt := w.resAt ++ seqs })
    else if x.fn.getLsbD 0 && decide (1 ≤ n) && decide (n ≤ 64) then (.wait none, s)
    else (.done (r.putPr x.c false), s)

/-- ENQ (R260, R261). -/
def execEnq (h : Hdr) (x : FA) (s : State) : Out := seqOp (.enq h x) h .retry s (enqAct x)

/-- Publishing moves PUBP over every number published in turn (R261); passing STUCKSEQ clears STUCK (R276). -/
def WorkQ.settle (w : WorkQ) : Nat → WorkQ
  | 0 => w
  | n + 1 =>
    if w.early.contains w.pubp then
      let stuck := w.stuck && w.stuckSeq != w.pubp
      { w with pubp := w.pubp + 1, early := w.early.filter (fun k => k != w.pubp),
               resAt := w.resAt.filter (fun e => e.1 != w.pubp), stuck := stuck }.settle n
    else w

/-- PUB in one thread (R261): a release at device scope. -/
def pubAct (x : FA) (f : Frame) (s : State) (l : Option Nat) : QRes × State :=
  let r : Rd := { s := s, f := f, lane := l }
  match s.wqFor f (r.w32 x.a) with
  | none => (.park 0x06, s)
  | some (die, w) =>
    let k := r.w32 x.b
    if s.wqHeld f l w then (.wait none, s)
    else if (k - w.pubp).toNat < (w.rsv - w.pubp).toNat && !w.early.contains k then
      let s := s.release f.g.core
      (.done [], (s.setWq die ({ w with early := w.early ++ [k] }.settle (w.early.length + 1))))
    else (.park 0x0E, s)

/-- PUB (R260, R261). -/
def execPub (h : Hdr) (x : FA) (s : State) : Out := seqOp (.pub h x) h .retry s (pubAct x)

/-- DEQ in one thread (R261, R275): the slot is one 8-byte read at its home, and a take is an acquire at device scope. The
operations that arrive while its read waits come after it. A RING in the aperture names the windows of the group that issues the
DEQ (R104; log 159). -/
def deqAct (x : FA) (f : Frame) (s : State) (l : Option Nat) : QRes × State :=
  let r : Rd := { s := s, f := f, lane := l }
  match s.wqFor f (r.w32 x.a) with
  | none => (.park 0x06, s)
  | some (die, w) =>
    if s.wqHeld f l w then (.wait none, s)
    else if w.head = w.pubp then
      (if x.fn.getLsbD 0 then (.wait none, s) else (.done (r.putPr x.c false), s))
    else
      let va := w.ring.toNat + 8 * (w.head.toNat % 2 ^ w.logcap)
      let p : Port := { g := f.g, sh := f.sh, lane := l, helper := false }
      let m : MemForm := { condForm { ctl := 0, w1 := 0, w2 := 0, w3 := 0 } with sz := 3 }
      match s.memLane p m { a := BitVec.ofNat 64 va, b := 0, c := 0 } with
      | (.done vs, s) =>
        let s := s.acquire f.g.core
        (.done (r.put64 x.d (BitVec.ofNat 64 (vs.headD 0)) ++ r.putPr x.c true),
         s.setWq die { w with head := w.head + 1, reader := none })
      | (.park c, s) => (.park c, s)
      | (.record pg reason, s) => (.record pg reason die w.q, s)
      | (.wait on, s) =>
        let reads (k : WorkQ) : WorkQ := { k with reader := some (f.g.gid, f.sh.idx, f.t.idx, l) }
        (.wait on, s.updDie die (fun d => { d with wqs := updWhere (fun k => k.q == w.q) reads d.wqs }))

/-- DEQ (R260, R261). -/
def execDeq (h : Hdr) (x : FA) (s : State) : Out := seqOp (.deq h x) h .retry s (deqAct x)

/-- Whether slot PUBP has stayed reserved and unpublished for THRESH ticks, and has not been notified (R262). -/
def WorkQ.isStuck (w : WorkQ) (stc : Nat) : Bool :=
  w.thresh != 0 && w.rsv != w.pubp && !w.early.contains w.pubp && w.notified != some w.pubp &&
    w.resAt.any (fun e => e.1 == w.pubp && decide (e.2 + w.thresh.toNat ≤ stc))

/-- QUEUE_STUCK (R262): STUCKSEQ and STUCK are set and the host notified, once per sequence number. -/
def execQueueStuck (die q : Nat) (s : State) : Out :=
  .next (match (s.die die).wqs.find? (fun w => w.q == q) with
    | none => s
    | some w =>
      if w.isStuck s.stc then
        (s.setWq die { w with stuck := true, stuckSeq := w.pubp, notified := some w.pubp }).report 6 w.ctx die 0xFF q
          w.pubp.toNat
      else s)

/-! ## Deques and stealing (R263 to R265) -/

/-- A thread of another tiller receives the result of an operation it waits in, and goes on with its other threads. -/
def State.answer (s : State) (q : StealReq) (ws : List RegWrite) : State :=
  let s := s.updSheaf q.gid q.sh (fun x => { x with board := x.board ++ [{ mem := false, writes := ws }] })
  let lane : Mask := if q.uni then Mask.full else Mask.ofLanes [q.lane]
  s.updTiller q.gid q.sh q.ti (fun t =>
    { t with st := .ready, age := 0, todo := t.todo.map (fun d => d &&& ~~~lane) })

/-- Register writes for a thread by lane number, the scalar unit for a uniform form. -/
def putFor (q : StealReq) (task : Option DWord) : List RegWrite :=
  let lane : Option Nat := if q.uni then none else some q.lane
  let pr : Word := if task.isSome then 1 else 0
  let ps : List RegWrite := match q.pred with
    | .p n => [{ key := .p n.val q.lane, val := pr }]
    | .q n => [{ key := .q n.val, val := pr }]
    | _ => []
  ps ++ (match task with
    | some t => laneWrites lane q.dst [t.setWidth 32, (t >>> 32).setWidth 32]
    | none => [])

/-- The thief's core, for the acquire of a task it receives (R265). -/
def State.coreOfGroup (s : State) (gid : Nat) : Nat := ((s.group? gid).map Group.core).getD 0

/-- Withdrawing some of the requests posted in mailboxes: p := false (R265). -/
def State.withdraw (s : State) (late : StealReq → Bool) : State :=
  (s.groups.flatMap (fun g => (g.mailbox.filter late).map (fun q => (g.gid, q)))).foldl (fun s e =>
    (s.updGroup e.1 (fun g => { g with mailbox := g.mailbox.filter (fun q => q != e.2) })).answer e.2 (putFor e.2 none)) s

/-- SPAWN in one thread (R264): the oldest thief whose deadline has not passed before this tick takes the task, else it is pushed;
a release at panicle scope. -/
def spawnAct (x : FA) (f : Frame) (s : State) (l : Option Nat) : QRes × State :=
  let r : Rd := { s := s, f := f, lane := l }
  let task := r.w64 x.a
  let s := (s.release f.g.core).withdraw (fun q => decide (q.dl < s.stc))
  let g := (s.group? f.g.gid).getD f.g
  match g.mailbox with
  | q :: rest =>
    let s := s.updGroup g.gid (fun g => { g with mailbox := rest })
    (.done (r.putPr x.d true), (s.answer q (putFor q (some task))).acquire (s.coreOfGroup q.gid))
  | [] =>
    if g.deque.length < 64 then
      (.done (r.putPr x.d true), s.updGroup g.gid (fun g => { g with deque := g.deque ++ [task] }))
    else (.done (r.putPr x.d false), s)

/-- SPAWN (R264). -/
def execSpawn (h : Hdr) (x : FA) (s : State) : Out := seqOp (.spawn h x) h .retry s (spawnAct x)

/-- TAKE in one thread (R264): the newest task; an acquire at panicle scope. -/
def takeAct (x : FA) (f : Frame) (s : State) (l : Option Nat) : QRes × State :=
  let r : Rd := { s := s, f := f, lane := l }
  let g := (s.group? f.g.gid).getD f.g
  match g.deque.getLast? with
  | some task =>
    let s := s.acquire f.g.core
    (.done (r.put64 x.d task ++ r.putPr x.c true), s.updGroup g.gid (fun g => { g with deque := g.deque.dropLast }))
  | none => (.done (r.putPr x.c false), s)

/-- TAKE (R264). -/
def execTake (h : Hdr) (x : FA) (s : State) : Out := seqOp (.take h x) h .retry s (takeAct x)

/-- STEAL in one thread (R264, R265): the victim's oldest task, or a request posted in its mailbox. -/
def stealAct (x : FA) (f : Frame) (s : State) (l : Option Nat) : QRes × State :=
  let r : Rd := { s := s, f := f, lane := l }
  let v := (r.w32 x.a).toNat
  let t := (r.w64 x.b).toNat
  if f.g.slots ≤ v then (.park 0x06, s)
  else
    let no : QRes × State := (.done (r.putPr x.c false), s)
    match s.group? (s.panGroup f.g v) with
    | none => no
    | some g =>
      if g.pslot ≠ v ∨ g.st = .done then no
      else
        match g.deque with
        | task :: rest =>
          let s := s.acquire f.g.core
          (.done (r.put64 x.d task ++ r.putPr x.c true), s.updGroup g.gid (fun g => { g with deque := rest }))
        | [] =>
          if v = f.g.pslot ∨ t = 0 ∨ 8 ≤ g.mailbox.length then no
          else
            let q : StealReq :=
              { gid := f.g.gid, sh := f.sh.idx, ti := f.t.idx, lane := l.getD 0, uni := l.isNone, dst := x.d,
                pred := x.c, dl := min (s.stc + t) (2 ^ 64 - 1) }
            (.wait none, s.updGroup g.gid (fun g => { g with mailbox := g.mailbox ++ [q] }))

/-- STEAL (R264): a posted request leaves the tiller in EVENT-WAIT. -/
def execSteal (h : Hdr) (x : FA) (s : State) : Out := seqOp (.steal h x) h .steal s (stealAct x)

/-- STEAL_TIMEOUT (R265): the posted request of a tiller has passed its deadline: it is withdrawn, and p := false. -/
def execStealTimeout (gid sh ti : Nat) (s : State) : Out :=
  .next (s.withdraw (fun q => q.gid == gid && q.sh == sh && q.ti == ti && decide (q.dl ≤ s.stc)))

/-! ## Launching (R266 to R269, R273) -/

/-- A launch record from its 64 bytes (R267). -/
def LaunchRec.ofBytes (b : List Byte) : LaunchRec :=
  let n (o k : Nat) : Nat := natOf ((b.drop o).take k)
  let byte (o : Nat) : Byte := b.getD o 0
  { code := BitVec.ofNat 64 (n 0 8), arg := BitVec.ofNat 64 (n 8 8), gx := BitVec.ofNat 32 (n 16 4),
    gy := BitVec.ofNat 16 (n 20 2), gz := BitVec.ofNat 16 (n 22 2), sheaves := byte 24, pw := byte 25, ph := byte 26,
    flags := byte 27, scratch := BitVec.ofNat 32 (n 28 4), regs0 := byte 32, regs1 := byte 33, n0 := byte 34,
    prio := byte 35, phase := BitVec.ofNat 32 (n 36 4), counter := BitVec.ofNat 64 (n 40 8),
    fmt := BitVec.ofNat 32 (n 48 4), tailZero := (b.drop 52).take 12 == List.replicate 12 0 }

/-- Groups of the grid. -/
def LaunchRec.count (r : LaunchRec) : Nat := r.gx.toNat * r.gy.toNat * r.gz.toNat

/-- w × h, 1 without a shape. -/
def LaunchRec.shape (r : LaunchRec) : Nat := max 1 (r.pw.toNat * r.ph.toNat)

/-- The limits of R267, with R28, R61 and R107; the phase is the launcher's to check (R346). -/
def LaunchRec.ok (r : LaunchRec) : Bool :=
  r.code.extractLsb' 0 3 == 0 && r.gx != 0 && r.gy != 0 && r.gz != 0 &&
    decide (1 ≤ r.sheaves.toNat) && decide (r.sheaves.toNat ≤ 16) &&
    ((r.pw == 0 && r.ph == 0) ||
      (decide (1 ≤ r.pw.toNat) && decide (r.pw.toNat ≤ 8) && decide (1 ≤ r.ph.toNat) && decide (r.ph.toNat ≤ 9) &&
        decide (r.pw.toNat * r.ph.toNat ≤ 24))) &&
    r.flags.extractLsb' 4 4 == 0 && decide (r.scratch.toNat ≤ 261120) &&
    decide (r.n0.toNat ≤ r.sheaves.toNat) &&
    !(r.n0 != r.sheaves && r.regs1 == 0 && decide (4 < r.sheaves.toNat - r.n0.toNat)) &&
    r.counter.extractLsb' 0 3 == 0 && fmtOk r.fmt && r.tailZero && r.count % r.shape == 0

/-- A code-object header that the launcher accepts: the ISA level of CAP_ISA, and zeros (R21, R266). -/
def headerOk (hd : Nat) : Bool := hd == 1

/-- A plain read at a VA by the hardware for an instruction: `sz` as in R84 (R268, R270). -/
def State.readFor (s : State) (f : Frame) (lane : Option Nat) (sz : Nat) (va : DWord) : Got × State :=
  let m : MemForm := { condForm { ctl := 0, w1 := 0, w2 := 0, w3 := 0 } with sz := sz, ord := 0 }
  s.memLane { g := f.g, sh := f.sh, lane := lane, helper := false } m { a := va, b := 0, c := 0 }

/-- What one thread's LAUNCH comes to. -/
inductive LRes where
  | got (r : LaunchRec)
  | bad (g : Got)
  | malformed
  deriving DecidableEq, Repr

/-- Reading a launch record and its code-object header (R268). -/
def State.readLaunch (s : State) (f : Frame) (lane : Option Nat) (va : DWord) : LRes × State :=
  if va.extractLsb' 0 6 != 0 then (.bad (.park 0x04), s)
  else
    let parts := (List.range 4).foldl (fun (acc : Except Got (List Nat) × State) k =>
      match acc with
      | (.error g, s) => (.error g, s)
      | (.ok vs, s) =>
        match s.readFor f lane 4 (va + BitVec.ofNat 64 (16 * k)) with
        | (.done ws, s) => (.ok (vs ++ ws), s)
        | (g, s) => (.error g, s)) (.ok [], s)
    match parts with
    | (.error g, s) => (.bad g, s)
    | (.ok vs, s) =>
      let r := LaunchRec.ofBytes (vs.flatMap (bytesOf 4))
      match s.readFor f lane 3 (r.code - 8) with
      | (.done ws, s) => (if r.ok && headerOk (ws.headD 0) then .got r else .malformed, s)
      | (g, s) => (.bad g, s)

/-- Pending-launch entries of a group (R269). -/
def State.pendingOf (s : State) (gid : Nat) : Nat := (s.pending.filter (fun p => p.gid == gid)).length

/-- Entering a launch (R268, R269): a release at device scope (R151). -/
def State.enterLaunch (s : State) (g : Group) (r : LaunchRec) : State :=
  let s := s.release g.core
  let (id, s) := s.fresh
  let x : Grid :=
    { id := id, ctx := g.ctx, launch := r, next := 0, ended := 0, base := min 7 r.prio.toNat, readySince := s.stc,
      lastPlace := s.stc, queue := none, die := some (dieOf g.core), done := none }
  { s with grids := s.grids ++ [x], pending := s.pending ++ [{ gid := g.gid, grid := id }] }

/-- The predicate that LAUNCH writes for a lane. -/
def launchPr (f : Frame) (s : State) (x : FA) (l : Option Nat) (b : Bool) : List RegWrite :=
  Rd.putPr { s := s, f := f, lane := l } x.d b

/-- LAUNCH in the remaining threads, in ascending index: one whose read waits, or that waits for an entry, holds back
those after it (R268, R273, R428). -/
def launchGo (h : Hdr) (x : FA) (f : Frame) : List (Option Nat) → State → State
  | [], s => s.moveOn f (.launch h x)
  | l :: rest, s =>
    match s.readLaunch f l (Rd.w64 { s := s, f := f, lane := l } x.a) with
    | (.malformed, s) => launchGo h x f rest ((s.dropPends f).park f (laneTraps f 8 0 [(l, 0x0E)]))
    | (.bad (.park c), s) => launchGo h x f rest ((s.dropPends f).park f (laneTraps f 8 0 [(l, c)]))
    | (.bad (.record va reason), s) =>
      let (tag, s) := s.postFault (.read f.g.gid f.sh.idx f.t.idx l) va f.g.ctx f.g.core f.sh.qs 0 reason
      (s.dropPends f).hold f (l :: rest) (.read tag)
    | (.bad (.wait on), s) => (s.pendLanes f [(l, on)]).stayFor f (maskOf f (l :: rest)) (.blocked .room)
    | (.bad (.done _), s) => launchGo h x f rest s
    | (.got r, s) =>
      if s.pendingOf f.g.gid < 4 then
        launchGo h x f rest (((s.enterLaunch f.g r).dropPends f).board f (launchPr f s x l true))
      else if x.fn.getLsbD 0 then
        let (n, s) := s.fresh
        (s.dropPends f).hold f (l :: rest) (.launch h x l r n)
      else launchGo h x f rest ((s.dropPends f).board f (launchPr f s x l false))

/-- LAUNCH (R268). -/
def execLaunch (h : Hdr) (x : FA) (s : State) : Out :=
  issue (.launch h x) s (fun f s => launchGo h x f (actLanes f h s) s)

/-- The waiting LAUNCH.WAIT of a group that began waiting first: sheaf, tiller and its order. -/
def State.firstWaiter (s : State) (gid : Nat) : Option (Nat × Nat × Nat) :=
  match s.group? gid with
  | none => none
  | some g =>
    (g.sheaves.flatMap (fun x => x.tillers.filterMap (fun t =>
      match t.st with
      | .eventWait (.launch _ _ _ _ n) => some (x.idx, t.idx, n)
      | _ => none))).foldl (fun b e =>
        match b with
        | none => some e
        | some c => if e.2.2 < c.2.2 then some e else some c) none

/-- An entry has freed: the group's first waiter takes it, and its thread's LAUNCH completes; its other threads go on at once
(R269, R273). -/
def State.serveLaunch (s : State) (gid : Nat) : State :=
  if 4 ≤ s.pendingOf gid then s
  else
    match s.firstWaiter gid with
    | none => s
    | some (sh, ti, _) =>
      match (s.frameOf gid sh ti).map Frame.asIssued with
      | none => s
      | some f =>
        match f.t.st with
        | .eventWait (.launch h x l r _) =>
          let rest := (todoLanes f h s).filter (fun k => k != l)
          let cur := s.cur
          let s := (s.enterLaunch f.g r).board f (launchPr f s x l true)
          { (launchGo h x f rest { s with cur := ⟨gid, sh, ti⟩ }).updT f (fun t => { t with age := 0 }) with cur := cur }
        | _ => s

end Sys2Proof.Machine
end

