-- ==== Sys2Proof/Machine/Residency.lean ====
section
/-! DEFINITION. How a matrix stream halts, residencies with their handles and instructions, and residency loads
(R155, R294, R300 to R307). -/

namespace Sys2Proof.Machine

/-! ## Halting a stream -/

/-- Changing a group's stream. -/
def State.updStream (s : State) (gid : Nat) (f : Stream → Stream) : State :=
  s.updGroup gid (fun g => { g with stream := f g.stream })

/-- Whether some write of a stream has not reached the memory it writes: a MOUT, or a closed stamp record (R279). -/
def Stream.writes (x : Stream) : Bool := x.flight.any (fun k => match k with
  | .mout .. | .stamp .. => true
  | _ => false)

/-- The arrivals at phase barrier 31 that a stream's halts owe are made once its writes have been performed: they are a
release (R294). -/
def State.payArrivals (s : State) (gid : Nat) : State :=
  match s.group? gid with
  | none => s
  | some g =>
    if g.stream.owes = 0 || g.stream.writes || s.holdsOf (.stream gid) then s
    else s.updGroup gid (fun g => (List.range g.stream.owes).foldl
      (fun (g : Group) _ => g.setPbar s.stc 31 (pbArrive (g.pbar 31) 1)) { g with stream := { g.stream with owes := 0 } })

/-- Lines pinned for a stream's instruction are pinned no more (R134). -/
def State.unpinAll (s : State) (lines : List (Nat × Nat)) : State := lines.foldl (fun s e => s.unpin e.1 e.2) s

/-- An instruction of a stream that waited for its A rows is unissued again (R298, R299). -/
def State.uncheck (s : State) (g : Group) : State :=
  match g.stream.checked with
  | none => s
  | some c => (s.unpinAll c.2.2).updStream g.gid (fun t => { t with checked := none })

/-- A stream halts at its instruction: STATE, WHY and CAUSE are set, then it arrives at phase barrier 31 (R294). -/
def State.haltStream (s : State) (gid : Nat) (why : BitVec 4) (cause : BitVec 8) : State :=
  let s := match s.group? gid with
    | none => s
    | some g => s.uncheck g
  ((s.updStream gid (fun x => { x with st := .halted, why := why, cause := cause, owes := x.owes + 1 })).dropPend
    (.stream gid)).payArrivals gid

/-! ## Reads by the core's units -/

/-- The array has consumed the rows that a stream's instruction has fetched in the L2 set of a line: their pins end (R134). -/
def State.consume (s : State) (u : Use) (line : Nat) : State :=
  match u.who with
  | .stream gid => (match (s.group? gid).bind (fun g => g.stream.checked) with
    | none => s
    | some (n, slot, ps) =>
      let here (e : Nat × Nat) : Bool := (s.l2Set u.core line).any (fun x => x.die == e.1 && x.tag.line == e.2)
      (s.unpinAll (ps.filter here)).updStream gid (fun t => { t with checked := some (n, slot, ps.filter (fun e => !here e)) }))
  | _ => s

/-- The passage of a read by a core's unit through L2 (R115): a fill that finds every allowed way pinned waits (R132). Where the
tile fetch finds only lines of its own instruction, the array consumes them first (log 135). -/
def State.unitTouch (s : State) (u : Use) (tile : Bool) (leaf : DWord) (pa n : Nat) : Option State :=
  let line := pa / 512
  let s := if tile && s.l2Full (u.acc leaf) line then s.consume u line else s
  if s.l2Full (u.acc leaf) line then none
  else some (s.l2Touch (u.acc leaf) line (sectorsOf pa n))

/-- A read of n bytes within one 512-byte line by the tile fetch unit or a residency load: as the core's own threads see
memory, or as its home or this device's replica holds it (R115, R157, R280, R305). The unit is not the group: an address of the
aperture is unresolved (R104; log 152). -/
def State.unitBytes (s : State) (u : Use) (own : Bool) (va : DWord) (n : Nat) :
    Except Got (Nat × List Byte) × State :=
  if va.extractLsb' 55 9 != 0 || va.extractLsb' 42 13 == 0x1FFF then (.error (.park 0x05), s)
  else
    match s.translate u.core u.ctx { write := false, fetch := false } va with
    | (.unresolved, s) | (.hole, s) => (.error (.park 0x05), s)
    | (.poison, s) => (.error (.park 0x0F), s)
    | (.busy on, s) => (.error (.wait on), s)
    | (.fault r, s) =>
      (.error (if u.ctx = 63 then .park (if r = 0 then 0x05 else 0x06) else .record (va.toNat / 65536 * 65536) r), s)
    | (.ok pa leaf, s) =>
      match s.homeOf pa with
      | .reg _ | .hole => (.error (.park 0x06), s)
      | .host b => if s.hostAnswers b then (.ok (pa, cgets s.hostMem b n), s) else (.error (.park 0x05), s)
      | h =>
        match s.reach u.ctx pa with
        | .error (.wait on) => (.error (.wait on), s)
        | .error _ => (.error (.park 0x06), s)
        | .ok _ =>
          let bad := match h with
            | .hbm l => s.poisoned l n
            | _ => false
          if bad then (.error (.park 0x0F), s)
          else
            match (s.rdEntry pa leaf).map (fun e => s.rdRead e u.who pa n) with
            | some .removed =>
              (.error (.park 0x05), s.report 9 u.ctx (dieOf u.core) (coreOf u.core) pa 5)
            | some .wait => (.error (.wait none), s)
            | some (.replica bs) => (.ok (pa, bs), s)
            | r =>
              let cached := own && r.isNone
              let s := if cached && s.inL1 u.core pa then s else s.recall pa
              match s.unitTouch u own leaf pa n with
              | none => (.error (.wait none), s)
              | some s => (.ok (pa, if cached then s.coreBytes u.core pa n else s.homeBytes pa n), s)

/-- Reading n bytes from a VA, line by line. -/
def State.unitRead (s : State) (u : Use) (own : Bool) (va : DWord) (n : Nat) : Except Got (List Byte) × State :=
  (chunksOf va.toNat n).foldl (fun (acc : Except Got (List Byte) × State) c =>
    match acc with
    | (.error e, s) => (.error e, s)
    | (.ok bs, s) =>
      match s.unitBytes u own (BitVec.ofNat 64 c.1) c.2 with
      | (.error e, s) => (.error e, s)
      | (.ok (_, b), s) => (.ok (bs ++ b), s)) (.ok [], s)

/-! ## Handles (R300) -/

/-- Fields of a handle. -/
def hndFirst (h : Word) : Nat := (h.extractLsb' 27 5).toNat
def hndCnt (h : Word) : Nat := (h.extractLsb' 22 5).toNat + 1
def hndCtx (h : Word) : Nat := (h.extractLsb' 16 6).toNat

/-- The handle that names a live residency. -/
def Res.handle (r : Res) : Word :=
  BitVec.ofNat 32 (r.first * 2 ^ 27 + (r.cnt - 1) % 32 * 2 ^ 22 + r.ctx % 64 * 2 ^ 16 + r.gen.toNat)

/-- The live residency that a handle names on a core. -/
def CoreSt.res? (c : CoreSt) (h : Word) : Option Res := c.ress.find? (fun r => r.handle == h)

/-- The live residency that holds a slot. -/
def CoreSt.resAt (c : CoreSt) (slot : Nat) : Option Res :=
  c.ress.find? (fun r => decide (r.first ≤ slot) && decide (slot < r.first + r.cnt))

/-- Changing the residency that a handle names. -/
def State.updRes (s : State) (core : Nat) (h : Word) (f : Res → Res) : State :=
  s.updCore core (fun c => { c with ress := updWhere (fun r => r.handle == h) f c.ress })

/-- HELD of a context (R302). -/
def CoreSt.heldBy (c : CoreSt) (ctx : Nat) : Nat :=
  ((c.ress.filter (fun r => r.ctx == ctx)).map Res.cnt).foldl (· + ·) 0

/-- Quota of a context on a core (R302); the firmware context has none (R414; log 154). -/
def State.quota (s : State) (core ctx : Nat) : Nat :=
  if ctx = 63 then 0 else (((s.ctxSt ctx).quotas.find? (fun e => e.1 == core)).map Prod.snd).getD 8

/-- Whether an MMA or MMAG that has issued on a slot of a core has not completed (R156, R301). -/
def State.slotBusy (s : State) (core slot : Nat) : Bool :=
  s.groups.any (fun g => g.core == core && g.stream.flight.any (fun i => match i with
    | .mma _ _ k _ _ _ => k == slot
    | _ => false)) ||
  s.groups.any (fun g => g.core == core && (g.stream.checked.map (fun c => c.2.1)) == some slot)

/-! ## Loads (R305, R307) -/

/-- Ending a load's command, if it has one (R255). -/
def State.endLoadCmd (s : State) (l : Load) (failed : Bool) : State :=
  match l.cmd with
  | none => s
  | some id =>
    match s.cmds.find? (fun c => c.id == id) with
    | none => s
    | some c => (s.updCmd id (fun c => { c with failed := c.failed || failed })).endCmd c

/-- Changing one load. -/
def State.updLoad (s : State) (core id : Nat) (f : Load → Load) : State :=
  s.updCore core (fun c => { c with loads := updWhere (fun l => l.id == id) f c.loads })

/-- What a read that does not go through does to a load: a record for the driver with kind 6, a failure, or waiting. -/
def State.stopLoad (s : State) (core : Nat) (l : Load) (ctx : Nat) (g : Got) : State :=
  match g with
  | .park c => s.updLoad core l.id (fun l => { l with failed := some c })
  | .record va reason =>
    let qs := ((s.sheaf? l.gid l.sh).map Sheaf.qs).getD 0
    let (tag, s) := s.postFault (.load core l.id) va ctx core qs 6 reason
    s.updLoad core l.id (fun l => { l with tag := some tag })
  | .wait on => s.noteWait (.load core l.id) on
  | .done _ => s

/-- The reads of a residency load in its context (R115, R305); its rate is its group's. -/
def State.loadUse (s : State) (core ctx : Nat) (l : Load) : Use :=
  { who := .load core l.id, core := core, ctx := ctx, nud := 31, rate := ((s.group? l.gid).map Group.rate).getD 16,
    by_ := [l.id] }

/-- Registering the source lines of a load, before any is read (R155, R305). -/
def State.regLoad (s : State) (core : Nat) (l : Load) (r : Res) : State :=
  let out := (chunksOf l.va.toNat (r.cnt * 16384)).foldl (fun (acc : Except Got (List Nat) × State) c =>
    match acc with
    | (.error e, s) => (.error e, s)
    | (.ok ks, s) =>
      match s.unitBytes (s.loadUse core r.ctx l) false (BitVec.ofNat 64 c.1) 1 with
      | (.error e, s) => (.error e, s)
      | (.ok (pa, _), s) => (.ok (s.lineKey pa :: ks), s)) (.ok [], s)
  match out with
  | (.error e, s) => s.stopLoad core l r.ctx e
  | (.ok ks, s) =>
    ((s.updRes core l.handle (fun r => { r with lines := ks })).updLoad core l.id (fun l => { l with reg := true })).dropPend
      (.load core l.id)

/-- Starting the oldest load of a residency: LOADING, and its lines registered (R301, R305). -/
def State.startLoad (s : State) (core : Nat) (h : Word) : State :=
  match (s.core core).loads.find? (fun l => l.handle == h), (s.core core).res? h with
  | some l, some r =>
    let s := s.updRes core h (fun r => { r with st := .loading, marked := false, lines := [], src := some l.va })
    s.regLoad core l r
  | _, _ => s

/-- Queuing a load; it starts when no other load of the residency is under way (R305). -/
def State.addLoad (s : State) (core gid sh : Nat) (h : Word) (va : DWord) (cmd : Option Nat) : State :=
  let (id, s) := s.fresh
  let l : Load := { id := id, gid := gid, sh := sh, handle := h, va := va, cmd := cmd, reg := false, tag := none,
                    failed := none }
  let first := !(s.core core).loads.any (fun l => l.handle == h)
  let s := s.updCore core (fun c => { c with loads := c.loads ++ [l] })
  if first then s.startLoad core h else s

/-- A load ends: READY, or STALE after a marking or a failure (R301); its command ends; a failed AUTO reload halts its
stream (R307); a load queued behind it starts. -/
def State.closeLoad (s : State) (core : Nat) (l : Load) (failed : Option (BitVec 8)) : State :=
  let s := s.updRes core l.handle (fun r =>
    { r with st := if r.marked || failed.isSome then .stale else .ready, marked := false })
  let s := s.updCore core (fun c => { c with loads := c.loads.filter (fun x => x.id != l.id) })
  let s := (s.dropPend (.load core l.id)).endLoadCmd l failed.isSome
  let s := match l.cmd, failed with
    | none, some c => s.haltStream l.gid 3 c
    | _, _ => s
  s.startLoad core l.handle

/-- RESIDENCY_LOAD_END (R301, R305): once its lines are registered and every MMA issued on its slots has completed, the
load reads each source line and ends. -/
def execResidencyLoadEnd (core load : Nat) (s : State) : Out :=
  .next (match (s.core core).loads.find? (fun l => l.id == load) with
    | none => s
    | some l =>
      if l.tag.isSome || ((s.core core).loads.find? (fun k => k.handle == l.handle)).map Load.id != some load then s
      else
        match l.failed, (s.core core).res? l.handle with
        | some c, _ => s.closeLoad core l (some c)
        | none, none => s.updCore core (fun c => { c with loads := c.loads.filter (fun x => x.id != load) })
        | none, some r =>
          let s := if l.reg then s else s.regLoad core l r
          if s.cutHolds r.ctx || !((s.core core).loads.any (fun k => k.id == load && k.reg)) then s
          else if (List.range r.cnt).any (fun k => s.slotBusy core (r.first + k)) then s
          else
            match s.unitRead (s.loadUse core r.ctx l) false l.va (r.cnt * 16384) with
            | (.error e, s) => s.stopLoad core l r.ctx e
            | (.ok bs, s) =>
              let lo := 16384 * r.first
              let new : Cells 8 := ((List.range bs.length).zip bs).filterMap (fun e =>
                if e.2 = 0 then none else some (lo + e.1, e.2))
              let put (m : Cells 8) : Cells 8 :=
                m.filter (fun e => decide (e.1 < lo)) ++ new ++ m.filter (fun e => decide (lo + bs.length ≤ e.1))
              (s.updCore core (fun c => { c with rstore := put c.rstore })).closeLoad core l none)

/-! ## Instructions (R303 to R306) -/

/-- Evicting a residency: it is no longer live, its registration ends, and its loads are abandoned, whose commands end
without failure (R301, R306). -/
def State.evict (s : State) (core : Nat) (h : Word) : State :=
  let ls := (s.core core).loads.filter (fun l => l.handle == h)
  let s := s.updCore core (fun c =>
    { c with ress := c.ress.filter (fun r => r.handle != h), loads := c.loads.filter (fun l => l.handle != h) })
  ls.foldl (fun s l => s.endLoadCmd l false) s

/-- A residency instruction: once for the tiller, and not for one that holds only helpers (R303). -/
def resOp (i : Instr) (h : Hdr) (s : State) (act : Frame → Rd → State → State) : Out :=
  issue i s (fun f s =>
    if !f.guardU h s.cycle || f.suppressed none then s.advance f i else act f (f.scalar s) s)

/-- An operation on a handle of the group's own context (R303). -/
def handleOp (i : Instr) (h : Hdr) (x : FA) (s : State) (act : Frame → Rd → Word → State → State) : Out :=
  resOp i h s (fun f r s =>
    let hd := r.w32 x.a
    if hndCtx hd ≠ f.g.ctx then s.trapAll f 8 0x06 0 else act f r hd s)

/-- Whether a context has a group resident on a core (R304). -/
def State.residentCtx (s : State) (core ctx : Nat) : Bool :=
  s.groups.any (fun g => g.core == core && g.ctx == ctx && g.st != .done)

/-- What taking a run of slots evicts: none when the run is not eligible (R304). -/
def State.runCost (s : State) (core ctx start n : Nat) : Option (List Res) :=
  let c := s.core core
  let slots := (List.range n).map (fun k => start + k)
  let free (k : Nat) : Bool :=
    !s.slotBusy core k && (match c.resAt k with
      | none => true
      | some r => r.ctx != ctx && !s.residentCtx core r.ctx)
  if slots.all free then some (c.ress.filter (fun r => slots.any (fun k => decide (r.first ≤ k) && decide (k < r.first + r.cnt))))
  else none

/-- Slots of residencies. -/
def slotsOf (l : List Res) : Nat := (l.map Res.cnt).foldl (· + ·) 0

/-- The run that RALLOC takes, with what it evicts: fewest pinned slots, then fewest slots, then lowest (R304). -/
def State.bestRun (s : State) (core ctx pos n : Nat) : Option (Nat × List Res) :=
  let starts := if pos < 32 then [pos] else List.range (33 - n)
  let cost (l : List Res) : Nat := slotsOf (l.filter Res.pin) * 64 + slotsOf l
  starts.foldl (fun b st =>
    match s.runCost core ctx st n, b with
    | none, b => b
    | some l, none => some (st, l)
    | some l, some (st0, l0) => if cost l < cost l0 then some (st, l) else some (st0, l0)) none

/-- RALLOC (R304). -/
def execRalloc (h : Hdr) (x : FA) (s : State) : Out :=
  resOp (.ralloc h x) h s (fun f r s =>
    let i : Instr := .ralloc h x
    let n := (r.w32 x.a).toNat
    let pos := (r.w32 x.b).toNat
    let core := f.g.core
    if n = 0 ∨ 32 < n ∨ (pos < 32 ∧ 32 < pos + n) then s.trapAll f 8 0x02 0
    else if s.quota core f.g.ctx < (s.core core).heldBy f.g.ctx + n then s.trapAll f 8 0x0A 0
    else
      match s.bestRun core f.g.ctx pos n with
      | none => (s.retire f i (r.putPr x.c false)).advance f i
      | some (st, gone) =>
        let s := gone.foldl (fun s g => s.evict core g.handle) s
        let old := cget (s.core core).gens st
        let gen : BitVec 16 := if old = 0xFFFF then 1 else old + 1
        let new : Res := { first := st, cnt := n, ctx := f.g.ctx, gen := gen, st := .stale, pin := false, auto := false,
                           src := none, marked := false, lines := [] }
        let s := s.updCore core (fun c =>
          { c with gens := cset c.gens st gen, ress := c.ress ++ [new],
                   rstore := cclear c.rstore (16384 * st) (16384 * (st + n)) })
        (s.retire f i (r.put x.d new.handle ++ r.putPr x.c true)).advance f i)

/-- RLOAD (R305): validated as an engine command, it joins the sheaf's commands (R253) and queues its load. -/
def execRload (h : Hdr) (x : FA) (s : State) : Out :=
  handleOp (.rload h x) h x s (fun f r hd s =>
    let va := r.w64 x.b
    let core := f.g.core
    if va.extractLsb' 0 9 != 0 || !engVa va || ((s.core core).res? hd).isNone then s.trapAll f 8 0x0E 0
    else if 64 ≤ s.liveCmds f.g.gid f.sh.idx then s.updT f (fun t => { t with st := .blocked .room })
    else
      let s := s.release core
      let (id, s) := s.fresh
      let c : Cmd :=
        { id := id, owner := some (f.g.gid, f.sh.idx), core := core, ctx := f.g.ctx, eng := 4, a := va, b := 0,
          c := hd.setWidth 64, d := 0, batch := none, moved := false, met := false, tag := none, failed := false,
          ended := false, startedAt := s.stc, queue := none, posted := false, cid := 0, data := none }
      let s := { s with cmds := s.cmds ++ [c] }
      let s := s.updRes core hd (fun r => { r with auto := x.fn.getLsbD 0, src := some va })
      (s.addLoad core f.g.gid f.sh.idx hd va (some id)).advance f (.rload h x))

/-- RPIN and RUNPIN (R306): the PIN bit of a live residency; q tells whether there was one. -/
def pinOp (i : Instr) (h : Hdr) (x : FA) (pin : Bool) (s : State) : Out :=
  handleOp i h x s (fun f r hd s =>
    let live := ((s.core f.g.core).res? hd).isSome
    ((s.updRes f.g.core hd (fun e => { e with pin := pin })).retire f i (r.putPr x.d live)).advance f i)

/-- RPIN (R306). -/
def execRpin (h : Hdr) (x : FA) (s : State) : Out := pinOp (.rpin h x) h x true s

/-- RUNPIN (R306). -/
def execRunpin (h : Hdr) (x : FA) (s : State) : Out := pinOp (.runpin h x) h x false s

/-- RREVK (R306). -/
def execRrevk (h : Hdr) (x : FA) (s : State) : Out :=
  handleOp (.rrevk h x) h x s (fun f r hd s =>
    let live := ((s.core f.g.core).res? hd).isSome
    let s := if live then s.evict f.g.core hd else s
    (s.retire f (.rrevk h x) (r.putPr x.d live)).advance f (.rrevk h x))

/-- STATE as RQRY writes it (R306). -/
def ResSt.code : ResSt → Nat
  | .loading => 1
  | .ready => 2
  | .stale => 3

/-- RQRY (R306). -/
def execRqry (h : Hdr) (x : FA) (s : State) : Out :=
  handleOp (.rqry h x) h x s (fun f r hd s =>
    let live : Nat := match (s.core f.g.core).res? hd with
      | none => 0
      | some e => e.st.code + (if e.pin then 8 else 0) + (if e.auto then 16 else 0)
    let v := BitVec.ofNat 32 ((hndCnt hd - 1) * 2 ^ 13 + hndFirst hd * 2 ^ 8 + live)
    (s.retire f (.rqry h x) (r.put x.d v)).advance f (.rqry h x))

/-- RQRY.Q (R306). -/
def execRqryQ (h : Hdr) (x : FA) (s : State) : Out :=
  resOp (.rqryQ h x) h s (fun f r s =>
    let v := BitVec.ofNat 32 (s.quota f.g.core f.g.ctx % 64 + (s.core f.g.core).heldBy f.g.ctx % 64 * 2 ^ 8)
    (s.retire f (.rqryQ h x) (r.put x.d v)).advance f (.rqryQ h x))

end Sys2Proof.Machine
end

