-- ==== Sys2Proof/Machine/Matrix.lean ====
section
/-! DEFINITION. Matrix streams: their start and status, the stream instructions, accumulator tiles and their guards, and
tile stamp records (R68 to R73, R270 to R299, R307 to R313). -/

namespace Sys2Proof.Machine

/-! ## MSTART, MSTAT and MRES (R270, R271) -/

/-- An active stream: RUNNING or HALTED (R270). -/
def StreamSt.active : StreamSt → Bool
  | .running | .halted => true
  | _ => false

/-- STATE of a stream as MSTAT gives it. -/
def StreamSt.code : StreamSt → Nat
  | .idle => 0
  | .running => 1
  | .halted => 2
  | .ended => 3

/-- Stream contexts in use on a core (R277). -/
def State.streamsOn (s : State) (core : Nat) : Nat :=
  (s.groups.filter (fun g => g.core == core && g.stream.st.active)).length

/-- MSTART on a stream that is not active, once its header has been read (R270, R277, R278): the copy is of the scalars as they
stood at its issue. -/
def State.startStream (s : State) (f : Frame) (i : Instr) (x : FA) (va : DWord) : State :=
  if 4 ≤ s.streamsOn f.g.core then s.updT f (fun t => { t with st := .eventWait .retry })
  else
    let sc := (if f.t.queued.isSome then f.sh else f.sh.deliverAll).scalars
    let r := f.scalar s
    let s := s.updStream f.g.gid (fun _ =>
      { Stream.init with st := .running, sh := f.sh.idx, start := va, pc := va, scalars := sc })
    (s.retire f i (r.put x.d 0)).advance f i

/-- MSTART (R270). -/
def execMstart (h : Hdr) (x : FA) (s : State) : Out :=
  issue (.mstart h x) s (fun f s =>
    let i : Instr := .mstart h x
    let r := f.scalar s
    let a := r.w64 x.a
    if !f.guardU h s.cycle then s.advance f i
    else if f.g.stream.st.active then (s.retire f i (r.put x.d 1)).advance f i
    else if a.extractLsb' 0 3 != 0 then s.trapAll f 8 0x04 0
    else if a.extractLsb' 55 9 != 0 then s.trapAll f 8 0x05 0
    else
      match s.readFor f none 3 (a - 8) with
      | (.done vs, s) =>
        let s := s.dropPends f
        if headerOk (vs.headD 0) then s.startStream f i x a else s.trapAll f 8 0x0E 0
      | (.park c, s) => s.trapAll f 8 c (qPayload c)
      | (.record va reason, s) =>
        let (tag, s) := s.postFault (.read f.g.gid f.sh.idx f.t.idx none) va f.g.ctx f.g.core f.sh.qs 0 reason
        s.updT f (fun t => { t with st := .eventWait (.read tag) })
      | (.wait on, s) => (s.pendLanes f [(none, on)]).updT f (fun t => { t with st := .blocked .room }))

/-- The status word of MSTAT (R271). -/
def Stream.status (x : Stream) : Word :=
  BitVec.ofNat 32 (x.st.code + 16 * x.why.toNat + (if x.why = 3 then 256 * x.cause.toNat else 0))

/-- MSTAT (R271). -/
def execMstat (h : Hdr) (x : FA) (s : State) : Out :=
  issue (.mstat h x) s (fun f s =>
    let r := f.scalar s
    let st := f.g.stream
    let ws := if f.guardU h s.cycle then r.putReg x.d 0 st.status ++ r.putReg x.d 1 ((st.pc - st.start).setWidth 32)
      else []
    (s.retire f (.mstat h x) ws).advance f (.mstat h x))

/-- An MMA or MMAG that is skipped: its wait, the time HALTED with it, ends, and it was the record's first if none was before
it (R310, R312; log 136). -/
def OpenRec.skip (r : OpenRec) (stc : Nat) : OpenRec :=
  match r.trying with
  | none => r
  | some t => { r with trying := none, firstDone := true, totalWait := r.totalWait + (stc - t) }

/-- MRES with and without .SKIP (R270). -/
def mresOp (i : Instr) (h : Hdr) (x : FA) (skip : Bool) (s : State) : Out :=
  issue i s (fun f s =>
    let r := f.scalar s
    if !f.guardU h s.cycle then s.advance f i
    else if f.g.stream.st ≠ .halted then (s.retire f i (r.put x.d 1)).advance f i
    else
      let s := s.updStream f.g.gid (fun t =>
        { t with st := .running, why := 0, cause := 0, pc := if skip then t.pc + 8 else t.pc,
                 recs := if skip then t.recs.map (fun r => r.skip s.stc) else t.recs })
      (s.retire f i (r.put x.d 0)).advance f i)

/-- MRES (R270): the halting instruction is issued again with every check. -/
def execMres (h : Hdr) (x : FA) (s : State) : Out := mresOp (.mres h x) h x false s

/-- MRES.SKIP (R270): the stream goes on after the halting instruction. -/
def execMresSkip (h : Hdr) (x : FA) (s : State) : Out := mresOp (.mresSkip h x) h x true s

/-! ## The frame of a stream instruction -/

/-- The stream moves past its instruction. -/
def State.streamNext (s : State) (gid : Nat) : State := s.updStream gid (fun x => { x with pc := x.pc + 8 })

/-- Whether an instruction of a stream is a decode fault (R91, R283, R298). -/
def streamFault (i : Instr) : Bool := i.reject.isSome || !i.wf || !i.operandsOk 256 false

/-- Every stream instruction: nothing executes without a running stream; a decode fault halts it (R283, R296, R298); else
the instruction has its effect, which leaves the stream as it is while the instruction must wait (R279). -/
def streamOp (i : Instr) (s : State) (effect : Group → State → State) : Out :=
  match s.group? s.cur.gid with
  | none => .fault .noStream
  | some g =>
    if g.stream.st ≠ .running then .fault .noStream
    else if i.reject.isSome || !i.wf then .next (s.haltStream g.gid 3 0x01)
    else if !i.operandsOk 256 false then .next (s.haltStream g.gid 3 0x02)
    else .next (effect g s)

/-- A 32-bit operand of a stream instruction, from the stream's own scalars (R278, R283). -/
def Stream.w32 (x : Stream) (o : Opd) : Word :=
  match o with
  | .s n => cget x.scalars n.val
  | .int n => BitVec.ofNat 32 n.val
  | _ => 0

/-- The even and odd registers of a pair operand. -/
def Stream.even (x : Stream) (o : Opd) : Word := x.w32 o
def Stream.odd (x : Stream) (o : Opd) : Word :=
  match o with
  | .s n => cget x.scalars (n.val + 1)
  | _ => 0

/-- Number of the even scalar of a pair. -/
def pairNum (o : Opd) : Nat :=
  match o with
  | .s n => n.val
  | _ => 0

/-- CNT + 1: rows or entries (R282). -/
def fxRows (x : FX) : Nat := x.cnt.toNat % 128 + 1

/-- Tile name and slot or barrier number of an instruction. -/
def fxTile (x : FX) : Nat := x.acc.toNat % 4
def fxNum (x : FX) : Nat := x.slot.toNat

/-! ## Tiles (R68 to R73, R281) -/

/-- The physical tile that a name is bound to. -/
def Stream.phys (x : Stream) (acc : Nat) : Option Nat := (x.bind.find? (fun e => e.1 == acc)).map Prod.snd

/-- A physical tile of a core. -/
def CoreSt.tile (c : CoreSt) (n : Nat) : Tile := c.tiles.getD n { owner := none, acc := [], bound := 0, flag := false }

/-- Changing a physical tile. -/
def State.updTile (s : State) (core n : Nat) (f : Tile → Tile) : State :=
  s.updCore core (fun c => { c with tiles := c.tiles.modify n f })

/-- n consecutive values of sparse storage from a key, in one pass. -/
def denseFrom {w : Nat} : Cells w → Nat → Nat → List (BitVec w)
  | _, _, 0 => []
  | [], a, n + 1 => 0 :: denseFrom [] (a + 1) n
  | (k, x) :: r, a, n + 1 => if k = a then x :: denseFrom r (a + 1) n else 0 :: denseFrom ((k, x) :: r) (a + 1) n

/-- n consecutive values of sparse storage from key a. -/
def dense {w : Nat} (m : Cells w) (a n : Nat) : List (BitVec w) :=
  denseFrom (m.dropWhile (fun e => decide (e.1 < a))) a n

/-- Replacing n consecutive values from key a, keeping the canonical form. -/
def denseSet {w : Nat} (m : Cells w) (a : Nat) (xs : List (BitVec w)) : Cells w :=
  m.filter (fun e => decide (e.1 < a)) ++
    (((List.range xs.length).zip xs).filterMap (fun e => if e.2 = 0 then none else some (a + e.1, e.2))) ++
    m.filter (fun e => decide (a + xs.length ≤ e.1))

/-- Elements of a tile row. -/
def Tile.row (t : Tile) (r : Nat) : List (BitVec 40) := dense t.acc (128 * r) 128

/-- Replacing a tile row. -/
def Tile.setRow (t : Tile) (r : Nat) (xs : List (BitVec 40)) : Tile := { t with acc := denseSet t.acc (128 * r) xs }

/-- Three residues as an element. -/
def raPack (r0 r1 r2 : Nat) : BitVec 40 := BitVec.ofNat 40 (r0 + 2 ^ 13 * r1 + 2 ^ 26 * r2)

/-- An element with an exact term added to it, residue by residue (R72). -/
def raAdd (w : BitVec 40) (p : Int) : BitVec 40 :=
  let (a, b, c) := raResidues w.toNat
  raPack ((a + p) % 8191).toNat ((b + p) % 8192).toNat ((c + p) % 8193).toNat

/-- The range at which the guard's flag is set, and where its bound saturates (R73). -/
def guardLimit : Nat := 2 ^ 38 - 2 ^ 12
def guardMax : Nat := 2 ^ 39

/-- Setting a tile's guard (R73): the flag is set also when the bound reaches M/2. -/
def Tile.guard (t : Tile) (bound : Nat) (flag : Bool) : Tile :=
  let b := min bound guardMax
  { t with bound := b, flag := flag || decide (guardLimit ≤ b) }

/-! ## Tile stamp records (R309 to R312) -/

/-- The stream's open record of a tile. -/
def Stream.rec? (x : Stream) (tile : Nat) : Option OpenRec := x.recs.find? (fun r => r.tile == tile)

/-- Changing the open record of a tile. -/
def Stream.updRec (x : Stream) (tile : Nat) (f : OpenRec → OpenRec) : Stream :=
  { x with recs := updWhere (fun r => r.tile == tile) f x.recs }

/-- Opening a record: it takes the values held for its tile, and replaces a record still open, which is discarded with what it
had taken (R309, R311; log 50). -/
def Group.openRec (g : Group) (tile : Nat) (tag : Word) (stc : Nat) : Group :=
  let held (cie : Bool) : Option Nat :=
    (g.stamps.find? (fun e => e.1 == tile && e.2.1 == cie)).map (fun e => e.2.2)
  let r : OpenRec :=
    { tile := tile, tag := tag, opened := stc, cis := held false, cie := held true, waitStart := none, waitEnd := none, compStart := none,
      compEnd := none, outStart := none, whyStale := false, whyAbsent := false, autoReload := false, saved := false,
      trying := none, firstDone := false, count := 0, rows := 0, totalWait := 0 }
  { g with stamps := g.stamps.filter (fun e => e.1 != tile),
           stream := { g.stream with recs := r :: g.stream.recs.filter (fun q => q.tile != tile) } }

/-- A time of a record as ticks from T0, saturating at the ends of I32; 0x8000_0000 for an event that did not occur
(R310). -/
def recTime (t0 : Nat) (t : Option Nat) : Nat :=
  match t with
  | none => 0x80000000
  | some t => truncInt 32 (clampInt (-(2 ^ 31)) (2 ^ 31 - 1) ((t : Int) - t0))

/-- The 64 bytes of a record (R310). -/
def OpenRec.bytes (r : OpenRec) (g : Group) (seq outEnd : Nat) (flag : Bool) : List Byte :=
  let t0 := r.cis.getD r.opened
  let t (x : Option Nat) : List Byte := bytesOf 4 (recTime t0 x)
  let bit (b : Bool) (n : Nat) : Nat := if b then 2 ^ n else 0
  bytesOf 8 t0 ++ t (some (r.cie.getD r.opened)) ++ t r.waitStart ++ t r.waitEnd ++ t r.compStart ++ t r.compEnd ++
    t r.outStart ++ t (some outEnd) ++ bytesOf 4 r.tag.toNat ++ bytesOf 4 seq ++ bytesOf 1 r.tile ++
    bytesOf 1 (bit flag 0 + bit r.whyStale 1 + bit r.whyAbsent 2 + bit r.autoReload 3 + bit r.cis.isNone 4 +
      bit r.saved 5) ++
    bytesOf 2 (min r.count 65535) ++ bytesOf 4 r.rows ++ bytesOf 4 (min r.totalWait (2 ^ 32 - 1)) ++
    bytesOf 4 g.linear ++ bytesOf 1 g.ctx ++ bytesOf 1 (coreOf g.core) ++ bytesOf 1 (dieOf g.core) ++ bytesOf 1 0

/-- MTILE (R309): opens a record for a bound tile (R281). -/
def execMtile (x : FX) (s : State) : Out :=
  streamOp (.mtile x) s (fun g s =>
    if (g.stream.phys (fxTile x)).isNone then s.haltStream g.gid 3 0x02
    else
      let tag := g.stream.w32 x.a
      (s.updGroup g.gid (fun g => g.openRec (fxTile x) tag s.stc)).streamNext g.gid)

/-- MTILE.RING (R309). -/
def execMtileRing (x : FX) (s : State) : Out :=
  streamOp (.mtileRing x) s (fun g s =>
    let va := g.stream.odd x.a ++ g.stream.even x.a
    let k := (g.stream.w32 x.b).toNat
    if va.extractLsb' 0 6 != 0 then s.haltStream g.gid 3 0x04
    else if 16 < k then s.haltStream g.gid 3 0x02
    else
      (s.updStream g.gid (fun t =>
        { t with ring := some { va := va, k := k, pos := 0, seq := (t.ring.map StampRing.seq).getD 0 } })).streamNext
        g.gid)

/-! ## MMA and MMAG (R284 to R289, R298) -/

/-- Why an instruction does not issue: it halts, with WHY and CAUSE, waits, or waits for a record of the driver. -/
inductive MStop where
  | halt (why : BitVec 4) (cause : BitVec 8)
  | wait (on : Option Unanswered)
  | record (va reason : Nat)
  deriving DecidableEq, Repr

/-- One A row: where its sums go, its elements and its scale bytes. -/
structure ARow where
  row : Nat
  elems : List Int
  scales : List Byte
  deriving DecidableEq, Repr

/-- The elements of a row or of a byte of the slot (R53, R286, R287). -/
def kElems (ki4 : Bool) (bs : List Byte) : List Int :=
  if ki4 then bs.flatMap (fun b => [sextNat 4 (b.toNat % 16), sextNat 4 (b.toNat / 16)])
  else bs.map (fun b => sextNat 8 b.toNat)

/-- Scale bytes of a row (R286). -/
def scaleCount (ki4 : Bool) : Nat := if ki4 then 8 else 4

/-- B as K rows of 128 columns, from the 16,384 bytes of a slot (R287). -/
def slotRows (ki4 : Bool) (bs : List Byte) : List (List Int) :=
  (List.range 128).flatMap (fun kc =>
    let row := (bs.drop (128 * kc)).take 128
    if ki4 then [row.map (fun b => sextNat 4 (b.toNat % 16)), row.map (fun b => sextNat 4 (b.toNat / 16))]
    else [row.map (fun b => sextNat 8 b.toNat)])

/-- An A row with each element multiplied by the scale of its block (R58, R288). -/
def ARow.scaledElems (r : ARow) : List Int :=
  r.elems.zipIdx.map (fun e => e.1 * 2 ^ ((r.scales.getD (e.2 / 32) 0).toNat % 8))

/-- The 128 exact sums of one row (R288). -/
def rowSums (a : List Int) (b : List (List Int)) : List Int :=
  (a.zip b).foldl (fun acc e => if e.1 = 0 then acc else List.zipWith (fun x y => x + e.1 * y) acc e.2)
    (List.replicate 128 0)

/-- The largest magnitude in a list. -/
def maxAbs (xs : List Int) : Nat := xs.foldl (fun m x => max m x.natAbs) 0

/-- Adding the products of rows to a tile, with its guard (R72, R73, R288). -/
def Tile.mma (t : Tile) (rows : List ARow) (n : Nat) (b : List (List Int)) : Tile :=
  let t1 := rows.foldl (fun t r => t.setRow r.row (List.zipWith raAdd (t.row r.row) (rowSums r.scaledElems b))) t
  let amax := rows.foldl (fun m r => max m (maxAbs r.elems)) 0
  let bmax := b.foldl (fun m r => max m (maxAbs r)) 0
  let smax := rows.foldl (fun m r => r.scales.foldl (fun m (s : Byte) => max m (s.toNat % 8)) m) 0
  let odd := rows.any (fun r => r.scales.any (fun s => s.extractLsb' 3 5 != 0))
  t1.guard (t.bound + n * b.length * amax * bmax * 2 ^ smax) (t.flag || odd)

/-- Bytes of the group's scratch, which the stream reads directly. -/
def Group.scratchBytes (g : Group) (off n : Nat) : List Byte := dense g.scratch off n

/-- Fields of a ring descriptor (R285). -/
def ringBase (d : DWord) : Nat := (d.extractLsb' 0 18).toNat
def ringRows (d : DWord) : Nat := (d.extractLsb' 18 8).toNat + 1
def ringScale (d : DWord) : Nat := (d.extractLsb' 32 18).toNat

/-- The 64-bit value of a pair. -/
def Stream.pair (x : Stream) (o : Opd) : DWord := x.odd o ++ x.even o

/-- CUR of a pair (R285). -/
def Stream.cur (x : Stream) (o : Opd) : Nat := (cget x.cursors (pairNum o)).toNat

/-- The checks of the B pair and the descriptor of an MMA or MMAG (R284 to R286, R289). -/
def Group.mmaCheck (g : Group) (gather : Bool) (x : FX) : Option (BitVec 8) :=
  let st := g.stream
  let tf := x.fn.getLsbD 3
  let bs := x.fn.getLsbD 2
  let m := (fxRows x)
  let stride := (st.odd x.b).toNat
  let badStride := stride % 8 != 0 || decide (stride < if bs then 136 else 128)
  let d := st.pair x.a
  if gather then
    if badStride then some 0x02
    else if (st.even x.b).toNat % 4 ≠ 0 ∨ d.toNat % 8 ≠ 0 then some 0x04
    else if g.sBytes < (st.even x.b).toNat + 4 * m then some 0x06
    else none
  else if (st.even x.b).extractLsb' 7 25 != 0 || decide (128 < (st.even x.b).toNat % 128 + m) then some 0x02
  else if tf then
    if badStride then some 0x02 else if d.toNat % 8 ≠ 0 then some 0x04 else none
  else if st.odd x.b != 0 || d.extractLsb' 50 14 != 0 || d.extractLsb' 26 6 != 0 then some 0x02
  else if ringBase d % 128 ≠ 0 ∨ ringScale d % 8 ≠ 0 then some 0x04
  else
    let rows := (List.range m).map (fun i => (st.cur x.a + i) % ringRows d)
    let k := scaleCount (x.fn.extractLsb' 0 2 == 1)
    if rows.any (fun r => decide (g.sBytes < ringBase d + 128 * r + 128) ||
      (bs && decide (g.sBytes < ringScale d + 8 * r + k))) then some 0x06
    else none

/-- The VA and accumulator row of each row that an MMA.TF or MMAG reads (R286, R289). -/
def Group.fetchRows (g : Group) (gather : Bool) (x : FX) : List (DWord × Nat) :=
  let st := g.stream
  let va := st.pair x.a
  let stride := (st.odd x.b).toNat
  if gather then
    (List.range (fxRows x)).filterMap (fun i =>
      let e := natOf (g.scratchBytes ((st.even x.b).toNat + 4 * i) 4)
      if e / 2 ^ 31 % 2 = 1 then none
      else some (va + BitVec.ofNat 64 (e % 2 ^ 24 * stride), e / 2 ^ 24 % 128))
  else (List.range (fxRows x)).map (fun i => (va + BitVec.ofNat 64 (i * stride), (st.even x.b).toNat % 128 + i))

/-- The reads of a stream in its group's context (R115, R280). -/
def Group.streamUse (g : Group) : Use :=
  { who := .stream g.gid, core := g.core, ctx := g.ctx, nud := 31, rate := g.rate, by_ := [g.gid, g.stream.pc.toNat] }

/-- Pinning the L2 line of a PA for the instruction that a stream fetches rows for, once (R134). -/
def State.pinRow (s : State) (g : Group) (pa : Nat) : State :=
  let line := pa / 512
  let e := (s.l2Die g.core line, line)
  match (s.group? g.gid).bind (fun g => g.stream.checked) with
  | none => s
  | some (n, slot, ps) =>
    if ps.contains e || (s.l2Line? g.core line).isNone then s
    else (s.pin g.core line).updStream g.gid (fun t => { t with checked := some (n, slot, e :: ps) })

/-- Reading n bytes of a row or of its scales by the tile fetch unit, which pins each line from its fill (R134, R286). -/
def State.tileRead (s : State) (g : Group) (va : DWord) (n : Nat) : Except Got (List Byte) × State :=
  (chunksOf va.toNat n).foldl (fun (acc : Except Got (List Byte) × State) c =>
    match acc with
    | (.error e, s) => (.error e, s)
    | (.ok bs, s) =>
      match s.unitBytes g.streamUse true (BitVec.ofNat 64 c.1) c.2 with
      | (.error e, s) => (.error e, s)
      | (.ok (pa, b), s) => (.ok (bs ++ b), s.pinRow g pa)) (.ok [], s)

/-- Reading rows from memory (R286, R297, R298): each row, then its scale bytes. -/
def State.fetchARows (s : State) (g : Group) (ki4 bs : Bool) (vas : List (DWord × Nat)) : Except Got (List ARow) × State :=
  vas.foldl (fun (acc : Except Got (List ARow) × State) e =>
    match acc with
    | (.error x, s) => (.error x, s)
    | (.ok rs, s) =>
      match s.tileRead g e.1 128 with
      | (.error x, s) => (.error x, s)
      | (.ok b, s) =>
        match (if bs then s.tileRead g (e.1 + 128) (scaleCount ki4) else (.ok [], s)) with
        | (.error x, s) => (.error x, s)
        | (.ok sc, s) => (.ok (rs ++ [{ row := e.2, elems := kElems ki4 b, scales := sc }]), s)) (.ok [], s)

/-- The A rows of an MMA or MMAG (R285, R286, R289). -/
def State.aRows (s : State) (g : Group) (gather : Bool) (x : FX) : Except Got (List ARow) × State :=
  let st := g.stream
  let ki4 := x.fn.extractLsb' 0 2 == 1
  let bs := x.fn.getLsbD 2
  if gather || x.fn.getLsbD 3 then s.fetchARows g ki4 bs (g.fetchRows gather x)
  else
    let d := st.pair x.a
    (.ok ((List.range (fxRows x)).map (fun i =>
      let r := (st.cur x.a + i) % ringRows d
      { row := (st.even x.b).toNat % 128 + i, elems := kElems ki4 (g.scratchBytes (ringBase d + 128 * r) 128),
        scales := if bs then g.scratchBytes (ringScale d + 8 * r) (scaleCount ki4) else [] })), s)

/-- Step 4 of R298: the residency that covers the slot; a STALE one with AUTO starts its reload (R307). -/
def State.slotCheck (s : State) (g : Group) (x : FX) : Option MStop × State :=
  match (s.core g.core).resAt (fxNum x) with
  | none => (some (.halt 2 0), s)
  | some r =>
    if r.ctx ≠ g.ctx then (some (.halt 2 0), s)
    else
      match r.st with
      | .ready => (none, s)
      | .loading => (some (.wait none), s)
      | .stale =>
        match r.auto, r.src with
        | true, some va =>
          let s := s.addLoad g.core g.gid g.stream.sh r.handle va none
          (some (.wait none), s.updStream g.gid (fun t => t.updRec (fxTile x) (fun q => { q with autoReload := true })))
        | _, _ => (some (.halt 1 0), s)

/-- What an access of the stream that does not go through means. -/
def gotStop (g : Got) : MStop :=
  match g with
  | .park c => .halt 3 c
  | .record va reason => .record va reason
  | .wait on => .wait on
  | .done _ => .wait none

/-- An MMA or MMAG that does not issue: its record keeps the time of the first attempt and the kind of halt (R310,
R312). -/
def State.stopMma (s : State) (g : Group) (tile : Nat) (m : MStop) : State :=
  match m with
  | .wait on => s.noteWait (.stream g.gid) on
  | .halt why cause =>
    (s.updStream g.gid (fun t => t.updRec tile (fun q =>
      { q with whyStale := q.whyStale || why == 1, whyAbsent := q.whyAbsent || why == 2 }))).haltStream g.gid why cause
  | .record va reason =>
    let qs := ((s.sheaf? g.gid g.stream.sh).map Sheaf.qs).getD 0
    let (tag, s) := s.postFault (.stream g.gid) va g.ctx g.core qs 0 reason
    s.updStream g.gid (fun t => { t with faultTag := some tag })

/-- The tick at a cycle (R8). -/
def stcAt (cycle : Nat) : Nat := cycle * 20 / 17 % 2 ^ 64

/-- When the first row of an MMA that issues now enters the array: CAP_MWAKE cycles later when a band is gated, and after
the rows of every earlier one (R279, R308). -/
def State.entryCycle (s : State) (core : Nat) : Nat :=
  let wake := if (s.core core).gated = 0 then s.cycle else s.cycle + 96
  s.groups.foldl (fun c g =>
    if g.core ≠ core then c
    else g.stream.flight.foldl (fun c i => match i with
      | .mma _ _ _ _ r _ => max c r
      | _ => c) c) wake

/-- Rows of MMAs, by number, first cycle and cycle after the last, that a withheld cycle pushes back: a row that would have entered
in it enters later, and every row after it keeps its turn (R18, R279). -/
def pushRows (cycle : Nat) : Nat → List (Nat × Nat × Nat) → List (Nat × Nat × Nat)
  | _, [] => []
  | floor, (n, e, r) :: l =>
    let e1 := max e floor
    let r1 := r + (e1 - e)
    let hit := decide (e1 ≤ cycle ∧ cycle < r1)
    let e2 := if hit && cycle == e1 then e1 + 1 else e1
    let r2 := if hit then r1 + 1 else r1
    (n, e2, r2) :: pushRows cycle (max floor r2) l

/-- The MMAs in flight on a core in order of issue, with their first cycles and the cycles after their last. -/
def State.rowsOn (s : State) (core : Nat) : List (Nat × Nat × Nat) :=
  s.groups.foldl (fun l g => if g.core ≠ core then l else g.stream.flight.foldl (fun l k => match k with
    | .mma n _ _ e r _ => putBy Prod.fst (n, e, r) l
    | _ => l) l) []

/-- One MMA in flight with its rows where they have been pushed back to, in its record too (R279, R310). -/
def Stream.push (t : Stream) (l : List (Nat × Nat × Nat)) : Stream :=
  t.flight.foldl (fun t k => match k with
    | .mma n acc slot e _ ps => match l.find? (fun q => q.1 == n) with
      | some (_, e1, r1) =>
        let t := t.updRec acc (fun q => if q.compStart = some (stcAt e) then { q with compStart := some (stcAt e1) } else q)
        { t with flight := t.flight.map (fun j => if j = k then .mma n acc slot e1 r1 ps else j) }
      | none => t
    | _ => t) t

/-- A withheld cycle of a core, in which its array takes no row (R18, R279). -/
def State.stallArray (s : State) (core cycle : Nat) : State :=
  let l := pushRows cycle 0 (s.rowsOn core)
  let last := l.foldl (fun m q => max m q.2.2) 0
  let s := s.updCore core (fun c => { c with bandUse := c.bandUse.map (max last) })
  { s with groups := updWhere (fun g => g.core == core) (fun g => { g with stream := g.stream.push l }) s.groups }

/-- The next n cycles as the arrays see them: those that a die withholds push rows back (R18, R279). -/
def State.stallArrays (s : State) (n : Nat) : State :=
  if !s.dies.any DieSt.scant then s
  else (List.range n).foldl (fun s k =>
    let cycle := s.cycle + k
    let busy := s.groups.filter (fun g => !g.stream.flight.isEmpty && s.withholds (dieOf g.core) cycle)
    (busy.map Group.core).eraseDups.foldl (fun s c => s.stallArray c cycle) s) s

/-- Noting in the tile's record the first attempt of an MMA or MMAG (R310, R312). -/
def OpenRec.noteTry (r : OpenRec) (now : Nat) : OpenRec :=
  let first := r.trying.getD now
  { r with trying := some first, waitStart := if r.firstDone then r.waitStart else some (r.waitStart.getD first) }

/-- Noting in the tile's record an MMA or MMAG whose rows, if any, enter the array from a tick on (R310, R312). -/
def OpenRec.noteIssue (r : OpenRec) (now entry rows : Nat) : OpenRec :=
  { r with waitEnd := if r.firstDone then r.waitEnd else some entry,
           compStart := if r.firstDone || rows == 0 then r.compStart else some entry,
           trying := none, firstDone := true, count := if rows = 0 then r.count else r.count + 1,
           rows := (r.rows + rows) % 2 ^ 32, totalWait := r.totalWait + (entry - r.trying.getD now) }

/-- Whether another stream's MMA or MMAG that issued before number n still waits for its A rows: the array takes them in the
order in which they issued (R279). -/
def State.mmaBefore (s : State) (core n : Nat) : Bool :=
  s.groups.any (fun g => g.core == core && !s.cutHolds g.ctx && (match g.stream.checked with
    | some c => decide (c.1 < n)
    | none => false))

/-- The rows of an MMA or MMAG enter the array as one step, when its turn has come; it completes by MMA_COMPLETE (R279, R288,
R289). -/
def State.enterMma (s : State) (g : Group) (gather : Bool) (x : FX) (p n : Nat) (pins : List (Nat × Nat))
    (rows : List ARow) : State :=
  if s.mmaBefore g.core n then s
  else
    let tile := fxTile x
    let b := slotRows (x.fn.extractLsb' 0 2 == 1) (dense (s.core g.core).rstore (16384 * fxNum x) 16384)
    let entry := s.entryCycle g.core
    let ready := entry + rows.length
    let s := s.updTile g.core p (fun t => t.mma rows (fxRows x) b)
    let s := s.updCore g.core (fun c => { c with gated := 0, bandUse := List.replicate 4 ready })
    ((s.updStream g.gid (fun t =>
      let t := t.updRec tile (fun q => q.noteIssue s.stc (stcAt entry) rows.length)
      let cur := if gather || x.fn.getLsbD 3 then t.cursors
        else cset t.cursors (pairNum x.a) (BitVec.ofNat 16 ((t.cur x.a + fxRows x) % ringRows (t.pair x.a)))
      { t with flight := t.flight ++ [.mma n tile (fxNum x) entry ready pins], cursors := cur, checked := none })).dropPend
      (.stream g.gid)).streamNext g.gid

/-- Step 5 of R298, for an instruction that has issued: its A rows, fetched when the array's turn has come to it (R279; log
135). -/
def State.fetchMma (s : State) (g : Group) (gather : Bool) (x : FX) (p : Nat) : State :=
  match (s.group? g.gid).bind (fun g => g.stream.checked) with
  | none => s
  | some (n, _, _) =>
    if s.mmaBefore g.core n then s
    else
      match s.aRows g gather x with
      | (.error e, s) => s.stopMma g (fxTile x) (gotStop e)
      | (.ok rows, s) =>
        match (s.group? g.gid).bind (fun g => g.stream.checked) with
        | none => s
        | some (n, _, pins) => s.enterMma g gather x p n pins rows

/-- The running stream tries to issue an MMA or MMAG (R312). -/
def State.noteTry (s : State) (x : FX) : State :=
  match s.group? s.cur.gid with
  | some g => if g.stream.st = .running then s.updStream g.gid (fun t => t.updRec (fxTile x) (fun q => q.noteTry s.stc)) else s
  | none => s

/-- MMA and MMAG, with the checks of R298 in order; an attempt that step 1 halts is one too (R312). One that has passed step 4 has issued on the weights that its slot held
then, and its residency is not checked again while its A rows are fetched (R156). -/
def mmaOp (i : Instr) (gather : Bool) (x : FX) (s : State) : Out :=
  streamOp i (if streamFault i then s.noteTry x else s) (fun g s =>
    let tile := fxTile x
    let busy := g.stream.flight.any (fun k => match k with
      | .macc a _ => a == tile
      | _ => false)
    if busy || g.stream.faultTag.isSome then s
    else
      match g.stream.phys tile with
      | none => s.haltStream g.gid 3 0x02
      | some p =>
        let s := s.noteTry x
        if g.stream.checked.isSome then s.fetchMma g gather x p
        else
          match g.mmaCheck gather x with
          | some c => s.stopMma g tile (.halt 3 c)
          | none =>
            match s.slotCheck g x with
            | (some m, s) => s.stopMma g tile m
            | (none, s) =>
              let (n, s) := s.fresh
              (s.updStream g.gid (fun t => { t with checked := some (n, fxNum x, []) })).fetchMma g gather x p)

/-- MMA (R288). -/
def execMma (x : FX) (s : State) : Out := mmaOp (.mma x) false x s

/-- MMAG (R289). -/
def execMmag (x : FX) (s : State) : Out := mmaOp (.mmag x) true x s

/-! ## MACC and MOUT (R290, R291) -/

/-- Whether an instruction on a tile is in flight (R279). -/
def Stream.usesTile (x : Stream) (acc : Nat) (mout : Bool) : Bool :=
  x.flight.any (fun k => match k with
    | .mma _ a _ _ _ _ => a == acc
    | .macc a _ => a == acc
    | .mout a _ _ => mout && a == acc
    | .stamp r _ _ => mout && r.tile == acc)

/-- The lowest-numbered free physical tile of a core (R281). -/
def CoreSt.freeTile (c : CoreSt) : Option Nat := (List.range 4).find? (fun n => (c.tile n).owner.isNone)

/-- The tile of a MACC, bound now when its name is not yet bound; none while no tile is free (R281). -/
def State.bindTile (s : State) (g : Group) (acc : Nat) : Option (Nat × State) :=
  match g.stream.phys acc with
  | some p => some (p, s)
  | none =>
    ((s.core g.core).freeTile).map (fun p =>
      (p, (s.updTile g.core p (fun t => { t with owner := some g.gid, acc := [], bound := 0, flag := false })).updStream
        g.gid (fun t => { t with bind := t.bind ++ [(acc, p)] })))

/-- Closing a MACC: its record with AUTO-STAMP, and its place among the instructions in flight (R279, R309). -/
def State.endMacc (s : State) (g : Group) (acc : Nat) (ld : Bool) : State :=
  let s := if g.launch.flags.getLsbD 3 then
      s.updGroup g.gid (fun k => k.openRec acc ((g.stream.pc - g.stream.start).setWidth 32) s.stc)
    else s
  (s.updStream g.gid (fun t => { t with flight := t.flight ++ [.macc acc ld] })).streamNext g.gid

/-- MACC.ZERO (R290). -/
def execMaccZero (x : FX) (s : State) : Out :=
  streamOp (.maccZero x) s (fun g s =>
    if g.stream.usesTile (fxTile x) true then s
    else
      match s.bindTile g (fxTile x) with
      | none => s
      | some (p, s) =>
        (s.updTile g.core p (fun t => { t with acc := [], bound := 0, flag := false })).endMacc g (fxTile x) false)

/-- The checks of the operands of MACC.LD and MOUT (R284, R290, R291). -/
def Group.rowsCheck (g : Group) (x : FX) : Option (BitVec 8) :=
  let a := (g.stream.w32 x.a).toNat
  let even := g.stream.even x.b
  let stride := (g.stream.odd x.b).toNat
  let m := (fxRows x)
  if even.extractLsb' 7 25 != 0 || decide (128 < even.toNat % 128 + m) || stride % 8 != 0 || decide (stride < 1024) then
    some 0x02
  else if a % 8 ≠ 0 then some 0x04
  else if g.sBytes < a + (m - 1) * stride + 1024 then some 0x06
  else none

/-- 64-bit containers of a scratch row. -/
def Group.containers (g : Group) (off : Nat) : List DWord :=
  let bs := g.scratchBytes off 1024
  (List.range 128).map (fun n => BitVec.ofNat 64 (natOf ((bs.drop (8 * n)).take 8)))

/-- A container reduced to a tile element (R70). -/
def raElem (c : DWord) : BitVec 40 :=
  let (a, b, d) := raResidues c.toNat
  raPack a b d

/-- A tile loaded with rows of containers from row rb, zero elsewhere (R73, R290). -/
def Tile.load (t : Tile) (rb : Nat) (rows : List (List DWord)) : Tile :=
  let t0 : Tile := { t with acc := [], bound := 0, flag := false }
  let t1 := rows.zipIdx.foldl (fun t r => t.setRow (rb + r.2) (r.1.map raElem)) t0
  let big := rows.foldl (fun m r => r.foldl (fun m c => max m (raDecode c.toNat).natAbs) m) 0
  t1.guard big (rows.any (fun r => r.any (fun c => c.getLsbD 63)))

/-- MACC.LD (R290): what must hold before it issues comes before its own checks (R279, R281, R297). -/
def execMaccLd (x : FX) (s : State) : Out :=
  streamOp (.maccLd x) s (fun g s =>
    if g.stream.usesTile (fxTile x) true then s
    else
      match s.bindTile g (fxTile x), g.rowsCheck x with
      | none, _ => s
      | some _, some c => s.haltStream g.gid 3 c
      | some (p, s), none =>
        let a := (g.stream.w32 x.a).toNat
        let stride := (g.stream.odd x.b).toNat
        let rows := (List.range (fxRows x)).map (fun i => g.containers (a + i * stride))
        (s.updTile g.core p (fun t => t.load ((g.stream.even x.b).toNat % 128) rows)).endMacc g (fxTile x) true)

/-- What MOUT writes for an element: the container, or the decoded value (R291). -/
def moutWord (i64 flag : Bool) (e : BitVec 40) : DWord :=
  if i64 then BitVec.ofInt 64 (raDecode e.toNat)
  else e.setWidth 64 ||| (if flag then BitVec.ofNat 64 (2 ^ 63) else 0)

/-- MOUT (R291): the rows as they stand now are written to scratch by MOUT_COMPLETE, which without .KEEP then closes the tile's
open record. -/
def execMout (x : FX) (s : State) : Out :=
  streamOp (.mout x) s (fun g s =>
    match g.stream.phys (fxTile x) with
    | none => s.haltStream g.gid 3 0x02
    | some p =>
      if g.stream.usesTile (fxTile x) false then s
      else match g.rowsCheck x with
        | some c => s.haltStream g.gid 3 c
        | none =>
          let t := (s.core g.core).tile p
          let a := (g.stream.w32 x.a).toNat
          let rb := (g.stream.even x.b).toNat % 128
          let stride := (g.stream.odd x.b).toNat
          let rows := (List.range (fxRows x)).map (fun i =>
            (a + i * stride, (t.row (rb + i)).map (moutWord (x.fn.getLsbD 0) t.flag)))
          (s.updStream g.gid (fun k =>
            let k := k.updRec (fxTile x) (fun q => { q with outStart := some (q.outStart.getD s.stc) })
            { k with flight := k.flight ++ [.mout (fxTile x) rows (!x.fn.getLsbD 1)] })).streamNext g.gid)

/-! ## Completions (R279, R291, R309) -/

/-- The first entry in flight that a test selects. -/
def Stream.first? (x : Stream) (p : InFlight → Bool) : Option InFlight := x.flight.find? p

/-- The lowest number of an MMA in flight on a core: it is the first to complete (R279). -/
def State.oldestMma (s : State) (core : Nat) : Option Nat :=
  s.groups.foldl (fun b g =>
    if g.core ≠ core then b
    else g.stream.flight.foldl (fun b i => match i, b with
      | .mma n _ _ _ _ _, some m => some (min n m)
      | .mma n _ _ _ _ _, none => some n
      | _, b => b) b) none

/-- MMA_COMPLETE (R134, R279): the group's oldest MMA or MMAG, when it is the core's oldest and its rows have passed: the lines
that it has pinned are pinned no more. One of whose rows none entered ends no computing (R310). -/
def execMmaComplete (gid : Nat) (s : State) : Out :=
  .next (match s.group? gid with
    | none => s
    | some g =>
      match g.stream.first? (fun k => match k with
        | .mma .. => true
        | _ => false) with
      | some (.mma n acc slot entry ready pins) =>
        if s.oldestMma g.core = some n ∧ ready ≤ s.cycle then
          (s.unpinAll pins).updStream gid (fun t =>
            { (t.updRec acc (fun q => if entry = ready then q else { q with compEnd := some s.stc })) with
              flight := t.flight.erase (.mma n acc slot entry ready pins) })
        else s
      | _ => s)

/-- MACC_COMPLETE (R279, R290). -/
def execMaccComplete (gid : Nat) (s : State) : Out :=
  .next (s.updStream gid (fun t =>
    match t.first? (fun k => match k with
      | .macc .. => true
      | _ => false) with
    | some k => { t with flight := t.flight.erase k }
    | none => t))

/-- A closed record leaves the instructions in flight, written or discarded (R309). -/
def State.dropStamp (s : State) (gid : Nat) (r : OpenRec) (outEnd : Nat) (flag : Bool) (seq : Nat) : State :=
  (s.updStream gid (fun t =>
    { t with flight := t.flight.erase (.stamp r outEnd flag), stampTag := none,
             ring := t.ring.map (fun k => { k with pos := (k.pos + seq) % 2 ^ k.k, seq := k.seq + seq }) })).payArrivals gid

/-- The write of a stream's closed record waits for an answer, or no longer (R419). -/
def State.pendStamp (s : State) (gid : Nat) (on : Option Unanswered) : State :=
  s.setPend (.stream gid) 1 false on.toList

/-- The closed record of a stream that could not be written is discarded (R309). -/
def State.loseStamp (s : State) (gid : Nat) : State :=
  match (s.group? gid).bind (fun g => g.stream.first? (fun k => match k with
    | .stamp .. => true
    | _ => false)) with
  | some (.stamp r outEnd flag) => (s.pendStamp gid none).dropStamp gid r outEnd flag 0
  | _ => s

/-- Writing a closed record to the ring by plain writes in the group's context; a record that cannot be written is
discarded, or waits for the verdict on its fault record (R309). -/
def State.writeStamp (s : State) (g : Group) (r : OpenRec) (outEnd : Nat) (flag : Bool) : State :=
  let drop (s : State) (seq : Nat) : State := (s.pendStamp g.gid none).dropStamp g.gid r outEnd flag seq
  match g.stream.ring with
  | none => drop s 0
  | some k =>
    let va := k.va + BitVec.ofNat 64 (64 * k.pos)
    if va.extractLsb' 55 9 != 0 || va.extractLsb' 42 13 == 0x1FFF then drop s 0
    else
      match s.translate g.core g.ctx { write := true, fetch := false } va with
      | (.ok pa leaf, s) =>
        (match s.engTouch g.streamUse leaf pa 64 with
         | none => s
         | some s1 =>
           match (s1.toHome g.core pa).agentWrite (.stream g.gid) pa (r.bytes g k.seq outEnd flag) with
           | .ok s => drop s 1
           | .error (.wait on) => s.pendStamp g.gid on
           | .error _ => drop s 0)
      | (.fault reason, s) =>
        if g.ctx = 63 then drop s 0
        else
          let qs := ((s.sheaf? g.gid g.stream.sh).map Sheaf.qs).getD 0
          let (tag, s) := s.postFault (.stream g.gid) (va.toNat / 65536 * 65536) g.ctx g.core qs 1 reason
          s.updStream g.gid (fun t => { t with stampTag := some tag })
      | (.busy on, s) => s.pendStamp g.gid on
      | (_, s) => drop s 0

/-- A MOUT completes: its rows are written, and without .KEEP the tile's open record closes, with the tile's flag as it stands,
and is written to the ring; an MMA that still tries to issue has waited until now (R291, R309, R310, R312). -/
def State.finishMout (s : State) (g : Group) (acc : Nat) (rows : List (Nat × List DWord)) (closes : Bool) : State :=
  let s := s.updGroup g.gid (fun g =>
    { g with scratch := rows.foldl (fun m (e : Nat × List DWord) =>
        denseSet m e.1 (e.2.flatMap (fun c => bytesOf 8 c.toNat))) g.scratch })
  let flag := ((g.stream.phys acc).map (fun p => ((s.core g.core).tile p).flag)).getD false
  let closed := if closes then (g.stream.rec? acc).map (fun r => InFlight.stamp (r.skip s.stc) s.stc flag) else none
  (s.updStream g.gid (fun t =>
    { t with flight := t.flight.erase (.mout acc rows closes) ++ closed.toList,
             recs := if closes then t.recs.filter (fun q => q.tile != acc) else t.recs })).payArrivals g.gid

/-- The oldest closed record of a group that can be written now is. -/
def State.nextStamp (s : State) (gid : Nat) : State :=
  match s.group? gid with
  | none => s
  | some g =>
    if g.stream.stampTag.isSome then s
    else match g.stream.first? (fun k => match k with
      | .stamp .. => true
      | _ => false) with
      | some (.stamp r outEnd flag) => s.writeStamp g r outEnd flag
      | _ => s

/-- MOUT_COMPLETE (R279, R291): the group's oldest MOUT completes, and the oldest closed record is written to the ring
(R309). -/
def execMoutComplete (gid : Nat) (s : State) : Out :=
  .next (match s.group? gid with
    | none => s
    | some g =>
      match g.stream.first? (fun k => match k with
        | .mout .. => true
        | _ => false) with
      | some (.mout acc rows closes) => (s.finishMout g acc rows closes).nextStamp gid
      | _ => s.nextStamp gid)

/-! ## Barriers, loops and the end (R292 to R296) -/

/-- MSIG (R279, R292): earlier MACC.LD and MOUT have completed, and earlier records are written. -/
def execMsig (x : FX) (s : State) : Out :=
  streamOp (.msig x) s (fun g s =>
    let busy := g.stream.flight.any (fun k => match k with
      | .mma .. => false
      | .macc _ ld => ld
      | _ => true)
    if busy || s.holdsOf (.stream g.gid) then s
    else (s.updGroup g.gid (fun g => g.setPbar s.stc (fxNum x) (pbArrive (g.pbar (fxNum x)) (fxRows x)))).streamNext g.gid)

/-- MWAIT (R228, R293): holds the stream until the phase differs, or has differed since it began to wait, from its parity bit,
which it then inverts. -/
def execMwait (x : FX) (s : State) : Out :=
  streamOp (.mwait x) s (fun g s =>
    let b := fxNum x
    let par := g.stream.parity.getLsbD b
    if pbPh (g.pbar b) != par || g.stream.mwait == some (b, par, true) then
      (s.updStream g.gid (fun t => { t with parity := setBit t.parity b (!par), mwait := none })).streamNext g.gid
    else s.updStream g.gid (fun t => { t with mwait := some (b, par, false) }))

/-- MLOOP.BEGIN (R295). -/
def execMloopBegin (x : FX) (s : State) : Out :=
  streamOp (.mloopBegin x) s (fun g s =>
    let c := g.stream.w32 x.a
    if c = 0 ∨ 4 ≤ g.stream.loops.length then s.haltStream g.gid 3 0x02
    else
      (s.updStream g.gid (fun t => { t with loops := (c, t.pc + 8) :: t.loops })).streamNext g.gid)

/-- MLOOP.NEXT (R295). -/
def execMloopNext (x : FX) (s : State) : Out :=
  streamOp (.mloopNext x) s (fun g s =>
    match g.stream.loops with
    | [] => s.haltStream g.gid 3 0x02
    | (c, va) :: rest =>
      if c = 1 then (s.updStream g.gid (fun t => { t with loops := rest })).streamNext g.gid
      else s.updStream g.gid (fun t => { t with loops := (c - 1, va) :: rest, pc := va }))

/-- Freeing a stream's context and tiles: a tiller that waits for a context may try again (R270, R281, R296). -/
def State.freeStream (s : State) (gid : Nat) (st : StreamSt) : State :=
  match s.group? gid with
  | none => s
  | some g =>
    let s := s.uncheck g
    let s := s.unpinAll (g.stream.flight.flatMap (fun k => match k with
      | .mma _ _ _ _ _ ps => ps
      | _ => []))
    let s := s.updCore g.core (fun c =>
      { c with tiles := c.tiles.map (fun t =>
          if t.owner = some gid then { owner := none, acc := [], bound := 0, flag := false } else t) })
    s.updStream gid (fun t =>
      { t with st := st, bind := [], recs := [], flight := [], loops := [], faultTag := none, stampTag := none, mwait := none })

/-- MEND (R279, R296). -/
def execMend (x : FX) (s : State) : Out :=
  streamOp (.mend x) s (fun g s =>
    if !g.stream.flight.isEmpty || s.holdsOf (.stream g.gid) then s else (s.streamNext g.gid).freeStream g.gid .ended)

/-- BAND_GATE (R308): a band that has taken no row for the gating delay is gated; a delay of 0 disables gating. -/
def execBandGate (core band : Nat) (s : State) : Out :=
  let c := s.core core
  .next (if c.gate ≠ 0 ∧ band < 4 ∧ c.bandUse.getD band 0 + c.gate.toNat ≤ s.cycle then
      s.updCore core (fun c => { c with gated := setBit c.gated band true })
    else s)

end Sys2Proof.Machine
end

