-- ==== Sys2Proof/Machine/Sequenced.lean ====
section
/-! DEFINITION. The sequencer and the sequenced instructions RAST, TRAV, FILT, BLND, DIST, TOPK and SEQX: issue, taking,
steps and ends (R314 to R341). -/

namespace Sys2Proof.Machine

/-! ## Exact rationals of F32 values -/

/-- A finite value as a rational. -/
def Exact.rat? : Exact → Option ℚ
  | .fin neg m e _ =>
    let v : ℚ := if 0 ≤ e then (m : ℚ) * 2 ^ e.toNat else (m : ℚ) / 2 ^ (-e).toNat
    some (if neg then -v else v)
  | _ => none

/-- An F32 word as an exact value, subnormals kept (R328, R331, R336). -/
def f32Of (w : Word) : Exact := fF32.decode false w.toNat

/-- A rational rounded once under RNE to F32. -/
def ratWord (q : ℚ) : Word :=
  BitVec.ofNat 32 (fF32.round .rne false false false ((Exact.ofInt q.num).div (Exact.ofInt q.den)))

/-! ## State words (R317) and the block -/

/-- Fields of a state word. -/
def swInit (w : Word) : Bool := w.getLsbD 31
def swDone (w : Word) : Bool := w.getLsbD 30
def swCallp (w : Word) : Bool := w.getLsbD 29
def swAdmit (w : Word) : Bool := w.getLsbD 28
def swOvf (w : Word) : Bool := w.getLsbD 27
def swDep (w : Word) : Nat := (w.extractLsb' 24 3).toNat
def swProg (w : Word) : Nat := (w.extractLsb' 0 16).toNat

/-- A state word with INIT clear; the bits an instruction does not use are 0. -/
def swMake (done callp ovf : Bool) (dep prog : Nat) : Word :=
  BitVec.ofNat 32 ((if done then 2 ^ 30 else 0) + (if callp then 2 ^ 29 else 0) + (if ovf then 2 ^ 27 else 0) +
    dep % 8 * 2 ^ 24 + prog % 2 ^ 16)

/-- The state word of a thread that is DONE, or not, with its progress. -/
def swSimple (done : Bool) (prog : Nat) : Word := swMake done false false 0 prog

/-- The fields of a sequenced instruction. -/
def seqFields : Instr → Option FS
  | .rast _ x | .trav _ x | .filt _ x | .blnd _ x | .dist _ x | .topk _ x | .seqx _ _ x => some x
  | _ => none

/-- The operation of a sequenced instruction, by its opcode. -/
inductive SeqKind where
  | rast | trav | filt | blnd | dist | topk | seqx
  deriving DecidableEq, Repr

/-- Kind of a sequenced instruction; any other is treated as SEQX, which none is. -/
def seqKind : Instr → SeqKind
  | .rast .. => .rast
  | .trav .. => .trav
  | .filt .. => .filt
  | .blnd .. => .blnd
  | .dist .. => .dist
  | .topk .. => .topk
  | _ => .seqx

/-- Word k of a block. -/
def blkW (b : List Word) (k : Nat) : Word := b.getD k 0

/-- The 64-bit value at word k of a block. -/
def blkD (b : List Word) (k : Nat) : DWord := blkW b (k + 1) ++ blkW b k

/-- Bytes of a texel of FILT by FORM (R330). -/
def texelBytes (form : Nat) : Nat := if form = 1 then 8 else 4

/-- Bytes of a DIST element by FN (R336). -/
def distElem (fn : BitVec 8) : Nat := if fn.extractLsb' 2 2 == 2 then 1 else 2

/-- The limits of the block values (R316, R327, R330, R332, R335, R337). -/
def blockOk (k : SeqKind) (fn : BitVec 8) (sBytes : Nat) (b : List Word) : Bool :=
  let n (i : Nat) : Nat := (blkW b i).toNat
  match k with
  | .rast | .seqx => true
  | .trav => (blkD b 0).toNat % 64 == 0 && (blkD b 2).toNat % 16 == 0 && n 5 % 4 == 0 && decide (n 6 ≤ 65535)
  | .filt =>
    let form := n 3 % 4
    (blkD b 0).toNat % 256 == 0 && form != 3 && n 3 / 2 ^ 8 % 4 != 3 && n 3 / 4 % 4 == 0 && n 3 / 2 ^ 10 == 0 &&
      n 4 % 256 == 0 && decide ((n 2 % 2 ^ 16 + 1) * texelBytes form ≤ n 4)
  | .blnd => n 0 % 16 == 0 && decide (n 0 + 272 ≤ sBytes)
  | .dist =>
    (blkD b 0).toNat % 4 == 0 && decide (1 ≤ n 2) && decide (n 2 ≤ 4096) && n 3 % 4 == 0 &&
      decide (n 2 * distElem fn ≤ n 3) && decide (n 4 ≤ 65535) && n 5 % 8 == 0 && decide (1 ≤ n 6) && decide (n 6 ≤ 4096)
  | .topk =>
    n 0 % 8 == 0 && decide (1 ≤ n 1) && decide (n 1 ≤ 64) && n 2 % 8 == 0 && decide (1 ≤ n 3) && decide (n 3 ≤ 4096)

/-! ## Issue (R316, R319, R320) -/

/-- A sequenced instruction as it issues: its block is checked, it ends at once without an active thread (BLND apart,
R340), else it joins the core's queue. -/
def seqIssue (i : Instr) (h : Hdr) (x : FS) (s : State) : Out :=
  issue i s (fun f s =>
    let (_, _, inp, _, blk, _) := s.seqShapeOf (dieOf f.g.core) i x
    let r := f.scalar s
    let act := f.active h s.cycle
    let block := (List.range blk).map (fun k => r.reg x.b k)
    if !blockOk (seqKind i) x.fn f.g.sBytes block then
      (s.park f (act.lanes.map (f.trapAt 8 0x02 0))).moveOn f i
    else if act = 0 && seqKind i != .blnd then (s.retire f i (r.put x.d 0)).advance f i
    else
      let input : Cells 32 := act.lanes.foldl (fun c t =>
        (List.range inp).foldl (fun c k => cset c (8 * t + k) (Rd.reg { s := s, f := f, lane := some t } x.a k)) c) []
      let q : SeqRun :=
        { gid := f.g.gid, sh := f.sh.idx, ti := f.t.idx, instr := i, mask := act, queuedAt := s.cycle, block := block,
          input := input, steps := 0, tag := none, fails := [], micro := [] }
      (s.updCore f.g.core (fun c => { c with seqQ := c.seqQ ++ [q] })).updT f (fun t => { t with st := .eventWait .seq }))

/-- RAST (R325). -/
def execRast (h : Hdr) (x : FS) (s : State) : Out := seqIssue (.rast h x) h x s

/-- TRAV (R326 to R329). -/
def execTrav (h : Hdr) (x : FS) (s : State) : Out := seqIssue (.trav h x) h x s

/-- FILT (R330, R331). -/
def execFilt (h : Hdr) (x : FS) (s : State) : Out := seqIssue (.filt h x) h x s

/-- BLND (R332 to R334, R340). -/
def execBlnd (h : Hdr) (x : FS) (s : State) : Out := seqIssue (.blnd h x) h x s

/-- DIST (R335, R336, R341). -/
def execDist (h : Hdr) (x : FS) (s : State) : Out := seqIssue (.dist h x) h x s

/-- TOPK (R337, R338). -/
def execTopk (h : Hdr) (x : FS) (s : State) : Out := seqIssue (.topk h x) h x s

/-- SEQX0 to SEQX7 (R339): the microcode in the slot. -/
def execSeqx (slot : Fin 8) (h : Hdr) (x : FS) (s : State) : Out := seqIssue (.seqx slot h x) h x s

/-! ## A run: its threads and its memory -/

/-- What a step works on: the run, its group and sheaf as they stand, and the window's first register. -/
structure Seq where
  run : SeqRun
  g : Group
  sh : Sheaf
  w : Nat
  fn : BitVec 8
  /-- FMT.FTZ of the tiller (R57). -/
  ftz : Bool
  deriving DecidableEq, Repr

/-- The vector register number of an operand. -/
def vnum (o : Opd) : Nat :=
  match o with
  | .v n => n.val
  | _ => 0

/-- The run on a core with its group and sheaf. -/
def State.seqOf (s : State) (run : SeqRun) : Option Seq :=
  match seqFields run.instr, s.group? run.gid with
  | some x, some g => (g.sheaf? run.sh).map (fun sh =>
    { run := run, g := g, sh := sh, w := vnum x.w, fn := x.fn,
      ftz := ((sh.tiller? run.ti).map (fun t => t.fmt.getLsbD 4)).getD false })
  | _, _ => none

/-- Window word k of a thread. -/
def Seq.win (q : Seq) (t k : Nat) : Word := q.sh.read (.v (q.w + k) t)

/-- Input word k of a thread, as read at issue (R316). -/
def Seq.inp (q : Seq) (t k : Nat) : Word := cget q.run.input (8 * t + k)

/-- Writing window words of a thread. -/
def Seq.put (q : Seq) (t k : Nat) (v : Word) : RegWrite := { key := .v (q.w + k) t, val := v }

/-- A 64-bit input. -/
def Seq.inpD (q : Seq) (t k : Nat) : DWord := q.inp t (k + 1) ++ q.inp t k

/-- An access of a step that does not go through: what it comes to, and the access. -/
structure SeqStop where
  got : Got
  va : DWord
  sz : Nat
  spc : Nat
  deriving DecidableEq, Repr

/-- An action of one thread in a step: its value and the machine after it, or why it does not go through. -/
abbrev LaneAct (α : Type) := State → Except SeqStop α × State

/-- A value without effect. -/
def LaneAct.ret {α : Type} (a : α) : LaneAct α := fun s => (.ok a, s)

/-- One action after another. -/
def LaneAct.andThen {α β : Type} (m : LaneAct α) (f : α → LaneAct β) : LaneAct β := fun s =>
  match m s with
  | (.error e, s) => (.error e, s)
  | (.ok a, s) => f a s

/-- Actions over a list, in order. -/
def LaneAct.each {α β : Type} (f : α → LaneAct β) : List α → LaneAct (List β)
  | [] => LaneAct.ret []
  | a :: r => (f a).andThen (fun b => (LaneAct.each f r).andThen (fun bs => LaneAct.ret (b :: bs)))

/-- The form of a step's access: B32 or B64 or B8, NUD 31 or 0 (R322). -/
def seqForm (kind sz spc nud : Nat) : MemForm :=
  { kind := kind, sz := sz, spc := spc, ord := 0, nud := nud, off := 0, d := .sz, a := .sz, b := .sz, c := .sz, fn := 0,
    ret := false }

/-- The port of a thread. -/
def Seq.port (q : Seq) (t : Nat) : Port :=
  { g := q.g, sh := q.sh, lane := some t, helper := q.sh.helpers.getLsbD t }

/-- One access of a thread (R322, R323): a page whose verdict was fail gives its cause, but a helper's load 0 (R32). -/
def Seq.access (q : Seq) (t kind sz spc nud : Nat) (va v : DWord) : LaneAct Nat := fun s =>
  match (if spc = 0 then q.run.fails.find? (fun e => e.1 == va.toNat / 65536) else none) with
  | some e =>
    if kind = 0 && q.sh.helpers.getLsbD t then (.ok 0, s)
    else (.error { got := .park e.2, va := va, sz := sz, spc := spc }, s)
  | none =>
    match s.memLane (q.port t) (seqForm kind sz spc nud) { a := va, b := v, c := 0 } with
    | (.done vs, s) => (.ok (vs.headD 0), s)
    | (g, s) => (.error { got := g, va := va, sz := sz, spc := spc }, s)

/-- One read of a thread. -/
def Seq.rd (q : Seq) (t sz spc nud : Nat) (va : DWord) : LaneAct Nat := q.access t 0 sz spc nud va 0

/-- One B32 write of a thread to scratch. -/
def Seq.wr (q : Seq) (t off : Nat) (v : Word) : LaneAct Unit :=
  (q.access t 1 2 1 31 (BitVec.ofNat 64 off) (v.setWidth 64)).andThen (fun _ => LaneAct.ret ())

/-- n consecutive B32 reads. -/
def Seq.rdWords (q : Seq) (t spc nud : Nat) (va : DWord) (n : Nat) : LaneAct (List Word) :=
  (LaneAct.each (fun k => q.rd t 2 spc nud (va + BitVec.ofNat 64 (4 * k))) (List.range n)).andThen
    (fun l => LaneAct.ret (l.map (BitVec.ofNat 32)))

/-! ## RAST (R325) -/

/-- One sample against the triangle: coverage and the three edge values. -/
def rastEval (b : List Word) (px py : Nat) : Bool × List DWord :=
  let sx : Int := 256 * ((blkW b 0).toInt + px) + 128
  let sy : Int := 256 * ((blkW b 1).toInt + py) + 128
  let es := (List.range 3).map (fun i =>
    let a := (blkW b (2 + 4 * i)).toInt
    let c := (blkW b (3 + 4 * i)).toInt
    let e := a * sx + c * sy + (blkD b (4 + 4 * i)).toInt
    let tl := decide (0 < a) || (a == 0 && decide (0 < c))
    (e, decide (0 < e) || (e == 0 && tl)))
  (es.all Prod.snd, es.map (fun e => BitVec.ofInt 64 e.1))

/-- A thread's part of a RAST step. -/
def rastLane (q : Seq) (t : Nat) : LaneAct (List RegWrite) :=
  let p := (q.inp t 0).toNat % 64
  let (cov, es) := rastEval q.run.block (p % 8) (p / 8)
  LaneAct.ret ([q.put t 0 (swSimple true 0), q.put t 1 (if cov then 1 else 0)] ++
    es.zipIdx.flatMap (fun (e : DWord × Nat) => [q.put t (2 + 2 * e.2) (e.1.setWidth 32), q.put t (3 + 2 * e.2) ((e.1 >>> 32).setWidth 32)]))

/-! ## TRAV (R326 to R329) -/

/-- The progress of a ray: its stack, top first, of window entries; PROG; OVF; the registers vW + 1 to vW + 8. -/
structure Trav where
  stack : List Word
  prog : Nat
  ovf : Bool
  done : Bool
  callp : Bool
  regs : List Word
  deriving DecidableEq, Repr

/-- A ray's progress from its window. -/
def Seq.trav (q : Seq) (t : Nat) : Trav :=
  let w := q.win t 0
  { stack := ((List.range (swDep w)).map (fun k => q.win t (9 + k))).reverse, prog := swProg w, ovf := swOvf w,
    done := swDone w, callp := swCallp w, regs := (List.range 8).map (fun k => q.win t (1 + k)) }

/-- Writing a ray's progress back. -/
def Seq.putTrav (q : Seq) (t : Nat) (v : Trav) : List RegWrite :=
  q.put t 0 (swMake v.done v.callp v.ovf v.stack.length v.prog) ::
    (v.regs.zipIdx.map (fun e => q.put t (1 + e.2) e.1) ++ v.stack.reverse.zipIdx.map (fun e => q.put t (9 + e.2) e.1))

/-- The address of a spill entry (R327). -/
def Seq.spill (q : Seq) (t j : Nat) : Nat :=
  (blkW q.run.block 5).toNat + 4 * ((blkW q.run.block 6).toNat * t + j)

/-- Pushing a reference (R329): a full window stack spills its bottom entry, or drops it when the spill area is full. -/
def Seq.push (q : Seq) (t : Nat) (e : Word) (v : Trav) : LaneAct Trav :=
  if v.stack.length < 7 then LaneAct.ret { v with stack := e :: v.stack }
  else
    let low := v.stack.getLastD 0
    let rest := e :: v.stack.dropLast
    if v.prog < (blkW q.run.block 6).toNat then
      (q.wr t (q.spill t v.prog) low).andThen (fun _ => LaneAct.ret { v with stack := rest, prog := v.prog + 1 })
    else LaneAct.ret { v with stack := rest, ovf := true }

/-- Popping a reference: from the window, else from the spill area; none when both are empty. -/
def Seq.pop (q : Seq) (t : Nat) (v : Trav) : LaneAct (Option (Word × Trav)) :=
  match v.stack with
  | e :: r => LaneAct.ret (some (e, { v with stack := r }))
  | [] =>
    if v.prog = 0 then LaneAct.ret none
    else (q.rd t 2 1 31 (BitVec.ofNat 64 (q.spill t (v.prog - 1)))).andThen (fun w =>
      LaneAct.ret (some (BitVec.ofNat 32 w, { v with prog := v.prog - 1 })))

/-- A finite ray: origin and direction, and tmin and tmax as read. -/
structure Ray where
  o : List ℚ
  d : List ℚ
  tmin : Exact
  tmax : Exact

/-- The ray of a thread, when origin and direction are finite. -/
def Seq.ray (q : Seq) (t : Nat) : Option Ray :=
  let rs := (List.range 6).map (fun k => (f32Of (q.inp t k)).rat?)
  if rs.any Option.isNone then none
  else
    let v := rs.map (fun x => x.getD 0)
    some { o := v.take 3, d := v.drop 3, tmin := f32Of (q.inp t 6), tmax := f32Of (q.inp t 7) }

/-- Whether a rational is at least an F32 bound, or at most it. -/
def atLeast (x : ℚ) (b : Exact) : Bool :=
  match b with
  | .inf neg => neg
  | b => match b.rat? with
    | some y => decide (y ≤ x)
    | none => false
def atMost (x : ℚ) (b : Exact) : Bool :=
  match b with
  | .inf neg => !neg
  | b => match b.rat? with
    | some y => decide (x ≤ y)
    | none => false

/-- A ray that finishes at once: a NaN component, a zero direction, or tmin above tmax (R327). -/
def Seq.deadRay (q : Seq) (t : Nat) : Bool :=
  let xs := (List.range 8).map (fun k => f32Of (q.inp t k))
  xs.any Exact.isNan || ((List.range 3).all (fun k => (f32Of (q.inp t (3 + k))).rat? == some 0)) ||
    (xs.getD 6 .nan).cmp (xs.getD 7 .nan) == .gt

/-- The current hit's exact t: as found (log 51), else the value of THIT; none when there is no hit (R328). A candidate that
waits does not count. -/
def Seq.hitT (q : Seq) (t : Nat) (v : Trav) : Option ℚ :=
  let thit := v.regs.getD 0 0
  let prim := v.regs.getD 1 0
  if prim = 0xFFFFFFFF then none
  else match q.sh.hits.find? (fun h => h.thr == t && h.win == q.w && !h.cand && h.word == thit && h.prim == prim) with
    | some h => some ((h.num : ℚ) / h.den)
    | none => (f32Of thit).rat?

/-- The least t at which the ray is in a box, within [tmin, T*] (R328). -/
def boxNear (r : Ray) (hit : Option ℚ) (box : List (ℚ × ℚ)) : Option ℚ :=
  let axes := (r.o.zip r.d).zip box
  if axes.any (fun a => a.2.2 < a.2.1 || (a.1.2 == 0 && (decide (a.1.1 < a.2.1) || decide (a.2.2 < a.1.1)))) then none
  else
    let spans := axes.filterMap (fun a =>
      if a.1.2 = 0 then none
      else
        let x := (a.2.1 - a.1.1) / a.1.2
        let y := (a.2.2 - a.1.1) / a.1.2
        some (min x y, max x y))
    let lows := spans.map Prod.fst ++ (match r.tmin.rat? with
      | some m => [m]
      | none => [])
    match lows with
    | [] => none
    | l :: ls =>
      let t0 := ls.foldl max l
      let okHit := match hit with
        | some h => decide (t0 ≤ h)
        | none => atMost t0 r.tmax
      if spans.all (fun e => decide (t0 ≤ e.2)) && atLeast t0 r.tmin && okHit then some t0 else none

/-- The box of child c of a node, given as its 16 words (R326); none when empty. -/
def childBox (n : List Word) (c : Nat) : Option (List (ℚ × ℚ)) :=
  let byte (k : Nat) : Nat := (blkW n (k / 4)).toNat / 2 ^ (8 * (k % 4)) % 256
  let os := (List.range 3).map (fun a => (f32Of (blkW n a)).rat?)
  if os.any Option.isNone || (List.range 3).any (fun a => decide (byte (16 + 6 * c + 3 + a) < byte (16 + 6 * c + a)))
  then none
  else
    some ((List.range 3).map (fun a =>
      let e := sextNat 8 (byte (12 + a))
      let u : ℚ := if 0 ≤ e then 2 ^ e.toNat else 1 / 2 ^ (-e).toNat
      let o := (os.getD a none).getD 0
      (o + byte (16 + 6 * c + a) * u, o + byte (16 + 6 * c + 3 + a) * u)))

/-- Putting a child in order of decreasing distance, ties by decreasing number (R328). -/
def pushOrder (l : List (ℚ × Nat)) (x : ℚ × Nat) : List (ℚ × Nat) :=
  match l with
  | [] => [x]
  | y :: r => if y.1 < x.1 || (y.1 == x.1 && decide (y.2 < x.2)) then x :: y :: r else y :: pushOrder r x

/-- Vectors of three rationals. -/
def vSub (a b : List ℚ) : List ℚ := List.zipWith (fun x y => x - y) a b
def vDot (a b : List ℚ) : ℚ := (List.zipWith (fun x y => x * y) a b).foldl (fun x y => x + y) 0
def vCross (a b : List ℚ) : List ℚ :=
  let g (l : List ℚ) (i : Nat) : ℚ := l.getD i 0
  [g a 1 * g b 2 - g a 2 * g b 1, g a 2 * g b 0 - g a 0 * g b 2, g a 0 * g b 1 - g a 1 * g b 0]

/-- Where the line of a ray meets a closed triangle: t, u and v, exactly; never for collinear vertices, nor for a line that
lies in its plane or parallel to it (R328; log 52). -/
def triMeet (r : Ray) (v0 v1 v2 : List ℚ) : Option (ℚ × ℚ × ℚ) :=
  let e1 := vSub v1 v0
  let e2 := vSub v2 v0
  let p := vCross r.d e2
  let det := vDot e1 p
  if det = 0 then none
  else
    let tv := vSub r.o v0
    let qv := vCross tv e1
    let u := vDot tv p / det
    let v := vDot r.d qv / det
    if u < 0 || v < 0 || 1 < u + v then none else some (vDot e2 qv / det, u, v)

/-- Testing one triangle, given as its 12 words: the exact t, u and v of a hit of least key so far (R326, R328). -/
def Seq.triTest (q : Seq) (t : Nat) (r : Ray) (v : Trav) (tri : List Word) : Option (ℚ × ℚ × ℚ) :=
  let xs := (List.range 9).map (fun k => (f32Of (blkW tri k)).rat?)
  if xs.any Option.isNone then none
  else
    let ys := xs.map (fun x => x.getD 0)
    match triMeet r (ys.take 3) ((ys.drop 3).take 3) (ys.drop 6) with
    | none => none
    | some (tt, u, w) =>
      let better := match q.hitT t v with
        | none => true
        | some h => decide (tt < h) || (tt == h && decide ((blkW tri 9).toNat < (v.regs.getD 1 0).toNat))
      if atLeast tt r.tmin && atMost tt r.tmax && better then some (tt, u, w) else none

/-- The four words a hit writes: t, id, u, v. -/
def hitWords (h : ℚ × ℚ × ℚ) (prim : Word) : List Word := [ratWord h.1, prim, ratWord h.2.1, ratWord h.2.2]

/-- Remembering the exact t of a hit, or of a candidate that awaits the program (log 51). -/
def Seq.noteHit (q : Seq) (t : Nat) (cand : Bool) (h : ℚ) (prim : Word) : LaneAct Unit := fun s =>
  let x : Hit := { thr := t, win := q.w, cand := cand, word := ratWord h, prim := prim, num := h.num, den := h.den }
  let same (y : Hit) : Bool := y.thr == t && y.win == q.w && y.cand == cand
  (.ok (), s.updSheaf q.g.gid q.sh.idx (fun sh => { sh with hits := x :: sh.hits.filter (fun y => !same y) }))

/-- Visiting a node: the children whose boxes the ray meets are pushed, the nearest last. -/
def Seq.visit (q : Seq) (t : Nat) (r : Option Ray) (v : Trav) (n : List Word) : LaneAct Trav :=
  let mask := (blkW n 3).toNat / 2 ^ 24 % 16
  let near := (List.range 4).foldl (fun l c =>
    if mask / 2 ^ c % 2 = 0 then l
    else
      match r, childBox n c with
      | some r, some b => (match boxNear r (q.hitT t v) b with
        | some x => pushOrder l (x, c)
        | none => l)
      | _, _ => l) []
  near.foldl (fun (m : LaneAct Trav) e => m.andThen (q.push t (blkW n (10 + e.2)))) (LaneAct.ret v)

/-- Testing the first triangle of a leaf. -/
def Seq.leaf (q : Seq) (t : Nat) (r : Option Ray) (v : Trav) (tri : List Word) : LaneAct Trav :=
  match r.bind (fun r => q.triTest t r v tri) with
  | none => LaneAct.ret v
  | some h =>
    let prim := blkW tri 9
    let ws := hitWords h prim
    let now := (blkW tri 10).getLsbD 0 || !q.fn.getLsbD 0
    (q.noteHit t (!now) h.1 prim).andThen (fun _ =>
      if now then LaneAct.ret { v with regs := ws ++ v.regs.drop 4 }
      else LaneAct.ret { v with regs := v.regs.take 4 ++ ws, callp := true })

/-- A thread's part of a TRAV step (R328). -/
def travLane (q : Seq) (t : Nat) : LaneAct (List RegWrite) :=
  let nb := blkD q.run.block 0
  let trb := blkD q.run.block 2
  let r := q.ray t
  (q.pop t (q.trav t)).andThen (fun p =>
    match p with
    | none => LaneAct.ret (q.putTrav t { q.trav t with done := true })
    | some (e, v) =>
      if !e.getLsbD 31 then
        (q.rdWords t 0 31 (nb + BitVec.ofNat 64 (64 * (e.toNat % 2 ^ 31))) 16).andThen (fun n =>
          (q.visit t r v n).andThen (fun v => LaneAct.ret (q.putTrav t v)))
      else
        let cnt := (e.extractLsb' 27 4).toNat
        let first := (e.extractLsb' 0 27).toNat
        let rest : Word := BitVec.ofNat 32 (2 ^ 31 + (cnt - 1) * 2 ^ 27 + (first + 1) % 2 ^ 27)
        (if cnt = 0 then LaneAct.ret v else q.push t rest v).andThen (fun v =>
          (q.rdWords t 0 31 (trb + BitVec.ofNat 64 (48 * first)) 12).andThen (fun tri =>
            (q.leaf t r v tri).andThen (fun v => LaneAct.ret (q.putTrav t v)))))

/-! ## FILT (R330, R331) -/

/-- Width, height, base and pitch of a level (R330). -/
def filtLevel (b : List Word) (l : Nat) : Nat × Nat × Nat × Nat :=
  let n (i : Nat) : Nat := (blkW b i).toNat
  let by_ := texelBytes (n 3 % 4)
  let w (k : Nat) : Nat := max 1 ((n 2 % 2 ^ 16 + 1) / 2 ^ k)
  let h (k : Nat) : Nat := max 1 ((n 2 / 2 ^ 16 + 1) / 2 ^ k)
  let p (k : Nat) : Nat := if k = 0 then n 4 else 256 * ((w k * by_ + 255) / 256)
  let base := (List.range l).foldl (fun a k => a + p k * h k) (blkD b 0).toNat
  (w l, h l, base, p l)

/-- An index wrapped into 0 to n − 1 (R331). -/
def wrapIdx (mode n : Nat) (i : Int) : Nat :=
  match mode with
  | 0 => (clampInt 0 ((n : Int) - 1) i).toNat
  | 1 => (i % (n : Int)).toNat
  | _ =>
    let k := (i % (2 * n : Int)).toNat
    if k < n then k else 2 * n - 1 - k

/-- The fraction of a coordinate as a multiple of 2^−8 rounded by RNE, carried into the index when it reaches 1 (R331). -/
def splitFrac (x : ℚ) : Int × Nat :=
  let i := x.floor
  let y := (x - i) * 256
  let k := y.floor
  let r := y - k
  let k := if 1 / 2 < r || (r == 1 / 2 && k % 2 == 1) then k + 1 else k
  if k = 256 then (i + 1, 0) else (i, k.toNat)

/-- The four channels of a texel (R330). -/
def texelOf (form v : Nat) : List Exact :=
  match form with
  | 0 => (List.range 4).map (fun c => (Exact.ofInt (v / 2 ^ (8 * c) % 256 : Nat)).div (Exact.ofInt 255))
  | 1 => (List.range 4).map (fun c => fF16.decode false (v / 2 ^ (16 * c) % 2 ^ 16))
  | _ => [fF32.decode false v, Exact.zero false, Exact.zero false, Exact.ofInt 1]

/-- A channel of a texel as a rational where it is finite: RGBA8 reads as c / 255 exactly. -/
def texelRat (form v c : Nat) : Option ℚ :=
  if form = 0 then some ((v / 2 ^ (8 * c) % 256 : Nat) / 255) else ((texelOf form v).getD c .nan).rat?

/-- The texels of one level with their weights (R331); those of weight 0 take no part. -/
def bilTaps (b : List Word) (l : Nat) (u v wt : ℚ) : List (ℚ × Nat) :=
  let n (i : Nat) : Nat := (blkW b i).toNat
  let (w, h, base, pitch) := filtLevel b l
  let mode := n 3 / 2 ^ 8 % 4
  let (i, f) := splitFrac (u * w - 1 / 2)
  let (j, g) := splitFrac (v * h - 1 / 2)
  let tap (di dj : Int) (a : ℚ) : ℚ × Nat :=
    (a * wt, base + pitch * wrapIdx mode h (j + dj) + texelBytes (n 3 % 4) * wrapIdx mode w (i + di))
  let f' : ℚ := f / 256
  let g' : ℚ := g / 256
  [tap 0 0 ((1 - f') * (1 - g')), tap 1 0 (f' * (1 - g')), tap 0 1 ((1 - f') * g'), tap 1 1 (f' * g')].filter
    (fun e => e.1 != 0)

/-- A coordinate as read: a NaN or an infinity is 0 (R331). -/
def filtCoord (w : Word) : ℚ := ((f32Of w).rat?).getD 0

/-- The texels that a FILT sample sums, with their weights (R331). -/
def Seq.filtTaps (q : Seq) (t : Nat) : List (ℚ × Nat) :=
  let b := q.run.block
  let u := filtCoord (q.inp t 0)
  let v := filtCoord (q.inp t 1)
  if q.fn.extractLsb' 0 2 == 0 then bilTaps b 0 u v 1
  else
    let lv := (blkW b 3).toNat / 16 % 16
    let lam := max 0 (min (filtCoord (q.inp t 2)) lv)
    let (l0, k) := splitFrac lam
    let l := l0.toNat
    let phi : ℚ := if l = lv then 0 else k / 256
    (if phi = 1 then [] else bilTaps b l u v (1 - phi)) ++ (if phi = 0 then [] else bilTaps b (l + 1) u v phi)

/-- Whether a value is −0. -/
def Exact.negZero : Exact → Bool
  | .fin true 0 _ more => !more
  | _ => false

/-- One channel from the texels read: exact, rounded once; a NaN, and infinities of both signs, give the canonical NaN, and a
sum of −0 alone is −0 (R56, R331). -/
def filtChannel (form c : Nat) (taps : List (ℚ × Nat)) : Word :=
  let es := taps.map (fun e => (texelOf form e.2).getD c .nan)
  if es.any Exact.isNan || (es.contains (.inf false) && es.contains (.inf true)) then BitVec.ofNat 32 fF32.nanBits
  else if es.contains (.inf false) then BitVec.ofNat 32 fF32.infBits
  else if es.contains (.inf true) then BitVec.ofNat 32 (2 ^ 31 + fF32.infBits)
  else if !es.isEmpty && es.all Exact.negZero then BitVec.ofNat 32 (2 ^ 31)
  else ratWord (taps.foldl (fun a e => a + e.1 * (texelRat form e.2 c).getD 0) 0)

/-- A thread's part of a FILT step. -/
def filtLane (q : Seq) (t : Nat) : LaneAct (List RegWrite) :=
  let form := (blkW q.run.block 3).toNat % 4
  let sz := if form = 1 then 3 else 2
  (LaneAct.each (fun (e : ℚ × Nat) => (q.rd t sz 0 31 (BitVec.ofNat 64 e.2)).andThen (fun v => LaneAct.ret (e.1, v)))
    (q.filtTaps t)).andThen (fun taps =>
      LaneAct.ret (q.put t 0 (swSimple true 0) :: (List.range 4).map (fun c => q.put t (1 + c) (filtChannel form c taps))))

/-! ## BLND (R332 to R334) -/

/-- One channel over another (R334). -/
def blendCh (sc dc sa : Nat) : Nat := (sc * sa + dc * (255 - sa) + 127) / 255

/-- A pixel under a source colour (R334). -/
def blendPix (src dst : Nat) : Nat :=
  let b (v k : Nat) : Nat := v / 2 ^ (8 * k) % 256
  let sa := b src 3
  blendCh (b src 0) (b dst 0) sa + 2 ^ 8 * blendCh (b src 1) (b dst 1) sa + 2 ^ 16 * blendCh (b src 2) (b dst 2) sa +
    2 ^ 24 * blendCh 255 (b dst 3) sa

/-- A thread's part of a BLND step; a helper blends nothing (R324). -/
def blndLane (q : Seq) (t : Nat) : LaneAct (List RegWrite) :=
  let done : LaneAct (List RegWrite) := LaneAct.ret [q.put t 0 (swSimple true 0)]
  if q.sh.helpers.getLsbD t then done
  else
    let off := (blkW q.run.block 0).toNat + 16 + 4 * ((q.inp t 1).toNat % 64)
    (q.rd t 2 1 31 (BitVec.ofNat 64 off)).andThen (fun d =>
      (q.wr t off (BitVec.ofNat 32 (blendPix (q.inp t 0).toNat d))).andThen (fun _ => done))

/-! ## DIST (R335, R336, R341) -/

/-- The scale of the elements of DIST: each finite element is a multiple of 2^−n. -/
def distScale (ty : Nat) : Nat := if ty = 0 then 24 else if ty = 1 then 133 else 0

/-- An element as a multiple of 2^−n; none for a NaN or an infinity (R336). -/
def distVal (ty v : Nat) : Option Int :=
  if ty = 2 then some (sextNat 8 v)
  else
    match (if ty = 0 then fF16 else fBF16).decode false v with
    | .fin neg m e _ =>
      let x : Int := m * 2 ^ (e + distScale ty).toNat
      some (if neg then -x else x)
    | _ => none

/-- DIM elements from words (R336). -/
def distElems (ty dim : Nat) (ws : List Word) : List (Option Int) :=
  (List.range dim).map (fun k =>
    if ty = 2 then distVal ty ((blkW ws (k / 4)).toNat / 2 ^ (8 * (k % 4)) % 256)
    else distVal ty ((blkW ws (k / 2)).toNat / 2 ^ (16 * (k % 2)) % 2 ^ 16))

/-- A magnitude a / √b as an exact value cut off far below F32's last place. -/
def ratioSqrt (a : Int) (b : Nat) : Exact :=
  let k := bitLen b + 64
  let n := a.natAbs ^ 2 * 4 ^ k
  let m := isqrt (n / b)
  .fin (decide (a < 0)) m (-(k : Int)) (n % b != 0 || m * m != n / b)

/-- The score of a query and a vector (R336). -/
def distScore (metric ty : Nat) (qs xs : List (Option Int)) : Nat :=
  let all := qs ++ xs
  if all.any Option.isNone then fF32.nanBits
  else
    let a := qs.map (fun x => x.getD 0)
    let b := xs.map (fun x => x.getD 0)
    let sum (l : List Int) : Int := l.foldl (· + ·) 0
    let dot := sum (List.zipWith (· * ·) a b)
    let sc : Int := -(2 * distScale ty : Nat)
    let rnd (x : Exact) : Nat := fF32.round .rne false false false x
    match metric with
    | 0 => rnd ((Exact.ofInt (sum (List.zipWith (fun x y => (x - y) * (x - y)) a b))).scale sc)
    | 1 => rnd ((Exact.ofInt dot).scale sc)
    | _ =>
      let qq := sum (a.map (fun x => x * x))
      let xx := sum (b.map (fun x => x * x))
      if qq = 0 ∨ xx = 0 then 0 else rnd (ratioSqrt dot (qq * xx).toNat)

/-- A thread's part of a DIST step. -/
def distLane (q : Seq) (t : Nat) : LaneAct (List RegWrite) :=
  let b := q.run.block
  let n (i : Nat) : Nat := (blkW b i).toNat
  let prog := swProg (q.win t 0)
  let onum := (q.win t 1).toNat
  if q.sh.helpers.getLsbD t || prog == n 4 then LaneAct.ret [q.put t 0 (swSimple true prog)]
  else if (q.inpD t 0).toNat % 4 ≠ 0 ∨ (q.inpD t 2).toNat % 4 ≠ 0 then fun s => (.error { got := .park 0x04, va := 0, sz := 2, spc := 1 }, s)
  else
    let ty := (q.fn.extractLsb' 2 2).toNat
    let words := (n 2 * distElem q.fn + 3) / 4
    (q.rd t 2 0 31 (q.inpD t 2 + BitVec.ofNat 64 (4 * prog))).andThen (fun idx =>
      (q.rdWords t 0 0 (blkD b 0 + BitVec.ofNat 64 (idx * n 3)) words).andThen (fun xs =>
        (q.rdWords t 0 31 (q.inpD t 0) words).andThen (fun qs =>
          let score := distScore (q.fn.extractLsb' 0 2).toNat ty (distElems ty (n 2) qs) (distElems ty (n 2) xs)
          let at_ := n 5 + 8 * (n 6 * t + onum)
          (q.wr t at_ (BitVec.ofNat 32 score)).andThen (fun _ =>
            (q.wr t (at_ + 4) (BitVec.ofNat 32 idx)).andThen (fun _ =>
              LaneAct.ret [q.put t 0 (swSimple false (prog + 1)), q.put t 1 (BitVec.ofNat 32 (onum + 1))])))))

/-! ## TOPK (R337, R338) -/

/-- Whether entry a comes before entry b by the key (score, id). -/
def topkBefore (mx : Bool) (a b : Word × Word) : Bool :=
  match (f32Of a.1).cmp (f32Of b.1) with
  | .lt => !mx
  | .gt => mx
  | .eq => decide (a.2.toNat < b.2.toNat)

/-- Inserting an entry in order, after entries with the same key. -/
def topkInsert (mx : Bool) (x : Word × Word) : List (Word × Word) → List (Word × Word)
  | [] => [x]
  | y :: r => if topkBefore mx x y then x :: y :: r else y :: topkInsert mx x r

/-- The list after a candidate is merged (R338). -/
def topkMerge (mx : Bool) (kmax : Nat) (l : List (Word × Word)) (x : Word × Word) : List (Word × Word) :=
  ((l ++ [x]).foldl (fun a e => topkInsert mx e a) []).take (min kmax (l.length + 1))

/-- Pairs of consecutive words. -/
def pairsOf : List Word → List (Word × Word)
  | a :: b :: r => (a, b) :: pairsOf r
  | _ => []

/-- A score as TOPK reads it: with FTZ a subnormal is zero of its sign (R57, R62). -/
def Seq.score (q : Seq) (w : Word) : Word :=
  if q.ftz && w.extractLsb' 23 8 == 0 then w &&& 0x80000000 else w

/-- A thread's part of a TOPK step. -/
def topkLane (q : Seq) (t : Nat) : LaneAct (List RegWrite) :=
  let b := q.run.block
  let n (i : Nat) : Nat := (blkW b i).toNat
  let prog := swProg (q.win t 0)
  if q.sh.helpers.getLsbD t || decide (min (q.inp t 0).toNat (n 3) ≤ prog) then
    LaneAct.ret [q.put t 0 (swSimple true prog)]
  else
    let next : LaneAct (List RegWrite) := LaneAct.ret [q.put t 0 (swSimple false (prog + 1))]
    (q.rdWords t 1 31 (BitVec.ofNat 64 (n 2 + 8 * (n 3 * t + prog))) 2).andThen (fun c =>
      if (f32Of (blkW c 0)).isNan then next
      else
        (q.rd t 2 1 31 (BitVec.ofNat 64 (n 0))).andThen (fun l =>
          (q.rdWords t 1 31 (BitVec.ofNat 64 (n 0 + 8)) (2 * min l (n 1))).andThen (fun ws =>
            let old := (pairsOf ws).map (fun e => (q.score e.1, e.2))
            let new := topkMerge (q.fn.getLsbD 0) (n 1) old (q.score (blkW c 0), blkW c 1)
            (LaneAct.each (fun (e : (Word × Word) × Nat) =>
              (q.wr t (n 0 + 8 + 8 * e.2) e.1.1).andThen (fun _ => q.wr t (n 0 + 12 + 8 * e.2) e.1.2)) new.zipIdx).andThen
              (fun _ => (q.wr t (n 0) (BitVec.ofNat 32 new.length)).andThen (fun _ => next)))))

/-! ## SEQX (R339) -/

/-- The image that a run carries, as a number, and what it declares. -/
def Seq.img (q : Seq) : Nat := natOf q.run.micro
def Seq.decl (q : Seq) : Option Config.MicroDecl := Config.microDecl q.run.micro

/-- The memory accesses of a thread in a step of microcode, with the values read; a helper writes nothing (R32, R322, R324;
log 14). -/
def Seq.microMem (q : Seq) (t : Nat) : Nat → List Nat → LaneAct (List Nat)
  | 0, vs => LaneAct.ret vs
  | n + 1, vs => fun s =>
    match Config.microAccess q.img s.freeCtr t vs with
    | none => (.ok vs, s)
    | some (wr, scr, sz, va, v) =>
      if wr && q.sh.helpers.getLsbD t then q.microMem t n (vs ++ [0]) s
      else (q.access t (if wr then 1 else 0) sz.val (if scr then 1 else 0) 31 va v).andThen (fun x =>
        q.microMem t n (vs ++ [x])) s

/-- A thread's part of a step of microcode: what it reads, and writes to memory and to its window, is the microcode's
(log 14). -/
def seqxLane (q : Seq) (t : Nat) : LaneAct (List RegWrite) := fun s =>
  let w := match q.decl with
    | some d => d.window.val + 1
    | none => 1
  let ctr := s.freeCtr
  (q.microMem t (Config.microAccesses q.img ctr t) []).andThen (fun vs =>
    LaneAct.ret ((List.range w).map (fun k =>
      let v := Config.microWord q.img ctr k t vs
      q.put t k (if k = 0 then v &&& 0x7F00FFFF else v)))) s

/-! ## Steps (R319) -/

/-- The active threads that are not DONE. -/
def Seq.open' (q : Seq) : List Nat := q.run.mask.lanes.filter (fun t => !swDone (q.win t 0))

/-- The threads of the first row or quad that has one to handle. -/
def firstGroup (key : Nat → Nat) (ts : List Nat) : List Nat :=
  match ts with
  | [] => []
  | t :: r =>
    let k := r.foldl (fun m u => min m (key u)) (key t)
    ts.filter (fun u => key u == k)

/-- The threads that the next step handles, or none when there is no step to take (R319, R325, R331, R333, R335, R337,
R341). -/
def Seq.nextLanes (q : Seq) : Option (List Nat) :=
  let ts := q.open'
  let n (i : Nat) : Nat := (blkW q.run.block i).toNat
  if ts.isEmpty then none
  else match seqKind q.run.instr with
    | .rast => some (firstGroup (fun t => (q.inp t 0).toNat % 64 / 8) ts)
    | .filt => some (firstGroup (fun t => t / 4) ts)
    | .blnd => some (firstGroup (fun t => (q.inp t 1).toNat % 64 / 8) ts)
    | .dist => some (ts.filter (fun t =>
        q.sh.helpers.getLsbD t || swProg (q.win t 0) == n 4 || decide ((q.win t 1).toNat < n 6)))
    | .topk => some (ts.take 1)
    | .trav | .seqx => some ts

/-- A thread's part of a step. -/
def Seq.lane (q : Seq) (t : Nat) : LaneAct (List RegWrite) :=
  match seqKind q.run.instr with
  | .rast => rastLane q t
  | .trav => travLane q t
  | .filt => filtLane q t
  | .blnd => blndLane q t
  | .dist => distLane q t
  | .topk => topkLane q t
  | .seqx => seqxLane q t

/-- What the threads of a step come to: writes, lanes that park, and a record or a wait that holds the step back. -/
structure StepRes where
  s : State
  writes : List RegWrite
  parks : List (Option Nat × BitVec 8)
  hold : Option SeqStop
  deriving DecidableEq, Repr

/-- A step's threads in ascending order; the effects of a thread that does not go through are dropped, but for what its last
access reports (R118, R159, R319, R323). -/
def Seq.runLanes (q : Seq) (s : State) (ts : List Nat) : StepRes :=
  ts.foldl (fun (r : StepRes) t =>
    match q.lane t r.s with
    | (.ok ws, s) => { r with s := s, writes := r.writes ++ ws }
    | (.error e, s) =>
      match e.got with
      | .park c => { r with s := if e.spc = 0 then (q.rd t e.sz 0 31 e.va r.s).2 else r.s, parks := r.parks ++ [(some t, c)] }
      | _ => { r with s := s, hold := some (r.hold.getD e) })
    { s := s, writes := [], parks := [], hold := none }

/-- Changing the run on a core. -/
def State.updRun (s : State) (core : Nat) (f : SeqRun → SeqRun) : State :=
  s.updCore core (fun c => { c with seqRun := c.seqRun.map f })

/-- A sequenced instruction ends: the lanes that parked leave, sD receives the reason word, and the tiller goes on
(R318, R319, R323). -/
def State.seqEnd (s : State) (run : SeqRun) (reason : Word) (parks : List (Option Nat × BitVec 8)) : State :=
  match s.frameOf run.gid run.sh run.ti, seqFields run.instr with
  | some f, some x =>
    let s := s.updT f (fun t => { t with st := .ready })
    let f := { f with t := { f.t with st := .ready } }
    let s := s.park f (laneTraps f 8 5 parks)
    let s := s.retire f run.instr ((f.scalar s).put x.d reason)
    (s.moveOn f run.instr).updT f (fun t => { t with age := 0 })
  | _, _ => s

/-- The accesses of the running instruction that wait for an answer: one to a page, or none any more (R411, R419). -/
def State.pendSeq (s : State) (core : Nat) (on : Option (Nat × Unanswered)) : State :=
  let mine (p : Pend) : Bool := match p.who with
    | .seq c page => c == core && (on.map Prod.fst) != some page
    | _ => false
  let s := if s.pends.isEmpty then s else { s with pends := s.pends.filter (fun p => !mine p) }
  match on with
  | some (page, on) => s.setPend (.seq core page) 0 false [on]
  | none => s

/-- Ending the run on a core. -/
def State.seqStop (s : State) (core : Nat) (run : SeqRun) (reason : Word) (parks : List (Option Nat × BitVec 8)) : State :=
  ((s.pendSeq core none).updCore core (fun c => { c with seqRun := none })).seqEnd run reason parks

/-- Whether a running instruction must end with SLICE at this boundary (R321). -/
def State.sliceDue (s : State) (core : Nat) (run : SeqRun) : Bool :=
  let c := s.core core
  let waited := match c.seqQ with
    | q :: _ => decide (q.queuedAt + c.sl.toNat ≤ s.cycle)
    | [] => false
  waited || (match s.group? run.gid with
    | some g => g.st != .resident || (s.ctxSt g.ctx).pre == .preempting
    | none => true)

/-- NEXT of a BLND tile (R332). -/
def Seq.next (q : Seq) : Nat := cgetLE q.g.scratch (blkW q.run.block 0).toNat 4

/-- A reason word of microcode: the code, with one of the subcodes that the image declares, or 0 where it declares none (R318,
R339; log 14). -/
def Seq.microReason (q : Seq) (ctr code : Nat) : Word :=
  let subs := (q.decl.map Config.MicroDecl.subs).getD []
  BitVec.ofNat 32 (code + 256 * (subs.getD (Config.microSub q.img ctr code % max 1 subs.length) 0 % 256))

/-- The reason word of an end: as R318's table has it, but for microcode with a subcode of its own. -/
def Seq.reason (q : Seq) (ctr code : Nat) (plain : Word) : Word :=
  if seqKind q.run.instr == .seqx then q.microReason ctr code else plain

/-- Ending with DONE: BLND.ADV writes NEXT + 1 (R333, R340). -/
def State.seqDone (s : State) (core : Nat) (q : Seq) : State :=
  let s := if seqKind q.run.instr = .blnd && q.fn.getLsbD 0 then
      s.updGroup q.g.gid (fun g =>
        { g with scratch := csetLE g.scratch (blkW q.run.block 0).toNat 4 ((q.next + 1) % 2 ^ 32) })
    else s
  s.seqStop core q.run (q.reason s.freeCtr 0 0) []

/-- What beginning afresh writes for a thread (R317, R325, R327, R331, R332, R335, R337, R339); `ctr` numbers the free values of
microcode. -/
def Seq.fresh (q : Seq) (ctr t : Nat) : List RegWrite :=
  match seqKind q.run.instr with
  | .trav =>
    let v : Trav :=
      { stack := [blkW q.run.block 4], prog := 0, ovf := false, done := q.deadRay t, callp := false,
        regs := [q.inp t 7, 0xFFFFFFFF, 0, 0] ++ (List.range 4).map (fun k => q.win t (5 + k)) }
    q.putTrav t v
  | .seqx => (List.range ((q.decl.map (fun d => d.window.val + 1)).getD 1)).map (fun k =>
      let v := Config.microFresh q.img ctr k t
      q.put t k (if k = 0 then v &&& 0x3F00FFFF else v))
  | .dist => [q.put t 0 (swSimple false 0), q.put t 1 0]
  | _ => [q.put t 0 (swSimple false 0)]

/-- Whether a thread begins afresh: INIT is set, or PROG is out of its entry's range (R319, R327, R335, R337). -/
def Seq.needsFresh (q : Seq) (t : Nat) : Bool :=
  let w := q.win t 0
  let lim (k : Nat) : Bool := decide ((blkW q.run.block k).toNat < swProg w)
  swInit w || (match seqKind q.run.instr with
    | .trav => lim 6
    | .dist => lim 4
    | .topk => lim 3
    | _ => false)

/-- TRAV's action at issue: on a pending candidate, and on a ray that is no longer one to trace, which finishes with no hit
(R327, R328; log 137). -/
def Seq.callback (q : Seq) (t : Nat) : List RegWrite :=
  let w := q.win t 0
  if seqKind q.run.instr ≠ .trav then []
  else if !swDone w && q.deadRay t then
    [q.put t 0 ((w &&& 0x0F00FFFF) ||| 0x40000000), q.put t 1 (q.inp t 7), q.put t 2 0xFFFFFFFF, q.put t 3 0, q.put t 4 0]
  else if swCallp w then
    q.put t 0 (w &&& 0x4F00FFFF) ::
      (if swAdmit w then (List.range 4).map (fun k => q.put t (1 + k) (q.win t (5 + k))) else [])
  else []

/-- The exact values of the rays' hits once the callbacks of an issue have acted: an admitted candidate is the hit, and no
candidate waits (R328; log 51). -/
def Seq.admitHits (q : Seq) (hits : List Hit) : List Hit :=
  let asked (t : Nat) : Bool := q.run.mask.getLsbD t && swCallp (q.win t 0)
  let mine (h : Hit) : Bool := h.win == q.w && asked h.thr
  hits.filterMap (fun h =>
    if !mine h then some h
    else if swAdmit (q.win h.thr 0) then (if h.cand then some { h with cand := false } else none)
    else if h.cand then none
    else some h)

/-- SEQ_TAKE (R319, R320, R333, R339, R340): the idle sequencer takes the instruction at the head of its queue, in a cycle that
its die does not withhold (R18, R321). -/
def execSeqTake (core : Nat) (s : State) : Out :=
  .next (match (s.core core).seqRun, (s.core core).seqQ with
    | none, run :: rest =>
      let die := dieOf core
      if s.withholds die s.cycle then s
      else
      let micro := match run.instr with
        | .seqx k _ _ => (((s.die die).seqx.find? (fun e => e.1 == k.val)).map Prod.snd).getD []
        | _ => []
      let run := { run with micro := micro }
      let s := s.updCore core (fun c => { c with seqRun := some run, seqQ := rest })
      match s.seqOf run with
      | none => s.updCore core (fun c => { c with seqRun := none })
      | some q =>
        if s.cutHolds q.g.ctx then s.updCore core (fun c => { c with seqRun := none, seqQ := run :: rest })
        else
        let ticket := (blkW run.block 1).toNat
        let ahead := (ticket + 2 ^ 32 - q.next) % 2 ^ 32
        if seqKind run.instr = .blnd ∧ ahead ≠ 0 then
          s.seqStop core run (if ahead < 2 ^ 31 then 0x0101 else 0x0200) []
        else
          let ws := run.mask.lanes.flatMap (fun t => if q.needsFresh t then q.fresh s.freeCtr t else q.callback t)
          let trav := seqKind run.instr = .trav
          let s := { s with freeCtr := s.freeCtr + 1 }.updSheaf run.gid run.sh (fun x =>
            { (x.write ws) with hits := if trav then q.admitHits x.hits else x.hits })
          match s.seqOf run with
          | none => s
          | some q => if q.nextLanes.isNone then s.seqDone core q else s
    | _, _ => s)

/-- The code with which microcode ends a step by a condition of its own: FULL, or one from 5 to 255 that it declares (R318,
R319, R339). -/
def Seq.microCode (q : Seq) (ctr : Nat) : Option Nat :=
  match Config.microEnd q.img ctr, q.decl with
  | some c, some d => if c = 4 ∨ (5 ≤ c ∧ c ≤ 255 ∧ d.codes.contains c) then some c else none
  | _, _ => none

/-- How a step ends the instruction, by R319 in order: CALL, the entry's full condition, DONE, SLICE; or that it goes on. -/
inductive SeqEnd where
  | stop (reason : Word)
  | done
  | goOn
  deriving DecidableEq, Repr

/-- The end that a step comes to (R318, R319, R328, R335, R339). -/
def State.seqEnds (s : State) (core : Nat) (q : Seq) : SeqEnd :=
  let ts := q.run.mask.lanes
  let n (i : Nat) : Nat := (blkW q.run.block i).toNat
  let kind := seqKind q.run.instr
  let x := kind == .seqx
  let full := kind == .dist && ts.any (fun t => decide (n 6 ≤ (q.win t 1).toNat) && decide (swProg (q.win t 0) < n 4))
  if (kind == .trav || x) && ts.any (fun t => swCallp (q.win t 0)) then .stop (q.reason s.freeCtr 3 0x0103)
  else if full then .stop 4
  else match (if x then q.microCode s.freeCtr else none) with
    | some c => .stop (q.microReason s.freeCtr c)
    | none =>
      if ts.all (fun t => swDone (q.win t 0)) then .done
      else if s.sliceDue core q.run then .stop (q.reason s.freeCtr 1 1)
      else .goOn

/-- After a step: the instruction ends, or the run goes on. -/
def State.seqAfter (s : State) (core : Nat) (run : SeqRun) : State :=
  match s.seqOf run with
  | none => s.updCore core (fun c => { c with seqRun := none })
  | some q =>
    match s.seqEnds core q with
    | .stop r => s.seqStop core run r []
    | .done => s.seqDone core q
    | .goOn => s.updRun core (fun r => { r with steps := r.steps + 1 })

/-- SEQ_STEP (R319, R321, R323): one step of the running instruction, all of its effects or none, in a cycle that its die does
not withhold (R18). While a fault record is unanswered, or an access waits, only the slice test is made. -/
def execSeqStep (core : Nat) (s : State) : Out :=
  .next (match (s.core core).seqRun with
    | none => s
    | some run =>
      match s.seqOf run with
      | none => s.updCore core (fun c => { c with seqRun := none })
      | some q =>
        let slice (s : State) : State := if s.sliceDue core run then s.seqStop core run (q.reason s.freeCtr 1 1) [] else s
        if s.cutHolds q.g.ctx || s.withholds (dieOf core) s.cycle then s
        else if run.tag.isSome then slice s
        else
          match q.nextLanes with
          | none => s.seqDone core q
          | some ts =>
            let r := q.runLanes s ts
            match r.hold with
            | some e =>
              match e.got with
              | .record va reason =>
                let (tag, s) := s.postFault (.seq core) va q.g.ctx core q.sh.qs 5 reason
                s.updRun core (fun r => { r with tag := some tag })
              | .wait on => slice (s.pendSeq core (on.map (fun on => (e.va.toNat / 65536, on))))
              | _ => slice s
            | none =>
              let s := ({ r.s with freeCtr := r.s.freeCtr + 1 }.pendSeq core none).updSheaf run.gid run.sh
                (fun x => x.write r.writes)
              if r.parks.isEmpty then s.seqAfter core run else s.seqStop core run (q.reason s.freeCtr 1 0x0201) r.parks)

/-- Instructions of a group that is being saved leave the queue with SLICE, their windows unchanged, and no microcode of theirs has
run (R321). -/
def State.seqFlush (s : State) (core gid : Nat) : State :=
  let qs := (s.core core).seqQ.filter (fun q => q.gid == gid)
  let s := s.updCore core (fun c => { c with seqQ := c.seqQ.filter (fun q => q.gid != gid) })
  qs.foldl (fun s q => s.seqEnd q 1 []) s

end Sys2Proof.Machine
end

