-- ==== Sys2Proof/Machine/Fault.lean ====
section
/-! DEFINITION. Verdicts of the driver on fault records: replay from the operand log, lanes that park after a fail, and
what each other waiter does (R123 to R128, R261, R280, R323, R428). -/

namespace Sys2Proof.Machine

/-! ## The operand log (R124 to R126) -/

/-- The sources of a lane as its log entry holds them. -/
def LogEntry.srcOf (e : LogEntry) (t : Nat) : Src :=
  { a := cget e.src (4 * t), b := cget e.src (4 * t + 1), c := cget e.src (4 * t + 2) }

/-- A log entry of a sheaf. -/
def Sheaf.entry? (x : Sheaf) (id : Nat) : Option LogEntry := x.oplog.find? (fun e => e.id == id)

/-- Changing a log entry; one with no lane left retires (R125). -/
def Sheaf.updEntry (x : Sheaf) (id : Nat) (f : LogEntry → LogEntry) : Sheaf :=
  { x with oplog := (updWhere (fun e => e.id == id) f x.oplog).filter (fun e => e.mask != 0) }

/-- Whether an instruction is uniform. -/
def isUniform (i : Instr) : Bool :=
  match i.hdr with
  | some h => h.u
  | none => true

/-- The number by which a waiting access of an operand-log entry is noted, in place of a tiller's. -/
def logTi (id : Nat) : Nat := 64 + id

/-- Of some lanes of a log entry, those given wait for an answer now, and no other (R411, R419). -/
def State.pendLog (s : State) (gid sh id : Nat) (todo : Mask) (ws : List (Option Nat × Option Unanswered)) : State :=
  let gone (p : Pend) : Bool := match p.who with
    | .thread g x l => g == gid && x == sh && p.ti == logTi id && !ws.any (fun w => w.1 == l && w.2.isSome) &&
        (match l with
         | some t => todo.getLsbD t
         | none => true)
    | _ => false
  let s := if s.pends.isEmpty then s else { s with pends := s.pends.filter (fun p => !gone p) }
  ws.foldl (fun s w => s.setPend (.thread gid sh w.1) (logTi id) false w.2.toList) s

/-- Replaying a logged instruction in some of its lanes, its sources from the log entry (R125). Lanes that complete leave
the entry; a page that faults again takes a new record; a lane that traps is failed. -/
def State.replay (s : State) (gid sh id : Nat) (lanes : Mask) : State :=
  match s.group? gid with
  | none => s
  | some g =>
    match g.sheaf? sh with
    | none => s
    | some x =>
      match x.entry? id with
      | none => s
      | some e =>
        match memForm e.instr with
        | none => s
        | some m =>
          let todo := lanes &&& e.mask
          let u := isUniform e.instr
          let ls : List (Option Nat × Src) :=
            if u then [(none, e.srcOf (todo.lanes.headD 0))] else todo.lanes.map (fun t => (some t, e.srcOf t))
          let r := if todo = 0 then ({ s := s, writes := [], parks := [], recs := [], waits := [] } : MemRes)
            else s.memLanes g x m (todo &&& ~~~x.helpers == 0) ls
          let laneMask (l : Option Nat) : Mask := match l with
            | some t => Mask.ofLanes [t]
            | none => todo
          let stay : Mask := r.recs.foldl (fun a e => a ||| laneMask e.1)
            (r.parks.foldl (fun a e => a ||| laneMask e.1) (r.waits.foldl (fun a e => a ||| laneMask e.1) 0))
          let failed := r.parks.flatMap (fun p => (laneMask p.1).lanes.map (fun t => (t, p.2)))
          let (tags, s) := r.s.postPages g x id m.kind (pagesOf r.recs todo)
          (s.pendLog gid sh id todo r.waits).updSheaf gid sh (fun x =>
            let x := if r.writes.isEmpty then x else { x with board := x.board ++ [{ mem := true, writes := r.writes }] }
            x.updEntry id (fun e =>
              { e with mask := (e.mask &&& ~~~todo) ||| stay, tags := e.tags ++ tags, failed := e.failed ++ failed }))

/-- Lanes of an entry that wait for no verdict and have not failed: they replay again (R125, R419). -/
def LogEntry.idle (e : LogEntry) : Mask :=
  e.tags.foldl (fun m t => m &&& ~~~t.2) (e.failed.foldl (fun m f => m &&& ~~~(Mask.ofLanes [f.1])) e.mask)

/-- Whether the failed lanes of a tiller may park: every instruction that it has issued is complete. None of its lanes awaits a
verdict or a replay, in any page of any entry, and its current instruction has no lane to perform (R126). -/
def Sheaf.atBoundary (x : Sheaf) (t : Tiller) : Bool :=
  t.todo.isNone && x.oplog.all (fun o => o.idle &&& t.mask == 0 && o.tags.all (fun k => k.2 &&& t.mask == 0))

/-- The trap of a failed lane: the origin PC is the faulting instruction's, the resume point the tiller's next (R126). -/
def LogEntry.trap (e : LogEntry) (t : Tiller) (kind : Nat) (g : Group) (l : Nat × BitVec 8) : Trap :=
  let back : Back := match t.st with
    | .joinWait tok p => .join tok p
    | .barWait b => .bar b (((g.bars.find? (fun r => r.num == b)).map Bar.gen).getD 0)
    | _ => .none
  { lane := l.1, cause := l.2, payload := memPayload l.2 kind, pc := e.pc, resume := t.pc, skipTo := t.pc,
    log := some e.id, back := back }

/-- The failed lanes of one log entry park, tiller by tiller, once each is at an instruction boundary (R126). -/
def State.parkFailed (s : State) (gid sh id : Nat) : State :=
  match (s.sheaf? gid sh).bind (fun x => x.entry? id) with
  | none => s
  | some e =>
    let kind := ((memForm e.instr).map MemForm.kind).getD 0
    let tis := ((s.sheaf? gid sh).map (fun x => x.tillers.map Tiller.idx)).getD []
    let goes := tis.filterMap (fun ti =>
      match s.frameOf gid sh ti with
      | none => none
      | some f =>
        let mine := e.failed.filter (fun l => f.t.mask.getLsbD l.1)
        if mine.isEmpty || !f.sh.atBoundary f.t then none else some (f, mine.map (e.trap f.t kind f.g)))
    let lanes := goes.flatMap (fun p => p.2.map Trap.lane)
    if goes.isEmpty then s
    else
      let s := s.updSheaf gid sh (fun x => (x.deliverAll).updEntry id (fun e =>
        { e with failed := e.failed.filter (fun l => !lanes.contains l.1) }))
      s.parkAll goes

/-- FAILED_LANES_PARK (R126): lanes whose verdict was fail park; lanes that can be performed again are. -/
def execFailedLanesPark (gid sh log : Nat) (s : State) : Out :=
  .next (match (s.sheaf? gid sh).bind (fun x => x.entry? log) with
    | none => s
    | some e =>
      let x := s.sheaf? gid sh
      let parked : Mask := match x with
        | some x => Mask.ofLanes ((x.parked.filter (fun p => p.log == some log)).map Parked.lane)
        | none => 0
      let s := s.parkFailed gid sh log
      if e.idle &&& ~~~parked = 0 then s else s.replay gid sh log (e.idle &&& ~~~parked))

/-! ## Verdicts -/

/-- A verdict: retry, or fail with its cause (R123, R401). -/
inductive Verdict where
  | retry
  | fail (cause : BitVec 8)
  deriving DecidableEq, Repr

/-- The verdict on a record of an operand-log entry: its lanes have failed, or replay once none of their pages awaits a verdict
(R123, R125, R126). -/
def State.verdictLog (s : State) (gid sh id tag : Nat) (v : Verdict) : State :=
  match (s.sheaf? gid sh).bind (fun x => x.entry? id) with
  | none => s
  | some e =>
    let lanes : Mask := ((e.tags.find? (fun t => t.1 == tag)).map Prod.snd).getD 0
    let left : LogEntry := { e with tags := e.tags.filter (fun t => t.1 != tag) }
    let s := s.updSheaf gid sh (fun x => x.updEntry id (fun _ => left))
    let fresh := (lanes &&& e.mask).lanes.filter (fun t => !e.failed.any (fun k => k.1 == t))
    match v with
    | .retry => s.replay gid sh id (lanes &&& left.idle)
    | .fail c => s.updSheaf gid sh (fun x => x.updEntry id (fun e =>
        { e with failed := e.failed ++ fresh.map (fun t => (t, c)) }))

/-- The lanes that a fail verdict parks at an instruction: one thread, or every active lane for the scalar unit (R126,
R428). -/
def State.failAt (s : State) (f : Frame) (lane : Option Nat) (c : BitVec 8) : State :=
  match lane with
  | some l => s.park f [f.trapAt 8 c (memPayload c 0) l]
  | none => s.trapAll f 8 c (memPayload c 0)

/-- The verdict on the read of a WAITV, LAUNCH or MSTART (R428): the read is made again, or its lanes park. -/
def State.verdictRead (s : State) (gid sh ti : Nat) (lane : Option Nat) (tag : Nat) (v : Verdict) : State :=
  match s.frameOf gid sh ti with
  | none => s
  | some f =>
    match f.t.st with
    | .eventWait (.waitv w) =>
      if w.tag ≠ some tag then s
      else (match v with
        | .retry =>
          (s.updT f (fun t => { t with st := .eventWait (.waitv { w with tag := none }) })).rewait gid sh ti
        | .fail c => (s.updT f (fun t => { t with st := .ready })).failAt f none c)
    | .eventWait (.read k) =>
      if k ≠ tag then s
      else
        let s := s.updT f (fun t => { t with st := .eventWait .retry })
        (match v with
         | .retry => s
         | .fail c => s.failAt f lane c)
    | _ => s

/-- The verdict on a read of a queue unit (R261): the DEQ performs it again, or the thread that waits parks; of a queue that has
been unregistered since, no DEQ waits for it (R412). -/
def State.verdictQueue (s : State) (die q gid sh ti : Nat) (lane : Option Nat) (tag : Nat) (v : Verdict) : State :=
  if !(s.die die).wqs.any (fun w => w.q == q && w.tag == some tag) then s
  else
    let s := s.updDie die (fun d => { d with wqs := updWhere (fun w => w.q == q) (fun w => { w with tag := none }) d.wqs })
    match v, s.frameOf gid sh ti with
    | .fail c, some f => if s.stillWaits gid sh ti lane then s.failAt f lane c else s
    | _, _ => s

/-- The verdict on a record of a matrix stream (R280, R309): it goes on, or halts; a closed record that could not be
written is discarded. -/
def State.verdictStream (s : State) (gid tag : Nat) (v : Verdict) : State :=
  match s.group? gid with
  | none => s
  | some g =>
    if g.stream.faultTag = some tag then
      let s := s.updStream gid (fun t => { t with faultTag := none })
      match v with
      | .retry => s
      | .fail c => s.haltStream gid 3 c
    else if g.stream.stampTag = some tag then
      let s := s.updStream gid (fun t => { t with stampTag := none })
      match v with
      | .retry => s
      | .fail _ => s.loseStamp gid
    else s

/-- What a verdict does to the waiter of a record. -/
def State.verdictWho (s : State) (r : FaultRec) (v : Verdict) : State :=
  match r.who with
  | .log gid sh id => s.verdictLog gid sh id r.tag v
  | .fetch gid sh ti =>
    match s.frameOf gid sh ti with
    | none => s
    | some f =>
      if f.t.st ≠ .eventWait (.fetch r.tag) then s
      else
        let s := s.updT f (fun t => { t with st := .ready, age := 0 })
        (match v with
         | .retry => s
         | .fail c => s.trapAll f 8 c 3)
  | .read gid sh ti lane => s.verdictRead gid sh ti lane r.tag v
  | .seq core =>
    s.updRun core (fun q =>
      if q.tag ≠ some r.tag then q
      else { q with tag := none, fails := match v with
        | .retry => q.fails
        | .fail c => (r.va.toNat / 65536, c) :: q.fails })
  | .stream gid => s.verdictStream gid r.tag v
  | .cmd id =>
    s.updCmd id (fun c => if c.tag ≠ some r.tag then c
      else { c with tag := none, failed := c.failed || v != .retry })
  | .load core id =>
    s.updLoad core id (fun l => if l.tag ≠ some r.tag then l
      else { l with tag := none, failed := match v with
        | .retry => l.failed
        | .fail c => some c })
  | .queue die q gid sh ti lane => s.verdictQueue die q gid sh ti lane r.tag v

/-- A verdict of the driver (R123, R401): an unknown tag is ignored and reported. -/
def State.verdict (s : State) (tag : Nat) (v : Verdict) : State :=
  match s.faults.find? (fun r => r.tag == tag && r.written) with
  | none => s.report 9 0xFF 0xFF 0xFF 0x90 (tag % 2 ^ 32)
  | some r => { s with faults := s.faults.filter (fun x => x.tag != tag) }.verdictWho r v

/-- FAULT_REPLY_RETRY (R123, R125). -/
def execFaultReplyRetry (tag : Nat) (s : State) : Out := .next (s.verdict tag .retry)

/-- FAULT_REPLY_FAIL_UNRESOLVED (R123, R126): cause 0x05. -/
def execFaultReplyFailUnresolved (tag : Nat) (s : State) : Out := .next (s.verdict tag (.fail 0x05))

/-- FAULT_REPLY_FAIL_PROTECTION (R123, R126): cause 0x06. -/
def execFaultReplyFailProtection (tag : Nat) (s : State) : Out := .next (s.verdict tag (.fail 0x06))

/-- FQ_HEAD (R5, R123, R401): the driver has taken records; those that waited for space are written, oldest first. -/
def execFqHead (v : BitVec 32) (s : State) : Out := .next { s with plat := { s.plat with fqHead := v } }.fqDrain

end Sys2Proof.Machine
end

