-- ==== Sys2Proof/Machine/Count.lean ====
section
/-! DEFINITION. The block-entry counters: BBC, the counter cache of a core, and its write-backs (R250, R392, R393). -/

namespace Sys2Proof.Machine

/-- An atomic .ADD of a 64-bit amount at a VA, performed at its home for the device, translated in its context without the
fault queue (R103, R105, R118, R246, R392). It waits for a stack, for the fabric, and for its turn on a read-duplicated page. -/
def State.addAt (s : State) (who : Agent) (core ctx : Nat) (va : DWord) (n : Nat) : Except EngStop Unit × State :=
  if va.extractLsb' 0 3 != 0 then (.error .fail, s)
  else
    match s.engPa core ctx true va with
    | (.error e, s) => (.error e, s)
    | (.ok (pa, leaf), s) =>
      let u : Use := { who := who, core := core, ctx := ctx, nud := 31, rate := 16, by_ := [] }
      match s.homeOf pa, s.engTouch u leaf pa 8 with
      | .hbm _, some s | .far _, some s =>
        match s.homeAtomic who pa 8 true (fun old => old + n) with
        | (.error e, s) => (.error (e.toEng va.toNat), s)
        | (.ok _, s) => (.ok (), s)
      | .hbm _, none | .far _, none => (.error (.wait none), s)
      | _, _ => (.error .fail, s)

/-! ## The counter cache (R250, R392) -/

/-- Forgetting a write-back. -/
def State.dropOut (s : State) (core id : Nat) : State :=
  (s.updCore core (fun c => { c with bbcOut := c.bbcOut.filter (fun o => o.id != id) })).dropPend (.count core id)

/-- A write-back that fails drops its delta and is reported (R392, R404). -/
def State.loseOut (s : State) (core : Nat) (o : BbcOut) : State :=
  (s.dropOut core o.id).report 9 o.ctx (dieOf core) (coreOf core) o.va.toNat o.n

/-- Performing a write-back at its home, or noting that it waits. -/
def State.payOut (s : State) (core : Nat) (o : BbcOut) : State :=
  match s.addAt (.count core o.id) core o.ctx o.va o.delta.toNat with
  | (.ok _, s) => s.dropOut core o.id
  | (.error (.wait on), s) => s.noteWait (.count core o.id) on
  | (.error _, s) => s.loseOut core o

/-- Writing one delta back and freeing its entry (R392). -/
def State.bbcWrite (s : State) (core : Nat) (e : BbcEntry) : State :=
  let (id, s) := s.fresh
  let va := cget (s.die (dieOf core)).bbcb e.ctx + BitVec.ofNat 64 (8 * e.n)
  let o : BbcOut := { id := id, ctx := e.ctx, n := e.n, va := va, delta := e.delta }
  (s.updCore core (fun c =>
    { c with bbc := c.bbc.filter (fun x => !(x.ctx == e.ctx && x.n == e.n)), bbcOut := c.bbcOut ++ [o] })).payOut core o

/-- The write-backs of every core that wait are performed when they can be, in order. -/
def State.payOuts (s : State) : State :=
  (s.cores.filter (fun c => !c.bbcOut.isEmpty)).foldl (fun s c => c.bbcOut.foldl (fun s o => s.payOut c.id o) s) s

/-- Writing back every entry of a context on a core: when a group of it ends or enters QUIESCE there, and before its
counter registers change (R392). -/
def State.bbcFlush (s : State) (core ctx : Nat) : State :=
  ((s.core core).bbc.filter (fun e => e.ctx == ctx)).foldl (fun s e => s.bbcWrite core e) s

/-- Counting one execution: a hit adds 1, and a delta that reaches 2^32 - 1 is written back; a miss takes a free entry,
or evicts the least recently used of 256 (R392). -/
def State.bbcCount (s : State) (core ctx n : Nat) : State :=
  let c := s.core core
  match c.bbc.find? (fun e => e.ctx == ctx && e.n == n) with
  | some e =>
    let e1 : BbcEntry := { e with delta := e.delta + 1 }
    let s := s.updCore core (fun c => { c with bbc := e1 :: c.bbc.filter (fun x => x != e) })
    if e1.delta = 0xFFFFFFFF then s.bbcWrite core e1 else s
  | none =>
    let s := match (if 256 ≤ c.bbc.length then c.bbc.getLast? else none) with
      | some old => s.bbcWrite core old
      | none => s
    let e : BbcEntry := { ctx := ctx, n := n, delta := 1 }
    s.updCore core (fun c => { c with bbc := e :: c.bbc })

/-- BBC (R250, R391, R392). -/
def execBbc (h : Hdr) (x : FI) (s : State) : Out :=
  issue (.bbc h x) s (fun f s =>
    let n := (imm24 x).toNat
    let core := f.g.core
    let ctx := f.g.ctx
    let d := s.die (dieOf core)
    if !f.guardU h s.cycle then s.advance f (.bbc h x)
    else
      let s1 := if ctx < 32 && (s.core core).glnCtxm.getLsbD ctx then
          s.updCore core (fun c => c.glnNote s.cycle false n)
        else s
      let s2 := if ctx ≠ 63 ∧ cget d.bbcb ctx ≠ 0 ∧ n < (cget d.bbcn ctx).toNat then s1.bbcCount core ctx n else s1
      s2.advance f (.bbc h x))

end Sys2Proof.Machine
end

