-- ==== Sys2Proof/Machine/System.lean ====
section
/-! DEFINITION. System instructions: MOVS, the core, die and device registers of MTSR, the return from a trap, access to
trap origins, TLB invalidation and cuts (R370 to R375, R379). -/

namespace Sys2Proof.Machine

/-! ## MOVS (R371) -/

/-- The system value that idx selects (R371). -/
def Rd.sysValue (r : Rd) (idx : Nat) : Word :=
  let core := r.f.g.core
  if idx < 12 then BitVec.ofNat 32 (capRegs.getD idx 0)
  else if idx = 0x10 then r.s.plat.phase.setWidth 32
  else if idx = 0x11 then (credOf r.s.creds core r.f.g.ctx).c.setWidth 32
  else (r.s.core core).sl

/-- MOVS (R371). -/
def execMovs (h : Hdr) (x : FA) (s : State) : Out :=
  regOp (.movs h x) h s (fun r => r.put x.d (r.sysValue x.fn.toNat))

/-! ## MTSR (R372) -/

/-- The value that MTSR writes: A, or bits 63:32 of the second word (R372). -/
def mtsrVal (r : Rd) (x : FI) : Nat :=
  match x.imm with
  | .short _ => if x.fn2 = 1 then (r.w64 x.a).toNat else (r.w32 x.a).toNat
  | .long w => w.toNat / 2 ^ 32

/-- The cores that MTSR names: one of the die, all of them, or none such. -/
def mtsrCores (f : Frame) (x : FI) : Option (List Nat) :=
  let c := (x.imm.low24.extractLsb' 16 8).toNat
  let d := dieOf f.g.core
  if c = 0xFF then some ((List.range 72).map (fun k => 72 * d + k))
  else if c < 72 then some [72 * d + c]
  else none

/-- Writing one system register: a wrong size, core or value raises Illegal Operand, and nothing is written (R372). -/
def mtsrOp (i : Instr) (h : Hdr) (x : FI) (wide : Bool) (ok : Nat → Bool) (put : Frame → List Nat → Nat → State → State)
    (s : State) : Out :=
  issue i s (fun f s =>
    let v := mtsrVal (f.scalar s) x
    if !f.guardU h s.cycle then s.advance f i
    else match mtsrCores f x with
      | none => s.trapAll f i.size 0x02 0
      | some cs =>
        if (x.fn2 == 1) != wide || !ok v then s.trapAll f i.size 0x02 0 else (put f cs v s).advance f i)

/-- Writing a register of cores. -/
def putCores (g : CoreSt → Word → CoreSt) (_ : Frame) (cs : List Nat) (v : Nat) (s : State) : State :=
  cs.foldl (fun s c => s.updCore c (fun k => g k (BitVec.ofNat 32 v))) s

/-- Writing a register of the steward's die. -/
def putDie (g : DieSt → Nat → DieSt) (f : Frame) (_ : List Nat) (v : Nat) (s : State) : State :=
  s.updDie (dieOf f.g.core) (fun d => g d v)

/-- Whether a value lies in a range. -/
def within (lo hi v : Nat) : Bool := decide (lo ≤ v) && decide (v ≤ hi)

/-- MTSR HORIZON (R372); an index that no table defines has no register and raises Illegal Operand. -/
def execMtsrHorizon (h : Hdr) (x : FI) (s : State) : Out :=
  mtsrOp (.mtsrHorizon h x) h x false (fun v => x.mtsrIndex == 0 && within 1 4095 v)
    (putCores (fun c v => { c with horizon := v })) s

/-- MTSR SL (R321, R372). -/
def execMtsrSl (h : Hdr) (x : FI) (s : State) : Out :=
  mtsrOp (.mtsrSl h x) h x false (within 16 65535) (putCores (fun c v => { c with sl := v })) s

/-- MTSR GATE (R308, R372). -/
def execMtsrGate (h : Hdr) (x : FI) (s : State) : Out :=
  mtsrOp (.mtsrGate h x) h x false (fun _ => true) (putCores (fun c v => { c with gate := v })) s

/-- MTSR STALLCHK (R93, R372). -/
def execMtsrStallchk (h : Hdr) (x : FI) (s : State) : Out :=
  mtsrOp (.mtsrStallchk h x) h x false (fun _ => true) (putDie (fun d v => { d with stallchk := BitVec.ofNat 32 v })) s

/-- MTSR STARVE (R351, R372): one value for every dispatcher. -/
def execMtsrStarve (h : Hdr) (x : FI) (s : State) : Out :=
  mtsrOp (.mtsrStarve h x) h x false (fun v => v != 0)
    (fun _ _ v s => { s with plat := { s.plat with starve := BitVec.ofNat 32 v } }) s

/-- MTSR WQBASE (R259, R372). -/
def execMtsrWqbase (h : Hdr) (x : FI) (s : State) : Out :=
  mtsrOp (.mtsrWqbase h x) h x true (fun v => v == 0 || (v % 262144 == 0 && s.inHbm v))
    (putDie (fun d v => { d with wqbase := BitVec.ofNat 64 v })) s

/-- MTSR PDL0 to PDL7 (R361, R372): one set for the device. -/
def execMtsrPdl (h : Hdr) (x : FI) (s : State) : Out :=
  mtsrOp (.mtsrPdl h x) h x false (fun v => v != 0)
    (fun _ _ v s =>
      let k := x.mtsrIndex - 8
      { s with plat := { s.plat with pdl := (k, BitVec.ofNat 32 v) :: s.plat.pdl.filter (fun e => e.1 != k) } }) s

/-- Writing a register of a context's counters on the steward's die: what the die's cores hold of them is written back
first, at the old base (R392). -/
def putCounters (ctx : Nat) (g : DieSt → Nat → DieSt) (f : Frame) (cs : List Nat) (v : Nat) (s : State) : State :=
  let d := dieOf f.g.core
  putDie g f cs v ((List.range 72).foldl (fun s k => s.bbcFlush (72 * d + k) ctx) s)

/-- MTSR BBCB0 to BBCB31 (R250, R372, R392). -/
def execMtsrBbcb (h : Hdr) (x : FI) (s : State) : Out :=
  let k := x.mtsrIndex - 0x40
  mtsrOp (.mtsrBbcb h x) h x true (fun v => v % 8 == 0)
    (putCounters k (fun d v => { d with bbcb := cset d.bbcb k (BitVec.ofNat 64 v) })) s

/-- MTSR BBCN0 to BBCN31 (R250, R372, R392). -/
def execMtsrBbcn (h : Hdr) (x : FI) (s : State) : Out :=
  let k := x.mtsrIndex - 0x60
  mtsrOp (.mtsrBbcn h x) h x false (fun _ => true)
    (putCounters k (fun d v => { d with bbcn := cset d.bbcn k (BitVec.ofNat 32 v) })) s

/-! ## RFT (R50, R126, R369, R373) -/

/-- The parked record of a lane. -/
def Sheaf.parked? (x : Sheaf) (lane : Nat) : Option Parked := x.parked.find? (fun p => p.lane == lane)

/-- Lanes that one RFT has formed into new tillers, by group and sheaf. -/
abbrev Formed := List ((Nat × Nat) × List Nat)

/-- The tillers formed in one sheaf. -/
def formedIn (l : Formed) (gid sh : Nat) : List Nat := ((l.find? (fun e => e.1 == (gid, sh))).map Prod.snd).getD []

/-- A lane clears its bit from a record's ARR and EXP (R50). -/
def Sheaf.leaveJoin (x : Sheaf) (tok : BitVec 8) (lane : Nat) : Sheaf :=
  let bit := Mask.ofLanes [lane]
  x.updJoin tok (fun r => { r with arr := r.arr &&& ~~~bit, exp := r.exp &&& ~~~bit })

/-- Where a parked lane resumes, and in which state (R50, R126, R373). A waiting lane whose resume point XWR has changed is
READY there, and its bits stay in the record or barrier, of which the manual says nothing (log 127). -/
def Parked.target (p : Parked) (x : Sheaf) (g : Group) (skip : Bool) : DWord × TSt :=
  let moved := p.resume != p.pc && p.log.isNone
  match p.back with
  | .join tok pred =>
    if moved then (p.resume, .ready)
    else if (skip && p.log.isNone) || (x.join? tok).isNone then (p.skipTo, .ready)
    else (p.skipTo, .joinWait tok pred)
  | .bar b gen =>
    if moved then (p.resume, .ready)
    else if (skip && p.log.isNone) || (g.bar b).gen != gen then (p.skipTo, .ready)
    else (p.skipTo, .barWait b)
  | .none => (if skip && p.resume == p.pc then p.skipTo else p.resume, .ready)

/-- Resuming the lane of one entry (R126, R369, R373). -/
def State.resume (s : State) (e : Entry) (skip : Bool) (made : Formed) : State × Formed :=
  match s.group? e.gid with
  | none => (s, made)
  | some g =>
    match g.sheaf? e.sh with
    | none => (s, made)
    | some x =>
      match x.parked? e.lane with
      | none => (s, made)
      | some p =>
        let (at_, st) := p.target x g skip
        let leave := skip && p.log.isNone
        let x1 := match p.back with
          | .join tok _ => if leave then x.leaveJoin tok e.lane else x
          | _ => x
        let (x2, fresh) := x1.unpark (formedIn made e.gid e.sh) p at_ st
        let made := ((e.gid, e.sh), fresh) :: made.filter (fun k => k.1 != (e.gid, e.sh))
        let s := s.updSheaf e.gid e.sh (fun _ => x2.sweep)
        let s := match p.log with
          | none => s
          | some id =>
            if skip then s.updSheaf e.gid e.sh (fun y => y.updEntry id (fun q =>
              { q with mask := q.mask &&& ~~~(Mask.ofLanes [e.lane]) }))
            else s.replay e.gid e.sh id (Mask.ofLanes [e.lane])
        let s := match p.back with
          | .join tok _ => s.updSheaf e.gid e.sh (fun y => y.tryRelease tok)
          | .bar b gen =>
            if leave then s.updGroup e.gid (fun g =>
              let r := g.bar b
              if r.gen = gen then
                (g.setBar (r.set e.sh (r.of e.sh &&& ~~~(Mask.ofLanes [e.lane])))).tryBar b
              else g)
            else s
          | .none => s
        (s, made)

/-- RFT and RFT.SKIP in each active handler thread whose entry has not been resumed (R373); what the sheaves then stand in is judged
once, when all these lanes have returned (R40, R42, R50). -/
def rftOp (i : Instr) (h : Hdr) (skip : Bool) (s : State) : Out :=
  issue i s (fun f s =>
    let act := f.active h s.cycle
    let es := f.g.entriesOf act
    let s1 := s.updGroup f.g.gid (fun g =>
      { g with entries := g.entries.zipIdx.map (fun e => if act.getLsbD e.2 then { e.1 with resumed := true } else e.1) })
    let (s2, _) := es.foldl (fun (acc : State × Formed) e =>
      if e.empty then acc else acc.1.resume e skip acc.2) (s1, [])
    (s2.checkAll (es.map (fun e => (e.gid, e.sh)))).advance f i)

/-- RFT (R373). -/
def execRft (h : Hdr) (x : FA) (s : State) : Out := rftOp (.rft h x) h false s

/-- RFT.SKIP (R373). -/
def execRftSkip (h : Hdr) (x : FA) (s : State) : Out := rftOp (.rftSkip h x) h true s

/-! ## XRD and XWR (R374) -/

/-- The key within an operand-log entry's sources of logged source k (0 A, 1 B, 2 C, 3 D): a store's data is its D. -/
def logKey (m : MemForm) (k : Nat) : Option Nat :=
  match m.kind, k with
  | _, 0 => some 0
  | 1, 3 => some 1
  | 2, 1 => some 1
  | 2, 2 => some 2
  | _, _ => none

/-- Whether logged source k is of 64 bits: a generic address, the data of a store of 64 bits or more, an operand of a 64-bit atomic
(R102, R213, R221, R374). -/
def logWide (m : MemForm) (k : Nat) : Bool :=
  match k with
  | 0 => m.spc == 0
  | 3 => decide (3 ≤ m.sz)
  | _ => m.sz == 3

/-- The log entry of an entry's lane. -/
def State.entryLog (s : State) (e : Entry) : Option LogEntry :=
  (s.sheaf? e.gid e.sh).bind (fun x => ((x.parked? e.lane).bind Parked.log).bind x.entry?)

/-- What a selector reads of an entry's origin (R374); none raises Illegal Operand, as a logged source does that is not read in its
own size (log 160). -/
def State.xread (s : State) (e : Entry) (sel : Opd) (wide : Bool) : Option DWord :=
  let x := s.sheaf? e.gid e.sh
  let cell (k : Key) : Word := (x.map (fun x => x.read k)).getD 0
  let pair (lo hi : Word) : DWord := if wide then hi ++ lo else lo.setWidth 64
  match sel with
  | .v r =>
    if e.empty then some 0
    else if ((x.map Sheaf.budget).getD 256) ≤ r.val + (if wide then 1 else 0) then none
    else some (pair (cell (.v r.val e.lane)) (cell (.v (r.val + 1) e.lane)))
  | .s r => some (pair (cell (.s r.val)) (cell (.s (r.val + 1))))
  | .p r => some (if e.empty then 0 else (cell (.p r.val e.lane)).setWidth 64)
  | .q r => some ((cell (.q r.val)).setWidth 64)
  | .sr .fmt =>
    some (if e.empty then 0 else (((x.bind (fun x => x.parked? e.lane)).map Parked.fmt).getD 0).setWidth 64)
  | .res n =>
    if n.val = 0 then some e.pc
    else if n.val = 1 then some e.resume
    else match s.entryLog e with
      | none => some 0
      | some l =>
        match memForm l.instr with
        | none => some 0
        | some m => match logKey m (n.val - 2) with
          | none => some 0
          | some k => if logWide m (n.val - 2) == wide then some (cget l.src (4 * e.lane + k)) else none
  | _ => some 0

/-- Changing the parked record of an entry's lane. -/
def State.updParked (s : State) (e : Entry) (f : Parked → Parked) : State :=
  s.updSheaf e.gid e.sh (fun x => { x with parked := updWhere (fun p => p.lane == e.lane) f x.parked })

/-- What a write by selector does to an entry's origin, for handler thread t (R374); none raises Illegal Operand. -/
def State.xwrite (s : State) (gid t : Nat) (e : Entry) (sel : Opd) (wide : Bool) (v : DWord) : Option State :=
  let put (ws : List RegWrite) : State := s.updSheaf e.gid e.sh (fun x => x.write ws)
  let lo : Word := v.setWidth 32
  let hi : Word := (v >>> 32).setWidth 32
  let bit : Word := if v.getLsbD 0 then 1 else 0
  let words (k : Nat → Key) (n : Nat) : List RegWrite :=
    { key := k n, val := lo } :: (if wide then [{ key := k (n + 1), val := hi }] else [])
  match sel with
  | .v r =>
    if e.empty then some s
    else if (((s.sheaf? e.gid e.sh).map Sheaf.budget).getD 256) ≤ r.val + (if wide then 1 else 0) then none
    else some (put (words (fun n => .v n e.lane) r.val))
  | .s r => some (put (words .s r.val))
  | .p r => some (if e.empty then s else put [{ key := .p r.val e.lane, val := bit }])
  | .q r => some (put [{ key := .q r.val, val := bit }])
  | .sr .fmt =>
    if e.empty then some s else if !fmtOk lo then none else some (s.updParked e (fun p => { p with fmt := lo }))
  | .res n =>
    if n.val = 1 then
      (if v.extractLsb' 0 3 != 0 then none
       else
         let s := s.updGroup gid (fun g =>
           { g with entries := g.entries.zipIdx.map (fun q => if q.2 = t then { q.1 with resume := v } else q.1) })
         some (if e.empty then s else s.updParked e (fun p => { p with resume := v })))
    else if n.val = 0 then some s
    else match s.entryLog e with
      | none => some s
      | some l =>
        match memForm l.instr with
        | none => some s
        | some m => match logKey m (n.val - 2) with
          | none => some s
          | some k =>
            if logWide m (n.val - 2) != wide then none
            else some (s.updSheaf e.gid e.sh (fun x => x.updEntry l.id (fun q =>
              { q with src := cset q.src (4 * e.lane + k) v })))
  | _ => some s

/-- XRD (R374). -/
def execXrd (h : Hdr) (x : FA) (s : State) : Out :=
  issue (.xrd h x) s (fun f s =>
    let wide := x.fn.getLsbD 0
    let rs := (readers f h s).map (fun r => (r, (f.g.entries[r.thr]?).bind (fun e => s.xread e x.a wide)))
    let bad := rs.filter (fun e => e.2.isNone)
    if !bad.isEmpty then s.park f (bad.map (fun e => f.trapAt 8 0x02 0 e.1.thr))
    else
      let ws := rs.flatMap (fun e => if wide then e.1.put64 x.d (e.2.getD 0) else e.1.put x.d ((e.2.getD 0).setWidth 32))
      (s.retire f (.xrd h x) ws).advance f (.xrd h x))

/-- XWR (R374): threads write in ascending index. -/
def execXwr (h : Hdr) (x : FA) (s : State) : Out :=
  issue (.xwr h x) s (fun f s =>
    let wide := x.fn.getLsbD 0
    let r := (readers f h s).foldl (fun (acc : State × List Nat) r =>
      match f.g.entries[r.thr]? with
      | none => acc
      | some e =>
        let v : DWord := if wide then r.w64 x.b else (r.w32 x.b).setWidth 64
        match acc.1.xwrite f.g.gid r.thr e x.a wide v with
        | some s => (s, acc.2)
        | none => (acc.1, acc.2 ++ [r.thr])) (s, [])
    if r.2.isEmpty then r.1.advance f (.xwr h x) else r.1.park f (r.2.map (f.trapAt 8 0x02 0)))

/-! ## TLBI and STOPAT (R375, R379) -/

/-- TLBI (R375): every translation is removed before the tiller goes on; a release at device scope. -/
def tlbiOp (i : Instr) (h : Hdr) (x : FA) (byCtx : Bool) (scope : Rd → TlbScope) (s : State) : Out :=
  issue i s (fun f s =>
    let r := f.scalar s
    let c := (r.w32 x.a).toNat % 64
    if !f.guardU h s.cycle then s.advance f i
    else if byCtx && decide (32 ≤ c) && c != 63 then s.trapAll f 8 0x02 0
    else ((s.release f.g.core).tlbi (scope r)).advance f i)

/-- TLBI.ALL (R375). -/
def execTlbiAll (h : Hdr) (x : FA) (s : State) : Out := tlbiOp (.tlbiAll h x) h x false (fun _ => .all) s

/-- TLBI.CTX (R375). -/
def execTlbiCtx (h : Hdr) (x : FA) (s : State) : Out :=
  tlbiOp (.tlbiCtx h x) h x true (fun r => .ctx ((r.w32 x.a).toNat % 64)) s

/-- TLBI.PAGE (R375). -/
def execTlbiPage (h : Hdr) (x : FA) (s : State) : Out :=
  tlbiOp (.tlbiPage h x) h x true (fun r => .page ((r.w32 x.a).toNat % 64) (r.w64 x.b)) s

/-- STOPAT (R362, R379): enters a cut; a fifth pending one waits. -/
def stopatOp (i : Instr) (h : Hdr) (x : FA) (op : Nat) (s : State) : Out :=
  issue i s (fun f s =>
    let r := f.scalar s
    let m := r.w32 x.b
    if !f.guardU h s.cycle || m == 0 then s.advance f i
    else if 4 ≤ s.cuts.length then s.updT f (fun t => { t with st := .blocked .room })
    else
      let c : Cut := { op := op, t := (r.w64 x.a).toNat, ctxs := m, held := false }
      { s with cuts := s.cuts ++ [c] }.advance f i)

/-- STOPAT.HALT (R362, R379). -/
def execStopatHalt (h : Hdr) (x : FA) (s : State) : Out := stopatOp (.stopatHalt h x) h x 0 s

/-- STOPAT.RUN (R362, R379). -/
def execStopatRun (h : Hdr) (x : FA) (s : State) : Out := stopatOp (.stopatRun h x) h x 1 s

/-- STOPAT.PRE (R362, R379). -/
def execStopatPre (h : Hdr) (x : FA) (s : State) : Out := stopatOp (.stopatPre h x) h x 2 s

end Sys2Proof.Machine
end

