-- ==== Sys2Proof/Machine/Issue.lean ====
section
/-! DEFINITION. Which tiller issues next, what holds an instruction back, and fetching (R43 to R45, R92, R124, R126, R127,
R157, R362). -/

namespace Sys2Proof.Machine

/-! ## Fetching (R79, R127) -/

/-- What fetching one word gives. -/
inductive Fetched where
  | word (w : DWord)
  /-- A condition of R118's second table, with its reason. -/
  | fault (reason : Nat)
  /-- The lanes park at this PC with a cause. -/
  | park (cause : BitVec 8)
  /-- It waits: for the stack, for the fabric, or for a pinned line's release in the walk (R132). -/
  | wait (on : Option Unanswered)
  deriving DecidableEq, Repr

/-- One instruction word at a PC: translated with fetch permission, read as its home holds it (R79, R116 to R118,
R127). An address of the aperture is unresolved (R104; log 152). -/
def State.fetchWord (s : State) (core ctx : Nat) (pc : DWord) : Fetched × State :=
  if pc.extractLsb' 55 9 != 0 || pc.extractLsb' 42 13 == 0x1FFF then (.park 0x05, s)
  else
    match s.translate core ctx { write := false, fetch := true } pc with
    | (.unresolved, s) | (.hole, s) => (.park 0x05, s)
    | (.busy on, s) => (.wait on, s)
    | (.poison, s) => (.park 0x0F, s)
    | (.fault r, s) => (if ctx = 63 then .park (if r = 0 then 0x05 else 0x06) else .fault r, s)
    | (.ok pa _, s) =>
      match s.reach ctx pa with
      | .error (.wait on) => (.wait on, s)
      | .error _ => ((match s.homeOf pa with
        | .host _ => .park 0x05
        | _ => .park 0x06), s)
      | .ok (.host b) => (.word (BitVec.ofNat 64 (cgetLE s.hostMem b 8)), s)
      | .ok h =>
        let bad := match h with
          | .hbm l => s.poisoned l 8
          | _ => false
        match (s.rdOf pa).map (fun e => s.rdRead e .other pa 8) with
        | some .removed => (.park 0x05, s.report 9 ctx (dieOf core) (coreOf core) pa 5)
        | some .wait => (.wait none, s)
        | some (.replica bs) => (.word (BitVec.ofNat 64 (natOf bs)), s)
        | some .home | none =>
          (if bad then .park 0x0F else .word (BitVec.ofNat 64 (natOf (s.homeBytes pa 8))), s)

/-- An instruction at a PC, with its second word when its first has the L bit (R79, R83, R85). -/
inductive Next where
  | instr (i : Instr)
  /-- A word that does not decode, with the bytes it takes. -/
  | reject (size : Nat)
  /-- A word that is not got, and its VA. -/
  | stop (va : DWord) (f : Fetched)
  deriving DecidableEq, Repr

/-- Whether a first word is followed by a second: the word of the long form or of an atomic (R85, R90). -/
def needsSecond (w : DWord) : Bool := (fmtOf (w.extractLsb' 56 8).toNat).isSome && longBit w

/-- Whether a first word is an Illegal Instruction whatever its second is, so that a second that cannot be fetched does not
matter (R91): with a second word of zeros, which has no reserved bit set, it is one. -/
def firstRejects (w : DWord) : Bool :=
  match decode false w 0 with
  | .ok _ => false
  | .error _ => true

/-- Fetching and decoding the instruction at a PC (R79, R91). -/
def State.fetchInstr (s : State) (core ctx : Nat) (stream : Bool) (pc : DWord) : Next × State :=
  match s.fetchWord core ctx pc with
  | (.word w, s) =>
    let dec (w1 : DWord) : Next := match decode stream w w1 with
      | .ok i => .instr i
      | .error _ => .reject (if needsSecond w && !stream then 16 else 8)
    if needsSecond w && !stream then
      (match s.fetchWord core ctx (pc + 8) with
       | (.word w1, s) => (dec w1, s)
       | (f, t) => if firstRejects w then (.reject 16, s) else (.stop (pc + 8) f, t))
    else (dec 0, s)
  | (f, s) => (.stop pc f, s)

/-- The instruction at a PC as it would be fetched, without effect: what the issue rules look at. -/
def State.peekInstr (s : State) (core ctx : Nat) (pc : DWord) : Option Instr :=
  match (s.fetchInstr core ctx false pc).1 with
  | .instr i => some i
  | _ => none

/-! ## What holds an instruction back -/

/-- The classes that wait for an unretired operand-log entry of their tiller (R124). -/
def waitsForLog : Instr → Bool
  | .ld .. | .st .. | .ldu .. | .stu .. | .ldc .. | .pref .. | .cctlWb .. | .cctlInv .. | .cctlDemote .. | .cctlRenud ..
  | .atom .. | .acas .. | .red .. | .atomu .. | .fence .. | .waitv .. | .pbari .. | .pbara .. | .pbarw ..
  | .bar .. | .bara .. | .barw .. | .join .. | .joint .. | .exit .. | .exitH ..
  | .bclose .. | .bwait .. | .enq .. | .pub .. | .deq .. | .spawn .. | .take .. | .steal .. | .launch ..
  | .ralloc .. | .rload .. | .rpin .. | .runpin .. | .rrevk .. | .rqry .. | .rqryQ ..
  | .mstart .. | .mstat .. | .mres .. | .mresSkip ..
  | .rast .. | .trav .. | .filt .. | .blnd .. | .dist .. | .topk .. | .seqx ..
  | .trap .. | .bkpt .. => true
  | _ => false

/-- Instructions ordered after every earlier write of their threads (R144, R151, R157, R340). -/
def ordersAfterWrites (i : Instr) : Bool :=
  match i with
  | .fence .. | .bar .. | .bara .. | .pbari .. | .pbara .. | .pub .. | .spawn .. | .launch .. | .rload .. => true
  | .blnd _ x => x.fn.getLsbD 0
  | _ => match memForm i with
    | some m => ordRel m.ord || m.ord == 4
    | none => false

/-- Why an instruction may not issue yet, as the gleaner's reasons tell it apart (R387): memory or another result. -/
inductive Hazard where
  | memory | result
  deriving DecidableEq, Repr

/-- The memory and atomic instructions (R124). -/
def isMemory (i : Instr) : Bool :=
  match i with
  | .pref .. | .cctlWb .. | .cctlInv .. | .cctlDemote .. | .cctlRenud .. => true
  | _ => (memForm i).isSome

/-- Whether a register is the sheaf's, shared by its tillers (R27). -/
def Key.isUniform : Key → Bool
  | .s _ | .q _ => true
  | _ => false

/-- Whether a register cell is one that a tiller can reach: the sheaf's, or one of its own lanes'. -/
def Tiller.reaches (t : Tiller) : Key → Bool
  | .v _ l | .p _ l => t.mask.getLsbD l
  | _ => true

/-- The registers that an instruction may not meet while they are outstanding: those that it reads and writes, and for MSTART,
which copies them, the scalars (R27, R92, R278). -/
def State.needsKeys (s : State) (die : Nat) (i : Instr) : List Key :=
  s.readKeys die i ++ s.writeKeys die i ++ (match i with
    | .mstart .. => (List.range 63).map Key.s
    | _ => [])

/-- The instructions of a sheaf's other tillers that have issued and have still to write their scalars or uniform predicates:
those writes take effect in issue order (R27, R92, R319). -/
def State.unwritten (s : State) (f : Frame) : List Instr :=
  f.sh.tillers.filterMap (fun t =>
    if t.idx = f.t.idx || t.queued.isNone then none else s.peekInstr f.g.core f.g.ctx t.pc)

/-- What holds a tiller's next instruction back: an outstanding result of its lanes or of the sheaf that it reads or writes (R27,
R92, R278, R319), a pending destination of an operand-log entry, an entry of its own lanes, a full log (R124), or a held write of a
read-duplicated page (R157). -/
def State.hazard (s : State) (f : Frame) (i : Instr) : Option Hazard :=
  let die := dieOf f.g.core
  let ks := s.needsKeys die i
  let hits (l : List Key) : Bool := l.any (fun k => ks.contains k.reg)
  let bd := f.sh.board.filter (fun b => hits ((b.writes.map RegWrite.key).filter f.t.reaches))
  let logs := f.sh.oplog.filter (fun e =>
    hits ((s.writeKeys die e.instr).filter (fun k => k.isUniform || e.mask &&& f.t.mask != 0)))
  let ahead := (s.unwritten f).filter (fun j => hits ((s.writeKeys die j).filter Key.isUniform))
  let due := s.groups.any (fun g => match g.save with
    | some q => q.gid == f.g.gid && q.sh == f.sh.idx && hits (opdKeys q.dst 1)
    | none => false)
  let own := f.sh.oplog.any (fun e => e.mask &&& f.t.mask != 0)
  let held := s.rds.any (fun p => p.held.any (fun w => match w.who with
    | .thread g sh l => g == f.g.gid && sh == f.sh.idx && (match l with
      | some t => f.t.mask.getLsbD t
      | none => true)
    | _ => false))
  let used : Nat := (s.groups.filter (fun g => g.core == f.g.core)).foldl (fun (n : Nat) g =>
    g.sheaves.foldl (fun (n : Nat) x => if x.quarter = f.sh.quarter then n + x.oplog.length else n) n) 0
  if bd.any Board.mem || !logs.isEmpty || ahead.any isMemory || (own && waitsForLog i) ||
      (isMemory i && decide (32 ≤ used)) || (held && ordersAfterWrites i) then some .memory
  else if !bd.isEmpty || due || !ahead.isEmpty then some .result
  else none

/-! ## Choosing a tiller (R44) -/

/-- A group's priority: launch record offset 35, at most 7; a handler sheaf's is 7 (R44, R365). -/
def Group.prio (g : Group) : Nat := if g.kind = .handler then 7 else min 7 g.launch.prio.toNat

/-- Whether a group's tillers may issue: resident, with all its granules SCRATCH, and not held by a cut (R110, R356, R362). -/
def State.issues (s : State) (g : Group) : Bool :=
  g.st == .resident && !s.cutHolds g.ctx && g.granules.all (fun k => !(s.core g.core).reclaiming.contains k)

/-- The live tillers of a quarter that are READY. -/
def State.readyOn (s : State) (core q : Nat) : List Frame :=
  (s.groups.filter (fun g => g.core == core && s.issues g)).flatMap (fun g =>
    (g.sheaves.filter (fun x => x.quarter == q)).flatMap (fun x =>
      (x.tillers.filter (fun t => t.st == .ready)).map (fun t => { g := g, sh := x, t := t })))

/-- Whether tiller a goes before tiller b (R44, R45): an age of 64 or more first, then priority, then a tiller that has
not yielded, then age, sheaf slot and split-table index. -/
def goesBefore (a b : Frame) : Bool :=
  let old (f : Frame) : Nat := if 64 ≤ f.t.age then f.t.age else 0
  let y (f : Frame) : Nat := if f.t.yielded then 0 else 1
  if old a ≠ old b then decide (old b < old a)
  else if a.g.prio ≠ b.g.prio ∧ old a = 0 then decide (b.g.prio < a.g.prio)
  else if y a ≠ y b ∧ old a = 0 then decide (y b < y a)
  else if a.t.age ≠ b.t.age then decide (b.t.age < a.t.age)
  else if a.sh.slot ≠ b.sh.slot then decide (a.sh.slot < b.sh.slot)
  else decide (a.t.idx < b.t.idx)

/-- The first of some tillers by R44. -/
def firstOf (fs : List Frame) : Option Frame :=
  fs.foldl (fun b f =>
    match b with
    | none => some f
    | some g => if goesBefore f g then some f else some g) none

/-- Whether an instruction finds the unit of its quarter busy that it needs: the scalar unit for one with U = 1, else the datapath
(R15, R44, R184). -/
def State.dpBusy (s : State) (f : Frame) (i : Instr) : Bool :=
  let c := s.core f.g.core
  match i.hdr with
  | some h => decide (s.cycle < (if h.u then c.suFree else c.dpFree).getD f.sh.quarter 0)
  | none => false

/-- The tiller that a quarter issues next. -/
def State.pick (s : State) (core q : Nat) : Option Frame := firstOf (s.readyOn core q)

/-- A tiller's fetch waits for no stack and no fabric any more. -/
def State.fetched (s : State) (f : Frame) : State :=
  if s.pends.isEmpty then s
  else { s with pends := s.pends.filter (fun p => !(p.ofTiller f.g.gid f.sh.idx f.t.idx && p.fetch)) }

/-- A tiller whose fetch gives no word (R127): a fetch that cannot be translated traps every active lane; a fault waits
for the driver; a stack or a fabric that is not ready is waited for. -/
def State.noInstr (s : State) (f : Frame) (va : DWord) (n : Fetched) : State :=
  match n with
  | .park c => s.trapAll f 8 c (memPayload c 3)
  | .word _ => s
  | .fault r =>
    let (tag, s) := s.postFault (.fetch f.g.gid f.sh.idx f.t.idx) va.toNat f.g.ctx f.g.core f.sh.qs 3 r
    s.updT f (fun t => { t with st := .eventWait (.fetch tag) })
  | .wait on =>
    (s.setPend (.thread f.g.gid f.sh.idx none) f.t.idx true on.toList).updT f (fun t => { t with st := .blocked .fetch })

/-- A tiller whose next instruction nothing holds is READY (R43). Its age begins again (R44), but not for a wait for the
datapath alone, in which a tiller of the same priority would pass it over for ever (R45, R46; log 124). -/
def Tiller.unblock (t : Tiller) : Tiller :=
  match t.st with
  | .blocked .hazard | .blocked .fetch => { t with st := .ready, age := 0 }
  | .blocked .busy => { t with st := .ready }
  | _ => t

/-- The tiller's state by its next instruction: READY, BLOCKED by what holds the instruction, its stall count or a busy
unit, or waiting for its fetch (R43, R92, R124, R127). -/
def State.settle (s : State) (f : Frame) : State :=
  let look (s : State) : State :=
    if s.cycle < f.t.stallEnd then s.updT f (fun t => { t with st := .blocked (.stall f.t.stallEnd) })
    else match s.fetchInstr f.g.core f.g.ctx false f.t.pc with
      | (.stop va n, s) => s.noInstr f va n
      | (.reject _, s) => (s.fetched f).updT f Tiller.unblock
      | (.instr i, s) =>
        let s := s.fetched f
        if (s.hazard f i).isSome then s.updT f (fun t => { t with st := .blocked .hazard })
        else if s.dpBusy f i then
          s.updT f (fun t => { t with st := .blocked .busy, age := if t.st = .blocked .hazard then 0 else t.age })
        else s.updT f Tiller.unblock
  match f.t.st with
  | .ready | .blocked .hazard | .blocked .busy | .blocked .fetch => look s
  | _ => s

/-- The states of the tillers of a quarter whose groups may issue, as its turn finds them. -/
def State.settleQuarter (s : State) (core q : Nat) : State :=
  (s.groups.filter (fun g => g.core == core && s.issues g)).foldl (fun s g =>
    (g.sheaves.filter (fun x => x.quarter == q)).foldl (fun s x => x.tillers.foldl (fun s t =>
      match s.frameOf g.gid x.idx t.idx with
      | some f => s.settle f
      | none => s) s) s) s

/-- What holds a tiller's next instruction back, for the gleaner's reasons (R387). -/
def State.held (s : State) (f : Frame) : Option Hazard :=
  (s.peekInstr f.g.core f.g.ctx f.t.pc).bind (fun i =>
    (s.hazard f i).orElse (fun _ => if s.dpBusy f i then some .result else none))

/-- The issuing tiller's age becomes 0, and every other READY tiller of the quarter that may issue has been passed over once (R44,
R362, R395). -/
def State.countAges (s : State) (f : Frame) : State :=
  let up (g : Group) (x : Sheaf) (t : Tiller) : Tiller :=
    if g.gid = f.g.gid ∧ x.idx = f.sh.idx ∧ t.idx = f.t.idx then { t with age := 0 }
    else if t.st = .ready then { t with age := t.age + 1 }
    else t
  { s with groups := s.groups.map (fun g =>
      if g.core ≠ f.g.core || !s.issues g then g
      else { g with sheaves := g.sheaves.map (fun x =>
        if x.quarter ≠ f.sh.quarter then x else { x with tillers := x.tillers.map (up g x) }) }) }

/-- Blocked tillers whose time has come are READY (R92, R235). -/
def Tiller.wake (cycle : Nat) (t : Tiller) : Tiller :=
  match t.st with
  | .blocked (.stall u) => if u ≤ cycle then { t with st := .ready, age := 0 } else t
  | .blocked (.yield u) => if u ≤ cycle then { t with st := .ready, age := 0 } else t
  | _ => t

/-- Waking the blocked tillers of a core's quarter. -/
def State.wakeQuarter (s : State) (core q : Nat) : State :=
  { s with groups := s.groups.map (fun g =>
      if g.core ≠ core then g
      else { g with sheaves := g.sheaves.map (fun x =>
        if x.quarter ≠ q then x else { x with tillers := x.tillers.map (Tiller.wake s.cycle) }) }) }

end Sys2Proof.Machine
end

