-- ==== Sys2Proof/Machine/Observe.lean ====
section
/-! DEFINITION. The gleaner: its registers, its choice of a sheaf, reasons, records and ring (R384 to R391, R394 to
R397). -/

namespace Sys2Proof.Machine

/-! ## Registers (R384, R385) -/

/-- MTSR GLN_PERIOD: restarts the sample clock and the round (R384, R385, R396). -/
def execMtsrGlnPeriod (h : Hdr) (x : FI) (s : State) : Out :=
  mtsrOp (.mtsrGlnPeriod h x) h x false (fun v => v == 0 || within 16 16777215 v)
    (putCores (fun c v => { c with glnPeriod := v, glnC0 := s.cycle, glnLast := 63 })) s

/-- MTSR GLN_CTXM (R384). -/
def execMtsrGlnCtxm (h : Hdr) (x : FI) (s : State) : Out :=
  mtsrOp (.mtsrGlnCtxm h x) h x false (fun _ => true) (putCores (fun c v => { c with glnCtxm := v })) s

/-- PA of the ring that GLN_RING names, with the device bits, and its LOGN (R384). -/
def glnBase (r : DWord) : Nat := (r.extractLsb' 12 42).toNat * 4096
def glnLog (r : DWord) : Nat := (r.extractLsb' 0 5).toNat

/-- Whether a value suits GLN_RING (R384). -/
def State.glnRingOk (s : State) (v : Nat) : Bool :=
  let r : DWord := BitVec.ofNat 64 v
  r.extractLsb' 54 10 == 0 && r.extractLsb' 5 7 == 0 && within 4 20 (glnLog r) && s.inHbm (glnBase r)

/-- MTSR GLN_RING: the write index becomes 0 and the header is written with every field 0 (R384, R385). -/
def execMtsrGlnRing (h : Hdr) (x : FI) (s : State) : Out :=
  mtsrOp (.mtsrGlnRing h x) h x true s.glnRingOk
    (fun _ cs v s =>
      let r : DWord := BitVec.ofNat 64 v
      cs.foldl (fun s c =>
        (s.updCore c (fun k => { k with glnRing := r, glnWidx := 0, glnDrop := 0 })).homeWrite
          (glnBase r % 2 ^ 41) (List.replicate 64 0)) s) s

/-- Whether a value suits GLN_START and GLN_STOP (R391). -/
def glnEventOk (v : Nat) : Bool := decide (v % 16 ≤ 4) && decide (v < 2 ^ 28)

/-- MTSR GLN_START (R384, R391). -/
def execMtsrGlnStart (h : Hdr) (x : FI) (s : State) : Out :=
  mtsrOp (.mtsrGlnStart h x) h x false glnEventOk
    (putCores (fun c v => { (c.glnForward s.cycle) with glnStart := v })) s

/-- MTSR GLN_STOP (R384, R391). -/
def execMtsrGlnStop (h : Hdr) (x : FI) (s : State) : Out :=
  mtsrOp (.mtsrGlnStop h x) h x false glnEventOk
    (putCores (fun c v => { (c.glnForward s.cycle) with glnStop := v })) s

/-- MTSR GLN_TSTC (R384, R391). -/
def execMtsrGlnTstc (h : Hdr) (x : FI) (s : State) : Out :=
  mtsrOp (.mtsrGlnTstc h x) h x true (fun _ => true)
    (fun _ cs v s => cs.foldl (fun s c => s.updCore c (fun k =>
      { (k.glnForward s.cycle) with glnTstc := BitVec.ofNat 64 v })) s) s

/-! ## A sample (R386, R387) -/

/-- The resident sheaves of a core that the gleaner samples, by slot 16 × quarter + sheaf slot (R386). -/
def State.glnSheaves (s : State) (core : Nat) : List (Nat × Group × Sheaf) :=
  let m := (s.core core).glnCtxm
  (s.groups.filter (fun g => g.core == core && g.st != .done && g.kind != .steward && decide (g.ctx < 32) &&
      m.getLsbD g.ctx)).flatMap (fun g =>
    (g.sheaves.filter (fun x => !x.tillers.isEmpty)).map (fun x => (16 * x.quarter + x.slot, g, x)))

/-- The sheaf sampled after a slot, going round after 63 (R386). -/
def nextSheaf (last : Nat) (l : List (Nat × Group × Sheaf)) : Option (Nat × Group × Sheaf) :=
  let dist (n : Nat) : Nat := (n + 127 - last) % 64
  l.foldl (fun b e =>
    match b with
    | none => some e
    | some c => if dist e.1 < dist c.1 then some e else some c) none

/-- The last instruction that a sheaf's quarter issued, when it issued in a cycle, for that sheaf. -/
def State.issuedAt (s : State) (core cycle : Nat) (x : GlnSheaf) : Option Issued :=
  match s.issued.find? (fun e => e.1 == 4 * core + x.slot / 16) with
  | some (_, e) => if e.cycle = cycle ∧ e.gid = x.gid ∧ e.sh = x.sh then some e else none
  | none => none

/-- Whether nothing but its next instruction keeps a tiller from issuing: what it is at a sample is what that instruction
makes it. -/
def Tiller.mayIssue (t : Tiller) : Bool :=
  match t.st with
  | .ready | .blocked .hazard | .blocked .busy | .blocked .fetch => true
  | _ => false

/-- Whether a tiller's next instruction is not fetched. -/
def State.unfetched (s : State) (g : Group) (t : Tiller) : Bool :=
  match (s.fetchInstr g.core g.ctx false t.pc).1 with
  | .stop .. => true
  | _ => false

/-- The tiller that a sheaf reports when none of it issues: the READY tiller that R44 selects next, else the lowest live one
(R387). -/
def State.reported (s : State) (g : Group) (x : Sheaf) : Option Tiller :=
  let ready := (x.tillers.filter (fun t => t.mayIssue && !s.unfetched g t)).map (fun t => ({ g := g, sh := x, t := t } : Frame))
  match firstOf (ready.filter (fun f => (s.held f).isNone && decide (f.t.stallEnd ≤ s.cycle))) with
  | some f => some f.t
  | none => x.tillers.head?

/-- The reason of a tiller that does not issue: the first row of R387 that applies as the cycle begins. A tiller in YIELD counts
with the stall counts, and one that waits for room with the waits (log 60). -/
def State.glnReason (s : State) (g : Group) (x : Sheaf) (t : Tiller) : Nat :=
  let quiet := g.st == .quiesce || g.st == .checkpoint || g.st == .writing
  if t.mayIssue then
    if quiet then 2
    else if s.cycle < t.stallEnd then 4
    else if s.unfetched g t then 3
    else match s.held { g := g, sh := x, t := t } with
      | some .memory => 5
      | some .result => 6
      | none => 1
  else if quiet then 2
    else match t.st with
      | .eventWait (.fetch _) => 3
      | .blocked (.stall _) | .blocked (.yield _) => 4
      | .blocked .room => if t.todo.isSome then 5 else 11
      | .barWait _ => 7
      | .joinWait .. => 8
      | .eventWait (.pbarw ..) => 9
      | .eventWait .seq => 10
      | _ => 11

/-- Whether a cycle is withheld from a group: by its die, or by a cut that holds its context (R18, R362, R389). -/
def State.withheld (s : State) (g : Group) (cycle : Nat) : Bool :=
  s.cutHolds g.ctx || s.withholds (dieOf g.core) cycle

/-- A tiller as the cycle that begins finds it. -/
def State.glnTiller (s : State) (g : Group) (x : Sheaf) (t : Tiller) : GlnTiller :=
  { idx := t.idx, pc := t.pc, lanes := t.mask.lanes.length, parked := t.st == .parked, reason := s.glnReason g x t }

/-- The sheaf that a core's gleaner chooses for the cycle that begins, in which the stalls that have run out are over (R92,
R386; log 162). -/
def State.glance (s : State) (core : Nat) : Option GlnSheaf :=
  (nextSheaf (s.core core).glnLast (s.glnSheaves core)).map (fun e =>
    let g := e.2.1
    let x : Sheaf := { e.2.2 with tillers := e.2.2.tillers.map (Tiller.wake s.cycle) }
    { slot := e.1, gid := g.gid, sh := x.idx, ctx := g.ctx, handler := g.kind == .handler, linear := g.linear,
      withheld := s.withheld g s.cycle, tillers := x.tillers.map (s.glnTiller g x),
      next := ((s.reported g x).map Tiller.idx).getD 0 })

/-- Whether a cycle is a core's next sample cycle (R385). -/
def CoreSt.samplesAt (c : CoreSt) (cycle : Nat) : Bool := c.glnPeriod != 0 && c.glnC0 + c.glnPeriod.toNat == cycle

/-- At the start of a cycle, the sheaves of the cores that sample in it are chosen (R386). -/
def State.glances (s : State) : State :=
  (s.cores.filter (fun c => c.samplesAt s.cycle)).foldl (fun s c =>
    s.updCore c.id (fun k => { k with glnPre := some (s.cycle, s.glance c.id) })) s

/-! ## Records (R389, R390, R396) -/

/-- The 32 bytes of a record (R389). -/
def glnRecord (stc pc ctx core quarter slot reason flags lanes linear dropped : Nat) : List Byte :=
  bytesOf 8 stc ++ bytesOf 8 pc ++ bytesOf 1 ctx ++ bytesOf 1 core ++ bytesOf 1 quarter ++ bytesOf 1 slot ++
    bytesOf 1 reason ++ bytesOf 1 flags ++ bytesOf 2 lanes ++ bytesOf 4 linear ++ bytesOf 4 dropped

/-- The record of a sampled sheaf: of the tiller that issued in the cycle, else of the one that it reports (R387, R389). -/
def CoreSt.glnBytes (c : CoreSt) (cycle : Nat) (e : GlnSheaf) (iss : Option Issued) : Option (List Byte) :=
  let of (n : Nat) : Option GlnTiller := e.tillers.find? (fun t => t.idx == n)
  let iss := iss.filter (fun i => (of i.ti).isSome)
  (of ((iss.map Issued.ti).getD e.next)).map (fun t =>
    let bit (n : Nat) (b : Bool) : Nat := if b then 2 ^ n else 0
    let flags := bit 0 ((iss.map Issued.uni).getD false) + bit 1 e.withheld + bit 2 (decide (1 < e.tillers.length)) +
      bit 3 e.handler + bit 4 (!c.glnFirst) + bit 5 t.parked
    glnRecord (stcAt cycle) ((iss.map Issued.pc).getD t.pc).toNat e.ctx (coreOf c.id) (e.slot / 16) (e.slot % 16)
      (if iss.isSome then 0 else t.reason) flags t.lanes (if e.handler then 0xFFFFFFFF else e.linear)
      (min c.glnDropped 0xFFFFFFFF))

/-- Writing a record to the ring, or dropping it when the ring is full (R388, R390). A ring that has never been given
takes nothing (log 61). -/
def State.glnPut (s : State) (core : Nat) (bytes : List Byte) : State :=
  let c := s.core core
  let base := glnBase c.glnRing % 2 ^ 41
  let n := glnLog c.glnRing
  if n < 4 then s
  else
    let ridx : Word := BitVec.ofNat 32 (natOf (s.homeRead (base + 4) 4))
    if 2 ^ n ≤ (c.glnWidx - ridx).toNat then
      let s := s.updCore core (fun c => { c with glnDropped := c.glnDropped + 1, glnDrop := c.glnDrop + 1 })
      s.homeWrite (base + 8) (bytesOf 4 (c.glnDrop + 1).toNat)
    else
      let s := s.homeWrite (base + 64 + 32 * (c.glnWidx.toNat % 2 ^ n)) bytes
      let s := s.updCore core (fun c => { c with glnDropped := 0, glnWidx := c.glnWidx + 1, glnFirst := true })
      s.homeWrite base (bytesOf 4 (c.glnWidx + 1).toNat)

/-- Whether a core's next sample cycle is over (R385). -/
def State.glnDue (s : State) (core : Nat) : Bool :=
  let c := s.core core
  c.glnPeriod != 0 && decide (c.glnC0 + c.glnPeriod.toNat < s.cycle)

/-- The sheaf chosen for a sample cycle. -/
def CoreSt.chosen (c : CoreSt) (cycle : Nat) : Option GlnSheaf := (c.glnPre.filter (fun e => e.1 == cycle)).bind Prod.snd

/-- GLEANER_SAMPLE (R386 to R391): the sample of the core's next sample cycle, once that cycle is over. -/
def execGleanerSample (core : Nat) (s : State) : Out :=
  .next (if !s.glnDue core then s
    else
      let k := (s.core core).glnC0 + (s.core core).glnPeriod.toNat
      let s := s.updCore core (fun c => { (c.glnForward k) with glnC0 := k })
      match (s.core core).chosen k with
      | none => s
      | some e =>
        let s := s.updCore core (fun c => { c with glnLast := e.slot })
        if !(s.core core).windowOpen k then s
        else
          match (s.core core).glnBytes k e (s.issuedAt core k e) with
          | none => s
          | some b => s.glnPut core b)

end Sys2Proof.Machine
end

