-- ==== Sys2Proof/Machine/Front.lean ====
section
/-! DEFINITION. The front end: submission queues, packets, indirect buffers and the coherence clean (R161, R342 to R349,
R380, R381, R403). -/

namespace Sys2Proof.Machine

/-! ## The front end's accesses (R347, R348) -/

/-- Translating a VA in a context for the front end or a virtual function: by a walk alone, through L2, with A and D set, and
never through the fault queue (R115, R119, R348, R399; log 131). -/
def State.feTranslate (s : State) (ctx : Nat) (write : Bool) (va : DWord) : Except NoAccess Nat × State :=
  if va.extractLsb' 55 9 != 0 || va.extractLsb' 42 13 == 0x1FFF then (.error .fail, s)
  else
    match s.rootOf ctx with
    | none => (.error .fail, s)
    | some base =>
      match s.walkReads 0 ctx va base with
      | .error on => (.error (.wait on), s)
      | .ok s =>
        match s.walkFrom va 3 base with
        | .error .poison => (.error .fail, s.report 3 ctx 0xFF 0xFF va.toNat 0)
        | .error _ => (.error .fail, s)
        | .ok (lvl, e, pte) =>
          match s.leafWalk ctx { write := write, fetch := false } lvl e va with
          | .ok pa _ => (.ok pa, s.orPte pte (2 ^ 13 + (if write then 2 ^ 14 else 0)))
          | _ => (.error .fail, s)

/-- Reading n bytes at a VA, as their homes hold them, or why not (R348, R419). -/
def State.feRead (s : State) (q ctx : Nat) (va : DWord) (n : Nat) : Except NoAccess (List Byte) × State :=
  (chunksOf va.toNat n).foldl (fun (acc : Except NoAccess (List Byte) × State) c =>
    match acc with
    | (.error e, s) => (.error e, s)
    | (.ok bs, s) =>
      match s.feTranslate ctx false (BitVec.ofNat 64 c.1) with
      | (.error e, s) => (.error e, s)
      | (.ok pa, s) =>
        let s := s.recall pa
        match s.agentBytes (.sq q) pa c.2 with
        | .error e => (.error e, s)
        | .ok b => (.ok (bs ++ b), s)) (.ok [], s)

/-- Writing the aligned 8 bytes at a VA at their home, from what they hold; where the access faults, nothing is written
(R344, R348). -/
def State.feModify (s : State) (q ctx : Nat) (va : DWord) (reads : Bool) (f : Nat → Nat) : Except NoAccess Unit × State :=
  match s.feTranslate ctx true va with
  | (.error e, s) => (.error e, s)
  | (.ok pa, s) => s.homeAtomic (.sq q) pa 8 reads f

/-! ## Packets (R343, R344) -/

/-- A field of a packet. -/
def pktNat (b : List Byte) (off n : Nat) : Nat := natOf ((b.drop off).take n)

/-- Whether bytes lo to 63 of a packet are zero. -/
def pktZero (b : List Byte) (lo n : Nat) : Bool := pktNat b lo n == 0

def pktType (b : List Byte) : Nat := pktNat b 0 1
def pktBar (b : List Byte) : Bool := pktNat b 1 1 % 2 == 1
def pktPhase (b : List Byte) : Nat := pktNat b 2 2
def pktVa (b : List Byte) : DWord := BitVec.ofNat 64 (pktNat b 8 8)

/-- A packet that keeps R343, R344 and R347; `inner` tells that it stands in an indirect buffer. -/
def packetOk (b : List Byte) (inner : Bool) : Bool :=
  let va := pktNat b 8 8
  decide (pktNat b 1 1 ≤ 1) && pktZero b 4 4 &&
  match pktType b with
  | 1 => va % 64 == 0 && pktZero b 16 48
  | 2 => pktZero b 8 56
  | 3 => va % 8 == 0 && decide (pktNat b 24 1 ≤ 1) && pktZero b 25 39
  | 4 => va % 4 == 0 && decide (pktNat b 20 1 < 8) && pktZero b 21 3 && pktZero b 32 32
  | 5 => decide (pktNat b 24 8 < 2 ^ 32) && pktZero b 32 32
  | 6 => !inner && va % 512 == 0 && decide (1 ≤ pktNat b 16 4) && decide (pktNat b 16 4 ≤ 65536) && pktZero b 20 44
  | 7 => va % 8 == 0 && pktZero b 16 48
  | _ => false

/-! ## Queues -/

/-- Whether a queue may process anything: RUNNING, and its context neither pre-empted nor halted by a cut (R342, R360,
R362). -/
def State.sqGoes (s : State) (q : Nat) : Bool :=
  let x := s.sq q
  let c := s.ctxSt x.ctx.toNat
  x.st == .running && !c.halted && c.pre != .preempting && c.pre != .preempted

/-- A line of the indirect buffer that a queue processes: as it was read, or read now and kept (R347, R380). One that could not
be read is kept as an empty one; one whose read waits is not kept. -/
def State.indLine (s : State) (q ctx : Nat) (i : Ind) (line : Nat) : Except NoAccess (List Byte) × State :=
  match i.ahead.find? (fun e => e.1 == line) with
  | some e => (.ok e.2, s)
  | none =>
    let keep (b : List Byte) (s : State) : State :=
      s.updSq q (fun x => { x with ind := x.ind.map (fun i => { i with ahead := i.ahead ++ [(line, b)] }) })
    match s.feRead q ctx (i.va + BitVec.ofNat 64 (512 * line)) 512 with
    | (.ok b, s) => (.ok b, keep b s)
    | (.error (.wait on), s) => (.error (.wait on), s)
    | (.error _, s) => (.ok [], keep [] s)

/-- Whether a tail lies ahead of HEAD by no more than the ring (R342). -/
def Sq.tailOk (x : Sq) (tail : Word) : Bool := decide ((tail - x.head).toNat ≤ 2 ^ x.logsz.toNat)

/-- The packet a queue processes next, or why it is not read: none when there is none to process. -/
def State.nextPacket (s : State) (q : Nat) : Option (Except NoAccess (List Byte) × State) :=
  let x := s.sq q
  if !s.sqGoes q || x.waiting.isSome then none
  else
    match x.ind with
    | some i =>
      some (match s.indLine q x.ctx.toNat i (i.taken / 8) with
        | (.error e, s) => (.error e, s)
        | (.ok l, s) => (if l.isEmpty then .error .fail else .ok ((l.drop (i.taken % 8 * 64)).take 64), s))
    | none =>
      if x.head = x.tail ∨ !x.tailOk x.tail then none
      else some (s.feRead q x.ctx.toNat (x.ring + BitVec.ofNat 64 (64 * (x.head.toNat % 2 ^ x.logsz.toNat))) 64)

/-- A malformed packet: the queue stops at it in ERROR, and its index, or its position in an indirect buffer, is
reported; its line will be read again (R348, R381). -/
def State.malformed (s : State) (q : Nat) : State :=
  let x := s.sq q
  let n := match x.ind with
    | some i => i.taken
    | none => x.head.toNat
  let s := s.updSq q (fun x =>
    { x with st := .error, waiting := none,
             ind := x.ind.map (fun i => { i with ahead := i.ahead.filter (fun e => e.1 != i.taken / 8) }) })
  (s.report 5 x.ctx.toNat 0xFF 0xFF q n).dropPend (.sq q)

/-- An access for a packet that is not performed: it is noted while it waits for its answer, and else the packet is malformed;
one to a page that this device has been removed from is reported (R159, R348, R419). `read` tells that it is the read of the
packet itself. -/
def State.feStop (s : State) (q : Nat) (read : Bool) (e : NoAccess) : State :=
  match e with
  | .wait on => s.setPend (.sq q) 0 read on.toList
  | .fail => s.malformed q
  | .removed => (s.report 9 (s.sq q).ctx.toNat 0xFF 0xFF q 5).malformed q

/-- Reading the lines of an indirect buffer from the packet in process to 4 lines beyond it, each once (R347, R380). -/
def State.indAhead (s : State) (q : Nat) : State :=
  let x := s.sq q
  match x.ind with
  | none => s
  | some i =>
    let l := i.taken / 8
    let lines := (List.range 5).filterMap (fun k =>
      if l + k < (i.count + 7) / 8 ∧ !(i.ahead.any (fun e => e.1 == l + k)) then some (l + k) else none)
    let s := s.updSq q (fun x =>
      { x with ind := some { i with ahead := i.ahead.filter (fun e => decide (l ≤ e.1)) } })
    lines.foldl (fun s n => (s.indLine q x.ctx.toNat i n).2) s

/-- Going on to the next packet (R345, R347). -/
def State.packetNext (s : State) (q : Nat) : State :=
  let s := s.dropPend (.sq q)
  match (s.sq q).ind with
  | none => s.updSq q (fun x => { x with head := x.head + 1 })
  | some i =>
    if i.taken + 1 = i.count then s.updSq q (fun x => { x with head := x.head + 1, ind := none })
    else (s.updSq q (fun x => { x with ind := some { i with taken := i.taken + 1 } })).indAhead q

/-- Whether every packet before the next one has completed, which BAR, SIGNAL and a phase change wait for (R343, R344,
R346). -/
def State.earlierDone (s : State) (q : Nat) : Bool := (s.sq q).pending.isEmpty

/-- Processing a queue's next packet when it is of the given type and may be processed; one that cannot be read, or of
no type, is met by the first type's event (R343 to R348). One that may not be processed yet has been read: its line of an
indirect buffer is not read again (R380, R381). -/
def State.packetStep (s : State) (q ty : Nat) (act : List Byte → State → State) : State :=
  match s.nextPacket q with
  | none => s
  | some (.error e, s1) => if ty = 1 then s1.feStop q true e else s
  | some (.ok b, s1) =>
    let t := if 1 ≤ pktType b ∧ pktType b ≤ 7 then pktType b else 1
    if t ≠ ty ∨ pktPhase b ≠ s.plat.phase.toNat then s1
    else if (pktBar b || ty == 3) && !s.earlierDone q then s1
    else if !packetOk b (s.sq q).ind.isSome then s1.malformed q
    else act b { s1 with pends := s1.pends.filter (fun p => !(p.who == .sq q && p.fetch)) }

/-! ## The packets' actions (R344) -/

/-- A refused launch: reported with a reason, 1 for its descriptor and 2 for its code-object header; it completes at once
(R349). -/
def State.badLaunch (s : State) (q reason : Nat) : State :=
  (s.report 5 (s.sq q).ctx.toNat 0xFF 0xFF q reason).packetNext q

/-- LAUNCH_PACKET (R344, R346, R348, R349): the descriptor and the code-object header are read, and the grid is ready. -/
def execLaunchPacket (q : Nat) (s : State) : Out :=
  .next (s.packetStep q 1 (fun b s =>
    let x := s.sq q
    match s.feRead q x.ctx.toNat (pktVa b) 64 with
    | (.error e, s) => s.feStop q false e
    | (.ok d, s) =>
      let r := LaunchRec.ofBytes d
      if !r.ok || r.phase.toNat != pktPhase b then s.badLaunch q 1
      else
        match s.feRead q x.ctx.toNat (r.code - 8) 8 with
        | (.error e, s) => s.feStop q false e
        | (.ok h, s) =>
          if !headerOk (natOf h) then s.badLaunch q 2
          else
            let (id, s) := s.fresh
            let g : Grid :=
              { id := id, ctx := x.ctx.toNat, launch := r, next := 0, ended := 0, base := min 7 x.prio.toNat,
                readySince := s.stc, lastPlace := s.stc, queue := some (q, x.head.toNat), die := none, done := none }
            let s := { s with grids := s.grids ++ [g] }
            (s.updSq q (fun x => { x with pending := x.pending ++ [(id, x.head.toNat)] })).packetNext q))

/-- PHASE_PACKET (R344): the phase rule only. -/
def execPhasePacket (q : Nat) (s : State) : Out := .next (s.packetStep q 2 (fun _ s => s.packetNext q))

/-- SIGNAL_PACKET (R344): a 64-bit write or atomic add at the home. -/
def execSignalPacket (q : Nat) (s : State) : Out :=
  .next (s.packetStep q 3 (fun b s =>
    let v := pktNat b 16 8
    let add := pktNat b 24 1 == 1
    match s.feModify q (s.sq q).ctx.toNat (pktVa b) add (fun old => if add then old + v else v) with
    | (.ok _, s) => s.packetNext q
    | (.error e, s) => s.feStop q false e))

/-- Reading the word of a WAIT packet: whether its condition holds, or why it is not read (R344). -/
def State.waitWord (s : State) (q : Nat) (b : List Byte) : Except NoAccess Bool × State :=
  match s.feRead q (s.sq q).ctx.toNat (pktVa b) 4 with
  | (.error e, s) => (.error e, s)
  | (.ok w, s) =>
    (.ok (condRel (pktNat b 20 1 % 4) (pktNat b 20 1 / 4 == 1) (BitVec.ofNat 32 (natOf w))
      (BitVec.ofNat 32 (pktNat b 16 4))), s)

/-- WAIT_PACKET (R344): the word is read, and the queue is held while its condition does not hold. -/
def execWaitPacket (q : Nat) (s : State) : Out :=
  .next (s.packetStep q 4 (fun b s =>
    let t := pktNat b 24 8
    match s.waitWord q b with
    | (.error e, s) => s.feStop q false e
    | (.ok true, s) => s.packetNext q
    | (.ok false, s) =>
      (s.dropPend (.sq q)).updSq q (fun x => { x with waiting := some (if t = 0 then 0 else min (s.stc + t) (2 ^ 64 - 1), b) })))

/-- The WAIT packet in progress of a queue that may process. -/
def State.waitOf (s : State) (q : Nat) : Option (Nat × List Byte) := if s.sqGoes q then (s.sq q).waiting else none

/-- WAIT_PACKET_REEVALUATE (R344, R348). -/
def execWaitPacketReevaluate (q : Nat) (s : State) : Out :=
  .next (match s.waitOf q with
    | none => s
    | some (_, b) =>
      match s.waitWord q b with
      | (.error e, s) => s.feStop q false e
      | (.ok true, s) => (s.updSq q (fun x => { x with waiting := none })).packetNext q
      | (.ok false, s) => s.dropPend (.sq q))

/-- WAIT_PACKET_TIMEOUT (R344, R348): at the deadline the word is read once more; unless it meets the condition, the timeout is
reported and the packet completes. -/
def execWaitPacketTimeout (q : Nat) (s : State) : Out :=
  .next (match s.waitOf q with
    | none => s
    | some (dl, b) =>
      if dl = 0 ∨ s.stc < dl then s
      else
        let out (s : State) : State := (s.updSq q (fun x => { x with waiting := none })).packetNext q
        let x := s.sq q
        match s.waitWord q b with
        | (.ok true, s) => out s
        | (.error .fail, s) => s.feStop q false .fail
        | (.error .removed, s) => s.feStop q false .removed
        | (_, s) => out (s.report 6 x.ctx.toNat 0xFF 0xFF q x.head.toNat))

/-- COPY_PACKET (R344): one copy-engine command in the queue's context; one that R253 would refuse fails at once (log
62), and one of no bytes ends at once (R254). -/
def execCopyPacket (q : Nat) (s : State) : Out :=
  .next (s.packetStep q 5 (fun b s =>
    let x := s.sq q
    let (id, s) := s.fresh
    let src := pktVa b
    let dst : DWord := BitVec.ofNat 64 (pktNat b 16 8)
    let n : DWord := BitVec.ofNat 64 (pktNat b 24 8)
    let c : Cmd :=
      { id := id, owner := none, core := 0, ctx := x.ctx.toNat, eng := 0, a := src, b := dst, c := n, d := 0,
        batch := none, moved := false, met := false, tag := none, failed := !s.cmdValid 0 src dst n 0, ended := false,
        startedAt := s.stc, queue := some q, posted := false, cid := 0, data := none }
    if n = 0 && !c.failed then s.packetNext q
    else
      let s := { s with cmds := s.cmds ++ [c] }
      (s.updSq q (fun x => { x with pending := x.pending ++ [(id, x.head.toNat)] })).packetNext q))

/-- INDIRECT_PACKET (R344, R347, R380): the buffer's packets are processed in place of this one; its first lines are
read. -/
def execIndirectPacket (q : Nat) (s : State) : Out :=
  .next (s.packetStep q 6 (fun b s =>
    let i : Ind := { va := pktVa b, count := pktNat b 16 4, taken := 0, ahead := [] }
    (s.updSq q (fun x => { x with ind := some i })).indAhead q))

/-- MARKER_PACKET (R344): the STC is written as a volatile write. -/
def execMarkerPacket (q : Nat) (s : State) : Out :=
  .next (s.packetStep q 7 (fun b s =>
    match s.feModify q (s.sq q).ctx.toNat (pktVa b) false (fun _ => s.stc) with
    | (.ok _, s) => s.packetNext q
    | (.error e, s) => s.feStop q false e))

/-! ## The coherence phase (R161, R346) -/

/-- Every L1 of the device writes back and invalidates its lines (R161). -/
def State.cleanAll (s : State) : State := s.cores.foldl (fun s c => s.acquire c.id) s

/-- COHERENCE_CLEAN (R161, R346): a queue's next packet names another phase, and every earlier packet of it has
completed: caches are cleaned, and the phase changes. -/
def execCoherenceClean (q : Nat) (s : State) : Out :=
  .next (match s.nextPacket q with
    | some (.ok b, s1) =>
      if pktPhase b ≠ s.plat.phase.toNat ∧ s.earlierDone q then
        let s1 := s1.cleanAll
        { s1 with plat := { s1.plat with phase := BitVec.ofNat 16 (pktPhase b) } }
      else s1
    | _ => s)

/-! ## Registers of a queue (R342, R399, R403) -/

/-- A queue enters ERROR, which is reported (R342, R404). -/
def State.sqError (s : State) (q : Nat) : State :=
  let x := s.sq q
  (s.updSq q (fun x => { x with st := .error, waiting := none })).report 6 x.ctx.toNat 0xFF 0xFF q x.head.toNat

/-- A doorbell: a virtual function's reaches its own context's queues only. A tail beyond the ring of a registered queue
puts it into ERROR (R342, R399). -/
def execDoorbell (vf : Option Nat) (q : Nat) (tail : BitVec 32) (s : State) : Out :=
  let x := s.sq q
  .next (match vf with
    | some c =>
      if !x.reg ∨ x.ctx.toNat ≠ c then s.report 9 c 0xFF 0xFF q tail.toNat
      else ring s x
    | none => ring s x)
where
  ring (s : State) (x : Sq) : State :=
    if x.reg && !x.tailOk tail then s.sqError q else s.updSq q (fun x => { x with tail := tail })

/-- Whether a queue's descriptor keeps R342's limits. -/
def Sq.limitsOk (x : Sq) : Bool :=
  x.ring.extractLsb' 0 12 == 0 && decide (4 ≤ x.logsz.toNat) && decide (x.logsz.toNat ≤ 16) &&
    decide (x.ctx.toNat ≤ 31) && decide (x.prio.toNat ≤ 7)

/-- SQ_STATE_WRITE (R342, R348, R403): RUNNING registers the queue, or resumes it at HEAD; a WAIT starts afresh. -/
def execSqStateWrite (q : Nat) (v : BitVec 8) (s : State) : Out :=
  .next (if v = 1 then
      (if (s.sq q).st = .running then s
       else if (s.sq q).limitsOk && (s.sq q).tailOk (s.sq q).tail then s.updSq q (fun x => { x with st := .running, reg := true, waiting := none })
       else s.sqError q)
    else if v = 0 then (s.updSq q (fun x => { x with st := .stopped, waiting := none })).dropPend (.sq q)
    else s.report 9 (s.sq q).ctx.toNat 0xFF 0xFF (0x40000 + 32 * q) v.toNat)

end Sys2Proof.Machine
end

