-- ==== Sys2Proof/Machine/Place.lean ====
section
/-! DEFINITION. The dispatchers: where a group fits, starting it, reclaiming granules, priority and ageing, requests for
saves and restores, and the end of groups and grids (R14, R24, R30, R107 to R112, R246, R269, R272 to R274, R350 to R355,
R377, R382). -/

namespace Sys2Proof.Machine

/-! ## Room (R10, R14, R30, R107, R353) -/

/-- Register budget of sheaf i of a launch (R28). -/
def LaunchRec.budget (r : LaunchRec) (i : Nat) : Nat :=
  let v := (if i < r.n0.toNat then r.regs0 else r.regs1).toNat
  if v = 0 then 256 else v

/-- Granules that a group of a launch reserves (R107). -/
def LaunchRec.granules (r : LaunchRec) : Nat :=
  let s := (r.scratch.toNat + 1023) / 1024 * 1024
  (s + 1024 + 16383) / 16384

/-- FUSE, SAVE and MIGR (R267). -/
def LaunchRec.fuse (r : LaunchRec) : Bool := r.flags.getLsbD 0
def LaunchRec.saves (r : LaunchRec) : Bool := r.flags.getLsbD 1
def LaunchRec.migr (r : LaunchRec) : Bool := r.flags.getLsbD 2

/-- Groups resident on a core, handler sheaves included. -/
def State.onCore (s : State) (core : Nat) : List Group := s.groups.filter (fun g => g.core == core && g.st != .done)

/-- Sheaves resident on a quarter. -/
def State.onQuarter (s : State) (core q : Nat) : List Sheaf :=
  (s.onCore core).flatMap (fun g => g.sheaves.filter (fun x => x.quarter == q))

/-- Registers that a budget takes of a quarter: units of 8, rounded up (R29). -/
def regUnits (budget : Nat) : Nat := (budget + 7) / 8 * 8

/-- Registers of a quarter that are taken (R14, R29). -/
def State.regsTaken (s : State) (core q : Nat) : Nat :=
  ((s.onQuarter core q).map (fun x => regUnits x.budget)).foldl (· + ·) 0

/-- Whether a quarter has room for sheaves of the given budgets (R14, R29, R30). -/
def State.quarterFits (s : State) (core q : Nat) (budgets : List Nat) : Bool :=
  decide ((s.onQuarter core q).length + budgets.length ≤ 16) &&
    decide ((budgets.map regUnits).foldl (· + ·) (s.regsTaken core q) ≤ 1024)

/-- Whether a handler batch waits for room on a core (R365). -/
def State.roomWanted (s : State) (core : Nat) : Bool := (s.core core).batches.any (fun b => b.closed.isSome)

/-- Whether a work core of a ready die has the registers, sheaf slots and granules for one group of a launch (R10, R14, R30,
R107, R419). -/
def State.hasRoom (s : State) (r : LaunchRec) (core : Nat) : Bool :=
  coreOf core != 0 && s.plat.ready0.getLsbD (4 + dieOf core) && decide (r.granules ≤ (s.lent core).length) &&
    decide ((s.onCore core).length < 64) &&
    (List.range 4).all (fun q =>
      s.quarterFits core q (((List.range r.sheaves.toNat).filter (fun i => i % 4 == q)).map r.budget))

/-- Whether a core can take one group of a launch: it has room, no handler batch waits for room there, and with FUSE it
belongs to no fused L1 (R353, R365). -/
def State.canTake (s : State) (r : LaunchRec) (core : Nat) : Bool :=
  s.hasRoom r core && !s.roomWanted core && (!r.fuse || (s.core core).fused.isNone)

/-- The cores of the rectangle at a top-left core, by panicle slot; none when it leaves the die (R353). -/
def rectangle (w h core : Nat) : Option (List Nat) :=
  let k := coreOf core
  if k % 8 + w ≤ 8 ∧ k / 8 + h ≤ 9 then
    some ((List.range (w * h)).map (fun p => core + p % w + 8 * (p / w)))
  else none

/-- Width and height of a launch's panicles; a group without a shape is one core. -/
def LaunchRec.rect (r : LaunchRec) : Nat × Nat := (max 1 r.pw.toNat, max 1 r.ph.toNat)

/-- Whether a unit of a launch fits with its top left at a core. -/
def State.fitsAt (s : State) (r : LaunchRec) (core : Nat) : Bool :=
  match rectangle r.rect.1 r.rect.2 core with
  | none => false
  | some cs => cs.all (s.canTake r)

/-- The lowest top-left core of a die where a unit of a launch fits (R353). -/
def State.findRoom (s : State) (r : LaunchRec) (die : Nat) : Option Nat :=
  ((List.range 72).map (fun k => 72 * die + k)).find? (s.fitsAt r)

/-- The die that the next unit of a host launch is handed to: that with the most cores that have room for a group of it then, the
lowest among equals (R350; log 63). -/
def State.bestDie (s : State) (r : LaunchRec) : Nat :=
  let n (d : Nat) : Nat := ((List.range 72).filter (fun k => s.hasRoom r (72 * d + k))).length
  (List.range 4).foldl (fun b d => if n b < n d then d else b) 0

/-! ## Starting groups (R24, R108 to R112) -/

/-- The initial tiller of a sheaf (R24). -/
def Tiller.start (code : DWord) (fmt : Word) (mask : Mask) : Tiller :=
  { idx := 0, pc := code, mask := mask, fmt := fmt, stack := [], st := .ready, age := 0, yielded := false, prods := [],
    todo := none, probed := false, stallEnd := 0, since := 0, queued := none }

/-- A sheaf at its start (R24, R251). -/
def Sheaf.start (idx slot quarter budget : Nat) (code arg : DWord) (fmt : Word) (mask : Mask) : Sheaf :=
  { idx := idx, slot := slot, quarter := quarter, budget := budget, vregs := [], preds := [],
    scalars := cset (cset [] 0 (arg.setWidth 32)) 1 ((arg >>> 32).setWidth 32), upreds := 0, exited := ~~~mask,
    helpers := 0, tillers := [Tiller.start code fmt mask], joins := [], board := [], oplog := [], parked := [], eqa := 0,
    eqb := 0, eqc := 0, eqd := 0, lastb := 0, batches := [], hits := [], ended := false }

/-- The lowest sheaf slot of a quarter that no resident sheaf, and none of `more`, holds. -/
def State.freeSlot (s : State) (core q : Nat) (more : List Sheaf) : Nat :=
  (firstFree 16 (((s.onQuarter core q) ++ more.filter (fun x => x.quarter == q)).map Sheaf.slot)).getD 15

/-- The lowest group slot of a core (R377); handler sheaves hold none. -/
def State.freeGroupSlot (s : State) (core : Nat) : Nat :=
  (firstFree 64 (((s.onCore core).filter (fun g => g.kind != .handler)).map Group.slot)).getD 63

/-- A group before its sheaves are placed. -/
def Group.start (gid : Nat) (kind : GKind) (ctx core slot grid linear pan pslot : Nat) (r : LaunchRec) (mark : Nat) :
    Group :=
  { gid := gid, kind := kind, ctx := ctx, core := core, slot := slot, grid := grid, linear := linear, pan := pan,
    pslot := pslot, launch := r, st := .resident, sheaves := [], scratch := [], pbars := [], bars := [], deque := [],
    mailbox := [], grc := 0, rate := 16, rateMark := mark, granules := [], stream := Stream.init, entries := [],
    save := none, asked := none, stamps := [], swapSince := none }

/-- Granules among those given that still hold lines of their L1. -/
def State.dirtyWays (s : State) (core : Nat) (gs : List Nat) : List Nat :=
  gs.filter (fun k => (s.core core).lines.any (fun x => x.tag.way == k))

/-- Taking granules of a core for a group: the lowest lent ones; the group waits in RECLAIM while any of them holds a
line (R109, R110). -/
def State.takeGranules (s : State) (core n : Nat) : List Nat × Bool × State :=
  let gs := (s.lent core).take n
  let busy := s.dirtyWays core gs
  (gs, !busy.isEmpty, s.updCore core (fun c => { c with reclaiming := c.reclaiming ++ busy }))

/-- Adding one group to a core, with its sheaves on quarters mod(i, 4) in the lowest free slots (R24, R30, R377). -/
def State.addGroup (s : State) (x : Grid) (core linear pan pslot : Nat) : State :=
  let (gid, s) := s.fresh
  let r := x.launch
  let slot := s.freeGroupSlot core
  let sheaves := (List.range r.sheaves.toNat).foldl (fun l i =>
    l ++ [Sheaf.start i (s.freeSlot core (i % 4) l) (i % 4) (r.budget i) r.code r.arg r.fmt Mask.full]) []
  let (gs, busy, s) := s.takeGranules core r.granules
  let g := Group.start gid .user x.ctx core slot x.id linear pan pslot r (s.cycle / 64)
  let g := { g with sheaves := sheaves, granules := gs, st := if busy then .reclaim else .resident }
  { s with groups := s.groups ++ [g] }

/-- Forming the fused L1 of a rectangle: every participating L1 writes back and invalidates its lines (R112). -/
def State.fuseCores (s : State) (w h top : Nat) (cs : List Nat) : State :=
  let s := cs.foldl (fun s c => s.acquire c) s
  cs.foldl (fun s c => s.updCore c (fun k => { k with fused := some (top, w, h) })) s

/-- Dissolving the fused L1 that a core belongs to (R112). -/
def State.unfuse (s : State) (core : Nat) : State :=
  let cs := s.l1Group core
  let s := s.acquire core
  cs.foldl (fun s c => s.updCore c (fun k => { k with fused := none })) s

/-- An entry of the pending-launch queue frees when its child's first group is placed, and waiters take it (R269). -/
def State.freePending (s : State) (grid : Nat) : State :=
  match s.pending.find? (fun p => p.grid == grid) with
  | none => s
  | some p => { s with pending := s.pending.filter (fun e => e.grid != grid) }.serveLaunch p.gid

/-- Changing one grid. -/
def State.updGrid (s : State) (id : Nat) (f : Grid → Grid) : State :=
  { s with grids := updWhere (fun x => x.id == id) f s.grids }

/-- Placing the next unit of a launch at a core, or on a rectangle from it (R352, R353). -/
def State.placeUnit (s : State) (x : Grid) (core : Nat) : State :=
  let r := x.launch
  let (w, h) := r.rect
  let n := r.shape
  let cs := (rectangle w h core).getD [core]
  let s := if r.fuse && r.pw != 0 then s.fuseCores w h core cs else s
  let s := cs.zipIdx.foldl (fun s c => s.addGroup x c.1 (x.next * n + c.2) x.next c.2) s
  (s.updGrid x.id (fun y => { y with next := y.next + 1, lastPlace := s.stc, die := if y.queue.isSome then none else y.die })).freePending x.id

/-! ## Who goes first (R351, R352, R382) -/

/-- A launch, or a saved unit entered for restore, that waits to be placed: base priority, the tick it became ready, the
tick from which it ages, and its queue number. -/
structure Ready where
  launch : LaunchRec
  base : Nat
  since : Nat
  mark : Nat
  queue : Nat
  /-- Its grid, or its image. -/
  what : Grid ⊕ Image
  deriving DecidableEq, Repr

/-- Ticks since a ready launch last placed a group, and its effective level (R351). -/
def State.waited (s : State) (r : Ready) : Nat := s.stc - r.mark
def State.level (s : State) (r : Ready) : Nat := min 7 (r.base + s.waited r / max 1 s.plat.starve.toNat)

/-- Whether a launch has aged to level 7 (R351). -/
def State.aged (s : State) (r : Ready) : Bool :=
  s.level r == 7 && decide (1 ≤ s.waited r / max 1 s.plat.starve.toNat)

/-- Whether a context's groups may be placed (R360, R362). -/
def State.ctxGoes (s : State) (ctx : Nat) : Bool :=
  let c := s.ctxSt ctx
  !c.halted && c.pre != .preempting && c.pre != .preempted

/-- Whether a device launch is the first entry of its group's pending-launch queue, or has left it (R269). -/
def State.firstPending (s : State) (x : Grid) : Bool :=
  match s.pending.find? (fun p => p.grid == x.id) with
  | none => true
  | some p => (s.pending.find? (fun e => e.gid == p.gid)).map PendLaunch.grid == some x.id

/-- Base priority of a saved unit: its launch's (R355). -/
def State.imageBase (s : State) (m : Image) : Nat :=
  match m.groups with
  | [] => 0
  | g :: _ => ((s.grids.find? (fun x => x.id == g.grid)).map Grid.base).getD (min 7 g.launch.prio.toNat)

/-- Handing the next unit of each host launch to a die, once: as the launch becomes ready, and as its unit before is placed (R350,
R351; log 63). -/
def State.handOut (s : State) : State :=
  { s with grids := s.grids.map (fun x =>
      if x.queue.isSome && x.die.isNone && decide (x.next * x.launch.shape < x.launch.count) then
        { x with die := some (s.bestDie x.launch) }
      else x) }

/-- What waits to be placed on a die: launches handed to it, and units saved there that are entered for restore. -/
def State.readyFor (s : State) (die : Nat) : List Ready :=
  (s.grids.filter (fun x => decide (x.next * x.launch.shape < x.launch.count) && s.ctxGoes x.ctx && s.firstPending x &&
      x.die == some die)).map (fun x =>
    { launch := x.launch, base := x.base, since := x.readySince, mark := x.lastPlace,
      queue := (x.queue.map Prod.fst).getD 1024, what := .inl x }) ++
  s.images.filterMap (fun m =>
    match m.groups, m.wanted with
    | g :: _, some t =>
      if m.die = die && !m.asked && !m.dead && s.ctxGoes g.ctx then
        some { launch := g.launch, base := s.imageBase m, since := t, mark := t, queue := 1025, what := .inr m }
      else none
    | _, _ => none)

/-- Whether one ready launch goes before another: level, then earliest ready, then queue (R352). -/
def State.before (s : State) (a b : Ready) : Bool :=
  if s.level a ≠ s.level b then decide (s.level b < s.level a)
  else if a.since ≠ b.since then decide (a.since < b.since)
  else decide (a.queue < b.queue)

/-- Putting a ready launch in its place. -/
def State.rankInto (s : State) (x : Ready) : List Ready → List Ready
  | [] => [x]
  | y :: r => if s.before x y then x :: y :: r else y :: s.rankInto x r

/-- The ready launches in the order in which they are tried. -/
def State.ranked (s : State) (die : Nat) : List Ready := (s.readyFor die).foldl (fun l x => s.rankInto x l) []

/-- Whether an aged launch that does not fit keeps another from being placed (R352, R382). -/
def State.blocks (s : State) (a b : Ready) : Bool :=
  s.aged a && (decide (s.level b < 7) || decide (a.since < b.since))

/-- The first of the ranked launches that fits and that no aged launch before it keeps out, with its place, and the
launches that do not fit (R352, R382). -/
def State.choose (s : State) (die : Nat) : List Ready → List Ready → Option (Ready × Nat) × List Ready
  | [], no => (none, no)
  | x :: r, no =>
    if no.any (fun a => s.blocks a x) then s.choose die r no
    else match s.findRoom x.launch die with
      | some c => (some (x, c), no)
      | none => s.choose die r (no ++ [x])

/-! ## Saves for swap-out and migration (R354, R355, R377) -/

/-- Groups that move together: the panicle of a group, or a group without a shape (R356). -/
def State.unitOf (s : State) (g : Group) : List Group :=
  s.groups.filter (fun x => x.grid == g.grid && x.pan == g.pan && x.kind == g.kind && x.ctx == g.ctx)

/-- Whether every live tiller of a group waits in WAITV.SWAP (R355); a resident group that has no live tiller left only
waits for its end, and is not saved (log 140). -/
def Group.swappable (g : Group) : Bool :=
  g.kind == .user && (g.st == .done || (g.st == .resident && g.sheaves.any (fun x => !x.tillers.isEmpty))) &&
    g.sheaves.all (fun x => x.tillers.all (fun t => match t.st with
      | .eventWait (.waitv w) => w.x.fn.getLsbD 3
      | _ => false))

/-- Noting since when each group has been in the condition of R355. -/
def State.noteSwap (s : State) : State :=
  { s with groups := s.groups.map (fun g =>
      if !g.swappable then { g with swapSince := none }
      else { g with swapSince := some (g.swapSince.getD s.stc) }) }

/-- A tag that no other saved group of a die holds (R377). -/
def State.freeTag (s : State) (die : Nat) : Nat :=
  let used := ((s.images.filter (fun m => m.die == die)).filterMap Image.tag).map Prod.snd ++
    ((s.groups.filter (fun g => dieOf g.core == die)).filterMap Group.asked).map Prod.snd
  (firstFree 65536 used).getD 0

/-- Asking a die's steward to save a unit, named by its group in slot 0 (R377). -/
def State.askSave (s : State) (g : Group) (kind : Nat) : State :=
  let die := dieOf g.core
  let unit := s.unitOf g
  let tag := s.freeTag die
  let head := (unit.find? (fun x => x.pslot == 0)).getD g
  let s := { s with groups := updWhere (fun x => unit.any (fun u => u.gid == x.gid))
                      (fun x => { x with asked := some (kind, tag) }) s.groups }
  let q : DspReq := { kind := kind, tag := tag, locator := coreOf head.core + 2 ^ 8 * head.slot }
  s.updDie die (fun d => { d with dspreq := d.dspreq ++ [q] })

/-- Asking a die's steward to restore an image onto a core (R377). -/
def State.askRestore (s : State) (m : Image) (core : Nat) : State :=
  let q : DspReq := { kind := 3, tag := (m.tag.map Prod.snd).getD 0, locator := coreOf core }
  let s := { s with images := updWhere (fun x => x.id == m.id) (fun x => { x with asked := true }) s.images }
  s.updDie m.die (fun d => { d with dspreq := d.dspreq ++ [q] })

/-- Whether a save asked for on a die has not ended. -/
def State.saveUnderWay (s : State) (die : Nat) : Bool :=
  s.groups.any (fun g => dieOf g.core == die && (g.asked.isSome || g.save.isSome))

/-- The unit to swap out: of the groups whose whole unit is in the condition of R355, the one longest in it. -/
def State.swapVictim (s : State) (die : Nat) : Option Group :=
  let cand := s.groups.filter (fun g => dieOf g.core == die && g.swapSince.isSome &&
    (s.unitOf g).all (fun u => u.swapSince.isSome) && g.st == .resident)
  cand.foldl (fun b g => match b with
    | none => some g
    | some c => if g.swapSince.getD 0 < c.swapSince.getD 0 then some g else some c) none

/-- A MIGR unit of a running launch whose move lets an aged launch in and finds another place itself (R354). -/
def State.migrant (s : State) (die : Nat) (want : LaunchRec) : Option Group :=
  (s.groups.filter (fun g => dieOf g.core == die && g.kind == .user && g.st == .resident && g.launch.migr)).find? (fun g =>
    let unit := s.unitOf g
    let away := { s with groups := s.groups.filter (fun x => !(unit.any (fun u => u.gid == x.gid))) }
    match away.findRoom want die with
    | none => false
    | some c =>
      let x : Grid := { id := 0, ctx := 0, launch := want, next := 0, ended := 0, base := 0, readySince := 0,
                        lastPlace := 0, queue := none, die := none, done := none }
      ((away.placeUnit x c).findRoom g.launch die).isSome)

/-- What a dispatcher does for launches that do not fit: a migration for an aged one, else a swap-out (R354, R355). -/
def State.makeRoom (s : State) (die : Nat) (no : List Ready) : State :=
  if s.saveUnderWay die then s
  else
    match (no.find? s.aged).bind (fun a => s.migrant die a.launch), no with
    | some g, _ => s.askSave g 1
    | none, [] => s
    | none, _ => match s.swapVictim die with
      | some g => s.askSave g 0
      | none => s

/-- DISPATCH_PLACE (R350 to R355, R382): a die's dispatcher places the next group, or panicle, of the best ready launch
that fits, or asks for a restore; for those that do not fit it may ask for a save. -/
def execDispatchPlace (die : Nat) (s : State) : Out :=
  .next (if 4 ≤ die then s
    else
      let s := s.noteSwap.handOut
      let (got, no) := s.choose die (s.ranked die) []
      let s := match got with
        | some (x, c) => (match x.what with
          | .inl g => s.placeUnit g c
          | .inr m => s.askRestore m c)
        | none => s
      s.makeRoom die no)

/-- RECLAIM_WRITEBACK_DONE (R109, R110): the lines of a granule being reclaimed are written back and invalidated; a group
whose granules are all SCRATCH may issue. -/
def execReclaimWritebackDone (core granule : Nat) (s : State) : Out :=
  .next (if !(s.core core).reclaiming.contains granule then s
    else
      let ls := ((s.core core).lines.filter (fun x => x.tag.way == granule)).map (fun x => x.tag.line)
      let s := ls.foldl (fun s l => s.dropLine core l) s
      let s := s.updCore core (fun c => { c with reclaiming := c.reclaiming.filter (fun k => k != granule) })
      let busy := (s.core core).reclaiming
      { s with groups := updWhere (fun g => g.core == core && g.st == .reclaim && g.save.isNone &&
          g.granules.all (fun k => !busy.contains k)) (fun g => { g with st := .resident }) s.groups })

/-! ## Restore entry (R274) -/

/-- The conditions of a wait evaluated by the dispatcher, each by itself. A read that meets a fault, a poisoned word or a wait
satisfies nothing: it places no record and parks nothing, and the restored tiller meets it again (R232, R274, R428; log 153). -/
def State.pollConds (s : State) (f : Frame) (w : WaitSt) : WaitSt × State :=
  w.conds.zipIdx.foldl (fun (acc : WaitSt × State) c =>
    if acc.1.latched.getLsbD c.2 then acc
    else
      match acc.2.evalCond f c.1 with
      | (.ok true, s) => ({ acc.1 with latched := setBit acc.1.latched c.2 true }, s)
      | (_, s) => (acc.1, s)) (w, s)

/-- The .SWAP wait of a tiller. -/
def Tiller.swapWait (t : Tiller) : Option WaitSt :=
  match t.st with
  | .eventWait (.waitv w) => if w.x.fn.getLsbD 3 then some w else none
  | _ => none

/-- The tillers of an image that wait under .SWAP, with their waits. -/
def Image.swapWaits (m : Image) : List (Frame × WaitSt) :=
  m.groups.flatMap (fun g => g.sheaves.flatMap (fun x => x.tillers.filterMap (fun t =>
    t.swapWait.map (fun w => ({ g := g, sh := x, t := t }, w)))))

/-- Changing the wait of one tiller of an image. -/
def Image.setWait (m : Image) (f : Frame) (w : WaitSt) : Image :=
  let inSheaf (x : Sheaf) : Sheaf :=
    { x with tillers := updWhere (fun t => t.idx == f.t.idx) (fun t => { t with st := .eventWait (.waitv w) }) x.tillers }
  let inGroup (g : Group) : Group := { g with sheaves := updWhere (fun x => x.idx == f.sh.idx) inSheaf g.sheaves }
  { m with groups := updWhere (fun g => g.gid == f.g.gid) inGroup m.groups }

/-- The .SWAP waits of an image evaluated as if its groups were resident, on the cores that they left: what has been satisfied is
latched, and nothing is after the deadline (R232 to R234, R274; log 85). -/
def State.pollImage (s : State) (m : Image) : Image × State :=
  let (n, s1) := m.swapWaits.foldl (fun (acc : Image × State) e =>
    if !e.2.counts acc.2.stc then acc
    else
      let (w, s) := acc.2.pollConds e.1 e.2
      (acc.1.setWait e.1 w, s)) (m, { s with groups := s.groups ++ m.groups })
  (n, { s1 with groups := s.groups })

/-- Whether the wait of a tiller would release, by its conditions or by its deadline. -/
def Tiller.wouldRelease (stc : Nat) (t : Tiller) : Bool :=
  match t.st with
  | .eventWait (.waitv w) => w.released || (!w.noLimit && decide (w.dlv ≤ stc))
  | _ => false

/-- SWAP_RESTORE_ENTRY (R274): the .SWAP waits of a saved group's image are evaluated, and once one of an image saved for
swap-out would release, it is entered for restore. -/
def execSwapRestoreEntry (gid : Nat) (s : State) : Out :=
  .next (match s.images.find? (fun m => m.groups.any (fun g => g.gid == gid)) with
    | none => s
    | some m =>
      if m.dead then s
      else
        let (n, s) := s.pollImage m
        let go := (n.tag.map Prod.fst) == some 0 &&
          n.groups.any (fun g => g.sheaves.any (fun x => x.tillers.any (Tiller.wouldRelease s.stc)))
        let n : Image := { n with wanted := n.wanted.orElse (fun _ => if go then some s.stc else none) }
        { s with images := updWhere (fun x => x.id == m.id) (fun _ => n) s.images })

/-! ## Ends (R246, R272) -/

/-- A grid leaves, and its packet completes (R344). -/
def State.gridOut (s : State) (x : Grid) : State :=
  let s := { s with grids := s.grids.filter (fun y => y.id != x.id) }.dropPend (.grid x.id)
  match x.queue with
  | some (q, _) => s.packetDone q x.id
  | none => s

/-- A grid whose groups have all ended: its counter takes 1 as a release of the grid's writes, which have all been performed, and
the grid leaves (R151, R246). The addition waits as any access does (R419); one that fails is reported. -/
def State.gridDone (s : State) (x : Grid) (core : Nat) : State :=
  if x.launch.counter = 0 then s.gridOut x
  else
    match s.addAt (.grid x.id) core x.ctx x.launch.counter 1 with
    | (.ok _, s) => s.gridOut x
    | (.error (.wait on), s) => s.noteWait (.grid x.id) on
    | (.error _, s) => (s.report 6 x.ctx (dieOf core) 0xFF x.launch.counter.toNat 0).gridOut x

/-- The additions to completion counters that still wait are performed when they can be. -/
def State.payGrids (s : State) : State :=
  s.grids.foldl (fun s x => match x.done with
    | some core => s.gridDone x core
    | none => s) s

/-- Whether every sheaf of a group has ended. -/
def Group.allEnded (g : Group) : Bool := !g.sheaves.isEmpty && g.sheaves.all Sheaf.ended

/-- Whether some write of a group's threads or stream is still held at the home of a read-duplicated page (R151, R157). -/
def State.holdsGroup (s : State) (gid : Nat) : Bool :=
  s.rds.any (fun e => e.held.any (fun w => match w.who with
    | .thread g _ _ => g == gid
    | .stream g => g == gid
    | _ => false))

/-- Whether everything that a group's end waits for is done (R246). Its held writes are waited for, since its grid's counter
releases them (R151). -/
def State.groupOver (s : State) (g : Group) : Bool :=
  g.st != .done && g.allEnded &&
    !s.cmds.any (fun c => !c.ended && (match c.owner with
      | some (k, _) => k == g.gid
      | none => false)) &&
    !(s.core g.core).loads.any (fun l => l.gid == g.gid) && g.stream.st != .running && !s.holdsGroup g.gid

/-- The stream of a group whose last sheaf has ended stops at its next instruction boundary, once what it has issued has
completed, and its context is freed (R272). -/
def State.stopStream (s : State) (g : Group) : State :=
  if g.allEnded && g.stream.st == .running && g.stream.flight.isEmpty then s.freeStream g.gid .ended else s

/-- Taking the members of a unit away when every one of them has ended (R108, R112). -/
def State.dropUnit (s : State) (g : Group) : State :=
  let unit := s.unitOf g
  if unit.length = g.slots && unit.all (fun u => u.st == .done) then
    let s := if (s.core g.core).fused.isSome && g.launch.fuse then s.unfuse g.core else s
    { s with groups := s.groups.filter (fun x => !(unit.any (fun u => u.gid == x.gid))) }
  else s

/-- A steal request of a group that ends is answered with false (R265). -/
def State.endMailbox (s : State) (g : Group) : State :=
  g.mailbox.foldl (fun s q => s.answer q (putFor q none)) (s.updGroup g.gid (fun g => { g with mailbox := [] }))

/-- A group leaves its core: its lines have been written back, its stream and tiles are freed, its granules return, and its
grid may complete (R246, R265, R272). -/
def State.leave (s : State) (g : Group) : State :=
  let s := s.freeStream g.gid (if g.stream.st = .idle then .idle else .ended)
  let s := s.endMailbox g
  let s := s.updGroup g.gid (fun g => { g with st := .done, sheaves := [], deque := [], bars := [] })
  if g.kind ≠ .user then { s with groups := s.groups.filter (fun x => x.gid != g.gid) }
  else
    let s := (s.dropUnit g).updGrid g.grid (fun x => { x with ended := x.ended + 1 })
    match s.grids.find? (fun x => x.id == g.grid) with
    | none => s
    | some x =>
      if x.ended = x.launch.count then
        let y : Grid := { x with done := some g.core }
        (s.updGrid x.id (fun _ => y)).gridDone y g.core
      else s

/-- GROUP_END (R246, R272, R392, R393): its stream stops; once all that it waits for is done, its lines and the counts of its
context on its core are written back, and the group leaves when those counts have been added. -/
def execGroupEnd (gid : Nat) (s : State) : Out :=
  .next (match s.group? gid with
    | none => s
    | some g0 =>
      let s := s.stopStream g0
      match s.group? gid with
      | none => s
      | some g =>
        if !s.groupOver g then s
        else
          let s := (s.release g.core).bbcFlush g.core g.ctx
          if (s.core g.core).bbcOut.any (fun o => o.ctx == g.ctx) then s else s.leave g)

end Sys2Proof.Machine
end

