-- ==== Sys2Proof/Machine/Save.lean ====
section
/-! DEFINITION. Saving and restoring groups, SEQX microcode, and the dispatchers' requests as the steward reads them
(R128, R299, R321, R356 to R359, R376 to R378, R413, R416). -/

namespace Sys2Proof.Machine

/-! ## Results of SAVEG and RESTG -/

/-- A scalar result to a destination; sz discards it. -/
def dstWrites (o : Opd) (v : Word) : List RegWrite :=
  match o with
  | .s n => [{ key := .s n.val, val := v }]
  | _ => []

/-- Giving the steward's tiller the result of a save or restore that has ended (R376). -/
def State.giveResult (s : State) (q : SaveReq) (v : Word) : State :=
  let ws := dstWrites q.dst v
  if ws.isEmpty then s
  else s.updSheaf q.gid q.sh (fun x => { x with board := x.board ++ [{ mem := false, writes := ws }] })

/-- Changing every group of a unit. -/
def State.updUnit (s : State) (unit : List Group) (f : Group → Group) : State :=
  { s with groups := updWhere (fun x => unit.any (fun u => u.gid == x.gid)) f s.groups }

/-! ## SAVEG (R356, R376) -/

/-- The group that a locator names on a die (R376, R377). -/
def State.located (s : State) (die : Nat) (loc : Word) : Option Group :=
  let c := loc.toNat % 128
  let slot := loc.toNat / 256 % 64
  if 72 ≤ c ∨ loc.toNat ≠ c + 256 * slot then none
  else s.groups.find? (fun g => g.core == 72 * die + c && g.slot == slot && g.kind != .handler && g.st != .done)

/-- A unit enters QUIESCE: its context's counters are written back, and its queued sequenced instructions leave with
SLICE, and a stream's instruction that waits for its rows is unissued again (R299, R321, R356, R392). -/
def State.quiesce (s : State) (unit : List Group) (q : SaveReq) : State :=
  let s := s.updUnit unit (fun g => { g with save := some q, st := if g.st = .done then .done else .quiesce })
  unit.foldl (fun s g => ((s.bbcFlush g.core g.ctx).seqFlush g.core g.gid).uncheck g) s

/-- SAVEG (R376): the save begins, and d receives its result when it ends. -/
def execSaveg (h : Hdr) (x : FA) (s : State) : Out :=
  issue (.saveg h x) s (fun f s =>
    let r := f.scalar s
    let now (v : Word) : State := (s.retire f (.saveg h x) (r.put x.d v)).advance f (.saveg h x)
    if !f.guardU h s.cycle then s.advance f (.saveg h x)
    else
      match s.located (dieOf f.g.core) (r.w32 x.a) with
      | none => now 1
      | some g =>
        let unit := s.unitOf g
        let area := r.w64 x.b
        if unit.any (fun u => u.save.isSome || (u.st != .resident && u.st != .done && u.st != .reclaim)) then now 1
        else if area.extractLsb' 0 12 != 0 then now 2
        else
          let q : SaveReq := { gid := f.g.gid, sh := f.sh.idx, dst := x.d, area := area, image := none }
          (s.quiesce unit q).advance f (.saveg h x))

/-- Whether a fault record is of a group's. -/
def FWho.ofGroup (w : FWho) (gid : Nat) : Bool :=
  match w with
  | .log g _ _ | .fetch g _ _ | .read g _ _ _ | .stream g | .queue _ _ g _ _ _ => g == gid
  | .seq _ | .cmd _ | .load _ _ => false

/-- Whether a handler sheaf, or a batch, holds lanes of a group (R356). -/
def State.handled (s : State) (g : Group) : Bool :=
  s.groups.any (fun k => k.kind == .handler && k.entries.any (fun e => e.gid == g.gid)) ||
    (s.core g.core).batches.any (fun b => b.entries.any (fun e => e.gid == g.gid))

/-- Whether a waiting access is of a group's threads or stream. -/
def Pend.ofGroup (p : Pend) (gid : Nat) : Bool :=
  match p.who with
  | .thread g _ _ | .stream g => g == gid
  | _ => false

/-- Whether a group in QUIESCE has nothing under way (R128, R299, R321, R356). -/
def State.quiet (s : State) (g : Group) : Bool :=
  let c := s.core g.core
  let waits (t : Tiller) : Bool := match t.st with
    | .eventWait .seq | .eventWait (.launch ..) => true
    | _ => false
  g.sheaves.all (fun x => x.board.isEmpty && x.oplog.all (fun e => e.tags.isEmpty && e.failed.isEmpty) &&
    !x.tillers.any waits) &&
  g.stream.flight.isEmpty && g.stream.faultTag.isNone && g.stream.stampTag.isNone && g.stream.checked.isNone &&
  !s.holdsGroup g.gid && !s.pends.any (fun p => !p.fetch && p.ofGroup g.gid) &&
  !s.cmds.any (fun k => !k.ended && (match k.owner with
    | some (n, _) => n == g.gid
    | none => false)) &&
  !c.loads.any (fun l => l.gid == g.gid) &&
  !(c.seqQ.any (fun q => q.gid == g.gid)) && (c.seqRun.map SeqRun.gid) != some g.gid &&
  !s.faults.any (fun r => r.who.ofGroup g.gid) && !s.handled g

/-- SAVE_QUIESCED (R356): every member is done with what was under way: the unit passes CHECKPOINT, with FENCE.AR in
every thread, and goes to WRITING. -/
def execSaveQuiesced (gid : Nat) (s : State) : Out :=
  .next (match s.group? gid with
    | none => s
    | some g =>
      let unit := s.unitOf g
      if g.st == .quiesce && unit.all (fun u => u.st == .done || (u.st == .quiesce && s.quiet u)) then
        let s := unit.foldl (fun s u => s.refresh u.core) s
        s.updUnit unit (fun u => { u with st := if u.st = .done then .done else .writing })
      else s)

/-! ## The image (R357, R359, R376) -/

/-- The 64-byte header and the body of one member's image (R376). -/
def saveBytes (ctx linear n : Nat) : List Byte :=
  let body := (List.range (Config.saveLen n).val).map (Config.saveBody n)
  let head := bytesOf 4 (64 + body.length) ++ bytesOf 4 ctx ++ bytesOf 4 linear ++ bytesOf 4 0
  head ++ shake256 body 32 ++ bytesOf 16 0 ++ body

/-- The number under which a member's image is laid out. -/
def Image.member (m : Image) (pslot : Nat) : Nat := 32 * m.id + pslot

/-- Where the members of an image lie, with their bytes (R376). -/
def Image.parts (m : Image) (area : DWord) : List (Nat × List Byte) :=
  m.groups.map (fun g => ((area.toNat + 2 ^ 22 * g.pslot) % 2 ^ 64, saveBytes g.ctx g.linear (m.member g.pslot)))

/-- The eight SEQX slots of a die as a save records them (R359). -/
def State.seqxRecord (s : State) (die : Nat) : List (Option (List Byte)) :=
  (List.range 8).map (fun k =>
    (((s.die die).seqx.find? (fun e => e.1 == k)).map Prod.snd).map (fun b => shake256 b 32))

/-- The tiles bound to the streams of a unit (R299). -/
def State.boundTiles (s : State) (unit : List Group) : List (Nat × Nat × Tile) :=
  unit.flatMap (fun g => g.stream.bind.filterMap (fun b =>
    ((s.core g.core).tiles[b.2]?).map (fun t => (g.gid, b.1, t))))

/-- Freeing the tiles of a group on its core. -/
def State.freeTiles (s : State) (g : Group) : State :=
  s.updCore g.core (fun c => { c with tiles := c.tiles.map (fun t =>
    if t.owner = some g.gid then { owner := none, acc := [], bound := 0, flag := false } else t) })

/-- The image of a unit under a number (R357, R376). -/
def State.imageOf (s : State) (unit : List Group) (g : Group) (q : SaveReq) (id : Nat) : Image :=
  { id := id, groups := unit.map (fun u => { u with save := none, asked := none, granules := [], swapSince := none }),
    tiles := s.boundTiles unit, die := dieOf g.core, tag := g.asked, area := q.area, seqx := s.seqxRecord (dieOf g.core),
    dead := false, wanted := none, asked := false }

/-- Writing an image's members into its area, for the steward on a core (R376). -/
def State.writeImage (s : State) (u : Use) (m : Image) : Except EngStop Unit × State :=
  (m.parts m.area).foldl (fun (acc : Except EngStop Unit × State) p =>
    match acc with
    | (.error e, s) => (.error e, s)
    | (.ok _, s) => s.engWrite u p.1 p.2) (.ok (), s)

/-- A save whose area faults: the unit stays RESIDENT (R356, R376). -/
def State.saveFailed (s : State) (unit : List Group) (q : SaveReq) : State :=
  (s.updUnit unit (fun u => { u with save := none, asked := none, st := if u.st = .done then .done else .resident })).giveResult q 2

/-- A save whose image has been written: the unit leaves its cores (R356). -/
def State.saveEnded (s : State) (unit : List Group) (g : Group) (q : SaveReq) (m : Image) : State :=
  let s := if (s.core g.core).fused.isSome && g.launch.fuse then s.unfuse g.core else s
  let s := unit.foldl (fun s u => s.freeTiles u) s
  let kind := g.asked.map Prod.fst
  let goes := kind == some 1 || (kind == some 2 && (s.ctxSt g.ctx).pre == .running)
  let m := { m with wanted := if goes then some s.stc else none }
  let gone (x : Group) : Bool := unit.any (fun u => u.gid == x.gid)
  { s with groups := s.groups.filter (fun x => !gone x), images := s.images ++ [m],
           pends := s.pends.filter (fun p => !unit.any (fun u => p.ofGroup u.gid)) }.giveResult q 0

/-- SAVE_WRITTEN (R356, R376): the state is written into the area, and once no write of it is held the unit leaves its cores; a
fault on the area leaves it RESIDENT. It waits for a stack or the fabric (R419). -/
def execSaveWritten (gid : Nat) (s : State) : Out :=
  .next (match s.group? gid with
    | none => s
    | some g =>
      match g.save with
      | none => s
      | some q =>
        let unit := s.unitOf g
        let who : Agent := .save ((unit.map Group.gid).headD gid)
        if g.st ≠ .writing then s
        else
          match q.image with
          | some id =>
            if s.holdsOf who then s else (s.dropPend who).saveEnded unit g q (s.imageOf unit g q id)
          | none =>
            let (id, s1) := s.fresh
            let m := s1.imageOf unit g q id
            match s1.writeImage { Use.firmware (s1.coreOfGroup q.gid) with who := who } m with
            | (.error (.wait on), _) => s.noteWait who on
            | (.error e, s) => ((s.noteRefusal (s.coreOfGroup q.gid) 63 e).dropPend who).saveFailed unit q
            | (.ok _, s) =>
              let s := s.dropPend who
              if s.holdsOf who then s.updUnit unit (fun u => { u with save := some { q with image := some id } })
              else s.saveEnded unit g q m)

/-! ## RESTG (R358, R359, R376) -/

/-- Whether an area holds the bytes of an image's members, or why they cannot be read. -/
def State.matches_ (s : State) (core : Nat) (area : DWord) (m : Image) : Except EngStop Bool × State :=
  (m.parts area).foldl (fun (acc : Except EngStop Bool × State) p =>
    match acc with
    | (.ok true, s) =>
      (match s.engRead (Use.firmware core) p.1 p.2.length with
       | (.ok b, s) => (.ok (b == p.2), s)
       | (.error e, s) => (.error e, s))
    | r => r) (.ok true, s)

/-- The image whose bytes stand in an area: its header's digest matches and every member can be read; none where a digest does
not match (R376). Or why a read goes no further. -/
def State.imageAt (s : State) (core : Nat) (area : DWord) : Except EngStop (Option Image) × State :=
  s.images.foldl (fun (acc : Except EngStop (Option Image) × State) m =>
    match acc with
    | (.ok none, s) =>
      (match s.matches_ core area m with
       | (.ok true, s) => (.ok (some m), s)
       | (.error e, s) => (.error e, s)
       | (_, s) => (.ok none, s))
    | r => r) (.ok none, s)

/-- Whether a die's SEQX slots match an image's record, or the die is the saving one (R359). -/
def State.seqxOk (s : State) (m : Image) (die : Nat) : Bool := die == m.die || s.seqxRecord die == m.seqx

/-- Whether the streams of an image's group find a context and tiles on a core (R277, R281). -/
def State.streamFits (s : State) (m : Image) (g : Group) (core : Nat) : Bool :=
  let active := g.stream.st == .running || g.stream.st == .halted
  let free := ((s.core core).tiles.filter (fun t => t.owner.isNone)).length
  (!active || decide (s.streamsOn core < 4)) &&
    decide ((m.tiles.filter (fun t => t.1 == g.gid)).length ≤ free)

/-- Placing one saved group on a core: its sheaves keep their quarters, and its granules are reclaimed (R356, R358). -/
def State.putBack (s : State) (g : Group) (core : Nat) (q : SaveReq) : State :=
  let slot := s.freeGroupSlot core
  let sheaves := g.sheaves.foldl (fun (l : List Sheaf) x =>
    l ++ [{ x with slot := s.freeSlot core x.quarter l }]) []
  let (gs, _, s) := s.takeGranules core g.launch.granules
  let g := { g with core := core, slot := slot, sheaves := sheaves, granules := gs, save := some q,
                    st := if g.st = .done then .done else .reclaim }
  { s with groups := s.groups ++ [g] }

/-- Restoring an image onto a core, or the rectangle from it. -/
def State.restore (s : State) (m : Image) (core : Nat) (q : SaveReq) : State :=
  match m.groups with
  | [] => s
  | g0 :: _ =>
    let (w, h) := g0.launch.rect
    let cs := (rectangle w h core).getD [core]
    let s := { s with images := s.images.filter (fun x => x.id != m.id) }
    let s := if g0.launch.fuse && g0.launch.pw != 0 then s.fuseCores w h core cs else s
    let s := m.groups.foldl (fun s g => s.putBack g (cs.getD g.pslot core) q) s
    m.tiles.foldl (fun s t =>
      match s.group? t.1 with
      | none => s
      | some g =>
        match (List.range 4).find? (fun n => ((s.core g.core).tiles[n]?).map Tile.owner == some none) with
        | none => s
        | some n =>
          let s := s.updCore g.core (fun c => { c with tiles := c.tiles.set n { t.2.2 with owner := some g.gid } })
          s.updStream g.gid (fun y => { y with bind := y.bind.map (fun b => if b.1 = t.2.1 then (b.1, n) else b) })) s

/-- The result of a RESTG that places nothing, or of an MCLD. -/
def State.endSteward (s : State) (f : Frame) (i : Instr) (d : Opd) (v : Word) : State :=
  ((s.dropPends f).retire f i ((f.scalar s).put d v)).advance f i

/-- An instruction of a steward whose reads wait stays with its unit (R419). -/
def State.stayUnit (s : State) (f : Frame) (on : Option Unanswered) : State :=
  (s.pendLanes f [(none, on)]).updT f (fun t => { t with st := .blocked .room })

/-- RESTG (R376): the image is checked and placed, and d receives 0 when the restore ends. -/
def execRestg (h : Hdr) (x : FA) (s : State) : Out :=
  issue (.restg h x) s (fun f s =>
    let r := f.scalar s
    let die := dieOf f.g.core
    let now (v : Word) (s : State) : State :=
      { s with images := updWhere (fun m => m.area == r.w64 x.b) (fun m => { m with asked := false }) s.images }.endSteward f
        (.restg h x) x.d v
    let c := (r.w32 x.a).toNat % 128
    let area := r.w64 x.b
    if !f.guardU h s.cycle then s.advance f (.restg h x)
    else if area.extractLsb' 0 12 != 0 then now 2 s
    else
      match s.imageAt f.g.core area with
      | (.error (.wait on), s) => s.stayUnit f on
      | (.error e, s) => now 2 (s.noteRefusal f.g.core 63 e)
      | (.ok none, s) => now 2 s
      | (.ok (some m), s) =>
        let core := 72 * die + c
        if m.dead then now 3 s
        else if !s.seqxOk m die then now 4 s
        else
          match m.groups with
          | [] => now 2 s
          | g :: _ =>
            let cs := (rectangle g.launch.rect.1 g.launch.rect.2 core).getD []
            let fits := decide (c < 72) && s.fitsAt g.launch core &&
              m.groups.all (fun u => s.streamFits m u (cs.getD u.pslot core))
            if !fits then now 1 s
            else
              let q : SaveReq := { gid := f.g.gid, sh := f.sh.idx, dst := x.d, area := area, image := none }
              ((s.dropPends f).restore m core q).advance f (.restg h x))

/-- A saved tiller back on a core: READY and BLOCKED ones are READY, waiting ones wait, and a WAITV notes the save (R233,
R358). -/
def Tiller.restored (t : Tiller) : Tiller :=
  match t.st with
  | .ready | .blocked _ => { t with st := .ready }
  | .eventWait (.waitv w) => { t with st := .eventWait (.waitv { w with sw := true }) }
  | _ => t

/-- A restored group, RESIDENT: its rate register starts again, and its open stamp records note the save (R130, R310,
R358). -/
def Group.restored (g : Group) (now : Nat) : Group :=
  { g with st := if g.st = .done then .done else .resident, save := none, rate := 16, rateMark := now,
           sheaves := g.sheaves.map (fun x => { x with tillers := x.tillers.map Tiller.restored }),
           stream := { g.stream with recs := g.stream.recs.map (fun r => { r with saved := true }) } }

/-- Evaluating the waits of a restored group, whatever their deadlines: a condition that latches now wins (R234, R274). -/
def State.waitsAnew (s : State) (gid : Nat) : State :=
  match s.group? gid with
  | none => s
  | some g => g.sheaves.foldl (fun s x => x.tillers.foldl (fun s t => match t.waiting, s.frameOf gid x.idx t.idx with
      | some w, some f => s.evalWait f w
      | _, _ => s) s) s

/-- Asking for the save of a unit that has been restored while its context is being pre-empted (R360). -/
def State.saveAgain (s : State) (gid : Nat) : State :=
  match s.group? gid with
  | some g => s.askSave g 2
  | none => s

/-- RESTORE_DONE (R356, R358): every granule of the unit is SCRATCH, its state is read, and it is RESIDENT. Its cores' L1s hold
nothing older than what it has read or written, and keep the fields of their lines (R135, R143, R163; log 73). Its waits are
evaluated (R274). While its context is being pre-empted, or is pre-empted, a unit of a launch with SAVE is saved again (R360). -/
def execRestoreDone (gid : Nat) (s : State) : Out :=
  .next (match s.group? gid with
    | none => s
    | some g =>
      let unit := s.unitOf g
      match g.save with
      | none => s
      | some q =>
        if g.st == .reclaim && unit.all (fun u => u.granules.all (fun k => !(s.core u.core).reclaiming.contains k)) then
          let s := unit.foldl (fun s u => s.refresh u.core) s
          let s := (s.updUnit unit (fun u => u.restored (s.cycle / 64))).giveResult q 0
          let s := unit.foldl (fun s u => s.waitsAnew u.gid) s
          if ((s.ctxSt g.ctx).pre == .preempting || (s.ctxSt g.ctx).pre == .preempted) && g.launch.saves then s.saveAgain gid else s
        else s)

/-! ## Measurements and signed images (R378, R413, R416) -/

/-- An extension: MEASi := SHAKE256(MEASi ‖ d, 64 bytes) (R416). -/
def State.extend (s : State) (i : Nat) (d : List Byte) : State :=
  let old := s.plat.meas.getD i []
  { s with plat := { s.plat with meas := s.plat.meas.set i (shake256 (old ++ d) 64) } }

/-- Extending with an object: d := SHAKE256(object, 64 bytes) (R416). -/
def State.extendWith (s : State) (i : Nat) (object : List Byte) : State := s.extend i (shake256 object 64)

/-- Body length of a signed image (R413). -/
def imageLen (b : List Byte) : Nat := natOf ((b.drop 4).take 4)

/-- Whether a signed image is accepted: its magic, its zero bytes, its length, its version and its signature (R413). -/
def imageOk (magic : Nat) (b : List Byte) : Bool :=
  natOf (b.take 4) == magic && natOf ((b.drop 12).take 52) == 0 && b.length == 64 + imageLen b + 2820 &&
    decide (Config.minVersion ≤ natOf ((b.drop 8).take 4)) && Config.signatureOk b

/-- Reading a signed image at a VA of context 63: header, then body and signature. -/
def State.readImage (s : State) (core : Nat) (va : DWord) : Except EngStop (List Byte) × State :=
  match s.engRead (Use.firmware core) va.toNat 64 with
  | (.error e, s) => (.error e, s)
  | (.ok h, s) =>
    match s.engRead (Use.firmware core) ((va.toNat + 64) % 2 ^ 64) (imageLen h + 2820) with
    | (.error e, s) => (.error e, s)
    | (.ok b, s) => (.ok (h ++ b), s)

/-- MCLD (R378, R413, R416): an image that is accepted replaces the slot on every core of the die, and extends MEAS2; one
without code empties the slot. -/
def execMcld (h : Hdr) (x : FA) (s : State) : Out :=
  issue (.mcld h x) s (fun f s =>
    let r := f.scalar s
    let die := dieOf f.g.core
    let k := (r.w32 x.a).toNat % 8
    let va := r.w64 x.b
    let now (v : Word) (s : State) : State := s.endSteward f (.mcld h x) x.d v
    let put (l : List (Nat × List Byte)) (s : State) : State :=
      s.updDie die (fun d => { d with seqx := l ++ d.seqx.filter (fun e => e.1 != k) })
    if !f.guardU h s.cycle then s.advance f (.mcld h x)
    else if va.extractLsb' 0 6 != 0 then now 3 s
    else
      match s.readImage f.g.core va with
      | (.error (.wait on), s) => s.stayUnit f on
      | (.error e, s) => now 3 (s.noteRefusal f.g.core 63 e)
      | (.ok b, s) =>
        if !imageOk 0x51584553 b then now 1 s
        else if imageLen b == 0 || Config.microCodeLen b == 0 then now 0 ((put [] s).extendWith 2 b)
        else if (Config.microDecl b).isNone then now 2 s
        else now 0 ((put [(k, b)] s).extendWith 2 b))

/-! ## DSPREQ (R377) -/

/-- DSPREQ: a steward read returns and removes the oldest request. -/
def execDspreq (die : Nat) (s : State) : Out := .next (s.dspPop die).2

end Sys2Proof.Machine
end

