-- ==== Sys2Proof/Machine/Control.lean ====
section
/-! DEFINITION. Handler batches and sheaves, pre-emption, context resets, cuts and gang slices (R360 to R365, R368,
R393). -/

namespace Sys2Proof.Machine

/-! ## Handler sheaves (R364, R365, R368) -/

/-- Code VA, argument VA and register budget of a context's handler (R365, R402, R414). -/
def State.handlerOf (s : State) (ctx : Nat) : DWord × DWord × Nat :=
  if ctx = 63 then (s.plat.fwHndCode, s.plat.fwHndArg, s.plat.fwHndRegs.toNat)
  else
    let c := s.ctxSt ctx
    (c.hndCode, c.hndArg, c.hndRegs.toNat)

/-- HANDLER_BATCH_CLOSE (R364): the open batch of a context on a core closes 64 cycles after its first entry. -/
def execHandlerBatchClose (core ctx : Nat) (s : State) : Out :=
  .next (s.updCore core (fun c =>
    { c with batches := updWhere (fun b => b.ctx == ctx && b.closed.isNone && decide (b.opened + 64 ≤ s.cycle))
               (fun b => { b with closed := some s.cycle }) c.batches }))

/-- The oldest closed batch of a context on a core. -/
def CoreSt.closedBatch (c : CoreSt) (ctx : Nat) : Option HBatch :=
  c.batches.find? (fun b => b.ctx == ctx && b.closed.isSome)

/-- Taking a batch away from its core's trap unit. -/
def State.dropBatch (s : State) (core : Nat) (b : HBatch) : State :=
  s.updCore core (fun c => { c with batches := c.batches.erase b })

/-- Free registers of a quarter (R14, R29). -/
def State.freeRegs (s : State) (core q : Nat) : Nat :=
  1024 - s.regsTaken core q

/-- The quarter of a core with the most free registers that can take a handler sheaf, the lowest among equals (R365). -/
def State.handlerQuarter (s : State) (core regs : Nat) : Option Nat :=
  (List.range 4).foldl (fun b q =>
    if !s.quarterFits core q [regs] then b
    else match b with
      | none => some q
      | some p => if s.freeRegs core p < s.freeRegs core q then some q else b) none

/-- A batch for which no handler runs: a double fault with handler cause 0 (R365, R368), which the gleaner sees (R391). -/
def State.noHandler (s : State) (core : Nat) (b : HBatch) : State :=
  ((s.dropBatch core b).updCore core (fun c => c.glnNote s.cycle true 0x0D)).report 7 b.ctx (dieOf core) (coreOf core) 0 0x0D

/-- Starting a handler sheaf for a batch on a quarter (R365). -/
def State.startHandler (s : State) (core q : Nat) (b : HBatch) : State :=
  let (code, arg, regs) := s.handlerOf b.ctx
  let (gid, s) := s.fresh
  let mask := Mask.ofLanes (List.range b.entries.length)
  let x := Sheaf.start 0 (s.freeSlot core q []) q regs code arg 0 mask
  let x := { x with scalars := cset x.scalars 2 (BitVec.ofNat 32 b.entries.length) }
  let g := Group.start gid .handler b.ctx core 0 0 0 0 0 LaunchRec.zero (s.cycle / 64)
  let g := { g with sheaves := [x], entries := b.entries }
  { s.dropBatch core b with groups := s.groups ++ [g] }

/-- HANDLER_SHEAF_START (R365): the oldest closed batch becomes a handler sheaf when a quarter has room; without handler
code it is a double fault. -/
def execHandlerSheafStart (core ctx : Nat) (s : State) : Out :=
  .next (match (s.core core).closedBatch ctx with
    | none => s
    | some b =>
      let (code, _, regs) := s.handlerOf ctx
      if code = 0 then s.noHandler core b
      else
        match s.handlerQuarter core regs with
        | none => s
        | some q => s.startHandler core q b)

/-- HANDLER_ROOM_TIMEOUT (R365): a batch that has waited 2,000,000 ticks for room is a double fault. -/
def execHandlerRoomTimeout (core ctx : Nat) (s : State) : Out :=
  .next (match (s.core core).closedBatch ctx with
    | none => s
    | some b => if stcAt (b.closed.getD 0) + 2000000 ≤ s.stc then s.noHandler core b else s)

/-! ## Pre-emption (R360, R361) -/

/-- A pre-emption begins: the dispatchers ask for the save of every resident unit of a launch with SAVE (R360). -/
def State.beginPreempt (s : State) (ctx : Nat) (byCut : Bool) : State :=
  let c := s.ctxSt ctx
  if 32 ≤ ctx ∨ c.pre = .preempting ∨ c.pre = .preempted then s
  else
    let s := s.updCtx ctx (fun c => { c with pre := .preempting, preAt := s.stc, byCut := byCut })
    (s.groups.filter (fun g => g.ctx == ctx && g.kind == .user && g.launch.saves)).foldl (fun s g =>
      match s.group? g.gid with
      | some g => if g.asked.isSome || g.save.isSome || g.st == .done then s else s.askSave g 2
      | none => s) s

/-- PREEMPT_REQUEST (R360, R402). -/
def execPreemptRequest (ctx : Nat) (s : State) : Out := .next (s.beginPreempt ctx false)

/-- PREEMPT_RELEASE (R360, R402): the context runs again, and its groups saved for the pre-emption are entered for
restore. -/
def execPreemptRelease (ctx : Nat) (s : State) : Out :=
  .next (if 32 ≤ ctx then s
    else
      let s := s.updCtx ctx (fun c => { c with pre := .running, byCut := false })
      let mine (m : Image) : Bool :=
        m.groups.any (fun g => g.ctx == ctx) && (m.tag.map Prod.fst) == some 2 && m.wanted.isNone && !m.dead
      { s with images := updWhere mine (fun m => { m with wanted := some s.stc }) s.images })

/-- Whether anything of a context remains on the device: a group, one whose restore has been asked for, a handler sheaf or batch,
an engine command (R360). -/
def State.remains (s : State) (ctx : Nat) : Bool :=
  s.groups.any (fun g => g.ctx == ctx) || s.cores.any (fun c => c.batches.any (fun b => b.ctx == ctx)) ||
    s.cmds.any (fun c => c.ctx == ctx && !c.ended) ||
    s.images.any (fun m => m.asked && !m.dead && m.groups.any (fun g => g.ctx == ctx))

/-- A pre-emption completes, which is reported to the host (R360). -/
def State.preempted (s : State) (ctx : Nat) : State :=
  (s.updCtx ctx (fun c => { c with pre := .preempted, byCut := false })).report 6 ctx 0xFF 0xFF ctx 0

/-- PREEMPT_COMPLETE (R360): nothing of the context remains; completion is reported to the host. -/
def execPreemptComplete (ctx : Nat) (s : State) : Out :=
  .next (if (s.ctxSt ctx).pre = .preempting ∧ !s.remains ctx then s.preempted ctx else s)

/-- The highest base priority of a context: of its registered queues, whatever their state, and of its launches that are ready or
have a group resident or saved; 0 when it has none (R361, R403; log 141). -/
def State.topPrio (s : State) (ctx : Nat) : Nat :=
  let qs := (s.sqs.filter (fun q => q.ctx.toNat == ctx && q.reg)).map (fun q => q.prio.toNat)
  let here (x : Grid) : Bool := s.groups.any (fun g => g.grid == x.id && g.kind == .user && g.st != .done) ||
    s.images.any (fun m => !m.dead && m.groups.any (fun g => g.grid == x.id))
  let ready (x : Grid) : Bool := decide (x.next * x.launch.shape < x.launch.count) && s.firstPending x
  let gs := (s.grids.filter (fun x => x.ctx == ctx && (ready x || here x))).map Grid.base
  min 7 ((qs ++ gs).foldl max 0)

/-- A pre-emption deadline register (R361, R372). -/
def State.pdl (s : State) (k : Nat) : Nat := (((s.plat.pdl.find? (fun e => e.1 == k)).map Prod.snd).getD 4000000).toNat

/-! ## Context reset (R361, R393) -/

/-- What a reset of a context removes from one core: residencies and loads, sequenced instructions, handler batches and
counter deltas. -/
def CoreSt.resetCtx (c : CoreSt) (ctx : Nat) (gone : Nat → Bool) : CoreSt :=
  { c with ress := c.ress.filter (fun r => r.ctx != ctx), loads := c.loads.filter (fun l => !gone l.gid),
           seqQ := c.seqQ.filter (fun q => !gone q.gid),
           seqRun := match c.seqRun with
             | some q => if gone q.gid then none else some q
             | none => none,
           batches := c.batches.filter (fun b => b.ctx != ctx), bbc := c.bbc.filter (fun e => e.ctx != ctx),
           bbcOut := c.bbcOut.filter (fun e => e.ctx != ctx) }

/-- What a reset of a context does to engine commands: a sheaf's are gone, a packet's fail (R255, R361). -/
def resetCmds (ctx : Nat) (l : List Cmd) : List Cmd :=
  (l.filter (fun c => c.ctx != ctx || c.owner.isNone)).map (fun c =>
    if c.ctx = ctx && !c.ended then { c with failed := true, tag := none } else c)

/-- A context is reset (R361): everything of it is destroyed, and the reset is reported. -/
def State.resetCtx (s : State) (ctx : Nat) : State :=
  let mine := s.groups.filter (fun g => g.ctx == ctx)
  let gone (gid : Nat) : Bool := mine.any (fun g => g.gid == gid)
  let waiting := (mine.filterMap Group.save).eraseDups
  let fusedCores := (mine.filter (fun g => g.launch.fuse && (s.core g.core).fused.isSome)).map Group.core
  let s := fusedCores.foldl (fun s c => if (s.core c).fused.isSome then s.unfuse c else s) s
  let s := mine.foldl (fun s g => s.freeStream g.gid .ended) s
  let ids := (s.grids.filter (fun x => x.ctx == ctx)).map Grid.id
  let images := updWhere (fun m => m.groups.any (fun g => g.ctx == ctx)) (fun m => { m with dead := true, wanted := none })
    s.images
  let noTag (d : DieSt) : DieSt :=
    { d with wqs := updWhere (fun w => w.ctx == ctx) (fun w => { w with tag := none }) d.wqs }
  let s := { s with groups := s.groups.filter (fun g => g.ctx != ctx), images := images,
                    grids := s.grids.filter (fun x => x.ctx != ctx),
                    pending := s.pending.filter (fun p => !ids.contains p.grid) }
  let s := { s with cores := s.cores.map (fun (c : CoreSt) => c.resetCtx ctx gone), dies := s.dies.map noTag,
                    faults := s.faults.filter (fun r => r.ctx != ctx) }
  let s := { s with creds := s.creds.filter (fun c => c.ctx != ctx), l2creds := s.l2creds.filter (fun c => c.ctx != ctx),
                    cmds := resetCmds ctx s.cmds }
  let s := s.tlbi (.ctx ctx)
  let live (e : Nat × Nat) : Bool := s.cmds.any (fun c => c.id == e.1)
  let stop (q : Sq) : Sq :=
    { q with st := .stopped, waiting := none, ind := none, pending := q.pending.filter live }
  let s := { s with sqs := updWhere (fun q => q.ctx.toNat == ctx) stop s.sqs }
  let s := { s with pends := s.pends.filter (fun p => s.lives p.who) }
  let s := s.updCtx ctx (fun c => { c with pre := .reset, byCut := false })
  let s := waiting.foldl (fun s q => s.giveResult q 1) s
  s.report 8 ctx 0xFF 0xFF ctx 0

/-- FORCED_RESET (R361, R402): the host resets a context. -/
def execForcedReset (ctx : Nat) (s : State) : Out := .next (if 32 ≤ ctx then s else s.resetCtx ctx)

/-- PREEMPT_DEADLINE (R361): the deadline of the context's highest base priority passes before completion; one of which nothing
remains has completed (R360). -/
def execPreemptDeadline (ctx : Nat) (s : State) : Out :=
  let c := s.ctxSt ctx
  .next (if ctx < 32 ∧ c.pre = .preempting ∧ c.preAt + s.pdl (s.topPrio ctx) ≤ s.stc then
      (if s.remains ctx then s.resetCtx ctx else s.preempted ctx)
    else s)

/-! ## Cuts (R362, R363, R379) -/

/-- The contexts of a mask. -/
def ctxsOf (m : Word) : List Nat := (List.range 32).filter (fun i => m.getLsbD i)

/-- Whether a pre-emption that a .PRE cut began is unfinished (R363). -/
def State.cutPreempting (s : State) : Bool := s.ctxs.any (fun c => c.byCut && c.pre == .preempting)

/-- Whether a cut's time has come and nothing holds it (R362, R363). -/
def State.cutGoes (s : State) (c : Cut) : Bool := decide (c.t ≤ s.stc) && !(c.op == 1 && s.cutPreempting)

/-- The cut that takes effect next: the earliest, in the order issued among equals. -/
def State.nextCut (s : State) : Option Cut :=
  (s.cuts.filter s.cutGoes).foldl (fun b c => match b with
    | none => some c
    | some k => if c.t < k.t then some c else some k) none

/-- What a cut does (R362, R363). -/
def State.applyCut (s : State) (c : Cut) : State :=
  let s := { s with cuts := s.cuts.erase c }
  let set (v : Bool) (s : State) : State :=
    (ctxsOf c.ctxs).foldl (fun s k => s.updCtx k (fun x => { x with halted := v })) s
  match c.op with
  | 0 => set true s
  | 1 =>
    let s := set false s
    if c.held then s.report 6 0xFF 0xFF 0xFF 0 (s.stc - c.t) else s
  | _ => (ctxsOf c.ctxs).foldl (fun s k => s.beginPreempt k true) s

/-- CUT_EFFECT (R362, R363, R379): a cut whose time has come takes effect; a .RUN is held while a pre-emption begun by a
cut is unfinished, and its lateness is reported when it goes. -/
def execCutEffect (s : State) : Out :=
  let late (c : Cut) : Cut :=
    if c.op = 1 && decide (c.t ≤ s.stc) && s.cutPreempting then { c with held := true } else c
  let s := { s with cuts := s.cuts.map late }
  .next (match s.nextCut with
    | none => s
    | some c => s.applyCut c)

end Sys2Proof.Machine
end

