-- ==== Sys2Proof/Machine/Exchange.lean ====
section
/-! DEFINITION. Exchange between the threads of a quad or a sheaf (R206 to R212, R237). A thread whose guard is false
or that is not active supplies nothing and receives nothing. -/

namespace Sys2Proof.Machine

/-- The reader of a thread, when that thread is active. -/
def ofThread (rs : List Rd) (t : Nat) : Option Rd := rs.find? (fun r => r.lane == some t)

/-- QSWZ (R206). -/
def execQswz (h : Hdr) (x : FA) (s : State) : Out :=
  crossOp (.qswz h x) h s (fun rs => rs.flatMap (fun r =>
    let k := r.thr % 4
    let src := 4 * (r.thr / 4) + x.fn.toNat / 2 ^ (2 * k) % 4
    r.put x.d (match ofThread rs src with
      | some q => q.w32 x.a
      | none => 0)))

/-- Whether a reduction code is a floating-point one (R207). -/
def redFp (op : Nat) : Bool := 8 ≤ op

/-- An operand as a reduction takes it: read under FTZ, with a canonical NaN, for the floating-point operations
(R207). -/
def redIn (op : Nat) (fmt w : Word) : Word :=
  if redFp op then BitVec.ofNat 32 (fF32.round .rne false (fmtFtz fmt) false (fF32.decode (fmtFtz fmt) w.toNat)) else w

/-- One combination of a reduction (R207). -/
def redStep (op : Nat) (fmt a b : Word) : Word :=
  let ftz := fmtFtz fmt
  let fa := fF32.decode ftz a.toNat
  let fb := fF32.decode ftz b.toNat
  let mode := (fmtRnd fmt).plain
  match op with
  | 0 => a + b
  | 1 => if a.toInt ≤ b.toInt then a else b
  | 2 => if a.toInt ≥ b.toInt then a else b
  | 3 => if a.toNat ≤ b.toNat then a else b
  | 4 => if a.toNat ≥ b.toNat then a else b
  | 5 => a &&& b
  | 6 => a ||| b
  | 7 => a ^^^ b
  | 8 => BitVec.ofNat 32 (fF32.round mode false ftz false (fa.add mode fb))
  | 9 => BitVec.ofNat 32 (fF32.round mode false ftz false (fa.min2 fb))
  | _ => BitVec.ofNat 32 (fF32.round mode false ftz false (fa.max2 fb))

/-- The identity of a reduction (R207). -/
def redIdent (op : Nat) : Word :=
  match op with
  | 1 => 0x7FFFFFFF
  | 2 => 0x80000000
  | 3 => 0xFFFFFFFF
  | 5 => 0xFFFFFFFF
  | 8 => 0x80000000
  | 9 => 0x7F800000
  | 10 => 0xFF800000
  | _ => 0

/-- Combining two partial results of a tree. A part with no active thread holds the identity; in a sum it changes
no result, whatever the rounding direction (R76; log 22). -/
def redPair (op : Nat) (fmt : Word) (a b : Option Word) : Option Word :=
  match a, b with
  | some x, some y => some (redStep op fmt x y)
  | some x, none => if op = 8 then some x else some (redStep op fmt x (redIdent op))
  | none, some y => if op = 8 then some y else some (redStep op fmt (redIdent op) y)
  | none, none => none

/-- One level of the tree: neighbours combine (R76). -/
def redLevel (op : Nat) (fmt : Word) : List (Option Word) → List (Option Word)
  | a :: b :: r => redPair op fmt a b :: redLevel op fmt r
  | l => l

/-- n levels of the pairwise tree (R76, R208). -/
def redTree (op : Nat) (fmt : Word) : Nat → List (Option Word) → Option Word
  | 0, l => (l.head?).getD none
  | n + 1, l => redTree op fmt n (redLevel op fmt l)

/-- The reduction of threads lo to lo + 2^levels − 1 (R208). -/
def reduceOf (rs : List Rd) (x : FA) (op levels lo : Nat) (fmt : Word) : Word :=
  (redTree op fmt levels ((List.range (2 ^ levels)).map (fun k =>
    (ofThread rs (lo + k)).map (fun q => redIn op fmt (q.w32 x.a))))).getD (redIdent op)

/-- QRED (R208). -/
def execQred (h : Hdr) (x : FA) (s : State) : Out :=
  crossOp (.qred h x) h s (fun rs => rs.flatMap (fun r =>
    r.put x.d (reduceOf rs x x.fn.toNat 2 (4 * (r.thr / 4)) r.fmt)))

/-- SRED (R208). -/
def execSred (h : Hdr) (x : FA) (s : State) : Out :=
  crossOp (.sred h x) h s (fun rs =>
    match rs with
    | [] => []
    | r0 :: _ =>
      let v := reduceOf rs x x.fn.toNat 6 0 r0.fmt
      rs.flatMap (fun r => r.put x.d v))

/-- The left fold over threads in ascending index, with the identity in the place of each that is not active; over none that
is, the identity (R207, R209, R237). -/
def scanFold (op : Nat) (fmt : Word) : List (Option Word) → Word
  | [] => redIdent op
  | v :: r => (r.foldl (redPair op fmt) v).getD (redIdent op)

/-- SCAN (R209). -/
def execScan (h : Hdr) (x : FA) (s : State) : Out :=
  crossOp (.scan h x) h s (fun rs =>
    let op := (x.fn.extractLsb' 0 4).toNat
    let ex := x.fn.getLsbD 4
    rs.flatMap (fun r =>
      let upTo := List.range (if ex then r.thr else r.thr + 1)
      r.put x.d (scanFold op r.fmt (upTo.map (fun t => (ofThread rs t).map (fun q => redIn op r.fmt (q.w32 x.a)))))))

/-- The source index within a segment, when it is valid (R210). -/
def shflIdx (mode w i b : Nat) : Option Nat :=
  match mode with
  | 0 => some (b % w)
  | 1 => if b ≤ i then some (i - b) else none
  | 2 => if i + b < w then some (i + b) else none
  | _ => some (i ^^^ (b % w))

/-- SHFL (R210). -/
def execShfl (h : Hdr) (x : FA) (s : State) : Out :=
  crossOp (.shfl h x) h s (fun rs => rs.flatMap (fun r =>
    let w := 4 * 2 ^ (x.fn.extractLsb' 2 3).toNat
    let base := r.thr / w * w
    let src := (shflIdx (x.fn.extractLsb' 0 2).toNat w (r.thr % w) (r.w32 x.b).toNat).bind
      (fun j => ofThread rs (base + j))
    r.put x.d (match src with
      | some q => q.w32 x.a
      | none => r.w32 x.c)))

/-- The active threads in which a test holds, as a mask. -/
def maskWhere (rs : List Rd) (p : Rd → Bool) : Mask := Mask.ofLanes ((rs.filter p).map Rd.thr)

/-- VOTE.ALL (R211). -/
def execVoteAll (h : Hdr) (x : FA) (s : State) : Out :=
  crossOp (.voteAll h x) h s (fun rs => rs.flatMap (fun r => r.putPr x.d (rs.all (fun q => q.pr x.a))))

/-- VOTE.ANY (R211). -/
def execVoteAny (h : Hdr) (x : FA) (s : State) : Out :=
  crossOp (.voteAny h x) h s (fun rs => rs.flatMap (fun r => r.putPr x.d (rs.any (fun q => q.pr x.a))))

/-- VOTE.UNI (R211). -/
def execVoteUni (h : Hdr) (x : FA) (s : State) : Out :=
  crossOp (.voteUni h x) h s (fun rs => rs.flatMap (fun r =>
    r.putPr x.d (rs.all (fun q => q.pr x.a) || rs.all (fun q => !q.pr x.a))))

/-- VOTE.BAL (R211). -/
def execVoteBal (h : Hdr) (x : FA) (s : State) : Out :=
  crossOp (.voteBal h x) h s (fun rs => rs.flatMap (fun r => r.put64 x.d (maskWhere rs (fun q => q.pr x.a))))

/-- MATCH.32 (R212). -/
def execMatch32 (h : Hdr) (x : FA) (s : State) : Out :=
  crossOp (.match32 h x) h s (fun rs => rs.flatMap (fun r =>
    r.put64 x.d (maskWhere rs (fun q => q.w32 x.a == r.w32 x.a))))

/-- MATCH.64 (R212). -/
def execMatch64 (h : Hdr) (x : FA) (s : State) : Out :=
  crossOp (.match64 h x) h s (fun rs => rs.flatMap (fun r =>
    r.put64 x.d (maskWhere rs (fun q => q.w64 x.a == r.w64 x.a))))

/-- ELECT: the readers stand in ascending thread order (R212). -/
def execElect (h : Hdr) (x : FA) (s : State) : Out :=
  crossOp (.elect h x) h s (fun rs => rs.flatMap (fun r =>
    r.putPr x.d ((rs.map Rd.thr).head? == some r.thr)))

/-- ELECT.NH: the lowest thread that is not a helper (R212). -/
def execElectNh (h : Hdr) (x : FA) (s : State) : Out :=
  crossOp (.electNh h x) h s (fun rs =>
    let nh := rs.filter (fun r => !r.f.sh.helpers.getLsbD r.thr)
    rs.flatMap (fun r => r.putPr x.d ((nh.map Rd.thr).head? == some r.thr)))

end Sys2Proof.Machine
end

