-- ==== Sys2Proof/Machine/Outside.lean ====
section
/-! DEFINITION. What comes from outside the cores: ticks and recounts of the caches, read-duplicated pages, accesses of the
host and of other devices, timeouts, readiness, power and heat, errors and work-queue registration (R18, R19, R133, R157
to R160, R164, R363, R398 to R400, R402, R405, R406, R411, R412, R419, R420). -/

namespace Sys2Proof.Machine

/-! ## Caches and pages -/


/-- The credibility that a recount gives (R133). -/
def Cred.recount (c : Cred) : Cred :=
  let n := c.kept + c.expired
  { c with c := if n = 0 then c.c else BitVec.ofNat 3 (min 7 (8 * c.kept / n)), kept := 0, expired := 0,
           fills := c.fills - 65536 }

/-- CREDIBILITY_RECOUNT (R133): after 65,536 fills by a context in the L1 of a core, or in an L2 slice given as 32 × die +
slice. -/
def execCredibilityRecount (core : Option Nat) (slice ctx : Nat) (s : State) : Out :=
  let due (cache : Nat) (c : Cred) : Bool := c.cache == cache && c.ctx == ctx && decide (65536 ≤ c.fills)
  .next (match core with
    | some k => { s with creds := updWhere (due k) Cred.recount s.creds }
    | none => { s with l2creds := updWhere (due slice) Cred.recount s.l2creds })

/-- RD_DROP_REQUEST (R157): this device, as a holder, drops its replica and acknowledges. -/
def execRdDropRequest (page : Nat) (s : State) : Out := .next (s.rdAck page s.devnum)

/-- RD_DROP_ACK (R157, R158). -/
def execRdDropAck (page dev : Nat) (s : State) : Out := .next (s.rdAck page dev)

/-- RD_ACK_TIMEOUT (R159): the holders that have not acknowledged within 2,000,000 ticks are removed and reported, and
the write is performed. A place that an atomic no longer needs is given up. -/
def execRdAckTimeout (page : Nat) (s : State) : Out :=
  .next (match s.rds.find? (fun e => e.page == page) with
    | none => s
    | some e =>
      if e.due.isEmpty then (if e.held.isEmpty then s else s.rdPerform page)
      else if s.stc < e.since + 2000000 then s
      else
        let s := e.due.foldl (fun s d => s.report 4 0xFF 0xFF 0xFF (page * 65536) d) s
        (s.updRd page (fun e =>
          { e with due := [], holders := e.holders.filter (fun d => !e.due.contains d),
                   removed := e.removed ++ e.due.filter (fun d => !e.removed.contains d) })).rdPerform page)

/-! ## Accesses from outside (R16, R160, R398, R399, R411) -/

/-- A read at the home by the host or by another device, within one line: it waits for a write held there, and a device that has
been removed from the page's holders reads nothing (R159, R160, R164). A virtual function reaches the HBM of other devices over
the fabric (R399, R411). -/
def State.outsideRead (s : State) (ctx dev pa n : Nat) : Except NoAccess (List Byte) :=
  match s.reach ctx pa with
  | .error e => .error e
  | .ok h =>
    let bad := match h with
      | .hbm l => s.poisoned l n
      | .far _ => false
      | _ => true
    match s.rdOf pa with
    | some e =>
      if e.removed.contains dev then .error .removed
      else if !e.held.isEmpty then .error (.wait none)
      else if bad then .error .fail else .ok (s.homeBytes pa n)
    | none => if bad then .error .fail else .ok (s.homeBytes pa n)

/-- A write at the home by the host or by another device, within one line (R157, R158, R160, R399, R411). -/
def State.outsideWrite (s : State) (ctx dev pa : Nat) (bytes : List Byte) : Except NoAccess State :=
  match s.reach ctx pa with
  | .error e => .error e
  | .ok (.hbm _) | .ok (.far _) =>
    .ok (match s.rdOf pa with
      | some e =>
        if e.holders.isEmpty && e.held.isEmpty then (s.homeMerge (pa / 512) (cellsAt pa bytes)).rdOwn e.page dev
        else s.rdWrite { dev := dev, pa := pa, bytes := bytes, who := .other }
      | none => s.homeMerge (pa / 512) (cellsAt pa bytes))
  | .ok _ => .error .fail

/-- An access at the homes of a contiguous range of PAs within one line each: the data read, or why there is none. -/
def State.outsideAccess (s : State) (ctx dev : Nat) (parts : List (Nat × Nat)) (write : Option (List Byte)) :
    Except NoAccess (List Byte) × State :=
  let r := parts.foldl (fun (acc : Except NoAccess (List Byte) × Nat × State) p =>
    match acc with
    | (.error e, k, s) => (.error e, k, s)
    | (.ok got, k, s) =>
      let s := s.recall p.1
      match write with
      | none => (match s.outsideRead ctx dev p.1 p.2 with
        | .ok b => (.ok (got ++ b), k + p.2, s)
        | .error e => (.error e, k, s))
      | some bs => (match s.outsideWrite ctx dev p.1 ((bs.drop k).take p.2) with
        | .ok s => (.ok got, k + p.2, s)
        | .error e => (.error e, k, s))) (.ok [], 0, s)
  (r.1, r.2.2)

/-- The line parts of a host access of BAR2, as PAs: local ones for the physical function, through the context's tables for a
virtual function (R398, R399). -/
def State.hostParts (s : State) (port : HostPort) (addr : DWord) (write : Bool) (n : Nat) :
    Except NoAccess (List (Nat × Nat)) × State :=
  if 2 ^ 40 < addr.toNat + n then (.error .fail, s)
  else match port with
    | .vf ctx =>
      (chunksOf addr.toNat n).foldl (fun (acc : Except NoAccess (List (Nat × Nat)) × State) c =>
        match acc with
        | (.error e, s) => (.error e, s)
        | (.ok l, s) =>
          match s.feTranslate ctx write (BitVec.ofNat 64 c.1) with
          | (.error e, s) => (.error e, s)
          | (.ok pa, s) => (.ok (l ++ [(pa, c.2)]), s)) (.ok [], s)
    | .pf | .regs =>
      if hbmEnd < addr.toNat + n then (.error .fail, s)
      else (.ok ((chunksOf addr.toNat n).map (fun c => (s.localPa c.1, c.2))), s)

/-- A host access completes with Completer Abort; it is reported when it is of a virtual function or meets the unpopulated range
(R16, R398, R399). -/
def State.hostAbort (s : State) (port : HostPort) (addr : DWord) (n : Nat) : State :=
  let s := { s with out := s.out ++ [HostOut.abort port] }
  match port with
  | .pf => if hbmEnd < addr.toNat + n then s.report 9 0xFF 0xFF 0xFF addr.toNat 0 else s
  | .vf c => s.report 9 c 0xFF 0xFF addr.toNat 0
  | .regs => s

/-- Cutting [a, a + n) at multiples of 8, as pairs of start and length. -/
def octetsOf (a n : Nat) : List (Nat × Nat) :=
  (List.range (n / 8 + 2)).filterMap (fun k =>
    let lo := max a ((a / 8 + k) * 8)
    let hi := min (a + n) ((a / 8 + k + 1) * 8)
    if lo < hi then some (lo, hi - lo) else none)

/-- Register writes of the host, in aligned parts of at most 8 bytes, which take the next turns (R398, R401). -/
def State.hostRegWrite (s : State) (off : Nat) (bytes : List Byte) : State :=
  (octetsOf off bytes.length).foldl (fun s c =>
    s.putRegTurn { cycles := 0, act := .event (.registerWrite false (BitVec.ofNat 24 c.1) c.2
      (BitVec.ofNat 64 (natOf ((bytes.drop (c.1 - off)).take c.2)))) }) s

/-- The bytes that a host access moves. -/
def hostLen (write : Option (List Byte)) (len : Nat) : Nat :=
  match write with
  | some b => b.length
  | none => len

/-- A host access as it can be performed now (R16, R160, R398, R399), or what it waits for. BAR0 of the physical function is the
register space; there is a virtual function for each of the contexts 0 to 31 alone. -/
def State.hostPerform (s : State) (port : HostPort) (addr : DWord) (write : Option (List Byte)) (len : Nat) :
    Except (Option Unanswered) State :=
  let n := hostLen write len
  let ctx := match port with
    | .vf c => c
    | _ => 0xFF
  let data (d : List Byte) (s : State) : State :=
    if write.isNone then { s with out := s.out ++ [HostOut.data d] } else s
  match port with
  | .regs =>
    .ok (if 2 ^ 24 < addr.toNat + n then s.hostAbort port addr n
      else match write with
        | some b => s.hostRegWrite addr.toNat b
        | none => data ((List.range n).map (fun i => s.regByte false (addr.toNat + i))) s)
  | .pf | .vf _ =>
    if port != .pf && decide (32 ≤ ctx) then .ok s
    else match s.hostParts port addr write.isSome n with
      | (.error (.wait on), _) => .error on
      | (.error _, s) => .ok (s.hostAbort port addr n)
      | (.ok ps, s1) =>
        match s1.outsideAccess ctx s1.devnum ps write with
        | (.error (.wait on), _) => .error on
        | (.error _, s) => .ok (s.hostAbort port addr n)
        | (.ok d, s) => .ok (data d s)

/-- HOST_ACCESS (R16, R160, R398, R399). One that waits, for a stack that is not ready (R419), for the fabric (R411) or for a held
write (R164), is performed when it can be. -/
def execHostAccess (port : HostPort) (addr : BitVec 64) (write : Option (List (BitVec 8))) (len : Nat) (s : State) :
    Out :=
  .next (match s.hostPerform port addr write len with
    | .ok s => s
    | .error on =>
      let (id, s) := s.fresh
      ({ s with hostAccs := s.hostAccs ++ [{ id := id, port := port, addr := addr, write := write, len := len }] } : State).noteWait
        (.host id) on)

/-- A waiting host access is gone. -/
def State.dropHost (s : State) (id : Nat) : State :=
  { s with hostAccs := s.hostAccs.filter (fun a => a.id != id) }.dropPend (.host id)

/-- The host's accesses that wait are performed when they can be, in order. -/
def State.payHosts (s : State) : State :=
  s.hostAccs.foldl (fun s a => match s.hostPerform a.port a.addr a.write a.len with
    | .ok t => t.dropHost a.id
    | .error on => s.noteWait (.host a.id) on) s

/-- Whether this device admits another (R411). -/
def State.admits (s : State) (dev : Nat) : Bool :=
  decide (dev < 6144) && dev != s.devnum && (cget s.plat.admits (dev / 8)).getLsbD (dev % 8)

/-- Whether a .RUN cut that names a context is held back (R363). -/
def State.runHeld (s : State) (ctx : Nat) : Bool := decide (ctx < 32) && s.cuts.any (fun c => c.held && c.ctxs.getLsbD ctx)

/-- FABRIC_REQUEST (R16, R363, R400, R411): a request of another device that arrives is accepted when that device is admitted and
the PA is this device's; one that meets the unpopulated range is refused and reported. While a .RUN cut is held, the fabric keeps
the requests of its contexts back, and they do not arrive (log 142). -/
def execFabricRequest (by_ : Requester) (addr : BitVec 64) (write : Option (List (BitVec 8))) (len : Nat) (s : State) : Out :=
  let parts := chunksOf addr.toNat (hostLen write len)
  let refuse (s : State) : State := { s with out := s.out ++ [HostOut.fabric by_.dev none] }
  .next (if s.runHeld by_.ctx then s
    else if !s.admits by_.dev || !(parts.all (fun p => s.isLocal p.1)) then refuse s
    else if parts.any (fun p => s.inHole p.1) then (refuse s).report 9 0xFF 0xFF 0xFF addr.toNat by_.dev
    else if !parts.all (fun p => s.inHbm p.1) then refuse s
    else match s.outsideAccess by_.ctx by_.dev parts write with
      | (.error (.wait _), _) => s
      | (.error .removed, s) => (refuse s).report 9 0xFF 0xFF 0xFF addr.toNat by_.dev
      | (.error .fail, s) => refuse s
      | (.ok d, s) => { s with out := s.out ++ [HostOut.fabric by_.dev (some d)] })

/-! ## Accesses that are never answered (R363, R411, R419) -/

/-- A lane of an operand-log entry, or every lane of it that waits for nothing else, has failed (R126, R419). -/
def State.failLog (s : State) (gid sh id : Nat) (lane : Option Nat) : State :=
  s.updSheaf gid sh (fun x => x.updEntry id (fun e =>
    let ts := match lane with
      | some t => [t]
      | none => e.idle.lanes
    { e with failed := e.failed ++ ts.map (fun t => (t, (0x05 : BitVec 8))) }))

/-- A tiller's access is given up: its lane parks with unresolved address, and the instruction's other lanes go on; so does
every active lane for its fetch and for the scalar unit (R127, R363, R419). The read of a RESTG or an MCLD ends it with its
result (R376, R378). -/
def State.failTiller (s : State) (f : Frame) (lane : Option Nat) (fetch : Bool) : State :=
  if fetch then s.trapAll f 8 0x05 (memPayload 0x05 3)
  else
    match s.peekInstr f.g.core f.g.ctx f.t.pc with
    | none => s.trapAll f 8 0x05 (memPayload 0x05 3)
    | some (.restg h x) => s.endSteward f (.restg h x) x.d 2
    | some (.mcld h x) => s.endSteward f (.mcld h x) x.d 3
    | some i =>
      let kind := ((memForm i).map MemForm.kind).getD 0
      match lane with
      | none => s.trapAll f i.size 0x05 (memPayload 0x05 kind)
      | some t =>
        let s := s.park f [f.trapAt i.size 0x05 (memPayload 0x05 kind) t]
        s.updT f (fun t => if t.todo = some 0 && t.mask != 0 then t.advance s.cycle i else t)

/-- An access that is never answered fails with unresolved address, as its agent's accesses fail (R246, R255, R280, R305, R309,
R323, R348, R356, R392). -/
def State.giveUp (s : State) (p : Pend) : State :=
  let s := { s with pends := s.pends.filter (fun q => q.id != p.id) }
  match p.who with
  | .thread gid sh lane =>
    if 64 ≤ p.ti then s.failLog gid sh (p.ti - 64) lane
    else match s.frameOf gid sh p.ti with
      | none => s
      | some f => s.failTiller f lane p.fetch
  | .cmd id => s.updCmd id (fun c => { c with failed := true })
  | .load core id => s.updLoad core id (fun l => { l with failed := some 0x05 })
  | .stream gid => if p.ti = 1 then s.loseStamp gid else s.haltStream gid 3 0x05
  | .grid id =>
    (match s.grids.find? (fun x => x.id == id) with
     | none => s
     | some x => (s.report 6 x.ctx 0xFF 0xFF x.launch.counter.toNat 0).gridOut x)
  | .count core id =>
    (match (s.core core).bbcOut.find? (fun o => o.id == id) with
     | none => s
     | some o => s.loseOut core o)
  | .seq core page => s.updRun core (fun q => { q with fails := (page, 0x05) :: q.fails })
  | .save gid =>
    (match s.group? gid with
     | none => s
     | some g => match g.save with
       | none => s
       | some q => s.saveFailed (s.unitOf g) q)
  | .sq q => s.malformed q
  | .host id =>
    (match s.hostAccs.find? (fun a => a.id == id) with
     | none => s
     | some a => (s.dropHost id).hostAbort a.port a.addr (hostLen a.write a.len))
  | .other => s

/-- A pending access by its number. -/
def State.pend? (s : State) (id : Nat) (stack : Bool) : Option Pend :=
  s.pends.find? (fun p => p.id == id && p.stack == stack)

/-- FABRIC_TIMEOUT (R363, R411): a request unanswered after 2,000,000 ticks fails, and the failure is reported. -/
def execFabricTimeout (req : Nat) (s : State) : Out :=
  .next (match s.pend? req false with
    | none => s
    | some p =>
      if s.stc < p.since + 2000000 then s
      else (s.giveUp p).report 4 (s.agentCtx p.who) 0xFF 0xFF 0 0)

/-- STACK_NOT_READY_TIMEOUT (R419): an access to a stack whose bit stays clear fails after 2,000,000 ticks. -/
def execStackNotReadyTimeout (req : Nat) (s : State) : Out :=
  .next (match s.pend? req true with
    | none => s
    | some p => if s.stc < p.since + 2000000 then s else s.giveUp p)

/-! ## Readiness, power and heat (R19, R419, R420) -/

/-- READY_SET (R419). -/
def execReadySet (reg : Fin 2) (bit : Nat) (s : State) : Out :=
  .next (if reg = 0 then
      (if bit < 20 then
        let t : State := { s with plat := { s.plat with ready0 := setBit s.plat.ready0 bit true } }
        if bit < 8 then t else t.unpend (.stack (bit - 8))
      else s)
    else (if bit < 48 then
      ({ s with plat := { s.plat with ready1 := setBit s.plat.ready1 bit true } } : State).unpend .fabric else s))

/-- READY_CLEAR (R419): reported. -/
def execReadyClear (reg : Fin 2) (bit : Nat) (s : State) : Out :=
  let set := if reg = 0 then s.plat.ready0.getLsbD bit else s.plat.ready1.getLsbD bit
  .next (if !set then s
    else
      let p := s.plat
      let s := { s with plat := if reg = 0 then { p with ready0 := setBit p.ready0 bit false }
                                else { p with ready1 := setBit p.ready1 bit false } }
      s.report 6 0xFF 0xFF 0xFF (0x40 + 8 * reg.val) bit)

/-- POWER_CAP (R19, R401): a write is clamped to 800 to 2,200 W, which is reported, and takes effect at the next
interval. -/
def execPowerCap (watts : BitVec 32) (s : State) : Out :=
  let v := max 800 (min 2200 watts.toNat)
  let s := { s with plat := { s.plat with powerNext := some (BitVec.ofNat 32 v) } }
  .next (if v = watts.toNat then s else s.report 9 0xFF 0xFF 0xFF 0x60 v)

/-- A share of the cap for one die, in proportion to its demand (R19). A share is a whole number of watts, rounded down, and
each die's is a quarter when none demands anything (log 125). -/
def shareOf (cap : Nat) (demand : List Nat) (d : Nat) : Nat :=
  let total := demand.foldl (· + ·) 0
  if total = 0 then cap / 4 else cap * demand.getD d 0 / total

/-- A share lowered to a value below it (R420): which, the manual leaves open. -/
def State.lowered (s : State) (share : Nat) : Nat × State :=
  let (v, s) := s.freshFree
  (if share = 0 then 0 else v.toNat % share, s)

/-- A die's demand in watts, which is measured: a free value (R19, log 10). -/
def State.demand (s : State) (d : Nat) : Nat := (Config.freeValue (s.freeCtr + d)).toNat % 2 ^ 16

/-- POWER_INTERVAL (R18, R19, R401): when STC has entered another interval of 1,000 ticks, the cap written last takes effect
and is divided among the dies; a die whose demand exceeds its share withholds cycles; the mean power of the interval stands
in POWER_NOW. -/
def execPowerInterval (s : State) : Out :=
  let p := s.plat
  let at_ := s.stc / 1000
  let cap := p.powerNext.getD p.powerCap
  let demand := (List.range 4).map s.demand
  let now : Word := (Config.freeValue (s.freeCtr + 4)).setWidth 32
  .next (if at_ = p.powerAt then s
    else
      let s := { s with freeCtr := s.freeCtr + 5,
                        plat := { p with powerCap := cap, powerNext := none, powerNow := now, powerAt := at_ } }
      (List.range 4).foldl (fun s d =>
        let full := shareOf cap.toNat demand d
        let want := demand.getD d 0
        let (v, s) := if (s.die d).hot then s.lowered full else (full, s)
        s.updDie d (fun x => { x with share := v, full := full, demand := want, scant := decide (v < want) })) s)

/-- THERMAL_LIMIT (R420): a die at 95 °C has its share lowered, and is reported once per episode. -/
def execThermalLimit (die : Nat) (s : State) : Out :=
  .next (if 4 ≤ die ∨ (s.die die).hot then s
    else
      let (v, s) := s.lowered (s.die die).share
      (s.updDie die (fun x => { x with share := v, hot := true, scant := decide (v < x.demand) })).report 10 0xFF die 0xFF 0 95)

/-- THERMAL_RECOVERY (R420): a die that has cooled below 90 °C has the whole of its share of the interval again. -/
def execThermalRecovery (die : Nat) (s : State) : Out :=
  .next (if die < 4 ∧ (s.die die).hot then
      s.updDie die (fun x => { x with share := x.full, hot := false, scant := decide (x.full < x.demand) })
    else s)

/-! ## Cycles (R6, R19, R130, R386) -/

/-- The samples that are due in every core. -/
def State.samples (s : State) : State :=
  (s.cores.filter (fun c => s.glnDue c.id)).foldl (fun s c => match execGleanerSample c.id s with
    | .next t => t
    | _ => s) s

/-- The power interval ends when STC passes a multiple of 1,000 (R19). -/
def State.powerTick (s : State) : State :=
  match execPowerInterval s with
  | .next t => t
  | _ => s

/-- n cycles pass; a core that samples is looked at as each of them begins, and after it. -/
def State.elapse (s : State) : Nat → State
  | 0 => s
  | n + 1 =>
    if s.cores.all (fun c => c.glnPeriod == 0) then ((s.stallArrays (n + 1)).pass (n + 1)).powerTick
    else State.elapse ((s.stallArrays 1).pass 1).samples.powerTick.glances n

/-- WINNOW_TICK (R130, R131): the cycles up to the next winnow tick pass. -/
def execWinnowTick (s : State) : Out := .next (s.elapse (64 - s.cycle % 64))

/-! ## Errors and registrations (R402, R405, R406, R412) -/

/-- ERR_CLEAR (R401, R405): a sector of local HBM is zeroed, as a write event, and its poison is cleared. -/
def execErrClear (pa : BitVec 64) (s : State) : Out :=
  let l := pa.toNat % 2 ^ 41
  .next (if pa.extractLsb' 0 7 != 0 || !s.inHbm pa.toNat then s.report 9 0xFF 0xFF 0xFF 0xB0 (pa.toNat % 2 ^ 32)
    else
      let s := { s with poison := s.poison.filter (fun q => q != l / 128) }
      s.homeWrite l (List.replicate 128 0))

/-- An error of a memory cell (R404, R405): ECC corrects a single-bit error, which is logged, and the access returns the
corrected data; a sector with a double-bit error is poisoned. One that a core's L1 held is lost there, with what had been
written in it. When errors happen is the schedule's (log 161). -/
def State.upset (s : State) (e : Upset) : State :=
  let poisonAt (k : Nat) (s : State) : State := if s.poison.contains k then s else { s with poison := k :: s.poison }
  match e with
  | .hbmBit k => if 128 * k < hbmEnd then s.report 1 0xFF (homeDie (128 * k)) 0xFF (128 * k) 0 else s
  | .hbmLost k => if 128 * k < hbmEnd then (poisonAt k s).report 3 0xFF (homeDie (128 * k)) 0xFF (128 * k) 0 else s
  | .sramBit core => if core < 288 then s.report 0 0xFF (dieOf core) (coreOf core) 0 0 else s
  | .sramLost core k =>
    let pa := s.localPa (128 * k)
    match (s.core core).line? (pa / 512) with
    | none => s
    | some x =>
      if !x.valid.getLsbD (k % 4) || decide (hbmEnd ≤ 128 * k) then s
      else
        let s := s.updCore core (fun c => c.updLine (pa / 512) (fun x =>
          { x with valid := setBit x.valid (k % 4) false, dirty := setBit x.dirty (k % 4) false,
                   wrote := x.wrote.filter (fun p => p / 128 != pa / 128) }))
        (poisonAt k s).report 2 0xFF (dieOf core) (coreOf core) (128 * k) 0

/-- A queue as its descriptor gives it (R259); numbers reserved and not published count their age from now. -/
def State.readWq (s : State) (pa q : Nat) : WorkQ :=
  let n (o k : Nat) : Nat := cgetLE s.mem (pa + o) k
  let w (o : Nat) : Word := BitVec.ofNat 32 (n o 4)
  let open_ := min 4096 (w 16 - w 20).toNat
  { q := q, ring := BitVec.ofNat 64 (n 0 8), logcap := n 8 1, ctx := n 9 1, rsv := w 16, pubp := w 20, head := w 24,
    thresh := w 28, stuckSeq := w 32, stuck := n 36 1 % 2 == 1, early := [],
    resAt := (List.range open_).map (fun k => (w 20 + BitVec.ofNat 32 k, s.stc)), notified := none, tag := none, reader := none }

/-- WQ_REGISTER (R412): a queue is registered from its descriptor, or refused and reported. -/
def execWqRegister (v : BitVec 32) (s : State) : Out :=
  let q := v.toNat % 4096
  let die := v.toNat / 4096 % 4
  let d := s.die die
  let w := s.readWq (d.wqbase.toNat % 2 ^ 41 + 64 * q) q
  let ok := d.wqbase != 0 && !d.wqs.any (fun x => x.q == q) && decide (1 ≤ w.logcap) && decide (w.logcap ≤ 12) &&
    decide (w.ctx ≤ 31) && w.ring.extractLsb' 0 3 == 0
  .next (if ok then s.updDie die (fun d => { d with wqs := d.wqs ++ [w] })
    else s.report 9 0xFF die 0xFF 0xC0 v.toNat)

/-- The instructions of a group that wait for their units know that a queue has been unregistered (R412). -/
def Group.forgetQueue (g : Group) (die q : Nat) : Group :=
  let put (t : Tiller) : Tiller := { t with queued := t.queued.map (fun k => { k with gone := (die, q) :: k.gone }) }
  { g with sheaves := g.sheaves.map (fun x => { x with tillers := x.tillers.map put }) }

/-- WQ_UNREGISTER (R412): the queue is gone; the operations that wait for it, those of saved groups among them, end with
protection when their units perform them again, though it be registered afresh before. -/
def execWqUnregister (v : BitVec 32) (s : State) : Out :=
  let q := v.toNat % 4096
  let die := v.toNat / 4096 % 4
  .next (if (s.die die).wqs.any (fun x => x.q == q) then
      let s := s.updDie die (fun d => { d with wqs := d.wqs.filter (fun x => x.q != q) })
      { s with groups := s.groups.map (fun g => g.forgetQueue die q),
               images := s.images.map (fun m => { m with groups := m.groups.map (fun g => g.forgetQueue die q) }) }
    else s)

/-- TLB_INV (R402): every entry of a context, or one page. -/
def execTlbInv (ctx : Nat) (v : BitVec 64) (s : State) : Out :=
  .next (s.tlbi (if v.getLsbD 0 then .ctx ctx else .page ctx (v &&& 0x7FFFFFFFFF0000)))

/-- RQSET (R302, R402): a quota above 32, or a core that does not exist, is ignored and reported. -/
def execRqset (ctx : Nat) (v : BitVec 32) (s : State) : Out :=
  let n := v.toNat % 64
  let k := v.toNat / 256 % 128
  let cores := if k = 0x7F then List.range 72 else [k]
  let dies := if v.getLsbD 18 then List.range 4 else [v.toNat / 65536 % 4]
  let all := dies.flatMap (fun d => cores.map (fun c => 72 * d + c))
  .next (if 32 < n ∨ (72 ≤ k ∧ k ≠ 0x7F) ∨ 32 ≤ ctx then s.report 9 ctx 0xFF 0xFF (0x10020 + 0x1000 * ctx) v.toNat
    else s.updCtx ctx (fun c =>
      { c with quotas := all.map (fun x => (x, n)) ++ c.quotas.filter (fun e => !all.contains e.1) }))

/-- Changing one watch entry. -/
def State.updWatch (s : State) (e : Nat) (f : Watch → Watch) : State :=
  { s with watches := putBy Watch.e (f (s.watch e)) s.watches }

/-- WATCH_ARM (R406): the entry is armed and evaluated at once; one whose PA is not a word of local HBM is refused. -/
def execWatchArm (e : Nat) (s : State) : Out :=
  let w := s.watch e
  let pa := w.pa.toNat
  .next (if 4096 ≤ e then s
    else if w.pa.extractLsb' 0 2 != 0 || !s.inHbm pa then
      (s.updWatch e (fun w => { w with armed := false })).report 9 0xFF 0xFF 0xFF (0x80000 + 32 * e) 0
    else
      let s := s.updWatch e (fun w => { w with armed := true })
      let w := s.watch e
      if w.holds (cgetLE s.mem (pa % 2 ^ 41) 4) then s.fireWatch w else s)

end Sys2Proof.Machine
end

