-- ==== Sys2Proof/Machine/Firmware.lean ====
section
/-! DEFINITION. Module reset and boot, recovery, measurements, the signing block, the DOE mailbox and the SPDM responder
(R413 to R418, R420 to R426). -/

namespace Sys2Proof.Machine

/-! ## Reset and boot (R413, R415, R416, R420, R426) -/

/-- The launch record of a steward group that starts at a VA: one sheaf of 256 registers. -/
def stewardRecord (code : DWord) : LaunchRec := { LaunchRec.zero with code := code, sheaves := 1 }

/-- A steward group on core 0 of a die, with one thread set running at a VA in context 63 (R10, R414, R415; log 15). -/
def State.startSteward (s : State) (die : Nat) (code : DWord) : State :=
  let core := 72 * die
  let (gid, s) := s.fresh
  let r := stewardRecord code
  let (gs, _, s) := s.takeGranules core r.granules
  let g := Group.start gid .steward 63 core (s.freeGroupSlot core) 0 0 gid 0 r (s.cycle / 64)
  let x := Sheaf.start 0 (s.freeSlot core 0 []) 0 (r.budget 0) code 0 0 Mask.full
  { s with groups := s.groups ++ [{ g with sheaves := [x], granules := gs }] }

/-- One die's ROM, after it has verified the image: it extends MEAS0 with the image, MEAS3 with 64 bytes whose first says
flash or recovery, and MEAS1 with the configuration record that it verified; and it starts Tuizel (R415). -/
def State.rom (s : State) (die : Nat) (image : List Byte) (recovery : Bool) (code : DWord) : State :=
  let first : Byte := if recovery then 1 else 0
  let s := (s.extendWith 0 image).extendWith 3 (first :: List.replicate 63 0)
  let s := if Config.signatureOk Config.configRecord then s.extendWith 1 Config.configRecord else s
  s.startSteward die code

/-- The ROMs of the four dies boot one image, in die order; DEVNUM is taken from the configuration record (R411, R415,
R416). -/
def State.boot (s : State) (image : List Byte) (recovery : Bool) (code : DWord) : State :=
  let s := { s with plat := { s.plat with devnum := Config.bootDevnum.val } }
  (List.range 4).foldl (fun s d => s.rom d image recovery code) s

/-- The machine after power on or module reset, before any ROM runs: flash keeps NEXTIDX and its image, and host memory and the other
devices are not the module's (R417, R421, R426). -/
def State.cold (s : State) (powered : Bool) : State :=
  { State.reset with sign := Sign.reset s.sign.idxNext, hostMem := s.hostMem, remote := s.remote, peers := s.peers, latePeers := s.latePeers,
                     powered := powered, flash := s.flash }

/-- The VA, and the PA, of the flash image's body. -/
def tuizelCode : Nat := 512 * Config.tuizelPlace.val

/-- MODULE_RESET (R415, R426): measurements are zeroed once, and the ROMs verify and start the flash image; when it fails
they wait for a recovery image. -/
def execModuleReset (s : State) : Out :=
  let s := s.cold true
  let image := s.flash.getD Config.flashImage
  .next (if imageOk 0x4C5A5554 image then
      { s with mem := csets s.mem tuizelCode ((image.drop 64).take (imageLen image)) }.boot image false
        (BitVec.ofNat 64 tuizelCode)
    else s)

/-- POWER_LOSS (R417, R420): the module keeps no state but flash. -/
def execPowerLoss (s : State) : Out := .next (s.cold false)

/-- Tuizel updates flash: it writes only an image that it has verified, and an update that is cut short leaves flash unverifiable
(R413, R415; log 150). -/
def State.updateFlash (s : State) (image : List Byte) (whole : Bool) : State :=
  if s.groups.any (fun g => g.kind == .steward) && imageOk 0x4C5A5554 image then
    { s with flash := some (if whole then image else []) }
  else s

/-- THERMAL_SHUTDOWN (R420): at 125 °C the power stages remove module power. -/
def execThermalShutdown (s : State) : Out := .next (s.cold false)

/-- Whether Tuizel has been started on a die. -/
def State.booted (s : State) : Bool := s.groups.any (fun g => g.kind == .steward)

/-- RCV_LEN (R401, R415): the recovery image at RCV_ADDR is verified and run; one that fails is reported, and the ROM
waits again. -/
def execRcvLen (len : BitVec 32) (s : State) : Out :=
  let n := len.toNat
  let pa := s.plat.rcvAddr.toNat % 2 ^ 41
  let image := s.homeRead pa n
  let refuse (s : State) : State := s.report 9 0xFF 0xFF 0xFF 0x78 n
  .next (if s.plat.ready0.getLsbD 1 ∨ n < 2884 ∨ 268435456 < n then refuse s
    else if s.booted then s
    else if pa + n ≤ hbmEnd ∧ imageOk 0x4C5A5554 image then s.boot image true (BitVec.ofNat 64 (pa + 64))
    else refuse s)

/-- MEAS_EXT (R5, R401, R416): a measurement register is extended with MEAS_DATA. -/
def execMeasExt (_die : Nat) (v : BitVec 32) (s : State) : Out :=
  .next ({ s with plat := { s.plat with measExt := BitVec.ofNat 3 v.toNat } }.extend (v.toNat % 8) (cgets s.plat.measData 0 64))

/-! ## The signing block (R421, R423, R424) -/

/-- A write to SIGN_GO (R5, R421, R423). -/
def State.signWrite (s : State) (v : DWord) : State :=
  let idx := v.toNat % 2 ^ 20
  let off := v.toNat / 2 ^ 32 % 2 ^ 13
  let zero := v.extractLsb' 21 11 == 0 && v.extractLsb' 45 19 == 0
  let g := s.sign
  let s1 := { s with plat := { s.plat with signGo := v } }
  if g.stat = 1 then s.report 9 0xFF 0xFF 0xFF 0x410 (v.toNat % 2 ^ 32)
  else if idx < g.floor ∨ g.idxNext ≤ idx ∨ 8192 < off + 2820 ∨ !zero then { s1 with sign := { g with stat := 3 } }
  else
    { s1 with sign := { g with stat := 1, floor := idx + 1,
                               job := some (v.getLsbD 20, idx, off, cgets s.plat.signMsg 0 64) } }

/-- SIGN_GO (R423). -/
def execSignGo (v : BitVec 64) (s : State) : Out := .next (s.signWrite v)

/-- The 2,820 bytes of a signature over SIGN_MSG under the context's prefix (R423; log 12). -/
def xmss (measurements : Bool) (idx : Nat) (msg : List Byte) : List Byte :=
  (List.range 2820).map (Config.xmssSign measurements idx msg)

/-- The signature under way is written, and then SIGN_STAT is 2 (R423). -/
def State.signEnd (s : State) : State :=
  match s.sign.job with
  | none => s
  | some (c, idx, off, msg) =>
    { s with sign := { s.sign with stat := 2, job := none },
             plat := { s.plat with doeRsp := csets s.plat.doeRsp off (xmss c idx msg) } }

/-- SIGN_DONE (R423). -/
def execSignDone (s : State) : Out := .next s.signEnd

/-- A write to IDX_RESV (R5, R424). -/
def State.reserve (s : State) (v : Nat) : State :=
  if s.sign.idxNext < v ∧ v ≤ 2 ^ 20 then
    { s with sign := { s.sign with commit := some v }, plat := { s.plat with idxResv := BitVec.ofNat 32 v } }
  else s.report 9 0xFF 0xFF 0xFF 0x41C v

/-- IDX_RESV (R424). -/
def execIdxResv (v : BitVec 32) (s : State) : Out := .next (s.reserve v.toNat)

/-- A flash commit completes (R424). -/
def State.committed (s : State) : State :=
  match s.sign.commit with
  | none => s
  | some v => { s with sign := { s.sign with idxNext := v, commit := none } }

/-- IDX_COMMIT_DONE (R424). -/
def execIdxCommitDone (s : State) : Out := .next s.committed

/-! ## The DOE mailbox (R421, R422) -/

/-- What the mailbox answers by itself: ERROR with a code, under the version of the request (R422). -/
def mailboxError (req : List Byte) (code : Byte) : List Byte :=
  let v := req.headD 0x10
  [if v = 0x10 ∨ v = 0x12 then v else 0x10, 0x7F, code, 0]

/-- The error with which the mailbox answers a request by itself, if any (R422). -/
def State.mailboxRefuses (s : State) (req : List Byte) : Option Byte :=
  if !s.plat.ready0.getLsbD 1 then some 0x03
  else if req.length < 4 ∨ 1024 < req.length then some 0x01
  else none

/-- Sending a response to the host. -/
def State.respond (s : State) (b : List Byte) : State := { s with out := s.out ++ [HostOut.doe b] }

/-- A request at the mailbox while none is pending: the mailbox answers it, or places it (R422). -/
def State.place (s : State) (req : List Byte) : State :=
  match s.mailboxRefuses req with
  | some e => s.respond (mailboxError req e)
  | none =>
    { s with plat := { s.plat with doeReqLen := BitVec.ofNat 32 req.length, doeReq := csets s.plat.doeReq 0 req } }

/-- Requests that wait at the mailbox are taken in order of arrival until one is pending (R418, R422). -/
def State.mailbox (s : State) (wait : List (List Byte)) : State :=
  match wait with
  | [] => { s with plat := { s.plat with doeWait := [] } }
  | r :: rest => if s.plat.doeReqLen = 0 then (s.place r).mailbox rest else { s with plat := { s.plat with doeWait := wait } }

/-- No request is pending any more (R422). -/
def State.answered (s : State) : State :=
  { s with plat := { s.plat with doeReqLen := 0 } }.mailbox s.plat.doeWait

/-- DOE_REQUEST (R418, R422): a request is answered by the mailbox itself, whether or not another is pending, or becomes pending,
or waits for its turn. -/
def execDoeRequest (bytes : List (BitVec 8)) (s : State) : Out :=
  .next (match s.mailboxRefuses bytes with
    | some e => s.respond (mailboxError bytes e)
    | none => s.mailbox (s.plat.doeWait ++ [bytes]))

/-- A write of DOE_RSPLEN: the response is sent and no request is pending (R5, R421, R422). -/
def State.rspWrite (s : State) (n : Word) : State :=
  if n = 0 ∨ 8192 < n.toNat then s.report 9 0xFF 0xFF 0xFF 0x404 n.toNat
  else ({ s with plat := { s.plat with doeRspLen := n } }.respond (cgets s.plat.doeRsp 0 n.toNat)).answered

/-- DOE_RSPLEN (R422). -/
def execDoeRsplen (n : BitVec 32) (s : State) : Out := .next (s.rspWrite n)

/-- TRNG (R421): a read of any size takes fresh random bits. -/
def execTrng (n : Nat) (s : State) : Out := .next (s.regRead 0x408 n).2

/-! ## The responder (R417, R418, R425) -/

/-- What a request comes to: an ERROR code with whether it is reported, or the response without its signature, and the
context of the signature when one is made. -/
inductive Answer where
  | error (code : Byte) (reported : Bool)
  | plain (b : List Byte)
  | signed (measurements : Bool) (b : List Byte)
  deriving DecidableEq, Repr

/-- The transcripts a served request enters: both, M or L (R425). -/
inductive Log where
  | vca | m | l
  deriving DecidableEq, Repr

/-- ERROR under version 1.2, or 1.0 for GET_VERSION. -/
def errorBytes (code : Nat) (e : Byte) : List Byte := [if code = 0x84 then 0x10 else 0x12, 0x7F, e, 0]

/-- Taking a request that no other is before: it is pending, or nothing is (R418, R422). -/
def State.takes (s : State) (req : List Byte) : Bool :=
  (s.plat.doeReqLen == 0 || cgets s.plat.doeReq 0 s.plat.doeReqLen.toNat == req) && s.sign.stat != 1

/-- The responder sends a response: it writes DOE_RSP, and then DOE_RSPLEN (R421, R422). -/
def State.send (s : State) (b : List Byte) : State :=
  { s with plat := { s.plat with doeRsp := csets s.plat.doeRsp 0 b } }.rspWrite (BitVec.ofNat 32 b.length)

/-- Entering an exchange in transcripts (R425). -/
def Spdm.enter (d : Spdm) (g : Log) (b : List Byte) : Spdm :=
  match g with
  | .vca => { d with m := d.m ++ b, l := d.l ++ b, vca := d.vca ++ b }
  | .m => { d with m := d.m ++ b }
  | .l => { d with l := d.l ++ b }

/-- The transcript that an exchange enters first, which it may not take beyond 65,536 bytes. -/
def Spdm.of (d : Spdm) (g : Log) : List Byte :=
  match g with
  | .l => d.l
  | _ => d.m

/-- Signing a transcript hash with the next leaf index, after reserving 64 more when none is left; none when all indices
are spent (R417, R423). -/
def State.signNow (s : State) (measurements : Bool) (msg : List Byte) (off : Nat) : Option (List Byte) × State :=
  let idx := s.sign.floor
  if 2 ^ 20 ≤ idx then (none, s.report 9 0xFF 0xFF 0xFF 0x410 idx)
  else
    let s := if s.sign.idxNext ≤ idx then (s.reserve (min (idx + 64) (2 ^ 20))).committed else s
    let s := { s with plat := { s.plat with signMsg := csets s.plat.signMsg 0 msg } }
    let word : DWord := BitVec.ofNat 64 (idx + (if measurements then 2 ^ 20 else 0) + off * 2 ^ 32)
    let s := s.signWrite word
    if s.sign.stat = 3 then (none, s.report 9 0xFF 0xFF 0xFF 0x410 idx)
    else (some (xmss measurements idx msg), s.signEnd)

/-- Whether a request is out of the order of the connection: codes 0xE1 and 0xE3 need state 1 and 2, the last four
state 3 (R418). -/
def outOfOrder (conn code : Nat) : Bool :=
  if code = 0x84 then false else if code = 0xE1 then conn != 1 else if code = 0xE3 then conn != 2 else conn != 3

/-- The request codes of R418. -/
def spdmCodes : List Nat := [0x84, 0xE1, 0xE3, 0x81, 0x82, 0x83, 0xE0]

/-- Serving one request (R418, R422, R425): the checks in order, the response `answer` gives, the transcripts, the
signature. -/
def State.serve (s : State) (req : List Byte) (log : Log) (answer : State → Answer × State) : State :=
  let code := (req.getD 1 0).toNat
  match s.mailboxRefuses req with
  | some e => s.respond (mailboxError req e)
  | none =>
    if !s.takes req then s
    else
      let s := s.place req
      let fail (e : Byte) (s : State) : State := s.send (errorBytes code e)
      if !spdmCodes.contains code then fail 0x07 s
      else if (req.getD 0 0).toNat ≠ (if code = 0x84 then 0x10 else 0x12) then fail 0x41 s
      else if outOfOrder s.spdm.conn code then fail 0x04 s
      else
        match answer s with
        | (.error e r, s) => fail e (if r then s.report 9 0xFF 0xFF 0xFF 0x410 0 else s)
        | (.plain b, s) =>
          if 65536 < (s.spdm.of log).length + req.length + b.length then fail 0x01 s
          else { s with spdm := s.spdm.enter log (req ++ b) }.send b
        | (.signed c b, s) =>
          let t := s.spdm.of log ++ req ++ b
          if 65536 < t.length then fail 0x01 s
          else match s.signNow c (shake256 t 64) b.length with
            | (none, s) => fail 0x05 s
            | (some g, s) =>
              let d := s.spdm
              { s with spdm := if c then { d with l := d.vca } else { d with m := d.vca } }.send (b ++ g)

/-- Whether an event is of a request with a code. -/
def isCode (req : List Byte) (code : Nat) : Bool := (req.getD 1 0).toNat == code

/-- The state of the connection after a request. -/
def State.connect (s : State) (n : Nat) : State := { s with spdm := { s.spdm with conn := n } }

/-- GET_VERSION (R418, R425): the connection starts, and both transcripts are emptied. -/
def execGetVersion (req : List (BitVec 8)) (s : State) : Out :=
  .next (if !isCode req 0x84 then s
    else s.serve req .vca (fun s =>
      (.plain [0x10, 0x04, 0, 0, 0, 0x01, 0, 0x12], { s with spdm := { conn := 1, m := [], l := [], vca := [] } })))

/-- GET_CAPABILITIES (R418). -/
def execGetCapabilities (req : List (BitVec 8)) (s : State) : Out :=
  .next (if !isCode req 0xE1 then s
    else s.serve req .vca (fun s =>
      (.plain [0x12, 0x61, 0, 0, 0, 0x14, 0, 0, 0x16, 0, 0, 0, 0, 0x20, 0, 0, 0, 0x20, 0, 0], s.connect 2)))

/-- NEGOTIATE_ALGORITHMS (R418). -/
def execNegotiateAlgorithms (req : List (BitVec 8)) (s : State) : Out :=
  .next (if !isCode req 0xE3 then s
    else s.serve req .vca (fun s =>
      (.plain ([0x12, 0x63, 0, 0, 0x2C, 0, 0x01, 0, 0x01, 0, 0, 0] ++ List.replicate 20 0 ++
        [0x01, 0x01, 0, 0, 0x03, 0, 0x01, 0, 0x03, 0, 0x02, 0]), s.connect 3)))

/-- The digest of the certificate chain (R417). -/
def chainDigest : List Byte := shake256 Config.certChain 64

/-- GET_DIGESTS (R418). -/
def execGetDigests (req : List (BitVec 8)) (s : State) : Out :=
  .next (if !isCode req 0x81 then s
    else s.serve req .m (fun s => (.plain ([0x12, 0x01, 0, 0x01] ++ chainDigest), s)))

/-- GET_CERTIFICATE (R418, R425): a portion of the chain, as much as DOE_RSP holds, and what remains (R421; log 151). -/
def execGetCertificate (req : List (BitVec 8)) (s : State) : Out :=
  .next (if !isCode req 0x82 then s
    else s.serve req .m (fun s =>
      let off := natOf ((req.drop 4).take 2)
      let n := natOf ((req.drop 6).take 2)
      let all := Config.certChain
      let k := min (min n 8184) (all.length - off)
      if req.length < 8 ∨ all.length ≤ off then (.error 0x01 false, s)
      else (.plain ([0x12, 0x02, 0, 0] ++ bytesOf 2 k ++ bytesOf 2 (all.length - off - k) ++ (all.drop off).take k), s)))

/-- 32 bytes of the TRNG (R418). -/
def State.nonce (s : State) : List Byte × State :=
  ((List.range 32).map (fun i => Config.freeByte (s.freeCtr + i)), { s with freeCtr := s.freeCtr + 32 })

/-- CHALLENGE (R418, R425): CHALLENGE_AUTH, with the summary of all measurements when one is asked for. -/
def execChallenge (req : List (BitVec 8)) (s : State) : Out :=
  .next (if !isCode req 0x83 then s
    else s.serve req .m (fun s =>
      let (nonce, s1) := s.nonce
      let summary := if req.getD 3 0 = 0 then [] else shake256 s.plat.meas.flatten 64
      if req.length < 36 then (.error 0x01 false, s)
      else (.signed false ([0x12, 0x03, 0, 0x01] ++ chainDigest ++ nonce ++ summary ++ [0, 0]), s1)))

/-- The types of the eight measurement blocks. -/
def measTypes : List Byte := [0x81, 0x83, 0x81, 0x85, 0x81, 0x81, 0x81, 0x81]

/-- The block of measurement index k (R418). -/
def State.measBlock (s : State) (k : Nat) : List Byte :=
  [BitVec.ofNat 8 k, 0x01, 0x43, 0, measTypes.getD (k - 1) 0, 0x40, 0] ++ s.plat.meas.getD (k - 1) []

/-- GET_MEASUREMENTS (R418, R425): one block or all, signed when asked. -/
def execGetMeasurements (req : List (BitVec 8)) (s : State) : Out :=
  .next (if !isCode req 0xE0 then s
    else s.serve req .l (fun s =>
      let sign := (req.getD 2 0).getLsbD 0
      let op := (req.getD 3 0).toNat
      let ks := if op = 0xFF then (List.range 8).map (· + 1) else [op]
      let (nonce, s1) := s.nonce
      let b := [0x12, 0x60, 0, 0, BitVec.ofNat 8 ks.length] ++ bytesOf 3 (71 * ks.length) ++ ks.flatMap s.measBlock ++
        nonce ++ [0, 0]
      if sign && decide (req.length < 37) then (.error 0x01 false, s)
      else if op = 0 ∨ (8 < op ∧ op ≠ 0xFF) then (.error 0x01 false, s)
      else (if sign then .signed true b else .plain b, s1)))

/-- SPDM_UNKNOWN_REQUEST (R418, R425): UnsupportedRequest. -/
def execSpdmUnknownRequest (req : List (BitVec 8)) (s : State) : Out :=
  .next (if spdmCodes.contains (req.getD 1 0).toNat then s
    else s.serve req .m (fun s => (.error 0x07 false, s)))

end Sys2Proof.Machine
end

