-- ==== Sys2Proof/Machine/RegWrite.lean ====
section
/-! DEFINITION. Writes of the register space: which registers a write meets, their limits, and what each does (R401 to R403,
R406, R409, R414, R421). -/

namespace Sys2Proof.Machine

/-- The state after an event that is an effect of a register write. -/
def after (o : Out) (s : State) : State :=
  match o with
  | .next t => t
  | .fault _ | .refused _ => s

/-! ## Which registers a write meets -/

/-- A register among a list of (offset, bytes) that holds an offset. -/
def regIn (l : List (Nat × Nat)) (off : Nat) : Option (Nat × Nat) :=
  l.find? (fun r => decide (r.1 ≤ off) && decide (off < r.1 + r.2))

/-- The writable global registers (R401). -/
def globalRegs : List (Nat × Nat) :=
  [(0x60, 4), (0x68, 8), (0x70, 8), (0x78, 4), (0x80, 8), (0x88, 4), (0x90, 8), (0xA0, 8), (0xA8, 4), (0xB0, 8), (0xC0, 4)]

/-- The registers that only steward sheaves write (R401, R414, R421). DESIGN CHOICE: DSPREQ0 to DSPREQ3 are not among them. R401
and R377 give the read that takes a request, and no effect of a write; the model drops it (log 138). -/
def stewardRegs : List (Nat × Nat) :=
  [(0x340, 4), (0x380, 8), (0x388, 8), (0x390, 8), (0x398, 4), (0x404, 4), (0x410, 8), (0x41C, 4)]

/-- The registers of a context page (R402), of a submission queue (R403), of a watch entry (R406) and of a drive entry
(R409). -/
def pageRegs : List (Nat × Nat) :=
  [(0, 8), (8, 8), (0x10, 8), (0x18, 8), (0x20, 4), (0x28, 8), (0x30, 8), (0x38, 4), (0x40, 4)]
def sqRegs : List (Nat × Nat) := [(0, 8), (8, 1), (9, 1), (10, 1), (12, 4), (16, 4), (11, 1)]
def watchRegs : List (Nat × Nat) := [(0, 8), (8, 4), (12, 4), (18, 2), (24, 8), (16, 1)]
def driveRegs : List (Nat × Nat) := [(0, 8), (8, 1), (9, 1), (10, 1), (12, 2), (14, 2), (16, 8), (24, 8)]

/-- The bytes that only steward sheaves write, each a register of its own (R401, R421). -/
def stewardByte (off : Nat) : Bool :=
  (decide (0x300 ≤ off) && decide (off < 0x340)) || (decide (0x500 ≤ off) && decide (off < 0x540)) ||
    (decide (0x800 ≤ off) && decide (off < 0xC00)) || (decide (0x1000 ≤ off) && decide (off < 0x3300))

/-- The writable register that holds an offset: its offset and bytes, and whether its write comes last of those of its
entry: STATE of a queue, and ARMED of a watch entry. -/
def regAt (steward : Bool) (off : Nat) : Option (Nat × Nat × Bool) :=
  let at_ (base : Nat) (l : List (Nat × Nat)) (last : Nat) : Option (Nat × Nat × Bool) :=
    (regIn l (off - base)).map (fun r => (base + r.1, r.2, r.1 == last))
  if off < 0x300 then at_ 0 globalRegs 0x1000
  else if off < 0x10000 then
    if !steward then none else if stewardByte off then some (off, 1, false) else at_ 0 stewardRegs 0x1000
  else if off < 0x30000 then at_ (off / 0x1000 * 0x1000) pageRegs 0x1000
  else if 0x40000 ≤ off ∧ off < 0x48000 then at_ (off / 32 * 32) sqRegs 11
  else if 0x80000 ≤ off ∧ off < 0xA0000 then at_ (off / 32 * 32) watchRegs 16
  else if 0xC0000 ≤ off ∧ off < 0xC0400 then at_ (off / 64 * 64) driveRegs 0x1000
  else none

/-- The registers that a write of bytes meets, in ascending order but for those that come last (R403, R406). -/
def regsMet (steward : Bool) (off size : Nat) : List (Nat × Nat) :=
  let l := (((List.range size).filterMap (fun i => regAt steward (off + i)))).eraseDups
  (l.filter (fun r => !r.2.2) ++ l.filter (fun r => r.2.2)).map (fun r => (r.1, r.2.1))

/-- The value that a register takes from a write: the bytes written, and its own elsewhere. -/
def State.merged (s : State) (steward : Bool) (off size v : Nat) (r : Nat × Nat) : Nat :=
  natOf ((List.range r.2).map (fun i =>
    let a := r.1 + i
    if off ≤ a ∧ a < off + size then BitVec.ofNat 8 (v / 2 ^ (8 * (a - off))) else s.regByte steward a))

/-! ## Limits (R401) -/

/-- Ignored and reported. -/
def State.badWrite (s : State) (off v : Nat) : State := s.report 9 0xFF 0xFF 0xFF off (v % 2 ^ 32)

/-- A base register of a ring (R123, R401): its PA and LOGN fields, in local HBM. -/
def State.ringBase (s : State) (v : DWord) : Option DWord :=
  let b := v &&& 0x3FFFFFFFFFF01F
  let pa := (b.extractLsb' 12 42).toNat * 4096
  if (ringLog b).isSome && s.inHbm pa then some b else none

/-- HREGS: 8 to 64 in steps of 8. -/
def hregsOk (v : Nat) : Bool := decide (8 ≤ v) && decide (v ≤ 64) && v % 8 == 0

/-! ## What each register does -/

/-- A global register (R401). -/
def State.writeGlobal (s : State) (off v : Nat) : State :=
  let p := s.plat
  let w : DWord := BitVec.ofNat 64 v
  let bad := s.badWrite off v
  let put (q : Plat) : State := { s with plat := q }
  match off with
  | 0x60 => after (execPowerCap (BitVec.ofNat 32 v) s) s
  | 0x68 => if v % 2 ^ 32 = 0 then put { p with hapbase := w } else bad
  | 0x70 => if p.ready0.getLsbD 1 ∨ v % 64 ≠ 0 ∨ !s.inHbm v then bad else put { p with rcvAddr := w }
  | 0x78 => after (execRcvLen (BitVec.ofNat 32 v) s) s
  | 0x80 => match s.ringBase w with
    | some b => (put { p with fqBase := b }).fqDrain
    | none => bad
  | 0x88 => after (execFqHead (BitVec.ofNat 32 v) s) s
  | 0x90 =>
    let tag := v % 2 ^ 32
    match v / 2 ^ 32 % 4 with
    | 0 => s.verdict tag .retry
    | 1 => s.verdict tag (.fail 0x05)
    | 2 => s.verdict tag (.fail 0x06)
    | _ => bad
  | 0xA0 => match s.ringBase w with
    | some b => put { p with errBase := b }
    | none => bad
  | 0xA8 => put { p with errHead := BitVec.ofNat 32 v }
  | 0xB0 => after (execErrClear w s) s
  | 0xC0 =>
    let x : Word := BitVec.ofNat 32 v
    if x.getLsbD 31 then after (execWqUnregister x s) s else after (execWqRegister x s) s
  | _ => s

/-- A register that only steward sheaves reach (R401, R411, R414, R416, R421). -/
def State.writeSteward (s : State) (off v : Nat) : State :=
  let p := s.plat
  let w : DWord := BitVec.ofNat 64 v
  let b : Byte := BitVec.ofNat 8 v
  let put (q : Plat) : State := { s with plat := q }
  if off < 0x340 then put { p with measData := cset p.measData (off - 0x300) b }
  else if off = 0x340 then after (execMeasExt 0 (BitVec.ofNat 32 v) s) s
  else if off = 0x380 then put { p with fwPtRoot := w &&& 0x3FFFFFFFFF0001 }
  else if off = 0x388 then put { p with fwHndCode := w }
  else if off = 0x390 then put { p with fwHndArg := w }
  else if off = 0x398 then (if hregsOk v then put { p with fwHndRegs := BitVec.ofNat 32 v } else s.badWrite off v)
  else if off = 0x404 then after (execDoeRsplen (BitVec.ofNat 32 v) s) s
  else if off = 0x410 then s.signWrite w
  else if off = 0x41C then s.reserve v
  else if off < 0x540 then put { p with signMsg := cset p.signMsg (off - 0x500) b }
  else if off < 0xC00 then put { p with doeReq := cset p.doeReq (off - 0x800) b }
  else if off < 0x3000 then put { p with doeRsp := cset p.doeRsp (off - 0x1000) b }
  else put { p with admits := cset p.admits (off - 0x3000) b }

/-- A register of context page c (R402). -/
def State.writePage (s : State) (c off v : Nat) : State :=
  let w : DWord := BitVec.ofNat 64 v
  let bad := s.badWrite (0x10000 + 0x1000 * c + off) v
  match off with
  | 0 => s.updCtx c (fun x => { x with ptRoot := w &&& 0x3FFFFFFFFF0001 })
  | 8 => after (execTlbInv c w s) s
  | 0x10 => s.updCtx c (fun x => { x with part := x.part.extractLsb' 64 64 ++ w })
  | 0x18 => s.updCtx c (fun x => { x with part := w ++ x.part.extractLsb' 0 64 })
  | 0x20 => after (execRqset c (BitVec.ofNat 32 v) s) s
  | 0x28 => s.updCtx c (fun x => { x with hndCode := w })
  | 0x30 => s.updCtx c (fun x => { x with hndArg := w })
  | 0x38 => if hregsOk v then s.updCtx c (fun x => { x with hndRegs := BitVec.ofNat 32 v }) else bad
  | _ => match v with
    | 1 => s.beginPreempt c false
    | 2 => after (execPreemptRelease c s) s
    | 3 => after (execForcedReset c s) s
    | _ => bad

/-- A register of submission queue q (R342, R403). -/
def State.writeSq (s : State) (q off v : Nat) : State :=
  let running := (s.sq q).st == .running
  let bad := s.badWrite (0x40000 + 32 * q + off) v
  let set (f : Sq → Sq) : State := if running then bad else s.updSq q f
  let b : Byte := BitVec.ofNat 8 v
  match off with
  | 0 => set (fun x => { x with ring := BitVec.ofNat 64 v })
  | 8 => set (fun x => { x with logsz := b })
  | 9 => set (fun x => { x with ctx := b })
  | 10 =>
    let s := s.updSq q (fun x => { x with prio := b })
    if running && !(s.sq q).limitsOk then s.sqError q else s
  | 11 => after (execSqStateWrite q b s) s
  | 12 => set (fun x => { x with head := BitVec.ofNat 32 v, ind := none })
  | _ => after (execDoorbell none q (BitVec.ofNat 32 v) s) s

/-- A register of watch entry e (R406): an armed entry whose PA is not local HBM is refused, and left disarmed. -/
def State.writeWatch (s : State) (e off v : Nat) : State :=
  let bad := s.badWrite (0x80000 + 32 * e + off) v
  match off with
  | 0 =>
    if v % 4 ≠ 0 then bad
    else
      let s := s.updWatch e (fun w => { w with pa := BitVec.ofNat 64 v })
      if (s.watch e).armed && !s.inHbm v then
        (s.updWatch e (fun w => { w with armed := false })).report 9 0xFF 0xFF 0xFF (0x80000 + 32 * e) 0
      else s
  | 8 => s.updWatch e (fun w => { w with mask := BitVec.ofNat 32 v })
  | 12 => s.updWatch e (fun w => { w with value := BitVec.ofNat 32 v })
  | 18 => if 2 ≤ v ∧ v ≤ 63 then s.updWatch e (fun w => { w with vector := BitVec.ofNat 16 v }) else bad
  | 24 => if v % 8 = 0 then s.updWatch e (fun w => { w with bus := BitVec.ofNat 64 v }) else bad
  | _ =>
    if v / 4 % 4 = 3 ∨ v / 16 % 8 ≠ 0 then bad
    else
      let s := s.updWatch e (fun w =>
        { w with cmp := BitVec.ofNat 2 v, action := BitVec.ofNat 2 (v / 4), armed := false })
      if 128 ≤ v then after (execWatchArm e s) s else s

/-- A register of drive entry d (R409): a queue base is in local HBM; setting VALID starts the engine's queue afresh. -/
def State.writeDrive (s : State) (d off n v : Nat) : State :=
  let ok := match off with
    | 9 => decide (v = 9 ∨ v = 12)
    | 14 => decide (1 ≤ v ∧ v ≤ 1023)
    | 16 | 24 => s.inHbm v
    | _ => true
  let v := if off = 10 then v % 2 else v
  let x := s.driveOf d
  let y := { x with bytes := x.bytes.take off ++ bytesOf n v ++ x.bytes.drop (off + n) }
  let y := if off = 10 && v = 1 && ((x.bytes.getD 10 0).getLsbD 0) = false then
      { Drive.init d with bytes := y.bytes } else y
  if ok then { s with drives := putBy Drive.d y s.drives } else s.badWrite (0xC0000 + 64 * d + off) v

/-- Writing one register, which lies at `off` and has n bytes. -/
def State.writeReg (s : State) (off n v : Nat) : State :=
  if off < 0x300 then s.writeGlobal off v
  else if off < 0x10000 then s.writeSteward off v
  else if off < 0x30000 then s.writePage ((off - 0x10000) / 0x1000) (off % 0x1000) v
  else if off < 0x48000 then s.writeSq ((off - 0x40000) / 32) (off % 32) v
  else if off < 0xA0000 then s.writeWatch ((off - 0x80000) / 32) (off % 32) v
  else s.writeDrive ((off - 0xC0000) / 64) (off % 64) n v

/-- REGISTER_WRITE (R400, R401): a write of the register space by a steward sheaf or by the host's physical function; what
it does not reach is left as it is (R5). -/
def execRegisterWrite (steward : Bool) (off : BitVec 24) (size : Nat) (v : BitVec 64) (s : State) : Out :=
  .next ((regsMet steward off.toNat (min 8 size)).foldl (fun s r =>
    s.writeReg r.1 r.2 (s.merged steward off.toNat (min 8 size) v.toNat r)) s)

end Sys2Proof.Machine
end

