-- ==== Sys2Proof/Machine/Dispatch.lean ====
section
/-! DEFINITION. Which meaning each instruction and event has: one arm per constructor of `Instr`. -/

namespace Sys2Proof.Machine

/-- The effect of one instruction or event: a next state, a fault or a refusal. -/
def exec (i : Instr) (s : State) : Host.Outcome State Fault Refusal :=
  match i with
  | .nop h x => Sys2Proof.Machine.execNop h x s
  | .iadd h x => Sys2Proof.Machine.execIadd h x s
  | .isub h x => Sys2Proof.Machine.execIsub h x s
  | .imul h x => Sys2Proof.Machine.execImul h x s
  | .imulh h x => Sys2Proof.Machine.execImulh h x s
  | .imad h x => Sys2Proof.Machine.execImad h x s
  | .imin h x => Sys2Proof.Machine.execImin h x s
  | .imax h x => Sys2Proof.Machine.execImax h x s
  | .iabsd h x => Sys2Proof.Machine.execIabsd h x s
  | .bitf h x => Sys2Proof.Machine.execBitf h x s
  | .shl h x => Sys2Proof.Machine.execShl h x s
  | .shr h x => Sys2Proof.Machine.execShr h x s
  | .bfx h x => Sys2Proof.Machine.execBfx h x s
  | .bfi h x => Sys2Proof.Machine.execBfi h x s
  | .popc h x => Sys2Proof.Machine.execPopc h x s
  | .clz h x => Sys2Proof.Machine.execClz h x s
  | .brev h x => Sys2Proof.Machine.execBrev h x s
  | .icmp h x => Sys2Proof.Machine.execIcmp h x s
  | .sel h x => Sys2Proof.Machine.execSel h x s
  | .mov h x => Sys2Proof.Machine.execMov h x s
  | .movi h x => Sys2Proof.Machine.execMovi h x s
  | .moviZ h x => Sys2Proof.Machine.execMoviZ h x s
  | .moviLong h x => Sys2Proof.Machine.execMoviLong h x s
  | .movi64 h x => Sys2Proof.Machine.execMovi64 h x s
  | .iadd64 h x => Sys2Proof.Machine.execIadd64 h x s
  | .lea h x => Sys2Proof.Machine.execLea h x s
  | .idiv h x => Sys2Proof.Machine.execIdiv h x s
  | .irem h x => Sys2Proof.Machine.execIrem h x s
  | .idot4 h x => Sys2Proof.Machine.execIdot4 h x s
  | .pbitf h x => Sys2Proof.Machine.execPbitf h x s
  | .pmovPack h x => Sys2Proof.Machine.execPmovPack h x s
  | .pmovUnpk h x => Sys2Proof.Machine.execPmovUnpk h x s
  | .kecf h x => Sys2Proof.Machine.execKecf h x s
  | .fadd h x => Sys2Proof.Machine.execFadd h x s
  | .fmul h x => Sys2Proof.Machine.execFmul h x s
  | .ffma h x => Sys2Proof.Machine.execFfma h x s
  | .fmin h x => Sys2Proof.Machine.execFmin h x s
  | .fmax h x => Sys2Proof.Machine.execFmax h x s
  | .fcmp h x => Sys2Proof.Machine.execFcmp h x s
  | .frcp h x => Sys2Proof.Machine.execFrcp h x s
  | .frsq h x => Sys2Proof.Machine.execFrsq h x s
  | .fsqrt h x => Sys2Proof.Machine.execFsqrt h x s
  | .fex2 h x => Sys2Proof.Machine.execFex2 h x s
  | .flg2 h x => Sys2Proof.Machine.execFlg2 h x s
  | .fsin h x => Sys2Proof.Machine.execFsin h x s
  | .fcos h x => Sys2Proof.Machine.execFcos h x s
  | .fclass h x => Sys2Proof.Machine.execFclass h x s
  | .hadd2 h x => Sys2Proof.Machine.execHadd2 h x s
  | .hmul2 h x => Sys2Proof.Machine.execHmul2 h x s
  | .hfma2 h x => Sys2Proof.Machine.execHfma2 h x s
  | .hmin2 h x => Sys2Proof.Machine.execHmin2 h x s
  | .hmax2 h x => Sys2Proof.Machine.execHmax2 h x s
  | .hcmp2 h x => Sys2Proof.Machine.execHcmp2 h x s
  | .cvtif h x => Sys2Proof.Machine.execCvtif h x s
  | .cvtfi h x => Sys2Proof.Machine.execCvtfi h x s
  | .cvtff h x => Sys2Proof.Machine.execCvtff h x s
  | .cvtn h x => Sys2Proof.Machine.execCvtn h x s
  | .cvtw h x => Sys2Proof.Machine.execCvtw h x s
  | .cvtra h x => Sys2Proof.Machine.execCvtra h x s
  | .cvtar h x => Sys2Proof.Machine.execCvtar h x s
  | .packH h x => Sys2Proof.Machine.execPackH h x s
  | .packBi h x => Sys2Proof.Machine.execPackBi h x s
  | .packN h x => Sys2Proof.Machine.execPackN h x s
  | .unpkH h x => Sys2Proof.Machine.execUnpkH h x s
  | .unpkB h x => Sys2Proof.Machine.execUnpkB h x s
  | .unpkN h x => Sys2Proof.Machine.execUnpkN h x s
  | .setfmtR h x => Sys2Proof.Machine.execSetfmtR h x s
  | .setfmt h x => Sys2Proof.Machine.execSetfmt h x s
  | .setfmtLong h x => Sys2Proof.Machine.execSetfmtLong h x s
  | .setfmtSeed h x => Sys2Proof.Machine.execSetfmtSeed h x s
  | .getfmt h x => Sys2Proof.Machine.execGetfmt h x s
  | .bscale h x => Sys2Proof.Machine.execBscale h x s
  | .efclr h x => Sys2Proof.Machine.execEfclr h x s
  | .qswz h x => Sys2Proof.Machine.execQswz h x s
  | .qred h x => Sys2Proof.Machine.execQred h x s
  | .shfl h x => Sys2Proof.Machine.execShfl h x s
  | .voteAll h x => Sys2Proof.Machine.execVoteAll h x s
  | .voteAny h x => Sys2Proof.Machine.execVoteAny h x s
  | .voteUni h x => Sys2Proof.Machine.execVoteUni h x s
  | .voteBal h x => Sys2Proof.Machine.execVoteBal h x s
  | .scan h x => Sys2Proof.Machine.execScan h x s
  | .sred h x => Sys2Proof.Machine.execSred h x s
  | .match32 h x => Sys2Proof.Machine.execMatch32 h x s
  | .match64 h x => Sys2Proof.Machine.execMatch64 h x s
  | .elect h x => Sys2Proof.Machine.execElect h x s
  | .electNh h x => Sys2Proof.Machine.execElectNh h x s
  | .ld h x => Sys2Proof.Machine.execLd h x s
  | .st h x => Sys2Proof.Machine.execSt h x s
  | .ldu h x => Sys2Proof.Machine.execLdu h x s
  | .stu h x => Sys2Proof.Machine.execStu h x s
  | .ldc h x => Sys2Proof.Machine.execLdc h x s
  | .pref h x => Sys2Proof.Machine.execPref h x s
  | .cctlWb h x => Sys2Proof.Machine.execCctlWb h x s
  | .cctlInv h x => Sys2Proof.Machine.execCctlInv h x s
  | .cctlDemote h x => Sys2Proof.Machine.execCctlDemote h x s
  | .cctlRenud h x => Sys2Proof.Machine.execCctlRenud h x s
  | .atom h x => Sys2Proof.Machine.execAtom h x s
  | .acas h x => Sys2Proof.Machine.execAcas h x s
  | .red h x => Sys2Proof.Machine.execRed h x s
  | .atomu h x => Sys2Proof.Machine.execAtomu h x s
  | .fence h x => Sys2Proof.Machine.execFence h x s
  | .waitv h x => Sys2Proof.Machine.execWaitv h x s
  | .pbari h x => Sys2Proof.Machine.execPbari h x s
  | .pbara h x => Sys2Proof.Machine.execPbara h x s
  | .pbarw h x => Sys2Proof.Machine.execPbarw h x s
  | .yield h x => Sys2Proof.Machine.execYield h x s
  | .stampCis h x => Sys2Proof.Machine.execStampCis h x s
  | .stampCie h x => Sys2Proof.Machine.execStampCie h x s
  | .bra h x => Sys2Proof.Machine.execBra h x s
  | .brx h x => Sys2Proof.Machine.execBrx h x s
  | .join h x => Sys2Proof.Machine.execJoin h x s
  | .joint h x => Sys2Proof.Machine.execJoint h x s
  | .call h x => Sys2Proof.Machine.execCall h x s
  | .ret h x => Sys2Proof.Machine.execRet h x s
  | .exit h x => Sys2Proof.Machine.execExit h x s
  | .exitH h x => Sys2Proof.Machine.execExitH h x s
  | .bar h x => Sys2Proof.Machine.execBar h x s
  | .bara h x => Sys2Proof.Machine.execBara h x s
  | .barw h x => Sys2Proof.Machine.execBarw h x s
  | .trap h x => Sys2Proof.Machine.execTrap h x s
  | .bkpt h x => Sys2Proof.Machine.execBkpt h x s
  | .bbc h x => Sys2Proof.Machine.execBbc h x s
  | .bclose h x => Sys2Proof.Machine.execBclose h x s
  | .bwait h x => Sys2Proof.Machine.execBwait h x s
  | .enq h x => Sys2Proof.Machine.execEnq h x s
  | .pub h x => Sys2Proof.Machine.execPub h x s
  | .deq h x => Sys2Proof.Machine.execDeq h x s
  | .spawn h x => Sys2Proof.Machine.execSpawn h x s
  | .take h x => Sys2Proof.Machine.execTake h x s
  | .steal h x => Sys2Proof.Machine.execSteal h x s
  | .launch h x => Sys2Proof.Machine.execLaunch h x s
  | .mstart h x => Sys2Proof.Machine.execMstart h x s
  | .mstat h x => Sys2Proof.Machine.execMstat h x s
  | .mres h x => Sys2Proof.Machine.execMres h x s
  | .mresSkip h x => Sys2Proof.Machine.execMresSkip h x s
  | .ralloc h x => Sys2Proof.Machine.execRalloc h x s
  | .rload h x => Sys2Proof.Machine.execRload h x s
  | .rpin h x => Sys2Proof.Machine.execRpin h x s
  | .runpin h x => Sys2Proof.Machine.execRunpin h x s
  | .rrevk h x => Sys2Proof.Machine.execRrevk h x s
  | .rqry h x => Sys2Proof.Machine.execRqry h x s
  | .rqryQ h x => Sys2Proof.Machine.execRqryQ h x s
  | .mma x => Sys2Proof.Machine.execMma x s
  | .mmag x => Sys2Proof.Machine.execMmag x s
  | .maccZero x => Sys2Proof.Machine.execMaccZero x s
  | .maccLd x => Sys2Proof.Machine.execMaccLd x s
  | .mout x => Sys2Proof.Machine.execMout x s
  | .msig x => Sys2Proof.Machine.execMsig x s
  | .mwait x => Sys2Proof.Machine.execMwait x s
  | .mloopBegin x => Sys2Proof.Machine.execMloopBegin x s
  | .mloopNext x => Sys2Proof.Machine.execMloopNext x s
  | .mend x => Sys2Proof.Machine.execMend x s
  | .mtile x => Sys2Proof.Machine.execMtile x s
  | .mtileRing x => Sys2Proof.Machine.execMtileRing x s
  | .rast h x => Sys2Proof.Machine.execRast h x s
  | .trav h x => Sys2Proof.Machine.execTrav h x s
  | .filt h x => Sys2Proof.Machine.execFilt h x s
  | .blnd h x => Sys2Proof.Machine.execBlnd h x s
  | .dist h x => Sys2Proof.Machine.execDist h x s
  | .topk h x => Sys2Proof.Machine.execTopk h x s
  | .seqx slot h x => Sys2Proof.Machine.execSeqx slot h x s
  | .movs h x => Sys2Proof.Machine.execMovs h x s
  | .mtsrHorizon h x => Sys2Proof.Machine.execMtsrHorizon h x s
  | .mtsrSl h x => Sys2Proof.Machine.execMtsrSl h x s
  | .mtsrGate h x => Sys2Proof.Machine.execMtsrGate h x s
  | .mtsrStallchk h x => Sys2Proof.Machine.execMtsrStallchk h x s
  | .mtsrStarve h x => Sys2Proof.Machine.execMtsrStarve h x s
  | .mtsrWqbase h x => Sys2Proof.Machine.execMtsrWqbase h x s
  | .mtsrPdl h x => Sys2Proof.Machine.execMtsrPdl h x s
  | .mtsrGlnPeriod h x => Sys2Proof.Machine.execMtsrGlnPeriod h x s
  | .mtsrGlnCtxm h x => Sys2Proof.Machine.execMtsrGlnCtxm h x s
  | .mtsrGlnRing h x => Sys2Proof.Machine.execMtsrGlnRing h x s
  | .mtsrGlnStart h x => Sys2Proof.Machine.execMtsrGlnStart h x s
  | .mtsrGlnStop h x => Sys2Proof.Machine.execMtsrGlnStop h x s
  | .mtsrGlnTstc h x => Sys2Proof.Machine.execMtsrGlnTstc h x s
  | .mtsrBbcb h x => Sys2Proof.Machine.execMtsrBbcb h x s
  | .mtsrBbcn h x => Sys2Proof.Machine.execMtsrBbcn h x s
  | .rft h x => Sys2Proof.Machine.execRft h x s
  | .rftSkip h x => Sys2Proof.Machine.execRftSkip h x s
  | .xrd h x => Sys2Proof.Machine.execXrd h x s
  | .xwr h x => Sys2Proof.Machine.execXwr h x s
  | .tlbiAll h x => Sys2Proof.Machine.execTlbiAll h x s
  | .tlbiCtx h x => Sys2Proof.Machine.execTlbiCtx h x s
  | .tlbiPage h x => Sys2Proof.Machine.execTlbiPage h x s
  | .stopatHalt h x => Sys2Proof.Machine.execStopatHalt h x s
  | .stopatRun h x => Sys2Proof.Machine.execStopatRun h x s
  | .stopatPre h x => Sys2Proof.Machine.execStopatPre h x s
  | .saveg h x => Sys2Proof.Machine.execSaveg h x s
  | .restg h x => Sys2Proof.Machine.execRestg h x s
  | .mcld h x => Sys2Proof.Machine.execMcld h x s
  | .jointTimeout gid sh tok => Sys2Proof.Machine.execJointTimeout gid sh tok s
  | .memoryAccessComplete gid sh => Sys2Proof.Machine.execMemoryAccessComplete gid sh s
  | .waitvReevaluate gid sh ti => Sys2Proof.Machine.execWaitvReevaluate gid sh ti s
  | .waitvTimeout gid sh ti => Sys2Proof.Machine.execWaitvTimeout gid sh ti s
  | .moutComplete gid => Sys2Proof.Machine.execMoutComplete gid s
  | .residencyLoadEnd core load => Sys2Proof.Machine.execResidencyLoadEnd core load s
  | .bandGate core band => Sys2Proof.Machine.execBandGate core band s
  | .seqTake core => Sys2Proof.Machine.execSeqTake core s
  | .seqStep core => Sys2Proof.Machine.execSeqStep core s
  | .engineCopy gid sh => Sys2Proof.Machine.execEngineCopy gid sh s
  | .engineGather gid sh => Sys2Proof.Machine.execEngineGather gid sh s
  | .engineCollective gid sh => Sys2Proof.Machine.execEngineCollective gid sh s
  | .engineStorage gid sh => Sys2Proof.Machine.execEngineStorage gid sh s
  | .engineCommandEnd cmd => Sys2Proof.Machine.execEngineCommandEnd cmd s
  | .nvmeTimeout cmd => Sys2Proof.Machine.execNvmeTimeout cmd s
  | .memberAbsentTimeout cmd => Sys2Proof.Machine.execMemberAbsentTimeout cmd s
  | .queueStuck die q => Sys2Proof.Machine.execQueueStuck die q s
  | .stealTimeout gid sh ti => Sys2Proof.Machine.execStealTimeout gid sh ti s
  | .failedLanesPark gid sh log => Sys2Proof.Machine.execFailedLanesPark gid sh log s
  | .credibilityRecount core slice ctx => Sys2Proof.Machine.execCredibilityRecount core slice ctx s
  | .reclaimWritebackDone core granule => Sys2Proof.Machine.execReclaimWritebackDone core granule s
  | .rdAckTimeout page => Sys2Proof.Machine.execRdAckTimeout page s
  | .fabricTimeout req => Sys2Proof.Machine.execFabricTimeout req s
  | .stackNotReadyTimeout req => Sys2Proof.Machine.execStackNotReadyTimeout req s
  | .launchPacket q => Sys2Proof.Machine.execLaunchPacket q s
  | .phasePacket q => Sys2Proof.Machine.execPhasePacket q s
  | .signalPacket q => Sys2Proof.Machine.execSignalPacket q s
  | .waitPacket q => Sys2Proof.Machine.execWaitPacket q s
  | .waitPacketReevaluate q => Sys2Proof.Machine.execWaitPacketReevaluate q s
  | .waitPacketTimeout q => Sys2Proof.Machine.execWaitPacketTimeout q s
  | .copyPacket q => Sys2Proof.Machine.execCopyPacket q s
  | .indirectPacket q => Sys2Proof.Machine.execIndirectPacket q s
  | .markerPacket q => Sys2Proof.Machine.execMarkerPacket q s
  | .coherenceClean q => Sys2Proof.Machine.execCoherenceClean q s
  | .dispatchPlace die => Sys2Proof.Machine.execDispatchPlace die s
  | .swapRestoreEntry gid => Sys2Proof.Machine.execSwapRestoreEntry gid s
  | .groupEnd gid => Sys2Proof.Machine.execGroupEnd gid s
  | .saveQuiesced gid => Sys2Proof.Machine.execSaveQuiesced gid s
  | .saveWritten gid => Sys2Proof.Machine.execSaveWritten gid s
  | .restoreDone gid => Sys2Proof.Machine.execRestoreDone gid s
  | .preemptComplete ctx => Sys2Proof.Machine.execPreemptComplete ctx s
  | .preemptDeadline ctx => Sys2Proof.Machine.execPreemptDeadline ctx s
  | .cutEffect => Sys2Proof.Machine.execCutEffect s
  | .handlerBatchClose core ctx => Sys2Proof.Machine.execHandlerBatchClose core ctx s
  | .handlerSheafStart core ctx => Sys2Proof.Machine.execHandlerSheafStart core ctx s
  | .handlerRoomTimeout core ctx => Sys2Proof.Machine.execHandlerRoomTimeout core ctx s
  | .gleanerSample core => Sys2Proof.Machine.execGleanerSample core s
  | .powerInterval => Sys2Proof.Machine.execPowerInterval s
  | .signDone => Sys2Proof.Machine.execSignDone s
  | .idxCommitDone => Sys2Proof.Machine.execIdxCommitDone s
  | .variableLatencyResult gid sh => Sys2Proof.Machine.execVariableLatencyResult gid sh s
  | .mmaComplete gid => Sys2Proof.Machine.execMmaComplete gid s
  | .maccComplete gid => Sys2Proof.Machine.execMaccComplete gid s
  | .registerWrite steward off size v => Sys2Proof.Machine.execRegisterWrite steward off size v s
  | .rdDropRequest page => Sys2Proof.Machine.execRdDropRequest page s
  | .yieldEnd gid sh ti => Sys2Proof.Machine.execYieldEnd gid sh ti s
  | .nvmeCompletion cmd status data => Sys2Proof.Machine.execNvmeCompletion cmd status data s
  | .faultReplyRetry tag_ => Sys2Proof.Machine.execFaultReplyRetry tag_ s
  | .faultReplyFailUnresolved tag_ => Sys2Proof.Machine.execFaultReplyFailUnresolved tag_ s
  | .faultReplyFailProtection tag_ => Sys2Proof.Machine.execFaultReplyFailProtection tag_ s
  | .fqHead v => Sys2Proof.Machine.execFqHead v s
  | .winnowTick => Sys2Proof.Machine.execWinnowTick s
  | .rdDropAck page dev => Sys2Proof.Machine.execRdDropAck page dev s
  | .hostAccess port addr write len => Sys2Proof.Machine.execHostAccess port addr write len s
  | .doorbell vf q tail => Sys2Proof.Machine.execDoorbell vf q tail s
  | .fabricRequest dev addr write len => Sys2Proof.Machine.execFabricRequest dev addr write len s
  | .sqStateWrite q v => Sys2Proof.Machine.execSqStateWrite q v s
  | .dspreq die => Sys2Proof.Machine.execDspreq die s
  | .preemptRequest ctx => Sys2Proof.Machine.execPreemptRequest ctx s
  | .preemptRelease ctx => Sys2Proof.Machine.execPreemptRelease ctx s
  | .forcedReset ctx => Sys2Proof.Machine.execForcedReset ctx s
  | .powerCap watts => Sys2Proof.Machine.execPowerCap watts s
  | .thermalLimit die => Sys2Proof.Machine.execThermalLimit die s
  | .thermalRecovery die => Sys2Proof.Machine.execThermalRecovery die s
  | .thermalShutdown => Sys2Proof.Machine.execThermalShutdown s
  | .moduleReset => Sys2Proof.Machine.execModuleReset s
  | .powerLoss => Sys2Proof.Machine.execPowerLoss s
  | .readySet reg bit => Sys2Proof.Machine.execReadySet reg bit s
  | .rcvLen len => Sys2Proof.Machine.execRcvLen len s
  | .errClear pa => Sys2Proof.Machine.execErrClear pa s
  | .wqRegister v => Sys2Proof.Machine.execWqRegister v s
  | .wqUnregister v => Sys2Proof.Machine.execWqUnregister v s
  | .tlbInv ctx v => Sys2Proof.Machine.execTlbInv ctx v s
  | .rqset ctx v => Sys2Proof.Machine.execRqset ctx v s
  | .watchArm e => Sys2Proof.Machine.execWatchArm e s
  | .measExt die v => Sys2Proof.Machine.execMeasExt die v s
  | .doeRequest bytes => Sys2Proof.Machine.execDoeRequest bytes s
  | .doeRsplen n => Sys2Proof.Machine.execDoeRsplen n s
  | .trng n => Sys2Proof.Machine.execTrng n s
  | .signGo v => Sys2Proof.Machine.execSignGo v s
  | .idxResv v => Sys2Proof.Machine.execIdxResv v s
  | .getVersion req => Sys2Proof.Machine.execGetVersion req s
  | .getCapabilities req => Sys2Proof.Machine.execGetCapabilities req s
  | .negotiateAlgorithms req => Sys2Proof.Machine.execNegotiateAlgorithms req s
  | .getDigests req => Sys2Proof.Machine.execGetDigests req s
  | .getCertificate req => Sys2Proof.Machine.execGetCertificate req s
  | .challenge req => Sys2Proof.Machine.execChallenge req s
  | .getMeasurements req => Sys2Proof.Machine.execGetMeasurements req s
  | .spdmUnknownRequest req => Sys2Proof.Machine.execSpdmUnknownRequest req s
  | .stallCountExpiry gid sh ti => Sys2Proof.Machine.execStallCountExpiry gid sh ti s
  | .readyClear reg bit => Sys2Proof.Machine.execReadyClear reg bit s

end Sys2Proof.Machine
end

