-- ==== Sys2Proof/Machine/Turn.lean ====
section
/-! DEFINITION. What one step does: an agent issues its next instruction, a unit's event comes about, and cycles pass
(R39, R43, R44, R79, R91, R127, R280, R386; log 1). -/

namespace Sys2Proof.Machine

/-! ## Issuing -/

/-- The cycles for which a uniform instruction occupies the scalar unit: one, or two for each round of KECF (R15, R184). -/
def suCycles (i : Instr) : Nat :=
  match i with
  | .kecf _ x => max 1 (2 * (x.fn.extractLsb' 0 5).toNat)
  | _ => 1

/-- Noting what a quarter issued, for the gleaner (R387), and for how long it occupies the datapath, four cycles, or the scalar
unit (R15). -/
def State.noteIssue (s : State) (f : Frame) (i : Instr) : State :=
  let u := match i.hdr with
    | some h => h.u
    | none => false
  let e : Issued := { cycle := s.cycle, gid := f.g.gid, sh := f.sh.idx, ti := f.t.idx, pc := f.t.pc, uni := u }
  let k := 4 * f.g.core + f.sh.quarter
  let s := { s with issued := (k, e) :: s.issued.filter (fun x => x.1 != k) }
  s.updCore f.g.core (fun c =>
    if u then { c with suFree := c.suFree.set f.sh.quarter (s.cycle + suCycles i) }
    else { c with dpFree := c.dpFree.set f.sh.quarter (s.cycle + 4) })

/-- A tiller's turn: its instruction is fetched, decoded and executed (R43, R44, R79). -/
def State.issueTiller (s : State) (f : Frame) : Out :=
  let s := { s.countAges f with cur := { gid := f.g.gid, sh := f.sh.idx, ti := f.t.idx } }
  match s.fetchInstr f.g.core f.g.ctx false f.t.pc with
  | (.instr i, s) => exec i (s.noteIssue f i)
  | (.reject n, s) => .next (s.trapAll f n 0x01 0)
  | (.stop va n, s) => .next (s.noInstr f va n)

/-- A stream's fetch waits for no stack and no fabric any more. -/
def State.streamFetched (s : State) (gid : Nat) : State :=
  if s.pends.isEmpty then s else { s with pends := s.pends.filter (fun p => !(p.who == .stream gid && p.fetch)) }

/-- A matrix stream's turn (R278, R280). -/
def State.issueStream (s : State) (g : Group) : Out :=
  let s := { s with cur := { gid := g.gid, sh := g.stream.sh, ti := 0 } }
  match s.fetchInstr g.core g.ctx true g.stream.pc with
  | (.instr i, s) => exec i (s.streamFetched g.gid)
  | (.reject _, s) => .next ((s.streamFetched g.gid).haltStream g.gid 3 0x01)
  | (.stop va n, s) => .next (match n with
    | .park c => s.haltStream g.gid 3 c
    | .fault r =>
      let qs := ((s.sheaf? g.gid g.stream.sh).map Sheaf.qs).getD 0
      let (tag, s) := s.postFault (.stream g.gid) va.toNat g.ctx g.core qs 3 r
      s.updStream g.gid (fun t => { t with faultTag := some tag })
    | .wait on => s.setPend (.stream g.gid) 0 true on.toList
    | .word _ => s)

/-- Whether a group's stream may issue: not once its last sheaf has ended (R272, R280, R356, R362). -/
def State.streamGoes (s : State) (g : Group) : Bool :=
  s.issues g && g.stream.st == .running && g.stream.faultTag.isNone && !g.allEnded

/-- The turn of a focus: none when it can issue nothing, or when its die withholds the cycle (R18). A quarter's tillers
become READY or BLOCKED by their next instructions before one is chosen (R43, R44). -/
def State.issueAt (s : State) (f : Focus) : Option Out :=
  match f with
  | .quarter c q =>
    if s.withholds (dieOf c) s.cycle then none
    else
      let s := (s.wakeQuarter c q).settleQuarter c q
      some (((s.pick c q).map s.issueTiller).getD (.next s))
  | .stream gid =>
    match s.group? gid with
    | some g => if s.streamGoes g && !s.withholds (dieOf g.core) s.cycle then some (s.issueStream g) else none
    | none => none

/-! ## A tiller whose lanes have all parked (R39) -/

/-- Where the instruction after the one that parked a tiller's last lane lies. -/
def Sheaf.probeAt (x : Sheaf) (t : Tiller) : Option DWord :=
  if t.st = .parked && !t.probed then ((x.parked.filter (fun p => p.ti == t.idx)).getLast?).map Parked.skipTo else none

/-- The decode fault of the instruction already fetched behind a trap, with an empty mask: one handler entry of no thread
(R39, R91; log 70). -/
def State.probe (s : State) (g : Group) (x : Sheaf) (t : Tiller) : State :=
  match x.probeAt t with
  | none => s
  | some pc =>
    let f : Frame := { g := g, sh := x, t := { t with pc := pc, mask := 0 } }
    let s := s.updT f (fun t => { t with probed := true })
    match s.fetchInstr g.core g.ctx false pc with
    | (.instr i, _) => match s.decodeFault f i with
      | some c => s.trapAll f i.size c 0
      | none => s
    | (.reject n, _) => s.trapAll f n 0x01 0
    | (.stop _ _, _) => s

/-- The probes of every tiller that has just parked. -/
def State.probes (s : State) : State :=
  (s.groups.filter (fun g => g.st == .resident)).foldl (fun s g =>
    g.sheaves.foldl (fun s x => x.tillers.foldl (fun s t => s.probe g x t) s) s) s

/-! ## Instructions that wait for their units (R248, R253, R261, R270, R379, R419; log 126) -/

/-- Whether a tiller's instruction has issued and has still to be performed, or to end its wait. -/
def TSt.pends : TSt → Bool
  | .blocked .room => true
  | .eventWait (.fetch _) | .eventWait (.pbarw ..) => false
  | .eventWait _ => true
  | _ => false

/-- Whether its unit tries to perform a tiller's waiting instruction in each cycle. -/
def TSt.tries : TSt → Bool
  | .blocked .room | .eventWait .retry => true
  | _ => false

/-- Noting the arrival of the instructions that have begun to wait, with what their units keep of them, and forgetting that of
those that have been performed. -/
def State.noteQueued (s : State) : State :=
  let up (x : Sheaf) (t : Tiller) : Tiller :=
    if !t.st.pends then { t with queued := none }
    else if t.queued.isSome then t
    else { t with queued := some { order := s.nextId, cycle := s.cycle, scalars := x.scalars, upreds := x.upreds, gone := [] } }
  { s with nextId := s.nextId + 1,
           groups := s.groups.map (fun g =>
             { g with sheaves := g.sheaves.map (fun x => { x with tillers := x.tillers.map (up x) }) }) }

/-- The tillers whose units try again, in order of arrival; what has issued is completed in QUIESCE too (R356). -/
def State.waiting (s : State) : List (Nat × Cur) :=
  (s.groups.filter (fun g => (s.issues g || g.st == .quiesce) && !s.cutHolds g.ctx)).foldl (fun l g =>
    g.sheaves.foldl (fun l x => x.tillers.foldl (fun l t =>
    match t.queued with
    | some q => if t.st.tries then putBy Prod.fst (q.order, ⟨g.gid, x.idx, t.idx⟩) l else l
    | none => l) l) l) []

/-- Whether a command of a sheaf is about to be accepted: it has its place among the 64, and the staging words are its own until
then (R253). -/
def State.accepting (s : State) (gid sh : Nat) : Bool :=
  s.agenda.any (fun t => match t.act with
    | .event (.engineCopy g x) | .event (.engineGather g x) | .event (.engineCollective g x) | .event (.engineStorage g x) =>
      g == gid && x == sh
    | _ => false)

/-- A waiting instruction performed again by its unit: it does not issue again (R44). -/
def State.tryAgain (s : State) (c : Cur) : State :=
  match s.frameOf c.gid c.sh c.ti with
  | none => s
  | some f =>
    if !f.t.st.tries || s.accepting c.gid c.sh then s
    else match s.peekInstr f.g.core f.g.ctx f.t.pc with
      | none => s
      | some i => match exec i { s with cur := c } with
        | .next t => { t with cur := s.cur }
        | _ => s

/-- The units serve the instructions that wait for them, in order of arrival. -/
def State.serveUnits (s : State) : State := s.waiting.foldl (fun s e => s.tryAgain e.2) s

/-! ## Time (R6, R19, R130, R386; log 1) -/

/-- The deadlines of a sheaf: of its bounded joins, its WAITVs and its steal requests (R37, R233, R265); `poll` has its WAITVs
evaluated too. -/
def Sheaf.deadlines (poll : Bool) (gid : Nat) (x : Sheaf) : List Instr :=
  (x.joins.filter (fun r => r.dl.isSome)).map (fun r => .jointTimeout gid x.idx r.tok.toNat) ++
  x.tillers.flatMap (fun t => match t.st with
    | .eventWait (.waitv _) => (if poll then [.waitvReevaluate gid x.idx t.idx] else []) ++ [.waitvTimeout gid x.idx t.idx]
    | .eventWait .steal => [.stealTimeout gid x.idx t.idx]
    | _ => [])

/-- Whether a cycle is one in which what is waited for in memory is looked at again: at most 64 cycles apart (R232, R344). -/
def State.polls (s : State) : Bool := s.cycle % 64 == 63

/-- What the clock may bring about: every wait, request and cut with a time of its own, as the event that acts once that time
has come, and the waits that are looked at again (R37, R159, R233, R262, R265, R361, R363 to R365, R408, R410, R411, R419). -/
def State.deadlines (s : State) : List Instr :=
  s.groups.flatMap (fun g => g.sheaves.flatMap (Sheaf.deadlines s.polls g.gid)) ++
  s.cores.flatMap (fun c => c.batches.flatMap (fun b => [.handlerBatchClose c.id b.ctx, .handlerRoomTimeout c.id b.ctx])) ++
  (s.sqs.filter (fun x => x.waiting.isSome)).flatMap (fun x =>
    (if s.polls then [.waitPacketReevaluate x.q] else []) ++ [.waitPacketTimeout x.q]) ++
  (s.cmds.filter (fun c => !c.ended)).flatMap (fun c => [.nvmeTimeout c.id, .memberAbsentTimeout c.id]) ++
  s.dies.flatMap (fun d => d.wqs.map (fun w => .queueStuck d.id w.q)) ++
  s.rds.map (fun p => .rdAckTimeout p.page) ++
  s.pends.map (fun p => if p.stack then .stackNotReadyTimeout p.id else .fabricTimeout p.id) ++
  (s.ctxs.filter (fun c => c.pre == .preempting)).map (fun c => .preemptDeadline c.id) ++
  s.images.flatMap (fun m => m.groups.map (fun g => .swapRestoreEntry g.gid))

/-- What waits for a write to be performed, or is itself a write that waits: arrivals that halts owe (R294), additions to
counters (R246, R392), the module's own writes to stacks that
are not ready, and the host's accesses that wait (R411, R419). -/
def State.pay (s : State) : State :=
  (((s.groups.filter (fun g => g.stream.owes != 0)).foldl (fun s g => s.payArrivals g.gid) s.payLate).payOuts).payGrids.payHosts

/-- Whether anything is still to be paid. -/
def State.owesAny (s : State) : Bool :=
  s.groups.any (fun g => g.stream.owes != 0) || s.cores.any (fun c => !c.bbcOut.isEmpty) || s.grids.any (fun x => x.done.isSome) ||
    !s.late.isEmpty || !s.hostAccs.isEmpty

/-- What comes about in a cycle by the clock alone, after everything else in it: an arrival, a latch or a completion in the
same cycle wins (R37, R233, R265). The dispatchers then see which groups may be swapped out (R355). -/
def State.clock (s : State) : State :=
  (s.deadlines.foldl (fun s i => match exec i s with
    | .next t => t
    | _ => s) s.pay).noteSwap

/-- The cuts whose ticks a cycle's start has reached take effect before anything issues in it (R362, R379); then the gleaners
choose what they sample in it (R386). -/
def State.openCycle (s : State) : State :=
  (s.cuts.foldl (fun s _ => match exec .cutEffect s with
    | .next t => t
    | _ => s) s).glances

/-- n cycles in which no agent has a turn. -/
def State.idle (s : State) : Nat → State
  | 0 => s
  | n + 1 => if s.deadlines.isEmpty && s.waiting.isEmpty && !s.owesAny && s.cuts.isEmpty then s.elapse (n + 1)
    else State.idle ((s.serveUnits.clock).elapse 1).openCycle n

/-- The end of a step: probes, the units' work, what the clock brings about, its cycle, and the cuts that the next one begins
with. -/
def State.endTurn (s : State) : State := ((s.probes.serveUnits.clock.noteQueued).elapse 1).openCycle

/-- Ending the step that an effect came about in. -/
def ended : Out → Out
  | .next t => .next t.endTurn
  | .fault e => .fault e
  | .refused r => .refused r

/-! ## Events of units, when nothing is scheduled (log 1) -/

/-- The events that may come about in one sheaf. -/
def Sheaf.eventsOf (gid : Nat) (x : Sheaf) : List Instr :=
  (if x.board.any Board.mem then [.memoryAccessComplete gid x.idx] else []) ++
  (if x.board.any (fun b => !b.mem) then [.variableLatencyResult gid x.idx] else []) ++
  x.oplog.map (fun e => .failedLanesPark gid x.idx e.id) ++
  x.tillers.flatMap (fun t => match t.st with
    | .eventWait (.waitv _) => [.waitvReevaluate gid x.idx t.idx]
    | _ => [])

/-- The events that may come about in one group. -/
def Group.eventsOf (g : Group) : List Instr :=
  g.sheaves.flatMap (Sheaf.eventsOf g.gid) ++
  (if g.stream.flight.isEmpty then [] else [.moutComplete g.gid, .mmaComplete g.gid, .maccComplete g.gid]) ++
  (match g.st with
   | .quiesce => [.saveQuiesced g.gid]
   | .writing => [.saveWritten g.gid]
   | .reclaim => [.restoreDone g.gid]
   | _ => []) ++ [.groupEnd g.gid]

/-- The events that may come about in one core. -/
def CoreSt.eventsOf (c : CoreSt) : List Instr :=
  c.reclaiming.map (fun k => .reclaimWritebackDone c.id k) ++ c.loads.map (fun l => .residencyLoadEnd c.id l.id) ++
  (if c.seqRun.isSome then [.seqStep c.id] else if c.seqQ.isEmpty then [] else [.seqTake c.id]) ++
  c.batches.map (fun b => .handlerSheafStart c.id b.ctx) ++
  (List.range 4).map (fun k => .bandGate c.id k)

/-- The events that may come about in one submission queue. -/
def Sq.eventsOf (x : Sq) : List Instr :=
  if x.st != .running then []
  else if x.waiting.isSome then [.waitPacketReevaluate x.q]
  else [.launchPacket x.q, .phasePacket x.q, .signalPacket x.q, .waitPacket x.q, .copyPacket x.q, .indirectPacket x.q,
        .markerPacket x.q, .coherenceClean x.q]

/-- The events that may come about in the module's other units. -/
def State.eventsElse (s : State) : List Instr :=
  s.cmds.flatMap (fun c => if c.ended then [] else [.engineCommandEnd c.id]) ++
  (if s.grids.isEmpty && s.images.isEmpty then [] else (List.range 4).map (fun d => .dispatchPlace d)) ++
  s.images.flatMap (fun m => m.groups.map (fun g => .swapRestoreEntry g.gid)) ++
  (s.ctxs.filter (fun c => c.pre == .preempting)).map (fun c => .preemptComplete c.id) ++
  s.creds.map (fun c => .credibilityRecount (some c.cache) 0 c.ctx) ++
  s.l2creds.map (fun c => .credibilityRecount none c.cache c.ctx) ++
  (if s.sign.job.isSome then [.signDone] else []) ++ (if s.sign.commit.isSome then [.idxCommitDone] else [])

/-- The events that may come about, in the order of their units. -/
def State.eventsOf (s : State) : List Instr :=
  s.groups.flatMap Group.eventsOf ++ s.cores.flatMap CoreSt.eventsOf ++ s.sqs.flatMap Sq.eventsOf ++ s.eventsElse

/-- The state after the first of some events that changes anything. -/
def State.firstChange (s : State) : List Instr → Option State
  | [] => none
  | i :: r => match exec i s with
    | .next t => if t = s then s.firstChange r else some t
    | _ => s.firstChange r

/-- A unit's event comes about: the first that changes anything, from a place in the order that moves with the
cycles. -/
def State.nextEvent (s : State) : Option State :=
  let l := s.eventsOf
  let k := s.cycle / 16 % max 1 l.length
  s.firstChange (l.drop k ++ l.take k)

/-! ## Who issues, when nothing is scheduled (log 1) -/

/-- The quarters and streams that have anything to issue, in order of the groups. -/
def State.issuers (s : State) : List Focus :=
  (s.groups.filter s.issues).foldl (fun l g =>
    let qs := (g.sheaves.map (fun x => Focus.quarter g.core x.quarter)).eraseDups
    let l := l ++ qs.filter (fun f => !l.contains f)
    if s.streamGoes g then l ++ [.stream g.gid] else l) []

/-- The issuers from the focus on, round to the one before it. -/
def State.round (s : State) : List Focus :=
  let l := s.issuers
  let n := l.findIdx (fun f => f == s.focus)
  if n < l.length then l.drop n ++ l.take n else l

/-- The first of some agents that can issue, with the focus left on the one after it. -/
def State.issueFirst (s : State) (all : List Focus) : List Focus → Option Out
  | [] => none
  | f :: r =>
    let after := (r.head?).getD (all.headD f)
    match { s with focus := after }.issueAt f with
    | some o => some o
    | none => s.issueFirst all r

/-- A step with nothing scheduled: every sixteenth cycle a unit's event comes about, if one is enabled; else an agent
issues; else a unit's event comes about; else the cycle is idle (log 1). -/
def State.freeTurn (s : State) : Out :=
  let byUnit (o : Option Out) : Option Out := match s.nextEvent with
    | some t => some (.next t)
    | none => o
  let issue (_ : Unit) : Option Out := s.issueFirst s.round s.round
  if s.cycle % 16 = 15 then ((byUnit (issue ()))).getD (.next s)
  else match issue () with
    | some o => o
    | none => (byUnit none).getD (.next s)

/-- The turn that the schedule gives: its cycles pass, and it moves. An agent that can issue nothing lets its turn go
by. -/
def State.turn (s : State) (t : Turn) (rest : List Turn) : Out :=
  let s := { s with agenda := rest }.idle t.cycles
  match t.act with
  | .event i => exec i s
  | .issue f => (s.issueAt f).getD (.next s)
  | .upset e => .next (s.upset e)
  | .update image whole => .next (s.updateFlash image whole)
  | .peers p l => .next { s with peers := p, latePeers := l }

/-- One step: without power nothing moves (R420). -/
def State.stepTurn (s : State) : Out :=
  if !s.powered then .next s
  else match s.agenda with
    | t :: rest => ended (s.turn t rest)
    | [] => ended s.freeTurn

/-! ## Placing an instruction where it is fetched (log 1) -/

/-- Where `State.placeCode` lays a program: a VA that context 63 maps to the same PA of local HBM. -/
def codeAt : Nat := 0x10000

/-- A steward group's sheaf of 64 threads, or the firmware's handler sheaf when the instruction is one of a handler's, at
the start of the code; a stream instruction is the next of the group's running stream. Its tiller has the given age. -/
def codeGroup (gid op age : Nat) (mark : Nat) : Group :=
  let code : DWord := BitVec.ofNat 64 codeAt
  let kind : GKind := if handlerOnly op then .handler else .steward
  let g := Group.start gid kind 63 0 0 0 0 gid 0 (stewardRecord code) mark
  let x := Sheaf.start 0 0 0 256 code 0 0 Mask.full
  let run : Stream := { Stream.init with st := .running, start := code, pc := code }
  { g with sheaves := [{ x with tillers := x.tillers.map (fun t => { t with age := age }) }],
           stream := if fmtOf op = some .x then run else Stream.init }

/-- The greatest age on a core's quarter. -/
def State.topAge (s : State) (core q : Nat) : Nat :=
  ((s.onQuarter core q).flatMap Sheaf.tillers).foldl (fun n t => max n t.age) 0

/-- Storing the words of an instruction at `codeAt`, which context 63 then maps to the same PA of an HBM stack that is
ready, and scheduling a group that runs it for the next step: its tiller has waited longest on a quarter whose units are
free, on a die that withholds nothing. -/
def State.placeCode (s : State) (nbits w : Nat) : State :=
  let v := w % 2 ^ nbits
  let op := v / 2 ^ 56 % 256
  let gid := s.nextId
  let f : Focus := if fmtOf op = some .x then .stream gid else .quarter 0 0
  let bit : DWord := BitVec.ofNat 64 (2 ^ (8 + stackOf codeAt))
  let s := s.tlbi (.ctx 63)
  let s := (s.updDie 0 (fun d => { d with scant := false })).updCore 0 (fun c => { c with dpFree := c.dpFree.set 0 0, suFree := c.suFree.set 0 0 })
  { s with mem := csetLE s.mem codeAt 16 v, powered := true, nextId := gid + 1,
           poison := s.poison.filter (fun k => k != codeAt / 128),
           plat := { s.plat with ready0 := s.plat.ready0 ||| bit, fwPtRoot := 0 },
           groups := s.groups ++ [codeGroup gid op (s.topAge 0 0 + 65) (s.cycle / 64)],
           agenda := { cycles := 0, act := .issue f } :: s.agenda }

end Sys2Proof.Machine
end

