-- ==== Sys2Proof/Machine/Step.lean ====
section
/-! DEFINITION. One step of the machine, and the placing of one instruction for the next step (log 1). -/

namespace Sys2Proof.Machine

/-- One step: what is scheduled next moves, or, with nothing scheduled, an agent or a unit in the model's own order. -/
def step (s : State) : Host.Outcome State Fault Refusal := s.stepTurn

/-- A state whose next step fetches and runs the instruction of the given bits. -/
def State.withFetchWord (s : State) (nbits w : Nat) : State := s.placeCode nbits w

end Sys2Proof.Machine
end

