-- ==== Sys2Proof/Safety.lean ====
section
/-! DEFINITION. What counts as a safe run, and the terms in which the claims about instructions are stated. -/

namespace Sys2Proof

/-- Instructions whose whole effect is the writing of registers of the executing tiller's threads (R171 to R200, R202 to
R212, R371). -/
def Instr.onRegisters : Instr → Bool
  | .nop .. | .iadd .. | .isub .. | .imul .. | .imulh .. | .imad .. | .imin .. | .imax .. | .iabsd .. | .bitf .. | .shl ..
  | .shr .. | .bfx .. | .bfi .. | .popc .. | .clz .. | .brev .. | .icmp .. | .sel .. | .mov .. | .movi .. | .moviZ ..
  | .moviLong .. | .movi64 .. | .iadd64 .. | .lea .. | .idiv .. | .irem .. | .idot4 .. | .pbitf .. | .pmovPack ..
  | .pmovUnpk .. | .kecf .. | .fadd .. | .fmul .. | .ffma .. | .fmin .. | .fmax .. | .fcmp .. | .frcp .. | .frsq ..
  | .fsqrt .. | .fex2 .. | .flg2 .. | .fsin .. | .fcos .. | .fclass .. | .hadd2 .. | .hmul2 .. | .hfma2 .. | .hmin2 ..
  | .hmax2 .. | .hcmp2 .. | .cvtif .. | .cvtfi .. | .cvtff .. | .cvtn .. | .cvtw .. | .cvtra .. | .cvtar .. | .packH ..
  | .packBi .. | .packN .. | .unpkH .. | .unpkB .. | .unpkN .. | .getfmt .. | .bscale .. | .efclr .. | .qswz .. | .qred ..
  | .shfl .. | .voteAll .. | .voteAny .. | .voteUni .. | .voteBal .. | .scan .. | .sred .. | .match32 .. | .match64 ..
  | .elect .. | .electNh .. | .movs .. => true
  | _ => false

end Sys2Proof

namespace Sys2Proof.Machine

/-- A step that is safe: it answers a next state, neither a fault nor a refusal. -/
def State.safe (s : State) : Prop := ∃ t, step s = .next t

/-- States that steps reach from a state. -/
inductive Reaches (s : State) : State → Prop where
  | refl : Reaches s s
  | next {t u : State} (h : Reaches s t) (hu : step t = .next u) : Reaches s u

/-- A run is safe when every state that it reaches takes a next step. -/
def State.safeRun (s : State) : Prop := ∀ t, Reaches s t → t.safe

/-- Instruction i issues in frame f: the machine's current tiller is that frame, the instruction is no decode fault there
(R91), and no uncovered reader under stall checking (R93). -/
def Issues (s : State) (f : Frame) (i : Instr) : Prop :=
  s.frame? = some f ∧ s.decodeFault f i = none ∧ (s.stallChecked f && s.uncovered f i) = false

/-- Wherever instruction i issues, it answers the next state that `effect` gives. -/
def Does (i : Instr) (effect : Frame → State → State) : Prop :=
  ∀ s f, Issues s f i → exec i s = .next (effect f s)

/-- Wherever i issues, its result is the register writes `ws` of its readers (R166), and the tiller moves on. -/
def Writes (i : Instr) (h : Hdr) (ws : List Rd → List RegWrite) : Prop :=
  Does i (fun f s => (s.retire f i (ws (readers f h s))).advance f i)

/-- Each reader of i writes a 32-bit value to d. -/
def Gives (i : Instr) (h : Hdr) (d : Opd) (v : Rd → Word) : Prop := Writes i h (fun rs => rs.flatMap (fun r => r.put d (v r)))

/-- Each reader of i writes a 64-bit value to the pair d. -/
def Gives64 (i : Instr) (h : Hdr) (d : Opd) (v : Rd → DWord) : Prop :=
  Writes i h (fun rs => rs.flatMap (fun r => r.put64 d (v r)))

/-- Each reader of i writes a predicate d. -/
def GivesPr (i : Instr) (h : Hdr) (d : Opd) (v : Rd → Bool) : Prop :=
  Writes i h (fun rs => rs.flatMap (fun r => r.putPr d (v r)))

/-- Each reader of i writes to d a 32-bit value that stands in the given relation to what the reader reads. -/
def GivesSuch (i : Instr) (h : Hdr) (d : Opd) (p : Rd → Word → Prop) : Prop := ∃ v, (∀ r, p r (v r)) ∧ Gives i h d v

/-- The same for a pair. -/
def GivesSuch64 (i : Instr) (h : Hdr) (d : Opd) (p : Rd → DWord → Prop) : Prop :=
  ∃ v, (∀ r, p r (v r)) ∧ Gives64 i h d v

/-- The same for a predicate. -/
def GivesSuchPr (i : Instr) (h : Hdr) (d : Opd) (p : Rd → Bool → Prop) : Prop := ∃ v, (∀ r, p r (v r)) ∧ GivesPr i h d v

/-- A term of format A whose word is no Illegal Instruction has one of the given values in FN (R91). -/
def FnAllows (i : Instr) (x : FA) (p : Nat → Prop) : Prop := i.reject = none → p x.fn.toNat

/-- v is an exact result x reduced to 32 bits: clamped to the type's range under .SAT, else truncated (R52, R171). -/
def Reduced (u32 sat : Bool) (x : Int) (v : Word) : Prop :=
  if sat then (if u32 then (v.toNat : Int) = max 0 (min (2 ^ 32 - 1) x) else v.toInt = max (-(2 ^ 31)) (min (2 ^ 31 - 1) x))
  else v = BitVec.ofInt 32 x

/-- The same to 64 bits (R173). -/
def Reduced64 (u64 sat : Bool) (x : Int) (v : DWord) : Prop :=
  if sat then (if u64 then (v.toNat : Int) = max 0 (min (2 ^ 64 - 1) x) else v.toInt = max (-(2 ^ 63)) (min (2 ^ 63 - 1) x))
  else v = BitVec.ofInt 64 x

/-- A 64-bit value as N64 or I64. -/
def intOf64 (u64 : Bool) (w : DWord) : Int := if u64 then w.toNat else w.toInt

/-- Each reader of i writes to d the exact value of its sources rounded once to F32 under its RND (R169, R186), and
clamped to 0 to 1 under .SATF (R185). -/
def RoundsF32 (i : Instr) (h : Hdr) (x : FA) (val : Rd → Exact) : Prop :=
  Writes i h (fun rs => rs.flatMap (fun r =>
    let w := fF32.round (fmtRnd r.fmt) false (fmtFtz r.fmt) (r.away (shTab rs fF32 val) 0) (val r)
    r.put x.d (BitVec.ofNat 32 (if x.fn.getLsbD 6 then satF w else w))))

/-- Each reader of i writes to d the two exact halves rounded once each to the packed format (R189). -/
def RoundsHalves (i : Instr) (h : Hdr) (x : FA) (val : Rd → Nat → Exact) : Prop :=
  Writes i h (fun rs => rs.flatMap (fun r =>
    let half (k : Nat) : Nat := (halfFmt x.fn).round (fmtRnd r.fmt) false (fmtFtz r.fmt)
      (r.away (shTab rs (halfFmt x.fn) (fun r => val r k)) k) (val r k)
    r.put x.d (packHalves (half 0) (half 1))))

/-- Each reader of i writes to d an exact value rounded once to a format, with FMT.SAT, and the writes `also` beside it
(R169, R191, R193). -/
def RoundsTo (i : Instr) (h : Hdr) (x : FA) (f : FFmt) (val : Rd → Exact) (also : Rd → List RegWrite) : Prop :=
  Writes i h (fun rs => rs.flatMap (fun r =>
    r.put x.d (BitVec.ofNat 32 (f.round (fmtRnd r.fmt) (fmtSat r.fmt) (fmtFtz r.fmt) (r.away (shTab rs f val) 0) (val r))) ++
      also r))

/-- What a thread supplies for a crosswise instruction: the value of its reader, or nothing when it is not active. -/
def suppliedBy {α : Type} (rs : List Rd) (t : Nat) (v : Rd → α) : Option α := (ofThread rs t).map v

/-- Every store of sparse bytes is in its canonical form: local memory, host memory and the memory of other devices. -/
def State.canonical (s : State) : Bool := Memory.wf s.mem && Memory.wf s.hostMem && Memory.wf s.remote

/-- The word at a PC is w: its page translates with fetch permission to local HBM of a ready stack, without poison, whose
home holds w there and which this device reads at its home; translating leaves state t (R79, R116, R127, R157). -/
def Fetches (s : State) (f : Frame) (pc w : DWord) (t : State) : Prop :=
  pc.extractLsb' 55 9 = 0 ∧ pc.extractLsb' 42 13 ≠ 0x1FFF ∧ ∃ pa leaf l,
    s.translate f.g.core f.g.ctx { write := false, fetch := true } pc = (.ok pa leaf, t) ∧ t.homeOf pa = .hbm l ∧
      t.stackReady l = true ∧ t.poisoned l 8 = false ∧ (∀ e, t.rdOf pa = some e → t.rdRead e .other pa 8 = .home) ∧
      w = BitVec.ofNat 64 (natOf (t.homeBytes pa 8))

/-- The sparse register storage of a sheaf is in its canonical form. -/
def Sheaf.regsWf (x : Sheaf) : Bool := cellsWf x.vregs && cellsWf x.scalars && cellsWf x.preds

/-- Thread of a register cell. -/
def Key.thread : Key → Nat
  | .v _ t | .p _ t => t
  | _ => 0

/-- Two sheaves differ at most in registers, tillers and outstanding results. -/
def Sheaf.sameElse (x y : Sheaf) : Prop :=
  y = { x with vregs := y.vregs, preds := y.preds, scalars := y.scalars, upreds := y.upreds, tillers := y.tillers, board := y.board }

/-- A port of a lane of a frame, as a thread's access is made through it. -/
def Frame.port (f : Frame) (lane : Option Nat) : Port :=
  { g := f.g, sh := f.sh, lane := lane, helper := match lane with
      | some t => f.sh.helpers.getLsbD t
      | none => false }

/-- What the threads of a sequential operation leave, one after another, when each of them performs it; none when one
waits or traps. -/
def Frame.perform (f : Frame) (act : State → Option Nat → QRes × State) : List (Option Nat) → State → Option State
  | [], s => some s
  | l :: rest, s =>
    match act s l with
    | (.done ws, t) => f.perform act rest ((t.dropPends f).board f ws)
    | _ => none

/-- LAUNCH in one thread: what it comes to when its record and header can be read and keep R267 (R268, R269). -/
def launchAct (x : FA) (f : Frame) (s : State) (l : Option Nat) : QRes × State :=
  match s.readLaunch f l (Rd.w64 { s := s, f := f, lane := l } x.a) with
  | (.malformed, s) => (.park 0x0E, s)
  | (.bad (.park c), s) => (.park c, s)
  | (.bad _, s) => (.wait none, s)
  | (.got r, s) =>
    if s.pendingOf f.g.gid < 4 then (.done (launchPr f s x l true), s.enterLaunch f.g r)
    else if x.fn.getLsbD 0 then (.wait none, s)
    else (.done (launchPr f s x l false), s)

/-- Stream instruction i is performed by group g: its stream is RUNNING and executes it without a decode fault (R278,
R283, R298). -/
def Streams (s : State) (g : Group) (i : Instr) : Prop :=
  s.group? s.cur.gid = some g ∧ g.stream.st = .running ∧ i.reject = none ∧ i.wf = true ∧ i.operandsOk 256 false = true

/-- Queue q may process packet b, of type ty, as its next one, and has read it, for which nothing of it waits any more (R342 to R346, R419). -/
def Packet (s : State) (q ty : Nat) (b : List Byte) (t : State) : Prop :=
  (∃ u, s.nextPacket q = some (.ok b, u) ∧ t = { u with pends := u.pends.filter (fun p => !(p.who == .sq q && p.fetch)) }) ∧
    pktType b = ty ∧ pktPhase b = s.plat.phase.toNat ∧
    (pktBar b = true ∨ ty = 3 → (s.sq q).pending = []) ∧ packetOk b (s.sq q).ind.isSome = true

end Sys2Proof.Machine
end

