-- ==== Sys2Proof/Certificates/Slice0/Obligations.lean ====
section
/-! DEFINITION. The statements about the model, in the order of the spec's files. -/

open Sys2Proof Sys2Proof.Machine

/-! ## Integer arithmetic, bit operations, comparison and moves (R171 to R184) -/

/-- R171: NOP, IADD, ISUB, IMUL, IMULH, IMAD, IMIN, IMAX and IABSD, each reduced by trunc or clamped. -/
def Obligations.IntegerArithmetic : Prop :=
  ∀ (h : Hdr) (x : FA),
    let u := x.fn.getLsbD 0
    let sat := x.fn.getLsbD 1
    Writes (.nop h x) h (fun _ => []) ∧
    GivesSuch (.iadd h x) h x.d (fun r => Reduced u sat (intOf u (r.w32 x.a) + intOf u (r.w32 x.b))) ∧
    GivesSuch (.isub h x) h x.d (fun r => Reduced u sat (intOf u (r.w32 x.a) - intOf u (r.w32 x.b))) ∧
    GivesSuch (.imul h x) h x.d (fun r => Reduced u sat (intOf u (r.w32 x.a) * intOf u (r.w32 x.b))) ∧
    GivesSuch (.imulh h x) h x.d (fun r v => intOf u v = intOf u (r.w32 x.a) * intOf u (r.w32 x.b) / 2 ^ 32) ∧
    GivesSuch (.imad h x) h x.d (fun r =>
      Reduced u sat (intOf u (r.w32 x.a) * intOf u (r.w32 x.b) + intOf u (r.w32 x.c))) ∧
    GivesSuch (.imin h x) h x.d (fun r v => intOf u v = min (intOf u (r.w32 x.a)) (intOf u (r.w32 x.b))) ∧
    GivesSuch (.imax h x) h x.d (fun r v => intOf u v = max (intOf u (r.w32 x.a)) (intOf u (r.w32 x.b))) ∧
    Gives (.iabsd h x) h x.d (fun r =>
      BitVec.ofNat 32 ((intOf u (r.w32 x.a) - intOf u (r.w32 x.b)).natAbs + (r.w32 x.c).toNat)) ∧
    (∀ i ∈ ([.iadd h x, .isub h x, .imul h x, .imad h x] : List Instr), FnAllows i x (· < 4)) ∧
    (∀ i ∈ ([.imulh h x, .imin h x, .imax h x, .iabsd h x] : List Instr), FnAllows i x (· < 2)) ∧
    ((Instr.nop h x).reject = none → x.fn = 0 ∧ ∀ o ∈ [x.d, x.a, x.b, x.c], o.code = 0)

/-- R172: the quotient is truncated toward zero, the remainder takes the sign of a, and the edge cases of the table. -/
def Claims.DivisionAndItsEdges : Prop :=
  ∀ (h : Hdr) (x : FA),
    let u := x.fn.getLsbD 0
    let sat := x.fn.getLsbD 1
    GivesSuch (.idiv h x) h x.d (fun r v =>
      if r.w32 x.b ≠ 0 then
        (if !u && r.w32 x.a == 0x80000000 && r.w32 x.b == 0xFFFFFFFF then v = (if sat then 0x7FFFFFFF else 0x80000000)
         else intOf u v = (intOf u (r.w32 x.a)).tdiv (intOf u (r.w32 x.b)))
      else if u || !sat then v = 0xFFFFFFFF
      else v = if 0 ≤ (r.w32 x.a).toInt then 0x7FFFFFFF else 0x80000000) ∧
    GivesSuch (.irem h x) h x.d (fun r v =>
      if r.w32 x.b ≠ 0 then intOf u v = (intOf u (r.w32 x.a)).tmod (intOf u (r.w32 x.b)) else v = r.w32 x.a)

/-- R173, R174, R175: the 64-bit sum, the address form, and the dot product. -/
def Claims.WideSumsAndDotProduct : Prop :=
  ∀ (h : Hdr) (x : FA),
    let u := x.fn.getLsbD 0
    GivesSuch64 (.iadd64 h x) h x.d (fun r =>
      Reduced64 u (x.fn.getLsbD 1)
        (intOf64 u (r.w64 x.a) + if x.fn.getLsbD 2 then intOf u (r.w32 x.b) else intOf64 u (r.w64 x.b))) ∧
    GivesSuch64 (.lea h x) h x.d (fun r v =>
      v = BitVec.ofInt 64 ((r.w64 x.a).toInt + intOf (x.fn.getLsbD 3) (r.w32 x.b) * 2 ^ (x.fn.toNat % 8))) ∧
    GivesSuch (.idot4 h x) h x.d (fun r =>
      let w := if x.fn.getLsbD 3 then 4 else 8
      Reduced false (x.fn.getLsbD 2) ((r.w32 x.c).toInt +
        ((List.range (32 / w)).map (fun k =>
          elemOf w (x.fn.getLsbD 0) (r.w32 x.a) k * elemOf w (x.fn.getLsbD 1) (r.w32 x.b) k)).sum))

/-- R172 to R175: division with its edges, the 64-bit sums and the dot product. -/
def Obligations.DivisionAndWideArithmetic : Prop := Claims.DivisionAndItsEdges ∧ Claims.WideSumsAndDotProduct

/-- R176, R177: every bit of the results of the bit operations and shifts. -/
def Obligations.BitOperations : Prop :=
  ∀ (h : Hdr) (x : FA),
    let w := x.fn.getLsbD 0
    let n (r : Rd) : Nat := if w then (r.w32 x.b).toNat % 32 else (r.w32 x.b).toNat
    let pos (r : Rd) : Nat := (r.w32 x.b).toNat % 256
    let len (r : Rd) : Nat := min ((r.w32 x.b).toNat / 256 % 256) (32 - pos r)
    GivesSuch (.bitf h x) h x.d (fun r v => ∀ k, k < 32 → v.getLsbD k = x.fn.getLsbD
      ((if (r.w32 x.a).getLsbD k then 1 else 0) + (if (r.w32 x.b).getLsbD k then 2 else 0) +
        (if (r.w32 x.c).getLsbD k then 4 else 0))) ∧
    GivesSuch (.shl h x) h x.d (fun r v => v.toNat = (r.w32 x.a).toNat * 2 ^ n r % 2 ^ 32) ∧
    GivesSuch (.shr h x) h x.d (fun r v =>
      if x.fn.getLsbD 1 then v.toInt = (r.w32 x.a).toInt / 2 ^ n r else v.toNat = (r.w32 x.a).toNat / 2 ^ n r) ∧
    GivesSuch (.bfx h x) h x.d (fun r v => ∀ k, k < 32 →
      v.getLsbD k = if k < len r then (r.w32 x.a).getLsbD (pos r + k)
        else w && decide (0 < len r) && (r.w32 x.a).getLsbD (pos r + len r - 1)) ∧
    GivesSuch (.bfi h x) h x.d (fun r v => ∀ k, k < 32 →
      v.getLsbD k = if pos r ≤ k ∧ k < pos r + len r then (r.w32 x.a).getLsbD (k - pos r) else (r.w32 x.c).getLsbD k) ∧
    GivesSuch (.popc h x) h x.d (fun r v => v.toNat = (List.range 32).countP (fun k => (r.w32 x.a).getLsbD k)) ∧
    GivesSuch (.clz h x) h x.d (fun r v =>
      if w then v.toNat ≤ 31 ∧ (∀ k, k < v.toNat → (r.w32 x.a).getLsbD (30 - k) = (r.w32 x.a).msb) ∧
        (v.toNat < 31 → (r.w32 x.a).getLsbD (30 - v.toNat) ≠ (r.w32 x.a).msb)
      else v.toNat ≤ 32 ∧ (∀ k, k < v.toNat → (r.w32 x.a).getLsbD (31 - k) = false) ∧
        (v.toNat < 32 → (r.w32 x.a).getLsbD (31 - v.toNat) = true)) ∧
    GivesSuch (.brev h x) h x.d (fun r v => ∀ k, k < 32 → v.getLsbD k = (r.w32 x.a).getLsbD (31 - k)) ∧
    FnAllows (.shl h x) x (· < 2) ∧ FnAllows (.shr h x) x (· < 4) ∧ FnAllows (.bfx h x) x (· < 2) ∧
    FnAllows (.bfi h x) x (· = 0) ∧ FnAllows (.popc h x) x (· = 0) ∧ FnAllows (.clz h x) x (· < 2) ∧
    FnAllows (.brev h x) x (· = 0)

/-- R178 to R181: comparison, selection and the moves, in every form of their fields. -/
def Obligations.CompareSelectMove : Prop :=
  ∀ (h : Hdr) (x : FA) (y : FI),
    GivesSuchPr (.icmp h x) h x.d (fun r v =>
      let a := intOf (x.fn.getLsbD 3) (r.w32 x.a)
      let b := intOf (x.fn.getLsbD 3) (r.w32 x.b)
      let rel := [decide (a = b), decide (a ≠ b), decide (a < b), decide (a ≤ b), decide (a > b), decide (a ≥ b)].getD
        (x.fn.toNat % 8) (decide (a ≥ b))
      v = [rel && r.pr x.c, rel || r.pr x.c, rel ^^ r.pr x.c].getD (x.fn.toNat / 16 % 4) (rel ^^ r.pr x.c)) ∧
    Gives (.sel h x) h x.d (fun r => bif r.pr x.c then r.w32 x.a else r.w32 x.b) ∧
    (x.fn = 0 → Gives (.mov h x) h x.d (fun r => r.w32 x.a)) ∧
    (x.fn = 1 → Gives64 (.mov h x) h x.d (fun r => r.w64 x.a)) ∧
    (∀ w, y.imm = .short w → Gives (.movi h y) h y.d (fun _ => w.signExtend 32)) ∧
    (∀ w, y.imm = .short w → Gives (.moviZ h y) h y.d (fun _ => w.setWidth 32)) ∧
    (∀ w, y.imm = .long w → Gives (.moviLong h y) h y.d (fun _ => w.extractLsb' 0 32)) ∧
    (∀ w, y.imm = .long w → Gives64 (.movi64 h y) h y.d (fun _ => w)) ∧
    FnAllows (.icmp h x) x (fun n => n % 8 < 6 ∧ n < 48) ∧ FnAllows (.sel h x) x (· = 0) ∧ FnAllows (.mov h x) x (· < 2)

/-- R182, R183, R184: predicate tables, moves between predicates and a register, and the rounds of KECF on its 25
lanes. -/
def Obligations.PredicatesAndKeccak : Prop :=
  ∀ (h : Hdr) (x : FA),
    GivesPr (.pbitf h x) h x.d (fun r => x.fn.getLsbD
      ((if r.pr x.a then 1 else 0) + (if r.pr x.b then 2 else 0) + (if r.pr x.c then 4 else 0))) ∧
    GivesSuch (.pmovPack h x) h x.d (fun r v => ∀ k, k < 32 → v.getLsbD k =
      (if h.u then decide (k < 7) && r.key (.q k) != 0 else decide (k < 15) && r.key (.p k r.thr) != 0)) ∧
    Writes (.pmovUnpk h x) h (fun rs => rs.flatMap (fun r =>
      ((List.range (if h.u then 7 else 15)).filter (fun k => (r.w32 x.b).getLsbD k)).map (fun k =>
        { key := if h.u then .q k else .p k r.thr, val := if (r.w32 x.a).getLsbD k then 1 else 0 }))) ∧
    (∀ n, x.a = .int n → Writes (.kecf h x) h (fun rs => rs.flatMap (fun r =>
      let lanes := (List.range 25).map (fun i => r.reg x.d (2 * i + 1) ++ r.reg x.d (2 * i))
      let out := keccakRounds n.val x.fn.toNat lanes
      r.puts x.d (out.flatMap (fun w => [w.extractLsb' 0 32, w.extractLsb' 32 32])))))

/-! ## Floating-point arithmetic (R54 to R67, R185 to R190) -/

/-- R185, R186: the F32 instructions round the exact value of their sources once; the smaller and the larger are not
rounded. -/
def Obligations.F32Arithmetic : Prop :=
  ∀ (h : Hdr) (x : FA),
    let a (r : Rd) : Exact := fpSrc (fmtFtz r.fmt) x.fn 0 (r.w32 x.a)
    let b (r : Rd) : Exact := fpSrc (fmtFtz r.fmt) x.fn 2 (r.w32 x.b)
    let c (r : Rd) : Exact := fpSrc (fmtFtz r.fmt) x.fn 4 (r.w32 x.c)
    RoundsF32 (.fadd h x) h x (fun r => (a r).add (fmtRnd r.fmt) (b r)) ∧
    RoundsF32 (.fmul h x) h x (fun r => (a r).mul (b r)) ∧
    RoundsF32 (.ffma h x) h x (fun r => ((a r).mul (b r)).add (fmtRnd r.fmt) (c r)) ∧
    Gives (.fmin h x) h x.d (fun r => BitVec.ofNat 32 (fF32.round .rne false (fmtFtz r.fmt) false ((a r).min2 (b r)))) ∧
    Gives (.fmax h x) h x.d (fun r => BitVec.ofNat 32 (fF32.round .rne false (fmtFtz r.fmt) false ((a r).max2 (b r))))

/-- R186: the unary instructions round the exact mathematical value once, and their special operands give the values of
the table (before .SATF, FTZ clear). -/
def Obligations.F32UnaryFunctions : Prop :=
  (∀ (h : Hdr) (x : FA),
    let a (r : Rd) : Exact := fpSrc (fmtFtz r.fmt) x.fn 0 (r.w32 x.a)
    RoundsF32 (.frcp h x) h x (fun r => (Exact.ofInt 1).div (a r)) ∧
    RoundsF32 (.frsq h x) h x (fun r => (a r).rsqrt) ∧ RoundsF32 (.fsqrt h x) h x (fun r => (a r).sqrt) ∧
    RoundsF32 (.fex2 h x) h x (fun r => (a r).exp2) ∧ RoundsF32 (.flg2 h x) h x (fun r => (a r).log2) ∧
    RoundsF32 (.fsin h x) h x (fun r => (a r).sin) ∧ RoundsF32 (.fcos h x) h x (fun r => (a r).cos)) ∧
  (∀ (mode : RMode) (up : Bool),
    let f (op : Exact → Exact) : List Nat := [0, 0x80000000, 0x7F800000, 0xFF800000, 0x7FC00001].map (fun w =>
      fF32.round mode false false up (op (fF32.decode false w)))
    f (fun v => (Exact.ofInt 1).div v) = [0x7F800000, 0xFF800000, 0, 0x80000000, 0x7FC00000] ∧
    f Exact.rsqrt = [0x7F800000, 0xFF800000, 0, 0x7FC00000, 0x7FC00000] ∧
    f Exact.sqrt = [0, 0x80000000, 0x7F800000, 0x7FC00000, 0x7FC00000] ∧
    f Exact.exp2 = [0x3F800000, 0x3F800000, 0x7F800000, 0, 0x7FC00000] ∧
    f Exact.log2 = [0xFF800000, 0xFF800000, 0x7F800000, 0x7FC00000, 0x7FC00000] ∧
    f Exact.sin = [0, 0x80000000, 0x7FC00000, 0x7FC00000, 0x7FC00000] ∧
    f Exact.cos = [0x3F800000, 0x3F800000, 0x7FC00000, 0x7FC00000, 0x7FC00000] ∧
    fF32.round mode false false up (Exact.log2 (fF32.decode false 0x3F800000)) = 0)

/-- R54, R55, R63: rounding a value that a format represents gives its own bits back, in every mode, for every bit
pattern of F32, F16, BF16 and KF8 that is no NaN. -/
def Claims.RepresentedValuesRoundToThemselves : Prop :=
  ∀ (f : FFmt) (mode : RMode) (sat up : Bool) (bits : Nat),
    f ∈ [fF32, fF16, fBF16, fKF8] → bits < 2 ^ f.width → (f.decode false bits).isNan = false →
      f.round mode sat false up (f.decode false bits) = bits

/-- R63, R64: a finite value rounded toward zero keeps its sign and does not gain magnitude, and the next magnitude of
the format lies beyond it. -/
def Claims.RoundTowardZeroIsTheFloorOfTheMagnitude : Prop :=
  ∀ (f : FFmt) (neg : Bool) (m : Nat) (e : Int), f ∈ [fF32, fF16, fBF16] →
    let b := f.round .rtz false false false (.fin neg m e false)
    let mag := b % 2 ^ (f.width - 1)
    b / 2 ^ (f.width - 1) = (if neg then 1 else 0) ∧ mag ≤ f.maxBits ∧
    (f.decode false mag).cmp (.fin false m e false) ≠ .gt ∧
    (mag < f.maxBits → (f.decode false (mag + 1)).cmp (.fin false m e false) = .gt)

/-- R54, R55, R63, R64: a represented value rounds to itself; rounding toward zero is the floor of the magnitude. -/
def Obligations.RoundingToAFormat : Prop := Claims.RepresentedValuesRoundToThemselves ∧
  Claims.RoundTowardZeroIsTheFloorOfTheMagnitude

/-- R187, R188: FCMP compares with −0 equal to +0 and treats NaN by its code; FCLASS sets the one bit of the class of
sign, exponent and fraction. -/
def Obligations.F32CompareAndClass : Prop :=
  ∀ (h : Hdr) (x : FA),
    GivesSuchPr (.fcmp h x) h x.d (fun r v =>
      let a := fF32.decode (fmtFtz r.fmt) (r.w32 x.a).toNat
      let b := fF32.decode (fmtFtz r.fmt) (r.w32 x.b).toNat
      let nan := a.isNan || b.isNan
      let o := a.cmp b
      let ordered := [o == .eq, o != .eq, o == .lt, o != .gt, o == .gt, o != .lt]
      let k := x.fn.toNat % 16
      k < 14 → x.fn.toNat / 16 % 4 < 3 →
      let rel := if k < 6 then !nan && ordered.getD k false
        else if k = 6 then !nan else if k = 7 then nan else nan || ordered.getD (k - 8) false
      v = [rel && r.pr x.c, rel || r.pr x.c, rel ^^ r.pr x.c].getD (x.fn.toNat / 16 % 4) false) ∧
    GivesSuch (.fclass h x) h x.d (fun r v =>
      let neg := (r.w32 x.a).msb
      let ex := (r.w32 x.a).extractLsb' 23 8
      let fr := (r.w32 x.a).extractLsb' 0 23
      v = if ex = 255 then (if fr ≠ 0 then 1 <<< 8 else if neg then 1 <<< 0 else 1 <<< 7)
        else if ex = 0 then (if fr = 0 then (if neg then 1 <<< 3 else 1 <<< 4) else if neg then 1 <<< 2 else 1 <<< 5)
        else if neg then 1 <<< 1 else 1 <<< 6) ∧
    FnAllows (.fcmp h x) x (fun n => n % 16 < 14 ∧ n < 48) ∧ FnAllows (.fclass h x) x (· = 0)

/-- R189, R190: the packed instructions act on each half, rounding each once; HCMP2 joins the two comparisons. -/
def Obligations.PackedHalves : Prop :=
  ∀ (h : Hdr) (x : FA),
    let a (r : Rd) (k : Nat) : Exact := halfSrc r x.fn 0 k x.a
    let b (r : Rd) (k : Nat) : Exact := halfSrc r x.fn 1 k x.b
    let c (r : Rd) (k : Nat) : Exact := halfSrc r x.fn 2 k x.c
    RoundsHalves (.hadd2 h x) h x (fun r k => (a r k).add (fmtRnd r.fmt) (b r k)) ∧
    RoundsHalves (.hmul2 h x) h x (fun r k => (a r k).mul (b r k)) ∧
    RoundsHalves (.hfma2 h x) h x (fun r k => ((a r k).mul (b r k)).add (fmtRnd r.fmt) (c r k)) ∧
    RoundsHalves (.hmin2 h x) h x (fun r k => (a r k).min2 (b r k)) ∧
    RoundsHalves (.hmax2 h x) h x (fun r k => (a r k).max2 (b r k)) ∧
    GivesSuchPr (.hcmp2 h x) h x.d (fun r v =>
      let f := halfFmt x.fn
      let one (k : Nat) : Bool := fcmpRel (x.fn.toNat % 16) (f.decode (fmtFtz r.fmt) (r.half f x.a k))
        (f.decode (fmtFtz r.fmt) (r.half f x.b k))
      v = [one 0, one 1, one 0 && one 1, one 0 || one 1].getD (x.fn.toNat / 16 % 4) false)

/-! ## Conversions, the format register and exchange (R59, R66 to R71, R191 to R212) -/

/-- R191, R192, R193: conversions between integers and floating-point formats. -/
def Obligations.Conversions : Prop :=
  ∀ (h : Hdr) (x : FA),
    let fmtAt (k : Nat) : FFmt := [fF32, fF16, fBF16, fKF8].getD (x.fn.toNat / 2 ^ k % 4) fKF8
    RoundsTo (.cvtif h x) h x (fmtAt 2) (fun r => .ofInt
      (if x.fn.getLsbD 1 then intOf64 (x.fn.getLsbD 0) (r.w64 x.a) else intOf (x.fn.getLsbD 0) (r.w32 x.a)))
      (fun _ => []) ∧
    RoundsTo (.cvtff h x) h x (fmtAt 2) (fun r => (fmtAt 0).decode (fmtFtz r.fmt)
      ((r.w32 x.a).toNat / 2 ^ ((fmtAt 0).width * (x.fn.toNat / 32 % 4)) % 2 ^ (fmtAt 0).width)) (fun _ => []) ∧
    (let val (r : Rd) : Exact := (fmtAt 0).decode (fmtFtz r.fmt) ((r.w32 x.a).toNat % 2 ^ (fmtAt 0).width)
     let mode (r : Rd) : RMode := [fmtRnd r.fmt, .rtz, .rdn, .rup].getD (x.fn.toNat / 32 % 4) .rup
     let k := x.fn.toNat / 4 % 8
     let u := k % 2 == 1
     let w := [32, 64, 16, 8].getD (k / 2) 8
     Writes (.cvtfi h x) h (fun rs => rs.flatMap (fun r =>
       let v := clampFmt u w ((val r).toInt (mode r) (r.away (shTabInt rs val) 0))
       if w = 64 then r.put64 x.d (BitVec.ofInt 64 v) else r.put x.d (BitVec.ofInt 32 v))))

/-- The readers of one block of 32 elements: the same 32 / n threads, or the instruction's own (R194). -/
def Claims.OneBlock (n : Nat) (r q : Rd) : Bool :=
  match r.lane, q.lane with
  | some t, some u => decide (t / (32 / n) = u / (32 / n))
  | _, _ => true

/-- R59: s is the scale of the block of r among readers rs whose n elements are `src`: the smallest from 0 to 7 for which the
largest magnitude, divided by 2^s and rounded, is at most qmax, or 7; the search rounds as `mode`, and as RNE for SH and EF. -/
def Claims.IsBlockScale (n : Rd → Nat) (src : Rd → Nat → Exact) (mode : RMode) (rs : List Rd) (r : Rd) (s : Nat) : Prop :=
  let xs := (rs.filter (Claims.OneBlock (n r) r)).flatMap (fun q => (List.range (n q)).map (src q))
  let amax := xs.foldl (fun (m : Exact) v => if v.isNan then m else m.max2 v.abs) (.zero false)
  let qmax : Int := if fmtNfmt r.fmt = 0 then 127 else 7
  let search : RMode := if mode = .sh ∨ mode = .ef then .rne else mode
  let big (k : Nat) : Prop := qmax < (amax.scale (-(k : Int))).toInt search false
  if fmtBsc r.fmt = true ∧ fmtNfmt r.fmt ≤ 1 then s ≤ 7 ∧ (∀ k, k < s → big k) ∧ (s < 7 → ¬ big s) else s = 0

/-- R53, R54, R64 to R66: the bits of element k of r converted to its NFMT: KI8 and KI4 clamp; KF8, F16 and BF16 round; under
SH the quad's values decide. -/
def Claims.narrowed (mode : RMode) (rs : List Rd) (val : Rd → Exact) (k : Nat) (r : Rd) : Nat :=
  let form (q : Rd) : FFmt := [fKF8, fF16, fBF16].getD (fmtNfmt q.fmt - 2) fBF16
  let hash (q : Rd) : Nat := if fmtNfmt q.fmt ≤ 1 then (val q).hashInt else (form q).hash (val q)
  let up := r.away (if mode = .sh then rs.map (fun q => (q.thr, hash q)) else []) k
  if fmtNfmt r.fmt = 0 then (max (-128) (min 127 ((val r).toInt mode up)) % 256).toNat
  else if fmtNfmt r.fmt = 1 then (max (-8) (min 7 ((val r).toInt mode up)) % 16).toNat
  else (form r).round mode (fmtSat r.fmt) (fmtFtz r.fmt) up (val r)

/-- R59, R67, R194, R195, R198: CVTN, BSCALE and PACK.N wherever they issue: each reader's elements under FTZ, with .EF the sum
with its companion rounded to nearest; the scale of its block; each element divided by 2^s and converted; with .EF the
residues, then d packed from element 0 up, then with .SO the scale. -/
def Claims.Narrowing : Prop :=
  ∀ (h : Hdr) (x : FA),
    let n (r : Rd) : Nat := [4, 8, 4, 2].getD (fmtNfmt r.fmt) 2
    let ef := x.fn.getLsbD 0
    let f32 (r : Rd) (o : Opd) (k : Nat) : Exact := fF32.decode (fmtFtz r.fmt) (r.reg o k).toNat
    let word (r : Rd) (m : Nat) (q : Nat → Nat) : Word :=
      BitVec.ofNat 32 ((List.range m).map (fun k => q k % 2 ^ (32 / n r) * 2 ^ (32 / n r * k))).sum
    (let src (r : Rd) (k : Nat) : Exact :=
       if ef then fF32.decode (fmtFtz r.fmt)
         (fF32.round .rne false (fmtFtz r.fmt) false ((f32 r x.a k).add .rne (f32 r x.b k)))
       else f32 r x.a k
     let mode (r : Rd) : RMode := if ef then .rne else fmtRnd r.fmt
     ∃ s : List Rd → Rd → Nat, (∀ rs r, Claims.IsBlockScale n src (mode r) rs r (s rs r)) ∧
       Writes (.cvtn h x) h (fun rs => rs.flatMap (fun r =>
         let q (k : Nat) : Nat := Claims.narrowed (mode r) rs (fun q => (src q k).scale (-(s rs q : Int))) k r
         let value (k : Nat) : Exact := if fmtNfmt r.fmt = 0 then .ofInt (BitVec.ofNat 8 (q k)).toInt
           else if fmtNfmt r.fmt = 1 then .ofInt (BitVec.ofNat 4 (q k)).toInt
           else FFmt.decode ([fKF8, fF16, fBF16].getD (fmtNfmt r.fmt - 2) fBF16) false (q k)
         let residue (k : Nat) : Word :=
           if (src r k).isNan ∨ src r k = .inf false ∨ src r k = .inf true ∨ (value k).isNan then 0
           else BitVec.ofNat 32 (fF32.round .rne false (fmtFtz r.fmt) false
             ((src r k).add .rne ((value k).scale (s rs r)).neg))
         (if ef then (List.range (n r)).flatMap (fun k => r.putReg x.b k (residue k)) else []) ++
           r.put x.d (word r (n r) q) ++ (if x.fn.getLsbD 1 then r.put x.c (BitVec.ofNat 32 (s rs r)) else [])))) ∧
    (∃ s : List Rd → Rd → Nat, (∀ rs r, Claims.IsBlockScale n (fun q => f32 q x.a) (fmtRnd r.fmt) rs r (s rs r)) ∧
      Writes (.bscale h x) h (fun rs => rs.flatMap (fun r => r.put x.d (BitVec.ofNat 32 (s rs r))))) ∧
    (let div (r : Rd) : Nat := if fmtBsc r.fmt = true ∧ fmtNfmt r.fmt ≤ 1 then (r.w32 x.c).toNat % 8 else 0
     let src (k : Nat) (r : Rd) : Exact :=
       (fF32.decode (fmtFtz r.fmt) (r.w32 (if k = 0 then x.a else x.b)).toNat).scale (-(div r : Int))
     Writes (.packN h x) h (fun rs => rs.flatMap (fun r =>
       r.put x.d (word r 2 (fun k => Claims.narrowed (fmtRnd r.fmt) rs (src k) k r)))))

/-- R196, R197, R198: EFCLR clears n companions; CVTW widens each element exactly, times 2^b under .SC, to F32 or to I32; PACK
and UNPK place and extract parts of words. -/
def Claims.WideningAndPacking : Prop :=
  ∀ (h : Hdr) (x : FA),
    Writes (.efclr h x) h (fun rs => rs.flatMap (fun r =>
      (List.range (x.fn.toNat + 1)).flatMap (fun k => r.putReg x.d k 0))) ∧
    (let n := [4, 8, 4, 2, 2].getD (x.fn.toNat % 8) 2
     let elem (r : Rd) (k : Nat) : Exact :=
       let bits (w : Nat) : Nat := (r.w32 x.a).toNat / 2 ^ (w * k) % 2 ^ w
       [.ofInt (BitVec.ofNat 8 (bits 8)).toInt, .ofInt (BitVec.ofNat 4 (bits 4)).toInt, fKF8.decode false (bits 8),
        fF16.decode (fmtFtz r.fmt) (bits 16)].getD (x.fn.toNat % 8) (fBF16.decode (fmtFtz r.fmt) (bits 16))
     Writes (.cvtw h x) h (fun rs => rs.flatMap (fun r => (List.range n).flatMap (fun k => r.putReg x.d k
       (let v := (elem r k).scale (if x.fn.getLsbD 4 then (r.w32 x.b).toNat % 8 else 0 : Nat)
        if x.fn.getLsbD 3 then BitVec.ofInt 32 (v.toInt .rtz false)
        else BitVec.ofNat 32 (fF32.round (fmtRnd r.fmt).plain (fmtSat r.fmt) (fmtFtz r.fmt) false v)))))) ∧
    GivesSuch (.packH h x) h x.d (fun r v =>
      v = (r.w32 x.b).extractLsb' 0 16 ++ (r.w32 x.a).extractLsb' 0 16) ∧
    GivesSuch (.packBi h x) h x.d (fun r v => ∀ k, k < 32 → v.getLsbD k =
      if k / 8 = (r.w32 x.b).toNat % 4 then (r.w32 x.a).getLsbD (k % 8) else (r.w32 x.c).getLsbD k) ∧
    (x.fn ≤ 1 → GivesSuch (.unpkH h x) h x.d (fun r v =>
      let e := (r.w32 x.a).toNat / 2 ^ (16 * ((r.w32 x.b).toNat % 2)) % 2 ^ 16
      v = if x.fn = 1 then BitVec.ofNat 32 e else (BitVec.ofNat 16 e).signExtend 32)) ∧
    (2 ≤ x.fn ∧ x.fn ≤ 3 → GivesSuch (.unpkB h x) h x.d (fun r v =>
      let e := (r.w32 x.a).toNat / 2 ^ (8 * ((r.w32 x.b).toNat % 4)) % 2 ^ 8
      v = if x.fn = 3 then BitVec.ofNat 32 e else (BitVec.ofNat 8 e).signExtend 32)) ∧
    (4 ≤ x.fn ∧ x.fn ≤ 5 → GivesSuch (.unpkN h x) h x.d (fun r v =>
      let e := (r.w32 x.a).toNat / 2 ^ (4 * ((r.w32 x.b).toNat % 8)) % 2 ^ 4
      v = if x.fn = 5 then BitVec.ofNat 32 e else (BitVec.ofNat 4 e).signExtend 32))

/-- R59, R67, R194 to R198: narrowing with block scales and error feedback, widening, packing: each completes, in every form
of its fields, wherever it issues. -/
def Obligations.NarrowWidenPack : Prop := Claims.Narrowing ∧ Claims.WideningAndPacking

/-- R68, R70, R71: decoding an RA40 container gives back every value of its range, whatever the guard bit. -/
def Claims.RA40ContainersHoldTheirValues : Prop :=
  ∀ (v : Int) (g : Bool), -(274877902848) ≤ v → v ≤ 274877902847 →
    raDecode (raEncode v g).toNat = v ∧ (raEncode v g).getLsbD 63 = g

/-- R199, R200: conversions from and to RA40 containers. -/
def Claims.RA40Conversions : Prop :=
  ∀ (h : Hdr) (x : FA),
    let v (r : Rd) : Int := raDecode (r.w64 x.a).toNat
    let g (r : Rd) : List RegWrite := if x.fn.getLsbD 2 then r.putPr x.c ((r.w64 x.a).getLsbD 63) else []
    let dst := x.fn.toNat % 4
    (dst = 0 → Writes (.cvtra h x) h (fun rs => rs.flatMap (fun r => r.put64 x.d (BitVec.ofInt 64 (v r)) ++ g r))) ∧
    (dst = 1 → RoundsTo (.cvtra h x) h x fF32
      (fun r => (Exact.ofInt (v r)).scale (if x.fn.getLsbD 3 then (r.w32 x.b).toInt else 0)) g) ∧
    (dst = 2 → ∃ w : Rd → Word, (∀ r, Reduced false true (v r) (w r)) ∧
      Writes (.cvtra h x) h (fun rs => rs.flatMap (fun r => r.put x.d (w r) ++ g r))) ∧
    (x.fn = 0 → Gives64 (.cvtar h x) h x.d (fun r =>
      raEncode (r.w32 x.a).toInt (!raInRange (r.w32 x.a).toInt))) ∧
    (x.fn = 1 → Gives64 (.cvtar h x) h x.d (fun r =>
      raEncode (r.w64 x.a).toInt (!raInRange (r.w64 x.a).toInt))) ∧
    (x.fn = 2 → Writes (.cvtar h x) h (fun rs => rs.flatMap (fun r =>
      let val (q : Rd) : Exact := fF32.decode (fmtFtz q.fmt) (q.w32 x.a).toNat
      let n := (val r).toInt (fmtRnd r.fmt) (r.away (shTabInt rs val) 0)
      r.put64 x.d (match val r with
        | .nan => raEncode 0 true
        | .inf neg => raEncode (if neg then -274877902848 else 274877902847) true
        | .fin .. => raEncode n (!raInRange n)))))

/-- R68, R70, R71, R199, R200: containers hold their values, and CVTRA and CVTAR read and make them. -/
def Obligations.RA40Values : Prop := Claims.RA40ContainersHoldTheirValues ∧ Claims.RA40Conversions

/-- R61, R201, R202: SETFMT writes the issuing tiller's FMT in each of its forms, raises Illegal Operand on a value that
R61 forbids and then leaves FMT, has no effect under a false guard; GETFMT reads it. -/
def Obligations.FormatRegister : Prop :=
  (∀ (h : Hdr) (x : FI),
    let sets (i : Instr) (value : Frame → State → Word) : Prop := Does i (fun f s =>
      if f.guardU h s.cycle then
        (let w := value f s
         if w.extractLsb' 0 3 ≤ 5 ∧ w.extractLsb' 5 3 ≤ 4 ∧ w.extractLsb' 9 7 = 0 then
           (s.updT f (fun t => { t with fmt := w })).advance f i
         else s.trapAll f i.size 0x02 0)
      else s.advance f i)
    sets (.setfmtR h x) (fun f s => ({ s := s, f := f, lane := none } : Rd).w32 x.a) ∧
    (∀ w, x.imm = .short w →
      sets (.setfmt h x) (fun f _ => f.t.fmt.extractLsb' 16 16 ++ w.extractLsb' 0 16) ∧
      sets (.setfmtSeed h x) (fun f _ => w.extractLsb' 0 16 ++ f.t.fmt.extractLsb' 0 16)) ∧
    (∀ w, x.imm = .long w → sets (.setfmtLong h x) (fun _ _ => w.extractLsb' 0 32))) ∧
  (∀ (h : Hdr) (x : FA), Gives (.getfmt h x) h x.d (fun r => r.f.t.fmt) ∧ FnAllows (.getfmt h x) x (· = 0)) ∧
  (∀ r : Rd, r.w32 (.sr .fmt) = r.f.t.fmt)

/-- R206, R210: QSWZ and SHFL read another active thread's value; one outside the active mask gives 0 or c. -/
def Claims.ExchangeWithAnotherThread : Prop :=
  ∀ (h : Hdr) (x : FA),
    Writes (.qswz h x) h (fun rs => rs.flatMap (fun r =>
      let src := 4 * (r.thr / 4) + x.fn.toNat / 4 ^ (r.thr % 4) % 4
      r.put x.d ((suppliedBy rs src (fun q => q.w32 x.a)).getD 0))) ∧
    Writes (.shfl h x) h (fun rs => rs.flatMap (fun r =>
      let w := 4 * 2 ^ (x.fn.toNat / 4 % 8)
      let b := (r.w32 x.b).toNat
      let i := r.thr % w
      let base := r.thr - i
      let from_ : Option Word := match x.fn.toNat % 4 with
        | 0 => suppliedBy rs (base + b % w) (fun q => q.w32 x.a)
        | 1 => if b ≤ i then suppliedBy rs (base + (i - b)) (fun q => q.w32 x.a) else none
        | 2 => if i + b < w then suppliedBy rs (base + (i + b)) (fun q => q.w32 x.a) else none
        | _ => suppliedBy rs (base + (i ^^^ (b % w))) (fun q => q.w32 x.a)
      r.put x.d (from_.getD (r.w32 x.c)))) ∧
    FnAllows (.shfl h x) x (· < 20)

/-- R207, R208, R209: reductions by the pairwise tree and the prefix by the left fold, each over the active threads. -/
def Obligations.ReductionsAndScan : Prop :=
  ∀ (h : Hdr) (x : FA),
    let leaf (rs : List Rd) (fmt : Word) (t : Nat) : Option Word :=
      suppliedBy rs t (fun q => redIn x.fn.toNat fmt (q.w32 x.a))
    Writes (.qred h x) h (fun rs => rs.flatMap (fun r =>
      let l (k : Nat) : Option Word := leaf rs r.fmt (4 * (r.thr / 4) + k)
      let pair := redPair x.fn.toNat r.fmt
      r.put x.d ((pair (pair (l 0) (l 1)) (pair (l 2) (l 3))).getD (redIdent x.fn.toNat)))) ∧
    Writes (.sred h x) h (fun rs => rs.flatMap (fun r => r.put x.d
      ((redTree x.fn.toNat ((rs.head?.map Rd.fmt).getD 0) 6 ((List.range 64).map
        (leaf rs ((rs.head?.map Rd.fmt).getD 0)))).getD (redIdent x.fn.toNat)))) ∧
    Writes (.scan h x) h (fun rs => rs.flatMap (fun r =>
      let op := x.fn.toNat % 16
      let upTo := List.range (if x.fn.getLsbD 4 then r.thr else r.thr + 1)
      r.put x.d (match upTo.map (fun t => suppliedBy rs t (fun q => redIn op r.fmt (q.w32 x.a))) with
        | [] => redIdent op
        | v :: more => (more.foldl (redPair op r.fmt) v).getD (redIdent op)))) ∧
    FnAllows (.qred h x) x (· < 11) ∧ FnAllows (.sred h x) x (· < 11) ∧
    FnAllows (.scan h x) x (fun n => n % 16 < 11 ∧ n < 32)

/-- R211, R212: votes over the active threads, the masks of matching threads, and the elected thread. -/
def Claims.VotesMatchesElection : Prop :=
  ∀ (h : Hdr) (x : FA),
    let mask (rs : List Rd) (p : Rd → Bool) : DWord := Mask.ofLanes ((rs.filter p).map Rd.thr)
    Writes (.voteAll h x) h (fun rs => rs.flatMap (fun r => r.putPr x.d (rs.all (fun q => q.pr x.a)))) ∧
    Writes (.voteAny h x) h (fun rs => rs.flatMap (fun r => r.putPr x.d (rs.any (fun q => q.pr x.a)))) ∧
    Writes (.voteUni h x) h (fun rs => rs.flatMap (fun r =>
      r.putPr x.d (rs.all (fun q => q.pr x.a == r.pr x.a)))) ∧
    Writes (.voteBal h x) h (fun rs => rs.flatMap (fun r => r.put64 x.d (mask rs (fun q => q.pr x.a)))) ∧
    Writes (.match32 h x) h (fun rs => rs.flatMap (fun r =>
      r.put64 x.d (mask rs (fun q => q.w32 x.a == r.w32 x.a)))) ∧
    Writes (.match64 h x) h (fun rs => rs.flatMap (fun r =>
      r.put64 x.d (mask rs (fun q => q.w64 x.a == r.w64 x.a)))) ∧
    Writes (.elect h x) h (fun rs => rs.flatMap (fun r =>
      r.putPr x.d ((rs.head?).map Rd.thr == some r.thr))) ∧
    Writes (.electNh h x) h (fun rs => rs.flatMap (fun r =>
      r.putPr x.d (((rs.filter (fun q => !q.f.sh.helpers.getLsbD q.thr)).head?).map Rd.thr == some r.thr)))

/-- R206, R210, R211, R212: QSWZ, SHFL, the votes, MATCH and ELECT. -/
def Obligations.ExchangeVotesAndMatches : Prop := Claims.ExchangeWithAnotherThread ∧ Claims.VotesMatchesElection

/-! ## Encoding (R79 to R91, R282, R314) -/

/-- R79 to R85: the words of every well-formed instruction decode to it, with every operand at every value. -/
def Obligations.EncodeThenDecode : Prop :=
  ∀ i : Instr, i.wf = true → i.reject = none →
    ∃ w ws, encode i = some (w :: ws) ∧ i.size = 8 * (ws.length + 1) ∧
      decode (fmtOf i.op == some .x) w (ws.headD 0) = .ok i

/-- R79, R90, R91: words that decode give a well-formed instruction, of the kind of stream they were fetched for, whose
words they are: no bit of an encoding is dropped. -/
def Obligations.DecodeThenEncode : Prop :=
  ∀ (stream : Bool) (w w1 : DWord) (i : Instr), decode stream w w1 = .ok i →
    i.wf = true ∧ i.reject = none ∧ stream = (fmtOf i.op == some .x) ∧
      encode i = some (if i.size = 16 then [w, w1] else [w])

/-- R202, R234, R372 and the encoding tables: words written out from the manual decode to what they stand for. -/
def Obligations.SampleWordsDecode : Prop :=
  let g : Hdr := { st := 0, y := false, u := false, gn := false, gp := 15 }
  let u : Hdr := { g with u := true }
  decode false 0x1960F050100A0601 0 =
    .ok (.idot4 { g with st := 6 } { d := .v 10, a := .v 4, b := .v 5, c := .v 6, fn := 1 }) ∧
  decode false 0xE102F00450FF0001 0 = .ok (.mtsrSl u { d := .v 0, a := .s 20, fn2 := 0, imm := .short 0xFF0001 }) ∧
  decode false 0x0000F00000000000 0 = .ok (.nop g { d := .v 0, a := .v 0, b := .v 0, c := .v 0, fn := 0 }) ∧
  decode false 0x0140F020140C0000 0 =
    .ok (.iadd { g with st := 4 } { d := .v 4, a := .v 5, b := .v 6, c := .v 0, fn := 0 }) ∧
  decode false 0x1422F84000FFFFFE 0 =
    .ok (.movi { u with st := 2 } { d := .s 8, a := .v 0, fn2 := 0, imm := .short 0xFFFFFE }) ∧
  decode false 0x1C02F86600000018 0 = .ok (.kecf u { d := .s 12, a := .int 0, b := .v 0, c := .v 0, fn := 0x18 }) ∧
  decode false 0x5200F0180B033F11 0 = .ok (.shfl g { d := .v 3, a := .v 2, b := .int 1, c := .sz, fn := 0x11 }) ∧
  decode false 0x6020F03C20A80040 0 = .ok (.ld { g with st := 2 }
    { d := .v 7, a := .s 8, nud := 5, sz := 2, ord := 0, spc := 0, off := .short 0x40 }) ∧
  decode false 0x7014F04008120010 0x1200000000000040 = .ok (.atom { g with st := 1 }
    { d := .v 8, a := .v 2, b := .v 9, c := .v 0, fn := 0x10, nud := 2, sz := 2, ord := 0, spc := 0, off := 0x40 }) ∧
  decode false 0x8000F00604000001 0 = .ok (.fence g { d := .v 0, a := .int 1, b := .v 0, c := .v 0, fn := 1 }) ∧
  decode false 0x9300F509000007D0 0 = .ok (.joint g { fn4 := 5, tok := 9, off := 0x7D0 }) ∧
  decode false 0xA802FA8C10000000 0 = .ok (.launch u { d := .q 1, a := .s 4, b := .v 0, c := .v 0, fn := 0 }) ∧
  decode false 0xD000F08022291800 0 =
    .ok (.rast g { w := .v 16, a := .v 8, b := .s 20, d := .s 24, fn := 0 }) ∧
  decode true 0xC000011C120C0700 0 = .ok (.mma { acc := 1, slot := 3, a := .s 4, b := .s 6, cnt := 7, fn := 0 }) ∧
  decode true 0xC700000000000000 0 =
    .ok (.mend { acc := 0, slot := 0, a := .v 0, b := .v 0, cnt := 0, fn := 0 }) ∧
  decode false 0xC700000000000000 0 = .error .stream ∧
  decode true 0x0000F00000000000 0 = .error .stream

/-! ## Steps (R43, R44, R79, R127, R278, R420) -/

/-- R44, R79, R127: the tiller that a quarter's turn chooses runs the instruction that the bytes at its PC decode to, of one
word or of two; words that decode to none trap every active lane with cause 0x01 (R91). -/
def Obligations.AStepRunsTheDecodedInstruction : Prop :=
  ∀ (s : State) (c q : Nat) (rest : List Turn) (f : Frame), s.powered = true →
    s.agenda = { cycles := 0, act := .issue (.quarter c q) } :: rest → s.withholds (dieOf c) s.cycle = false →
    let s0 := (({ s with agenda := rest } : State).wakeQuarter c q).settleQuarter c q
    s0.pick c q = some f →
    let s1 : State := { s0.countAges f with cur := { gid := f.g.gid, sh := f.sh.idx, ti := f.t.idx } }
    (∀ s2 w i, Fetches s1 f f.t.pc w s2 → needsSecond w = false → decode false w 0 = .ok i →
      step s = ended (exec i (s2.noteIssue f i))) ∧
    (∀ s2 s3 w w1 i, Fetches s1 f f.t.pc w s2 → needsSecond w = true → Fetches s2 f (f.t.pc + 8) w1 s3 →
      decode false w w1 = .ok i → step s = ended (exec i (s3.noteIssue f i))) ∧
    (∀ s2 w r, Fetches s1 f f.t.pc w s2 → needsSecond w = false → decode false w 0 = .error r →
      step s = ended (.next (s2.trapAll f 8 0x01 0))) ∧
    (∀ s2 s3 w w1 r, Fetches s1 f f.t.pc w s2 → needsSecond w = true → Fetches s2 f (f.t.pc + 8) w1 s3 →
      decode false w w1 = .error r → step s = ended (.next (s3.trapAll f 16 0x01 0)))

/-- R43, R44, R45: which tiller that is: READY in a resident group that no cut holds, on that quarter, and before every other
such tiller in R44's order. -/
def Claims.TheChosenTillerGoesFirst : Prop :=
  (∀ (s : State) (c q : Nat) (f : Frame), s.pick c q = some f →
    f ∈ s.readyOn c q ∧ ∀ k ∈ s.readyOn c q, goesBefore k f = false) ∧
  ∀ (s : State) (c q : Nat) (f : Frame), f ∈ s.readyOn c q → f.t.st = .ready ∧ f.sh.quarter = q ∧ f.g.core = c ∧
    f.g.st = .resident ∧ s.cutHolds f.g.ctx = false

/-- R44, R278, R420 and the model's schedule (log 1): a running stream issues the instruction fetched at its PC, a scheduled
event comes about after its cycles, without power nothing changes, and a quarter chooses by R44. -/
def Obligations.AStepOfAStreamOrAnEvent : Prop :=
  (∀ s : State, s.powered = false → step s = .next s) ∧
  (∀ (s : State) (i : Instr) (n : Nat) (rest : List Turn), s.powered = true →
    s.agenda = { cycles := n, act := .event i } :: rest →
    step s = ended (exec i (({ s with agenda := rest } : State).idle n))) ∧
  (∀ (s s1 : State) (gid : Nat) (rest : List Turn) (g : Group) (i : Instr), s.powered = true →
    s.agenda = { cycles := 0, act := .issue (.stream gid) } :: rest → s.group? gid = some g → s.streamGoes g = true →
    s.withholds (dieOf g.core) s.cycle = false →
    ({ s with agenda := rest, cur := { gid := g.gid, sh := g.stream.sh, ti := 0 } } : State).fetchInstr g.core g.ctx true
      g.stream.pc = (.instr i, s1) → step s = ended (exec i (s1.streamFetched g.gid))) ∧
  Claims.TheChosenTillerGoesFirst

/-! ## Reset (R6, R372, R384, R401, R402, R426) -/

/-- R372, R384, R396, R401, R402, R421: the registers that have a stated reset value hold it after reset, among them the watch and
drive entries and the registers of the attestation block; NEXTIDX and the floor are what flash holds. That the queues are STOPPED is
the model's choice (log 2). -/
def Obligations.ResetValues : Prop :=
  let s := State.reset
  let p := s.plat
  s.cycle = 0 ∧ s.stc = 0 ∧ p.ready0 = 0 ∧ p.ready1 = 0 ∧ p.powerCap = 2200 ∧ p.powerNow = 0 ∧ p.hapbase = 0 ∧
  p.rcvAddr = 0 ∧ p.fqBase = 0 ∧ p.fqHead = 0 ∧ p.fqTail = 0 ∧ p.errBase = 0 ∧ p.errHead = 0 ∧ p.errTail = 0 ∧
  p.errDrop = 0 ∧ p.meas = List.replicate 8 (List.replicate 64 0) ∧ p.measData = [] ∧ p.fwPtRoot = 0 ∧
  p.fwHndCode = 0 ∧ p.fwHndArg = 0 ∧ p.fwHndRegs = 8 ∧ p.admits = [] ∧ p.phase = 0 ∧ p.starve = 2000000 ∧
  (∀ k, s.pdl k = 4000000) ∧
  (∀ k, (s.core k).horizon = 256 ∧ (s.core k).sl = 512 ∧ (s.core k).gate = 4096 ∧ (s.core k).glnPeriod = 0 ∧
    (s.core k).glnCtxm = 0 ∧ (s.core k).glnRing = 0 ∧ (s.core k).glnStart = 1 ∧ (s.core k).glnStop = 0 ∧
    (s.core k).glnTstc = 0 ∧ (s.core k).glnLast = 63 ∧ (s.core k).gens = []) ∧
  (∀ d, (s.die d).stallchk = 0 ∧ (s.die d).wqbase = 0 ∧ (s.die d).bbcb = [] ∧ (s.die d).bbcn = [] ∧
    (s.die d).dspreq = []) ∧
  (∀ c, (s.ctxSt c).ptRoot = 0 ∧ (s.ctxSt c).part = BitVec.allOnes 128 ∧ (s.ctxSt c).hndCode = 0 ∧
    (s.ctxSt c).hndArg = 0 ∧ (s.ctxSt c).hndRegs = 8 ∧ (s.ctxSt c).pre = .running ∧ (s.ctxSt c).tlbInv = 0) ∧
  (∀ q, (s.sq q).st = .stopped) ∧
  (∀ e, let w := s.watch e
    w.pa = 0 ∧ w.mask = 0 ∧ w.value = 0 ∧ w.cmp = 0 ∧ w.action = 0 ∧ w.armed = false ∧ w.vector = 0 ∧ w.bus = 0) ∧
  (∀ d, s.drive d = List.replicate 32 0) ∧
  p.measExt = 0 ∧ p.doeReqLen = 0 ∧ p.doeRspLen = 0 ∧ p.signGo = 0 ∧ s.sign.stat = 0 ∧ p.idxResv = 0 ∧
  s.sign.idxNext = Config.flashNextIdx ∧ s.sign.floor = s.sign.idxNext ∧ p.signMsg = [] ∧ p.doeReq = [] ∧ p.doeRsp = []

/-! ## Issue, faults of issue, and what an instruction leaves alone (R81, R91 to R94, R166) -/

/-- R91, R93: the checks before an instruction of a sheaf has any effect, in their order, and the trap that each raises in
every active lane. -/
def Obligations.DecodeFaultsAndStallChecks : Prop :=
  ∀ (s : State) (f : Frame) (i : Instr) (h : Hdr), i.hdr = some h → s.frame? = some f →
    (i.reject ≠ none ∨ i.wf = false → exec i s = .next (s.trapAll f i.size 0x01 0)) ∧
    ((∀ k h x, i ≠ .seqx k h x) → i.reject = none → i.wf = true →
      (stewardOnly i.op = true ∧ f.g.core % 72 ≠ 0 ∨ handlerOnly i.op = true ∧ f.g.kind ≠ .handler →
        exec i s = .next (s.trapAll f i.size 0x03 0)) ∧
      (¬ (stewardOnly i.op = true ∧ f.g.core % 72 ≠ 0) → ¬ (handlerOnly i.op = true ∧ f.g.kind ≠ .handler) →
        (i.operandsOk f.sh.budget f.handler = false → exec i s = .next (s.trapAll f i.size 0x02 0)) ∧
        (i.operandsOk f.sh.budget f.handler = true → s.stallChecked f = true → s.uncovered f i = true →
          exec i s = .next (s.trapAll f i.size 0x07 0))))

/-- R81, R166: what an instruction on registers leaves as it was: everything outside its sheaf, and in its sheaf every
register cell whose register it does not name as a destination. -/
def Obligations.RegisterInstructionFrame : Prop :=
  ∀ (s t : State) (f : Frame) (x : Sheaf) (i : Instr), i.onRegisters = true → Issues s f i →
    s.sheaf? f.g.gid f.sh.idx = some x → x.regsWf = true → exec i s = .next t →
    t = { s with groups := t.groups } ∧ (∀ gid, gid ≠ f.g.gid → t.group? gid = s.group? gid) ∧
    ∃ g y, t.group? f.g.gid = some g ∧ g = { f.g with sheaves := g.sheaves } ∧ g.sheaf? f.sh.idx = some y ∧
      (∀ sh, sh ≠ f.sh.idx → g.sheaf? sh = f.g.sheaf? sh) ∧ x.sameElse y ∧ y.regsWf = true ∧
      (∀ ti, ti ≠ f.t.idx → (y.tiller? ti).map Tiller.mask = (x.tiller? ti).map Tiller.mask ∧
        (y.tiller? ti).map Tiller.pc = (x.tiller? ti).map Tiller.pc ∧
        (y.tiller? ti).map Tiller.fmt = (x.tiller? ti).map Tiller.fmt ∧
        (y.tiller? ti).map Tiller.st = (x.tiller? ti).map Tiller.st) ∧
      ∀ k : Key, k.thread < 64 → k.reg ∉ writeRegs i → y.read k = x.read k

/-- R45, R79, R92: issuing moves the PC past the instruction, keeps its lanes, FMT and stack, notes the Y bit, and blocks
the tiller for its stall count, which counts from the cycle of issue for an instruction that its unit performs later. -/
def Claims.TheTillerMovesOn : Prop :=
  ∀ (s : State) (f : Frame) (i : Instr) (h : Hdr), i.hdr = some h → s.frame? = some f →
    ∃ g y u, (s.advance f i).group? f.g.gid = some g ∧ g.sheaf? f.sh.idx = some y ∧ y.tiller? f.t.idx = some u ∧
      u.pc = f.t.pc + BitVec.ofNat 64 i.size ∧ u.mask = f.t.mask ∧ u.fmt = f.t.fmt ∧ u.stack = f.t.stack ∧
      u.yielded = h.y ∧ u.stallEnd = ((f.t.queued.map Queued.cycle).getD s.cycle) + 1 + h.st.toNat ∧
      u.st = (if u.stallEnd ≤ s.cycle + 1 then .ready else .blocked (.stall u.stallEnd)) ∧ u.todo = none ∧ u.queued = none

/-- R92, R93, R94, R168: a fixed-latency result stands in its registers after L cycles, and its own tiller reads the old
value before that; a variable-latency result is written when its event comes about. -/
def Claims.ResultsReachTheirRegisters : Prop :=
  (∀ (s : State) (f : Frame) (x : Sheaf) (i : Instr) (ws : List RegWrite) (l : Nat), s.frame? = some f →
    s.sheaf? f.g.gid f.sh.idx = some x → i.latency = some l → ∃ g y u, (s.retire f i ws).group? f.g.gid = some g ∧ g.sheaf? f.sh.idx = some y ∧ y.tiller? f.t.idx = some u ∧
      (∀ k, y.read k = (ws.foldl Sheaf.write1 x).read k) ∧
      ∀ c k, k ∈ ws.map RegWrite.key →
        ({ g := g, sh := y, t := u } : Frame).read c k = if c < s.cycle + l then f.sh.read k else y.read k) ∧
  (∀ (s : State) (f : Frame) (i : Instr) (ws : List RegWrite), s.frame? = some f → i.latency = none → ws ≠ [] →
    s.retire f i ws = s.updS f (fun x => { x with board := x.board ++ [{ mem := false, writes := ws }] })) ∧
  (∀ (s : State) (gid sh : Nat) (x : Sheaf) (b : Board) (mem : Bool), s.sheaf? gid sh = some x →
    x.board.find? (fun b => b.mem == mem) = some b →
    exec (if mem then .memoryAccessComplete gid sh else .variableLatencyResult gid sh) s =
        .next (s.updSheaf gid sh (fun x => x.deliver mem)) ∧
      (x.deliver mem).board = x.board.erase b ∧
      ∀ k, (x.deliver mem).read k = (b.writes.foldl Sheaf.write1 x).read k)

/-- R26, R86, R87, R165: what an operand gives its reader, and which registers a destination writes: a vector register and a
thread predicate are the thread's own, a scalar and a uniform predicate the sheaf's, a pair has its low half in the register
named; sz reads 0, pt and qt read true, and writes to them are discarded (sz in every size: log 92). -/
def Claims.OperandsGiveTheirValues : Prop :=
  ∀ (r : Rd) (w : Word) (d : DWord) (b : Bool),
    (∀ k, r.key k = r.f.read r.s.cycle k) ∧ (∀ t, r.lane = some t → r.thr = t) ∧ (r.lane = none → r.thr = 0) ∧
    (∀ n : Fin 256, let lo : Key := .v n.val r.thr
      let hi : Key := .v (n.val + 1) r.thr
      r.w32 (.v n) = r.key lo ∧ r.w64 (.v n) = r.key hi ++ r.key lo ∧ r.put (.v n) w = [{ key := lo, val := w }] ∧
      r.put64 (.v n) d = [{ key := lo, val := d.extractLsb' 0 32 }, { key := hi, val := d.extractLsb' 32 32 }]) ∧
    (∀ n : Fin 63, let lo : Key := .s n.val
      let hi : Key := .s (n.val + 1)
      r.w32 (.s n) = r.key lo ∧ r.w64 (.s n) = r.key hi ++ r.key lo ∧ r.put (.s n) w = [{ key := lo, val := w }] ∧
      r.put64 (.s n) d = [{ key := lo, val := d.extractLsb' 0 32 }, { key := hi, val := d.extractLsb' 32 32 }]) ∧
    (r.w32 .sz = 0 ∧ r.w64 .sz = 0 ∧ r.put .sz w = [] ∧ r.put64 .sz d = []) ∧
    (∀ n : Fin 64, (r.w32 (.int n)).toNat = n.val ∧ (r.w64 (.int n)).toNat = n.val) ∧
    (∀ n : Fin 32, (r.w64 (.fc n)).toNat = (r.w32 (.fc n)).toNat ∧ some (r.w32 (.fc n)) =
      ([0x00000000, 0x3F800000, 0xBF800000, 0x3F000000, 0xBF000000, 0x40000000, 0xC0000000, 0x40800000, 0xC0800000,
        0x3E800000, 0x41000000, 0x41800000, 0x41200000, 0x40400000, 0x3E000000, 0x437F0000] ++
       [0x3B808081, 0x42FE0000, 0x43700000, 0x40490FDB, 0x40C90FDB, 0x3FC90FDB, 0x3EA2F983, 0x3F317218, 0x3FB8AA3B,
        0x40549A78, 0x3FB504F3, 0x3F3504F3, 0x7F800000, 0xFF800000, 0x7F7FFFFF, 0x7FC00000] : List Word)[n.val]?) ∧
    (∀ n : Fin 15, (r.pr (.p n) = true ↔ r.key (.p n.val r.thr) ≠ 0) ∧
      r.putPr (.p n) b = [{ key := .p n.val r.thr, val := if b then 1 else 0 }]) ∧
    (∀ n : Fin 7, (r.pr (.q n) = true ↔ r.key (.q n.val) ≠ 0) ∧
      r.putPr (.q n) b = [{ key := .q n.val, val := if b then 1 else 0 }]) ∧
    (r.pr .pt = true ∧ r.pr .qt = true ∧ r.putPr .pt b = [] ∧ r.putPr .qt b = []) ∧
    (∀ x, r.w64 (.sr x) = r.special x ∧ r.w32 (.sr x) = (r.special x).extractLsb' 0 32)

/-- R23, R88, R267, R366: what the special registers read. A handler's group has a launch record of zeros, so that sr.gid and
sr.gdim read 0 there (log 97), and sr.pdim reads the launch record's bytes, zeros without a shape (log 139). -/
def Claims.SpecialRegistersRead : Prop :=
  ∀ (r : Rd), r.thr < 64 → r.f.sh.idx < 16 →
    let v (x : SReg) : Nat := (r.special x).toNat
    let g := r.f.g
    let (gx, gy, gz) := (g.launch.gx.toNat, g.launch.gy.toNat, g.launch.gz.toNat)
    v .thr = r.thr ∧ v .quad * 4 + v .lane = v .thr ∧ v .lane < 4 ∧ v .sheaf = r.f.sh.idx ∧
    v .tidX = 64 * v .sheaf + v .thr ∧ v .tidY = 0 ∧ v .tidZ = 0 ∧
    v .gdimX = gx ∧ v .gdimY = gy ∧ v .gdimZ = gz ∧
    (g.linear < gx * gy * gz → v .gidX + gx * (v .gidY + gy * v .gidZ) = g.linear ∧ v .gidX < gx ∧ v .gidY < gy ∧ v .gidZ < gz) ∧
    (g.linear = 0 → v .gidX = 0 ∧ v .gidY = 0 ∧ v .gidZ = 0) ∧
    (g.pslot < 2 ^ 32 → v .pslot = g.pslot) ∧ v .pdim = g.launch.pw.toNat + 256 * g.launch.ph.toNat ∧
    (g.core < 288 → v .die * 72 + v .core = g.core ∧ v .core < 72) ∧
    (r.s.devnum < 2 ^ 32 → v .dev = r.s.devnum) ∧ (g.ctx < 2 ^ 32 → v .ctx = g.ctx) ∧
    v .stc = r.s.stc % 2 ^ 64 ∧ v .grc = g.grc.toNat ∧ v .fmt = r.f.t.fmt.toNat ∧
    v .helper = (if r.f.sh.helpers.getLsbD r.thr then 1 else 0) ∧ r.special .active = r.f.t.mask ∧
    ∀ e, g.entries[r.thr]? = some e → r.special .origin = e.origin ∧ v .cause = e.cause.toNat

/-- R23, R26, R45, R79, R86 to R88, R92, R93, R94, R165, R168: what issue does to the tiller, what its operands give, and when
results stand in their registers. -/
def Obligations.IssueAndRetirement : Prop :=
  Claims.TheTillerMovesOn ∧ Claims.ResultsReachTheirRegisters ∧ Claims.OperandsGiveTheirValues ∧ Claims.SpecialRegistersRead

/-! ## Memory (R102 to R105, R113, R141 to R147, R213 to R226) -/

/-- R213, R216, R221, R223: a load or atomic performs its lanes in ascending order; with no fault and no wait its results
wait for memory, the tiller moves on, and GRC counts it. -/
def Claims.LoadsAndAtomics : Prop :=
  ∀ (i : Instr) (h : Hdr) (x : FM) (y : FT) (m : MemForm),
    i ∈ [.ld h x, .ldu h x, .ldc h x, .atom h y, .atomu h y, .acas h y, .red h y] → memForm i = some m →
    ∀ (s : State) (f : Frame), Issues s f i → f.t.todo = none →
      let acts := if h.u then (if f.guardU h s.cycle then [none] else []) else (f.active h s.cycle).lanes.map some
      let ls := (acts.filter (fun l => !(m.kind == 2 && f.suppressed l))).map
        (fun l => (l, Rd.src { s := s, f := f, lane := l } m))
      let r := (s.countGrc f.g.gid).memLanes f.g f.sh m (f.suppressed none) ls
      (∃ t, exec i s = .next t) ∧
      (r.parks = [] → r.recs = [] → r.waits = [] → s.pends = [] →
        exec i s = .next ((if r.writes = [] then r.s
          else r.s.updS f (fun x => { x with board := x.board ++ [{ mem := true, writes := r.writes }] })).moveOn f i))

/-- R213, R216: a store whose lanes do not aim at the engine window, in the same way; a helper's store is suppressed
(R32). -/
def Claims.Stores : Prop :=
  ∀ (i : Instr) (h : Hdr) (x : FM), i = .st h x ∨ i = .stu h x →
    ∀ (s : State) (f : Frame), Issues s f i → f.t.todo = none →
      let m := formM 1 x
      let acts := if h.u then (if f.guardU h s.cycle then [none] else []) else (f.active h s.cycle).lanes.map some
      let ls := (acts.filter (fun l => !f.suppressed l)).map (fun l => (l, Rd.src { s := s, f := f, lane := l } m))
      let r := (s.countGrc f.g.gid).memLanes f.g f.sh m false ls
      (∀ l ∈ ls, aimsEngine f.g m l.2 = false) → r.parks = [] → r.recs = [] → r.waits = [] → s.pends = [] →
        r.writes = [] ∧ exec i s = .next (r.s.moveOn f i)

/-- R213, R216, R221, R223: the loads, the atomics and the stores. -/
def Obligations.MemoryInstructions : Prop := Claims.LoadsAndAtomics ∧ Claims.Stores

/-- R102, R103, R105, R222: an access of one value to the group's own scratch: its value, what it stores and, for an
atomic, what it leaves; outside S bytes protection, not aligned misaligned address, with nothing changed. -/
def Claims.ScratchAccess : Prop :=
  ∀ (s : State) (g : Group) (p : Port) (m : MemForm) (x : Src),
    s.group? p.g.gid = some g → m.spc = 1 → m.sz ≤ 3 → p.g.launch.pw = 0 →
    let ea := (x.a + m.off).toNat
    let n := 2 ^ m.sz
    let put (v : Nat) : State := s.updGroup p.g.gid (fun g => { g with scratch := csetLE g.scratch ea n v })
    let old := cgetLE g.scratch ea n
    (ea % n ≠ 0 → s.memLane p m x = (.park 0x04, s)) ∧
    (ea % n = 0 → p.g.sBytes ≤ ea → s.memLane p m x = (.park 0x06, s)) ∧
    (ea % n = 0 → ea < p.g.sBytes →
      (m.kind = 0 → s.memLane p m x = (.done [old], s)) ∧
      (m.kind = 1 → s.memLane p m x = (.done [], put x.b.toNat)) ∧
      (m.kind = 2 → s.memLane p m x = (.done [old],
        match atomNew m.fn old x.b.toNat x.c.toNat with
        | some v => put v
        | none => s)))

/-- R146, R148, R155, R222: a volatile load, a volatile store and a relaxed atomic of local HBM act at the home: the load
gives the bytes there, the store and the atomic replace exactly their own bytes and no other byte of memory. -/
def Claims.UncachedAccess : Prop :=
  ∀ (s s1 : State) (p : Port) (m : MemForm) (x : Src) (pa l : Nat) (leaf : DWord),
    m.spc = 0 → m.sz ≤ 3 → m.kind ≤ 2 → m.ord = (if m.kind = 2 then 0 else 4) →
    let ea := x.a + m.off
    let n := 2 ^ m.sz
    ea.toNat % n = 0 → ea.extractLsb' 55 9 = 0 → ea.extractLsb' 42 13 ≠ 0x1FFF →
    s.translate p.g.core p.g.ctx { write := m.kind != 0, fetch := false } ea = (.ok pa leaf, s1) →
    pa % n = 0 → s1.homeOf pa = .hbm l → s1.stackReady l = true → s1.poisoned l n = false → leaf.getLsbD 11 = false →
    s1.cmds = [] → (s1.core (s1.l1Of p.g.core (pa / 512))).line? (pa / 512) = none → Memory.wf s1.mem = true →
    s1.holdsFor p.who = false → s1.l2Full (s1.accOf p m leaf) (pa / 512) = false →
    (∀ a, l ≤ a → a < l + n → s1.inDescriptor a = false) →
    let old := cgetLE s1.mem l n
    let new : Option Nat := if m.kind = 0 then none else if m.kind = 1 then some x.b.toNat
      else atomNew m.fn old x.b.toNat x.c.toNat
    ∃ t, s.memLane p m x = (.done (if m.kind = 1 then [] else [old]), t) ∧ t.groups = s1.groups ∧
      Memory.wf t.mem = true ∧
      ∀ a, cget t.mem a = match new with
        | some v => if l ≤ a ∧ a < l + n then BitVec.ofNat 8 (v / 2 ^ (8 * (a - l))) else cget s1.mem a
        | none => cget s1.mem a

/-- R113, R141, R143, R216: a plain load of a sector that the L1 holds gives the L1's bytes, and one of a line that it does not
hold the home's; a plain store to a sector that it holds changes exactly its bytes there and nothing at the home, until a write-back
carries them there (of that line the bytes written alone: log 31). -/
def Claims.CachedAccess : Prop :=
  ∀ (s s1 : State) (p : Port) (m : MemForm) (x : Src) (pa l : Nat) (leaf : DWord),
    m.spc = 0 → m.sz ≤ 3 → m.kind ≤ 1 → m.ord = 0 →
    let ea := x.a + m.off
    let n := 2 ^ m.sz
    let k := s1.l1Of p.g.core (pa / 512)
    ea.toNat % n = 0 → ea.extractLsb' 55 9 = 0 → ea.extractLsb' 42 13 ≠ 0x1FFF →
    s.translate p.g.core p.g.ctx { write := m.kind != 0, fetch := false } ea = (.ok pa leaf, s1) →
    pa % n = 0 → s1.homeOf pa = .hbm l → s1.stackReady l = true → s1.poisoned l n = false → leaf.getLsbD 11 = false →
    (∀ y : Line, (s1.core k).line? (pa / 512) = some y → y.valid.getLsbD (pa / 128 % 4) = true →
      (m.kind = 0 → ∃ t, s.memLane p m x = (.done [cgetLE y.data pa n], t) ∧ t.mem = s1.mem ∧ t.groups = s1.groups) ∧
      (m.kind = 1 → cellsWf y.data = true → s1.watched (pa / 512) = false →
        ∃ t z, s.memLane p m x = (.done [], t) ∧ t.mem = s1.mem ∧ t.groups = s1.groups ∧
          (t.core k).line? (pa / 512) = some z ∧ (∀ a, pa ≤ a → a < pa + n → a ∈ z.wrote) ∧
          ∀ a, cget z.data a = if pa ≤ a ∧ a < pa + n then BitVec.ofNat 8 (x.b.toNat / 2 ^ (8 * (a - pa)))
            else cget y.data a)) ∧
    (m.kind = 0 → (s1.core k).line? (pa / 512) = none → (∀ y ∈ (s1.core k).lines, y.wrote = []) → s1.cmds = [] →
      s1.l2Full (s1.accOf p m leaf) (pa / 512) = false →
      ∃ t, s.memLane p m x = (.done [cgetLE s1.mem l n], t) ∧ t.mem = s1.mem ∧ t.groups = s1.groups)

/-- R113, R141, R143, R146, R148, R155, R216, R222: accesses at the home and through the L1. -/
def Obligations.AccessAtTheHome : Prop := Claims.UncachedAccess ∧ Claims.CachedAccess

/-- R103, R105: in every space an access that is not aligned raises misaligned address, and a generic one whose address
has a bit above 54 set raises unresolved address; neither changes anything. -/
def Claims.BadAddresses : Prop :=
  ∀ (s : State) (p : Port) (m : MemForm) (x : Src),
    ((x.a + m.off).toNat % szAlign m.sz ≠ 0 → s.memLane p m x = (.park 0x04, s)) ∧
    (m.spc = 0 → m.sz ≤ 3 → (x.a + m.off).toNat % szAlign m.sz = 0 → (x.a + m.off).extractLsb' 55 9 ≠ 0 →
      s.memLane p m x = (.park 0x05, s))

/-- R102, R103, R105, R222: accesses of a group's own scratch, and the addresses that trap. -/
def Obligations.ScratchAndBadAddresses : Prop := Claims.ScratchAccess ∧ Claims.BadAddresses

/-- R219, R220: PREF and CCTL complete whatever their addresses are: they raise nothing, write no register and no scratch,
and the tiller moves on, unless a line that is pinned in L2, or a write held at a read-duplicated page, must be waited for (R132,
R157). -/
def Claims.CacheHintsComplete : Prop :=
  ∀ (i : Instr) (h : Hdr) (x : FM),
    i = .pref h x ∨ i = .cctlWb h x ∨ i = .cctlInv h x ∨ i = .cctlDemote h x ∨ i = .cctlRenud h x →
    ∀ (s : State) (f : Frame), Issues s f i → (∃ t, exec i s = .next t) ∧
      ((∀ y ∈ s.l2, y.pins = 0) → s.rds = [] → f.t.todo = none → ∃ t, exec i s = .next t ∧
        t.groups = ((if i = .pref h x then s.countGrc f.g.gid else s).advance f i).groups)

/-- R141, R147, R226: FENCE at a scope below the panicle orders nothing more; at a wider one .REL writes back every line of
the L1 that its core uses, and the other kinds invalidate them too: every byte written there then stands at its home, where no
queue descriptor stands (of a line, the bytes written: log 31). -/
def Claims.FenceCleansTheCache : Prop :=
  (∀ (h : Hdr) (x : FA), Does (.fence h x) (fun f s =>
    (if !f.acts h s.cycle || decide ((({ s := s, f := f, lane := none } : Rd).w32 x.a).toNat < 3) then s
     else if x.fn = 2 then s.release f.g.core else s.acquire f.g.core).advance f (.fence h x))) ∧
  (∀ (s : State) (core k : Nat), k ∈ s.l1Group core → ((s.core k).lines.map (fun x => x.tag.line)).Nodup →
    (∀ x ∈ ((s.release core).core k).lines, x.wrote = []) ∧ ((s.acquire core).core k).lines = []) ∧
  (∀ (s : State) (core k a : Nat) (x : Line), k ∈ s.l1Group core → Memory.wf s.mem = true → Memory.wf s.remote = true →
    (∀ j ∈ s.l1Group core, ((s.core j).lines.map (fun y => y.tag.line)).Nodup ∧ ∀ y ∈ (s.core j).lines, ∀ b ∈ y.wrote,
      b / 512 = y.tag.line ∧ (b = a → cget y.data b = cget x.data a)) →
    x ∈ (s.core k).lines → a ∈ x.wrote → ∀ t ∈ [s.release core, s.acquire core],
      (s.isLocal a = true → s.inDescriptor (a % 2 ^ 41) = false → cget t.mem (a % 2 ^ 41) = cget x.data a) ∧
      (s.isLocal a = false → cget t.remote a = cget x.data a))

/-- R141, R147, R219, R220, R226: PREF, CCTL and FENCE. -/
def Obligations.CacheControlAndFence : Prop := Claims.CacheHintsComplete ∧ Claims.FenceCleansTheCache

/-! ## Phase barriers, waits, yields and stamps (R92, R227 to R236) -/

/-- R227, R229: an arrival of n on a barrier word: nothing for 0; a completing one inverts PH and empties ARR; another adds
to ARR. PBARI sets EXP and empties ARR. -/
def Claims.BarrierWordArithmetic : Prop :=
  ∀ (w : DWord) (n : Nat), n ≤ 65535 →
    pbArrive w 0 = w ∧ pbExp (pbInit w n) = n ∧ pbArr (pbInit w n) = 0 ∧ pbPh (pbInit w n) = pbPh w ∧
    (0 < n → pbExp w ≤ pbArr w + n → pbExp (pbArrive w n) = pbExp w ∧ pbArr (pbArrive w n) = 0 ∧
      pbPh (pbArrive w n) = !pbPh w) ∧
    (0 < n → pbArr w + n < pbExp w → pbExp (pbArrive w n) = pbExp w ∧ pbArr (pbArrive w n) = pbArr w + n ∧
      pbPh (pbArrive w n) = pbPh w)

/-- R229: PBARI, PBARA and PBARW of the group's barriers, in every path: false guard, n above 65,535, and the effect; PBARW
waits in EVENT-WAIT exactly while PH equals ph. -/
def Claims.PhaseBarrierInstructions : Prop :=
  ∀ (h : Hdr) (x : FA),
    let b (f : Frame) (s : State) : Nat := (({ s := s, f := f, lane := none } : Rd).w32 x.a).toNat % 32
    let n (f : Frame) (s : State) : Nat := (({ s := s, f := f, lane := none } : Rd).w32 x.b).toNat
    Does (.pbari h x) (fun f s =>
      if !f.guardU h s.cycle then s.advance f (.pbari h x)
      else if 65535 < n f s then s.trapAll f 8 0x02 0
      else (s.updGroup f.g.gid (fun g => g.setPbar s.stc (b f s) (pbInit (g.pbar (b f s)) (n f s)))).advance f (.pbari h x)) ∧
    Does (.pbara h x) (fun f s =>
      if !f.guardU h s.cycle then s.advance f (.pbara h x)
      else if 65535 < n f s then s.trapAll f 8 0x02 0
      else ((s.updGroup f.g.gid (fun g => g.setPbar s.stc (b f s) (pbArrive (g.pbar (b f s)) (n f s)))).retire f (.pbara h x)
        (({ s := s, f := f, lane := none } : Rd).put x.d (if pbPh (f.g.pbar (b f s)) then 1 else 0))).advance f
          (.pbara h x)) ∧
    Does (.pbarw h x) (fun f s =>
      let s1 := s.advance f (.pbarw h x)
      if f.guardU h s.cycle && pbPh (f.g.pbar (b f s)) == (({ s := s, f := f, lane := none } : Rd).w32 x.b).getLsbD 0 then
        s1.updT f (fun t => { t with st := .eventWait (.pbarw (b f s)
          ((({ s := s, f := f, lane := none } : Rd).w32 x.b).getLsbD 0)) })
      else s1)

/-- R227, R228, R233, R293: a change of a barrier at an STC value holds the new word, and every tiller and the stream of the group
see it: it ends the PBARWs that its phase satisfies and no other, and the stream's MWAIT; it latches those conditions of WAITV whose
deadline has not passed, whatever comes to the barrier after. -/
def Claims.BarrierChangesEndWaits : Prop :=
  ∀ (g : Group) (stc b : Nat) (w : DWord), cellsWf g.pbars = true →
    let sees (t : Tiller) : Tiller := Tiller.sees stc b (pbPh w) t
    (g.setPbar stc b w).pbar b = w ∧ (∀ k, k ≠ b → (g.setPbar stc b w).pbar k = g.pbar k) ∧
    (g.setPbar stc b w).sheaves = g.sheaves.map (fun x => { x with tillers := x.tillers.map sees }) ∧
    (∀ c ph met, g.stream.mwait = some (c, ph, met) →
      (g.setPbar stc b w).stream.mwait = some (c, ph, met || (c == b && pbPh w != ph))) ∧
    ∀ t : Tiller,
      (∀ ph, t.st = .eventWait (.pbarw b ph) → (sees t).st = if pbPh w = ph then t.st else .ready) ∧
      (∀ c ph, c ≠ b → t.st = .eventWait (.pbarw c ph) → sees t = t) ∧
      (∀ v : WaitSt, t.st = .eventWait (.waitv v) → ∃ v2 : WaitSt, (sees t).st = .eventWait (.waitv v2) ∧
        v2.conds = v.conds ∧ ∀ i c, i < 4 → v.conds[i]? = some c → v2.latched.getLsbD i = (v.latched.getLsbD i ||
          (c.kind == 2 && c.w1.toNat % 32 == b && pbPh w != c.w3.getLsbD 0 && (v.noLimit || decide (stc ≤ v.dlv)))))

/-- R227, R228, R229: the barrier word's arithmetic, the three instructions on it, and the waits that a change ends. -/
def Obligations.PhaseBarriers : Prop :=
  Claims.BarrierWordArithmetic ∧ Claims.PhaseBarrierInstructions ∧ Claims.BarrierChangesEndWaits

/-- R230 to R233: WAITV with reserved control values raises Illegal Operand; with conditions that read no memory it is
released at once, with its result word, when enough of them hold, and waits in EVENT-WAIT when they do not and its
deadline has not come. -/
def Claims.WaitvEvaluatesItsConditions : Prop :=
  ∀ (s : State) (f : Frame) (h : Hdr) (x : FA), Issues s f (.waitv h x) →
    let r : Rd := { s := s, f := f, lane := none }
    let cs := waitConds r x
    let t := (r.w64 x.b).toNat
    let holds (c : Cond) : Bool :=
      if c.kind = 1 then f.sh.batches.all (fun e => !(covers (c.w1.setWidth 16) e.num && e.st == .running))
      else if c.kind = 2 then pbPh (f.g.pbar (c.w1.toNat % 32)) != c.w3.getLsbD 0
      else decide ((c.w2 ++ c.w1).toNat ≤ s.stc)
    let latched : BitVec 4 := BitVec.ofNat 4 (((List.range cs.length).filter (fun i =>
      ((cs[i]?).map holds).getD false)).map (fun i => 2 ^ i)).sum
    let enough := if x.fn.getLsbD 2 then cs.all holds else cs.any holds
    let w : WaitSt := { h := h, x := x, conds := cs, latched := latched, dlv := min (s.stc + t) (2 ^ 64 - 1),
                        noLimit := t == 2 ^ 64 - 1, sw := false, tag := none, ons := [] }
    (f.guardU h s.cycle = false → exec (.waitv h x) s = .next (s.advance f (.waitv h x))) ∧
    (f.guardU h s.cycle = true → (∀ c ∈ cs, Cond.reserved c = false) →
      exec (.waitv h x) s = .next (s.runWait f { w with latched := 0 })) ∧
    (f.guardU h s.cycle = true → (∃ c ∈ cs, Cond.reserved c = true) →
      exec (.waitv h x) s = .next (s.trapAll f 8 0x02 0)) ∧
    (s.stc < 2 ^ 64 → f.guardU h s.cycle = true → (∀ c ∈ cs, Cond.reserved c = false ∧ 1 ≤ Cond.kind c) →
      exec (.waitv h x) s = .next (
        if enough then s.endWait f w false
        else if !w.noLimit && decide (w.dlv ≤ s.stc) then s.endWait f w true
        else (s.setPend (.thread f.g.gid f.sh.idx none) f.t.idx false []).updT f (fun t =>
          { t with st := .eventWait (.waitv w) }))) ∧
    (w.result false).toNat = latched.toNat ∧ (w.result true).toNat = latched.toNat + 16

/-- R228, R232, R233, R234: the conditions of a waiting tiller are evaluated again, and when its deadline has come, a latch
winning in that tick; past it only what held by then counts. A wait that a barrier has satisfied is released; a group that is
being restored is left as it is. -/
def Claims.WaitsAreEvaluatedAgain : Prop :=
  ∀ (s : State) (gid sh ti : Nat) (f : Frame) (w : WaitSt), s.frameOf gid sh ti = some f →
    f.t.st = .eventWait (.waitv w) → w.tag = none →
    (f.g.st ≠ .reclaim → exec (.waitvReevaluate gid sh ti) s = .next (s.runWait f w) ∧
      (w.released = true → exec (.waitvTimeout gid sh ti) s = .next (s.endWait f w false)) ∧
      (w.released = false → w.noLimit = false → w.dlv ≤ s.stc →
        exec (.waitvTimeout gid sh ti) s = .next (s.runWait f w))) ∧
    (f.g.st = .reclaim → exec (.waitvReevaluate gid sh ti) s = .next s ∧ exec (.waitvTimeout gid sh ti) s = .next s) ∧
    (w.noLimit = true ∨ s.stc ≤ w.dlv → ∀ w1 s1, s.evalConds f w = (none, w1, s1) →
      s.runWait f w =
        if w1.released then s1.endWait f w1 false
        else if !w1.noLimit && decide (w1.dlv ≤ s1.stc) then s1.endWait f w1 true
        else (s1.setPend (.thread f.g.gid f.sh.idx none) f.t.idx false w1.ons).updT f (fun t =>
          { t with st := .eventWait (.waitv w1) })) ∧
    (w.noLimit = false → w.dlv < s.stc →
      let by_ := w.latch (fun c => c.kind == 3 && decide ((c.w2 ++ c.w1).toNat ≤ w.dlv))
      s.runWait f w = s.endWait f by_ (!by_.released))

/-- R231, R232, R428: a condition of KIND 0 reads a 32-bit word by a volatile load and compares it with v; when it holds it
latches, after which comes an acquire, and when it does not it stays as it was. A read that traps ends the wait with that trap, and
one that faults leaves the tiller waiting for the verdict on its record. -/
def Claims.WaitvReadsMemory : Prop :=
  ∀ (s s1 : State) (f : Frame) (w : WaitSt) (c : Cond), w.conds = [c] → w.latched = 0 → c.kind = 0 →
    let m := condForm c
    let addr : DWord := if c.spc = 0 then c.w2 ++ c.w1 else c.w1.setWidth 64
    let p : Port := { g := f.g, sh := f.sh, lane := none, helper := f.t.mask &&& ~~~f.sh.helpers == 0 }
    let read := s.memLane p m { a := addr, b := 0, c := 0 }
    (m.kind = 0 ∧ m.sz = 2 ∧ m.ord = 4 ∧ m.spc = c.spc ∧ m.off = 0) ∧
    (∀ a : Word, read = (.done [a.toNat], s1) →
      let holds : Bool := [a == c.w3, a != c.w3,
        if c.sgn then decide (c.w3.toInt ≤ a.toInt) else decide (c.w3.toNat ≤ a.toNat),
        if c.sgn then decide (a.toInt < c.w3.toInt) else decide (a.toNat < c.w3.toNat)].getD c.cmp false
      s.evalConds f w = (none, { w with ons := [], latched := if holds then 1 else 0 },
        if holds then s1.acquire f.g.core else s1)) ∧
    (∀ k, read = (.park k, s1) → s.evalWait f w = s1.trapAll f 8 k 0) ∧
    (∀ va r, read = (.record va r, s1) → ∃ tag s2,
      s1.postFault (.read f.g.gid f.sh.idx f.t.idx none) va f.g.ctx f.g.core f.sh.qs 0 r = (tag, s2) ∧
      s.evalWait f w = s2.updT f (fun t => { t with st := .eventWait (.waitv { w with ons := [], tag := some tag }) })) ∧
    (∀ on, read = (.wait on, s1) → s.evalConds f w = (none, { w with ons := on.toList }, s1))

/-- R230 to R234, R428: WAITV, its reads of memory, and the events that evaluate a wait again. -/
def Obligations.WaitvConditions : Prop :=
  Claims.WaitvEvaluatesItsConditions ∧ Claims.WaitsAreEvaluatedAgain ∧ Claims.WaitvReadsMemory

/-- R45, R92, R235: YIELD blocks its tiller for its count of cycles and its stall count, whichever is longer, and when
either has run out the tiller is READY again. -/
def Claims.YieldsAndStallsEnd : Prop :=
  (∀ (h : Hdr) (x : FA), Does (.yield h x) (fun f s =>
    let n := min (({ s := s, f := f, lane := none } : Rd).w32 x.a).toNat 65535
    let s1 := s.advance f (.yield h x)
    if !f.guardU h s.cycle then s1
    else s1.updT f (fun t =>
      { t with age := 0, st := if n = 0 then t.st else .blocked (.yield (s.cycle + 1 + max n h.st.toNat)) }))) ∧
  (∀ (s : State) (gid sh ti u : Nat) (f : Frame), s.frameOf gid sh ti = some f → u ≤ s.cycle →
    (f.t.st = .blocked (.yield u) → ∃ t g, exec (.yieldEnd gid sh ti) s = .next t ∧ t.frameOf gid sh ti = some g ∧
      g.t = { f.t with st := .ready, age := 0 }) ∧
    (f.t.st = .blocked (.stall u) → ∃ t g, exec (.stallCountExpiry gid sh ti) s = .next t ∧
      t.frameOf gid sh ti = some g ∧ g.t = { f.t with st := .ready, age := 0 }))

/-- R236: STAMP gives the STC at issue and hands it to the tile's record. -/
def Claims.StampsReadTheClock : Prop :=
  ∀ (h : Hdr) (x : FA),
    let sets (i : Instr) (cie : Bool) : Prop := Does i (fun f s =>
      let r : Rd := { s := s, f := f, lane := none }
      if f.guardU h s.cycle then
        ((s.updGroup f.g.gid (fun g => g.stamp ((r.w32 x.a).toNat % 4) cie s.stc)).retire f i
          (r.put64 x.d (BitVec.ofNat 64 s.stc))).advance f i
      else s.advance f i)
    sets (.stampCis h x) false ∧ sets (.stampCie h x) true

/-- R45, R92, R235, R236: YIELD, the ends of yields and stall counts, and STAMP. -/
def Obligations.YieldsStallsAndStamps : Prop := Claims.YieldsAndStallsEnd ∧ Claims.StampsReadTheClock

/-! ## Control flow (R31 to R42, R241 to R250) -/

/-- R34, R35, R48, R241: BRA and CALL: the whole tiller goes on or branches, or the smaller side becomes a new tiller; a
taken lane of CALL receives its link, but not in a CALL that traps for want of room for its token (log 103). -/
def Claims.BranchesAndCalls : Prop :=
  ∀ (i : Instr) (h : Hdr) (x : FB), i = .bra h x ∨ i = .call h x → ∀ (s : State) (f : Frame), Issues s f i →
    let target := f.t.pc + x.off.signExtend 64 * 8
    let next := f.t.pc + 8
    let goes (s : State) (pc : DWord) : State := s.updT f (fun t => { (t.advance s.cycle i) with pc := pc })
    let link (r : Rd) : List RegWrite := if i = .call h x then r.put64 (linkOpd h.u x.fn4) next else []
    let taken := f.active h s.cycle
    let rest := f.t.mask &&& ~~~taken
    let s1 := s.retire f i ((readers f h s).flatMap link)
    (h.u = true → exec i s = .next (if f.guardU h s.cycle then goes s1 target else goes s next)) ∧
    (h.u = false → rest = 0 → exec i s = .next (goes s1 target)) ∧
    (h.u = false → rest ≠ 0 → taken = 0 → exec i s = .next (goes s1 next)) ∧
    (h.u = false → rest ≠ 0 → taken ≠ 0 →
      (64 < (pushTok f.t.stack x.tok).length → exec i s = .next (s.trapAll f 8 0x08 (x.tok.setWidth 24))) ∧
      ((pushTok f.t.stack x.tok).length ≤ 64 → exec i s = .next (
        if lanesCount rest < lanesCount taken then s1.split f i (taken, target) [(rest, next)] x.tok
        else s1.split f i (rest, next) [(taken, target)] x.tok)))

/-- R242, R243: BRX and RET of a whole tiller to one target: it goes there; a target that is not a multiple of 8 or has a
bit above 54 set traps its lanes. -/
def Claims.IndirectBranches : Prop :=
  ∀ (i : Instr) (h : Hdr) (x : FA), i = .brx h x ∨ i = .ret h x → ∀ (s : State) (f : Frame), Issues s f i →
    ∀ v : DWord, readers f h s ≠ [] → (h.u = true ∨ f.active h s.cycle = f.t.mask) →
    (∀ r ∈ readers f h s, r.w64 x.a = v) → f.t.mask ≠ 0 →
    (v.extractLsb' 0 3 = 0 → v.extractLsb' 55 9 = 0 →
      exec i s = .next (s.updT f (fun t => { (t.advance s.cycle i) with pc := v }))) ∧
    (v.extractLsb' 0 3 ≠ 0 → exec i s = .next (s.park f (f.t.mask.lanes.map (f.trapAt 8 0x04 0)))) ∧
    (v.extractLsb' 0 3 = 0 → v.extractLsb' 55 9 ≠ 0 →
      exec i s = .next (s.park f (f.t.mask.lanes.map (f.trapAt 8 0x05 3))))

/-- R48, R243: BRX and RET of lanes with several good targets: the lanes whose guard is false go on at the next instruction, the
largest group stays in the tiller's entry, of equal ones that of the lowest target, and the others leave it in ascending order of
their targets; too deep a stack traps them as a split's does. -/
def Claims.IndirectBranchesDivide : Prop :=
  ∀ (i : Instr) (h : Hdr) (x : FA), i = .brx h x ∨ i = .ret h x → ∀ (s : State) (f : Frame), Issues s f i → h.u = false →
    let at_ (l : Nat) : DWord := if (f.active h s.cycle).getLsbD l then ({ s := s, f := f, lane := some l } : Rd).w64 x.a
      else f.t.pc + 8
    (∀ l, l < 64 → (f.active h s.cycle).getLsbD l = true → (at_ l).extractLsb' 0 3 = 0 ∧ (at_ l).extractLsb' 55 9 = 0) →
    ∃ groups : List (DWord × Mask),
      groups.Pairwise (fun a b => a.1.toNat < b.1.toNat) ∧
      (∀ e ∈ groups, e.2 ≠ 0 ∧ ∀ l, l < 64 → e.2.getLsbD l = (f.t.mask.getLsbD l && at_ l == e.1)) ∧
      (∀ l, l < 64 → f.t.mask.getLsbD l = true → ∃ e ∈ groups, e.1 = at_ l) ∧
      ∀ stay ∈ groups, 1 < groups.length →
        (∀ e ∈ groups, lanesCount e.2 ≤ lanesCount stay.2 ∧
          (lanesCount e.2 = lanesCount stay.2 → stay.1.toNat ≤ e.1.toNat)) →
        exec i s = .next (s.split f i (stay.2, stay.1)
          ((groups.filter (fun e => e.1 != stay.1)).map (fun e => (e.2, e.1))) x.fn)

/-- R34, R35, R48, R241, R242, R243: BRA, CALL, BRX and RET. -/
def Obligations.Branches : Prop :=
  Claims.BranchesAndCalls ∧ Claims.IndirectBranches ∧ Claims.IndirectBranchesDivide

/-- R34, R35, R48: a split keeps every lane: the lanes of the entry and of the new tillers are those that the tiller had,
in tillers of its FMT with the token on top of the stack, and the token's record expects them. -/
def Obligations.SplitsKeepEveryLane : Prop :=
  ∀ (s : State) (f : Frame) (i : Instr) (h : Hdr) (a b : Mask) (pa pb : DWord) (tok : BitVec 8),
    i.hdr = some h → s.frame? = some f → a ||| b = f.t.mask → a &&& b = 0 → a ≠ 0 → b ≠ 0 →
    (pushTok f.t.stack tok).length ≤ 64 → f.sh.tillers.length < 64 →
    ((f.sh.tillers.map Tiller.idx).Nodup) → (f.sh.tillers.all (fun t => decide (t.idx < 64))) = true →
    ∃ g y u v n r, (s.split f i (a, pa) [(b, pb)] tok).group? f.g.gid = some g ∧ g.sheaf? f.sh.idx = some y ∧
      y.tiller? f.t.idx = some u ∧ y.tiller? n = some v ∧ f.sh.tiller? n = none ∧
      (∀ k, k < n → f.sh.tiller? k ≠ none) ∧
      u.mask = a ∧ u.pc = pa ∧ v.mask = b ∧ v.pc = pb ∧ u.fmt = f.t.fmt ∧ v.fmt = f.t.fmt ∧
      u.stack = pushTok f.t.stack tok ∧ v.stack = u.stack ∧
      y.join? tok = some r ∧ r.exp = ((f.sh.join? tok).map JoinRec.exp).getD 0 ||| f.t.mask

/-- R36, R37, R244: JOIN and JOINT: without a valid record the tiller pops the token, and those above it (log 119), and goes on;
with one it arrives, and what that completes is released, but not while an arrived lane is parked (log 121). -/
def Obligations.JoinsArriveAndRelease : Prop :=
  (∀ (i : Instr) (h : Hdr) (x : FB), i = .join h x ∨ i = .joint h x → ∀ (s : State) (f : Frame), Issues s f i →
    (f.sh.join? x.tok = none →
      exec i s = .next ((s.advance f i).updT f (fun t => { t with stack := popTo t.stack x.tok }))) ∧
    (f.sh.join? x.tok ≠ none →
      exec i s = .next (((s.advance f i).updS f (fun y => (y.arrive f.t.idx x.tok
        (if i = .joint h x then some x.fn4.toNat else none)
        (if i = .joint h x then some (s.stc + x.off.toNat) else none)).tryRelease x.tok)).checkStuck f.g.gid f.sh.idx
          (some x.tok)))) ∧
  (∀ (s : State) (gid sh tok : Nat) (x y : Sheaf), s.sheaf? gid sh = some x →
    x.joinTimeout (BitVec.ofNat 8 tok) s.stc = some y →
    exec (.jointTimeout gid sh tok) s = .next ((s.updSheaf gid sh (fun _ => y)).checkStuck gid sh none)) ∧
  (∀ (x : Sheaf) (tok : BitVec 8) (r : JoinRec), x.join? tok = some r → r.exp &&& ~~~r.arr &&& ~~~x.exited = 0 →
    x.away r = false → (∃ t ∈ x.tillers, t.waitsAt tok = true) → (x.tryRelease tok).join? tok = none ∧
      ∀ t ∈ (x.tryRelease tok).tillers, t.waitsAt tok = false)

/-- R41, R248: a lane that has arrived and not been released makes its tiller try again; else BAR and BARA put the tiller's
lanes into ARRIVED, BAR and BARW wait, and a generation in which every thread has arrived or exited completes. -/
def Obligations.BarriersCollectEveryThread : Prop :=
  (∀ (i : Instr) (h : Hdr) (x : FA), i = .bar h x ∨ i = .bara h x ∨ i = .barw h x → ∀ (s : State) (f : Frame),
    Issues s f i →
    let b := (({ s := s, f := f, lane := none } : Rd).w32 x.a).toNat % 16
    let here := (f.g.bar b).of f.sh.idx
    let again := here &&& f.t.mask ≠ 0
    (i ≠ .barw h x → again → exec i s = .next (s.updT f (fun t => { t with st := .blocked .room }))) ∧
    (i = .bara h x → ¬ again → exec i s = .next
      ((((s.advance f i).updGroup f.g.gid (fun g => g.setBar ((g.bar b).set f.sh.idx (here ||| f.t.mask)))).updGroup f.g.gid
        (fun g => g.tryBar b)).checkStuck f.g.gid f.sh.idx none)) ∧
    (i = .bar h x → ¬ again → exec i s = .next
      (((((s.advance f i).updGroup f.g.gid (fun g => g.setBar ((g.bar b).set f.sh.idx (here ||| f.t.mask)))).updS f
        (fun y => y.barWait f.t.idx b s.cycle)).updGroup f.g.gid (fun g => g.tryBar b)).checkStuck f.g.gid f.sh.idx none)) ∧
    (i = .barw h x → exec i s = .next
      (((if again then (s.advance f i).updS f (fun y => y.barWait f.t.idx b s.cycle) else s.advance f i).updGroup f.g.gid
        (fun g => g.tryBar b)).checkStuck f.g.gid f.sh.idx none))) ∧
  (∀ (g : Group) (b : Nat), (g.bar b).arrived ≠ [] →
    (∀ x ∈ g.sheaves, (g.bar b).of x.idx ||| x.exited = Mask.full) →
    ((g.tryBar b).bar b).arrived = [] ∧ ((g.tryBar b).bar b).gen = (g.bar b).gen + 1 ∧
      ∀ x ∈ (g.tryBar b).sheaves, ∀ t ∈ x.tillers, t.st ≠ .barWait b)

/-- R31, R38, R41, R245: EXIT and EXIT.H complete wherever a group of a user issues them. EXIT.H makes a lane a helper while
another lane of its quad is neither exited nor a helper; every other executing lane exits, and with the last lane of a quad
that is no helper the quad's helpers. What has exited is in no tiller, join record or parked lane; a full sheaf has ended; no
record and no barrier that this makes releasable is left. Lanes of one quad are taken in ascending order (the model's choice,
log 123), and a record one of whose arrived lanes is parked is not releasable (log 121). -/
def Claims.ExitsComplete : Prop :=
  ∀ (i : Instr) (h : Hdr) (x : FA), i = .exit h x ∨ i = .exitH h x → ∀ (s : State) (f : Frame), Issues s f i →
    f.g.kind ≠ .handler → f.sh.ended = false → (f.sh.joins.map JoinRec.tok).Nodup →
    let act (l : Nat) : Prop := (f.active h s.cycle).getLsbD l = true
    let exited (l : Nat) : Prop := f.sh.exited.getLsbD l = true
    let helper (l : Nat) : Prop := f.sh.helpers.getLsbD l = true
    let helps (l : Nat) : Prop := i = .exitH h x ∧ act l ∧
      ∃ k, k / 4 = l / 4 ∧ k ≠ l ∧ ¬ exited k ∧ ¬ helper k ∧ ¬ (act k ∧ k < l)
    let leaves (l : Nat) : Prop := act l ∧ ¬ helps l
    let last (l : Nat) : Prop := (∃ k, k / 4 = l / 4 ∧ leaves k ∧ ¬ exited k) ∧
      ∀ k, k / 4 = l / 4 → exited k ∨ leaves k ∨ helper k ∨ helps k
    ∃ t g y, exec i s = .next t ∧ t.group? f.g.gid = some g ∧ g.sheaf? f.sh.idx = some y ∧
      (∀ l, l < 64 → (y.helpers.getLsbD l = true ↔ helper l ∨ helps l)) ∧
      (∀ l, l < 64 → (y.exited.getLsbD l = true ↔ exited l ∨ leaves l ∨ last l)) ∧
      (i = .exit h x ∨ (∃ l, leaves l) →
        (∀ l, l < 64 → y.exited.getLsbD l = true → ¬ exited l →
          (∀ u ∈ y.tillers, u.mask.getLsbD l = false) ∧ (∀ p ∈ y.parked, p.lane ≠ l) ∧
          ∀ r ∈ y.joins, r.exp.getLsbD l = false ∧ r.arr.getLsbD l = false) ∧
        (y.exited = Mask.full → y.ended = true ∧ y.tillers = [] ∧ y.joins = []) ∧
        (∀ r ∈ y.joins, r.exp &&& ~~~r.arr &&& ~~~y.exited ≠ 0 ∨ y.away r = true ∨
          ((∀ u ∈ y.tillers, u.waitsAt r.tok = false) ∧ r.exp &&& ~~~y.exited ≠ 0)) ∧
        ∀ b, b < 16 → (g.bar b).arrived = [] ∨ ∃ w ∈ g.sheaves, (g.bar b).of w.idx ||| w.exited ≠ Mask.full)

/-- R31, R38, R245: EXIT and EXIT.H: the active lanes leave the sheaf, those that become helpers stay; a lane that has
exited is in no tiller and in no join record. -/
def Claims.ExitsRemoveTheirLanes : Prop :=
  (∀ (h : Hdr) (x : FA), Does (.exit h x) (fun f s =>
    (s.advance f (.exit h x)).exitLanes f.g.gid f.sh.idx (f.active h s.cycle))) ∧
  (∀ (h : Hdr) (x : FA), Does (.exitH h x) (fun f s =>
    let act := f.active h s.cycle
    let hs := f.sh.newHelpers act
    let s1 := (s.advance f (.exitH h x)).updS f (fun y => { y with helpers := y.helpers ||| hs })
    if act &&& ~~~hs = 0 then s1 else s1.exitLanes f.g.gid f.sh.idx (act &&& ~~~hs))) ∧
  (∀ (x : Sheaf) (m : Mask), (x.removeLanes m).exited = x.exited ||| m ∧
    (∀ t ∈ (x.removeLanes m).tillers, t.mask &&& m = 0) ∧
    (∀ r ∈ (x.removeLanes m).joins, r.exp &&& m = 0 ∧ r.arr &&& m = 0) ∧
    ∀ p ∈ (x.removeLanes m).parked, m.getLsbD p.lane = false)

/-- R31, R38, R41, R245: EXIT and EXIT.H. -/
def Obligations.ExitedLanesAreGone : Prop := Claims.ExitsComplete ∧ Claims.ExitsRemoveTheirLanes

/-- R249: TRAP and BKPT park each active lane whose guard is true, after earlier results have been written, with their own
cause and the immediate as payload. -/
def Claims.TrapAndBreakpoint : Prop :=
  ∀ (i : Instr) (h : Hdr) (x : FI) (n : BitVec 24), x.imm = .short n → i = .trap h x ∨ i = .bkpt h x →
    ∀ (s : State) (f : Frame), Issues s f i →
      let lanes := if h.u then (if f.guardU h s.cycle then f.t.mask.lanes else []) else (f.active h s.cycle).lanes
      exec i s = .next ((((s.updS f Sheaf.deliverAll).park f
        (lanes.map (f.trapAt 8 (if i = .trap h x then 0x0B else 0x0C) n)))).moveOn f i)

/-- R250, R391, R392: BBC counts in the context's counter when its guard is true, the context has an array and the index
lies in it; it changes nothing of its sheaf but its tiller's PC. -/
def Claims.BlockCounters : Prop :=
  ∀ (h : Hdr) (x : FI) (n : BitVec 24), x.imm = .short n → Does (.bbc h x) (fun f s =>
    let d := s.die (dieOf f.g.core)
    let counts := f.g.ctx ≠ 63 ∧ cget d.bbcb f.g.ctx ≠ 0 ∧ n.toNat < (cget d.bbcn f.g.ctx).toNat
    let noted := if f.g.ctx < 32 ∧ (s.core f.g.core).glnCtxm.getLsbD f.g.ctx = true then
      s.updCore f.g.core (fun c => c.glnNote s.cycle false n.toNat) else s
    if f.guardU h s.cycle then
      (if counts then noted.bbcCount f.g.core f.g.ctx n.toNat else noted).advance f (.bbc h x)
    else s.advance f (.bbc h x))

/-- R249, R250: TRAP, BKPT and BBC. -/
def Obligations.TrapBreakpointAndCounters : Prop := Claims.TrapAndBreakpoint ∧ Claims.BlockCounters

/-! ## Traps and the return from them (R43, R50, R126, R364 to R369, R373, R374) -/

/-- R43, R93, R364, R366: a trap of every active lane of a user's tiller: the lanes leave the mask and park with cause,
payload, PC and resume point, FMT and stack; registers keep their values, and the core's trap unit opens a batch with an
entry for each lane in ascending order. -/
def Claims.TrapsParkTheirLanes : Prop :=
  ∀ (s : State) (f : Frame) (x : Sheaf) (size : Nat) (cause : BitVec 8) (payload : BitVec 24),
    s.frame? = some f → s.sheaf? f.g.gid f.sh.idx = some x → f.g.kind ≠ .handler → f.t.mask ≠ 0 →
    (∀ b ∈ (s.core f.g.core).batches, b.ctx = f.g.ctx → b.closed ≠ none) →
    ∃ g y u b, (s.trapAll f size cause payload).group? f.g.gid = some g ∧ g.sheaf? f.sh.idx = some y ∧
      y.tiller? f.t.idx = some u ∧ u.mask = 0 ∧ u.st = .parked ∧ u.prods = [] ∧ (∀ k, y.read k = x.read k) ∧
      y.parked = f.sh.parked ++ f.t.mask.lanes.map (fun l =>
        { lane := l, ti := f.t.idx, cause := cause, payload := payload, pc := f.t.pc, resume := f.t.pc,
          skipTo := f.t.pc + BitVec.ofNat 64 size, fmt := f.t.fmt, stack := f.t.stack, log := none, back := .none, since := f.t.since }) ∧
      ((s.trapAll f size cause payload).core f.g.core).batches = (s.core f.g.core).batches ++ [b] ∧ b.ctx = f.g.ctx ∧
      b.opened = s.cycle ∧ b.closed = (if f.t.mask.lanes.length = 64 then some s.cycle else none) ∧
      b.entries.map Entry.lane = f.t.mask.lanes ∧
      ∀ e ∈ b.entries, e.cause = payload ++ cause ∧ e.pc = f.t.pc ∧ e.resume = f.t.pc ∧ e.empty = false ∧
        e.gid = f.g.gid ∧ e.sh = f.sh.idx ∧ e.resumed = false

/-- R368: any trap in a handler sheaf is a double fault: the sheaf stops, and the context is reported with cause 0x0D and
the handler's cause. -/
def Claims.TrapsInHandlersAreDoubleFaults : Prop :=
  ∀ (s : State) (f : Frame) (size : Nat) (cause : BitVec 8) (payload : BitVec 24),
    s.frame? = some f → f.g.kind = .handler →
    ∃ u : State, s.trapAll f size cause payload =
        u.report 7 f.g.ctx (dieOf f.g.core) (coreOf f.g.core) 0 (0x0D + 256 * cause.toNat) ∧
      u.plat = s.plat ∧ u.mem = s.mem ∧ ∃ g, u.group? f.g.gid = some g ∧ ∀ x ∈ g.sheaves, x.tillers = []

/-- R43, R364, R366, R368: what a trap does in a user's sheaf and in a handler's. -/
def Obligations.TrapEntry : Prop := Claims.TrapsParkTheirLanes ∧ Claims.TrapsInHandlersAreDoubleFaults

/-- R369, R373: RFT resumes the origin lane of each active handler thread's entry, once, and the handler thread goes on; when all
of them are back, their sheaves are looked at for a deadlock (R40, R42). A lane that parked without log or wait resumes at its resume point, or with .SKIP after its trapping instruction. -/
def Obligations.ReturnFromATrap : Prop :=
  (∀ (i : Instr) (h : Hdr) (x : FA), i = .rft h x ∨ i = .rftSkip h x → ∀ (s : State) (f : Frame), Issues s f i →
    let act := f.active h s.cycle
    let mine := (f.g.entries.zipIdx.filter (fun e => act.getLsbD e.2 && !e.1.resumed)).map Prod.fst
    let s1 := s.updGroup f.g.gid (fun g =>
      { g with entries := g.entries.zipIdx.map (fun e => if act.getLsbD e.2 then { e.1 with resumed := true } else e.1) })
    exec i s = .next ((((mine.filter (fun e => !e.empty)).foldl
      (fun acc e => acc.1.resume e (decide (i = .rftSkip h x)) acc.2) (s1, ([] : Formed))).1.checkAll
        (mine.map (fun e => (e.gid, e.sh)))).advance f i)) ∧
  (∀ (s : State) (e : Entry) (skip : Bool) (g : Group) (x : Sheaf) (p : Parked) (u : Tiller),
    s.group? e.gid = some g → g.sheaf? e.sh = some x → x.parked? e.lane = some p → p.log = none → p.back = .none →
    e.lane < 64 → x.tiller? p.ti = some u → u.mask = 0 → u.st = .parked → u.todo = none → u.queued = none →
    u.fmt = p.fmt → u.stack = p.stack →
    (x.tillers.map Tiller.idx).Nodup →
    u.pc = (if skip && p.resume == p.pc then p.skipTo else p.resume) →
    ∃ g y v, (s.resume e skip []).1.group? e.gid = some g ∧ g.sheaf? e.sh = some y ∧ y.tiller? p.ti = some v ∧
      v.pc = u.pc ∧ v.mask = Mask.ofLanes [e.lane] ∧ v.st = .ready ∧ y.parked? e.lane = none)

/-- R374: XRD reads, and XWR writes, a register of the origin lane of the entry; a vector register beyond its budget raises
Illegal Operand. -/
def Claims.OriginRegisters : Prop :=
  (∀ (h : Hdr) (x : FA) (s : State) (f : Frame), Issues s f (.xrd h x) →
    (∀ r ∈ readers f h s, ∃ e v, f.g.entries[r.thr]? = some e ∧ s.xread e x.a (x.fn.getLsbD 0) = some v) →
    exec (.xrd h x) s = .next ((s.retire f (.xrd h x) ((readers f h s).flatMap (fun r =>
      let v := ((f.g.entries[r.thr]?).bind (fun e => s.xread e x.a (x.fn.getLsbD 0))).getD 0
      if x.fn.getLsbD 0 then r.put64 x.d v else r.put x.d (v.setWidth 32)))).advance f (.xrd h x))) ∧
  (∀ (s : State) (e : Entry) (n : Fin 256) (y : Sheaf), s.sheaf? e.gid e.sh = some y → e.empty = false →
    s.xread e (.v n) false = (if y.budget ≤ n.val then none else some ((y.read (.v n.val e.lane)).setWidth 64))) ∧
  (∀ (h : Hdr) (x : FA) (s : State) (f : Frame), Issues s f (.xwr h x) →
    let r := (readers f h s).foldl (fun (acc : State × List Nat) r =>
      match f.g.entries[r.thr]? with
      | none => acc
      | some e =>
        match acc.1.xwrite f.g.gid r.thr e x.a (x.fn.getLsbD 0)
            (if x.fn.getLsbD 0 then r.w64 x.b else (r.w32 x.b).setWidth 64) with
        | some s => (s, acc.2)
        | none => (acc.1, acc.2 ++ [r.thr])) (s, [])
    (r.2 = [] → exec (.xwr h x) s = .next (r.1.advance f (.xwr h x))) ∧
    (r.2 ≠ [] → exec (.xwr h x) s = .next (r.1.park f (r.2.map (f.trapAt 8 0x02 0))))) ∧
  (∀ (s : State) (gid t : Nat) (e : Entry) (n : Fin 256) (y : Sheaf) (v : DWord), s.sheaf? e.gid e.sh = some y →
    e.empty = false → n.val < y.budget → ∃ t', s.xwrite gid t e (.v n) false v = some t' ∧
      t' = s.updSheaf e.gid e.sh (fun x => x.write [{ key := .v n.val e.lane, val := v.setWidth 32 }])) ∧
  (∀ (h : Hdr) (x : FA) (s : State) (f : Frame), Issues s f (.xrd h x) →
    let bad := (readers f h s).filter (fun r => !((f.g.entries[r.thr]?).bind (fun e => s.xread e x.a (x.fn.getLsbD 0))).isSome)
    bad ≠ [] → exec (.xrd h x) s = .next (s.park f (bad.map (fun r => f.trapAt 8 0x02 0 r.thr)))) ∧
  (∀ (s : State) (gid t : Nat) (e : Entry) (n : Fin 256) (y : Sheaf) (wide : Bool) (v : DWord),
    s.sheaf? e.gid e.sh = some y → e.empty = false → y.budget ≤ n.val + (if wide then 1 else 0) →
    s.xread e (.v n) wide = none ∧ s.xwrite gid t e (.v n) wide v = none)

/-- R374: the other selectors of XRD and XWR, for an entry that is not EMPTY: scalars and pairs of them, predicates, the FMT that
the lane takes at resume, the trapping PC, the resume point (of a lane that goes back to its wait: log 147), and a source of its
operand-log entry, which reads 0 when LOG is clear. A forbidden FMT or resume point, and a logged source in another size than its own
(log 160), raise Illegal Operand. An EMPTY entry's thread selectors read 0, and writes of them do nothing. -/
def Claims.OriginSelectors : Prop :=
  ∀ (s : State) (gid t : Nat) (e : Entry) (x : Sheaf) (p : Parked) (v : DWord), s.sheaf? e.gid e.sh = some x →
    x.parked? e.lane = some p →
    let rd (o : Opd) (wide : Bool) : Option DWord := s.xread e o wide
    let wr (o : Opd) (wide : Bool) : Option State := s.xwrite gid t e o wide v
    let puts (ws : List RegWrite) : Option State := some (s.updSheaf e.gid e.sh (fun x => x.write ws))
    let parks (k : Parked → Parked) : State := s.updSheaf e.gid e.sh (fun x =>
      { x with parked := updWhere (fun q => q.lane == e.lane) k x.parked })
    let bit : Word := if v.getLsbD 0 then 1 else 0
    (∀ n : Fin 63, rd (.s n) false = some ((x.read (.s n.val)).setWidth 64) ∧
      rd (.s n) true = some (x.read (.s (n.val + 1)) ++ x.read (.s n.val)) ∧
      wr (.s n) false = puts [{ key := .s n.val, val := v.extractLsb' 0 32 }] ∧
      wr (.s n) true = puts [{ key := .s n.val, val := v.extractLsb' 0 32 }, { key := .s (n.val + 1), val := v.extractLsb' 32 32 }]) ∧
    (∀ n : Fin 7, rd (.q n) false = some ((x.read (.q n.val)).setWidth 64) ∧ wr (.q n) false = puts [{ key := .q n.val, val := bit }]) ∧
    rd (.res 0) true = some e.pc ∧ rd (.res 1) true = some e.resume ∧
    (v.extractLsb' 0 3 ≠ 0 → wr (.res 1) true = none) ∧
    (e.empty = false →
      (∀ n : Fin 15, rd (.p n) false = some ((x.read (.p n.val e.lane)).setWidth 64) ∧
        wr (.p n) false = puts [{ key := .p n.val e.lane, val := bit }]) ∧
      (∀ n : Fin 256, n.val + 1 < x.budget → rd (.v n) true = some (x.read (.v (n.val + 1) e.lane) ++ x.read (.v n.val e.lane)) ∧
        wr (.v n) true = puts [{ key := .v n.val e.lane, val := v.extractLsb' 0 32 },
          { key := .v (n.val + 1) e.lane, val := v.extractLsb' 32 32 }]) ∧
      rd (.sr .fmt) false = some (p.fmt.setWidth 64) ∧
      (let w := v.extractLsb' 0 32
       wr (.sr .fmt) false = if w.extractLsb' 0 3 ≤ 5 ∧ w.extractLsb' 5 3 ≤ 4 ∧ w.extractLsb' 9 7 = 0 then
         some (parks (fun q => { q with fmt := w })) else none) ∧
      (v.extractLsb' 0 3 = 0 → ∃ u, wr (.res 1) true = some u ∧
        u.sheaf? e.gid e.sh = some { x with parked := updWhere (fun q => q.lane == e.lane) (fun q => { q with resume := v }) x.parked })) ∧
    (e.empty = true → (∀ n, rd (.v n) false = some 0 ∧ wr (.v n) false = some s) ∧
      (∀ n, rd (.p n) false = some 0 ∧ wr (.p n) false = some s) ∧ rd (.sr .fmt) false = some 0 ∧ wr (.sr .fmt) false = some s) ∧
    (p.log = none → ∀ n : Fin 46, 2 ≤ n.val → n.val ≤ 5 → ∀ wide, rd (.res n) wide = some 0 ∧ wr (.res n) wide = some s) ∧
    (∀ id l m, p.log = some id → x.entry? id = some l → memForm l.instr = some m → ∀ wide,
      (rd (.res 2) wide = if wide = (m.spc == 0) then some (cget l.src (4 * e.lane)) else none) ∧
      (m.kind = 1 → rd (.res 5) wide = if wide = decide (3 ≤ m.sz) then some (cget l.src (4 * e.lane + 1)) else none) ∧
      (m.kind = 2 → (rd (.res 3) wide = if wide = (m.sz == 3) then some (cget l.src (4 * e.lane + 1)) else none) ∧
        rd (.res 4) wide = if wide = (m.sz == 3) then some (cget l.src (4 * e.lane + 2)) else none) ∧
      (wr (.res 2) wide = if wide = (m.spc == 0) then some (s.updSheaf e.gid e.sh (fun y => y.updEntry l.id (fun q =>
        { q with src := cset q.src (4 * e.lane) v }))) else none))

/-- R374: XRD and XWR, and what their selectors reach. -/
def Obligations.TrapOriginAccess : Prop := Claims.OriginRegisters ∧ Claims.OriginSelectors

/-! ## Engines (R251 to R258, R408, R410) -/

/-- R251 to R253: a store whose lanes all aim at the engine window, the highest of them at EQGO: a command that the words
do not allow raises 0x0E in that lane; with 64 commands outstanding, or while a write of its sheaf is held, the lane waits; else the named engine's command is the
next thing that comes about. -/
def Claims.StoresToEqgo : Prop :=
  ∀ (i : Instr) (h : Hdr) (x : FM), i = .st h x ∨ i = .stu h x →
    ∀ (s : State) (f : Frame) (l : Option Nat × Src) (v : Nat), Issues s f i → f.t.todo = none → s.pends = [] →
      let m := formM 1 x
      let acts := if h.u then (if f.guardU h s.cycle then [none] else []) else (f.active h s.cycle).lanes.map some
      let ls := (acts.filter (fun l => !f.suppressed l)).map (fun l => (l, Rd.src { s := s, f := f, lane := l } m))
      (∀ k ∈ ls, aimsEngine f.g m k.2 = true ∧ ∃ ps, k.2.places f.g m = .ok ps) → ls.getLast? = some l →
      goValue f.g m l.2 = some v →
      let t := s.countGrc f.g.gid
      let valid := s.cmdValid v f.sh.eqa f.sh.eqb f.sh.eqc f.sh.eqd
      (valid = false → exec i s = .next ((t.park f (laneTraps f i.size 1 [(l.1, 0x0E)])).moveOn f i)) ∧
      (valid = true → 64 ≤ s.liveCmds f.g.gid f.sh.idx ∨ s.holdsFor (.thread f.g.gid f.sh.idx none) = true →
        exec i s = .next (t.updT f (fun u => if u.mask = 0 then { u with todo := none } else
          { u with st := .eventWait .retry, todo := some ((match l.1 with
              | some k => Mask.ofLanes [k]
              | none => f.t.mask) &&& u.mask) }))) ∧
      (valid = true → s.liveCmds f.g.gid f.sh.idx < 64 → s.holdsFor (.thread f.g.gid f.sh.idx none) = false →
        exec i s = .next { t.moveOn f i with agenda :=
            { cycles := 0, act := .event (engineEvent v f.g.gid f.sh.idx) } :: (t.moveOn f i).agenda })

/-- R253, R254: an engine's event accepts the command that its sheaf's words describe, after a release; a collective then
looks for its members and a storage command goes to its drive. A copy of no bytes has ended at once. -/
def Claims.EnginesAcceptCommands : Prop :=
  ∀ (s : State) (gid sh eng : Nat) (g : Group) (x : Sheaf), s.group? gid = some g → g.sheaf? sh = some x →
    s.cmdValid eng x.eqa x.eqb x.eqc x.eqd = true → s.liveCmds gid sh < 64 →
    let r := s.release g.core
    let c : Cmd :=
      { id := r.nextId, owner := some (gid, sh), core := g.core, ctx := g.ctx, eng := eng, a := x.eqa, b := x.eqb,
        c := x.eqc, d := x.eqd, batch := none, moved := false, met := false, tag := none, failed := false,
        ended := decide (eng = 0 ∧ x.eqc.extractLsb' 0 32 = 0), startedAt := r.stc, queue := none, posted := false, cid := 0,
        data := none }
    let t : State := { r with nextId := r.nextId + 1, cmds := r.cmds ++ [c] }
    (eng = 0 → exec (.engineCopy gid sh) s = .next t) ∧ (eng = 1 → exec (.engineGather gid sh) s = .next t) ∧
    (eng = 2 → exec (.engineCollective gid sh) s = .next t.meet) ∧
    (eng = 3 → exec (.engineStorage gid sh) s = .next (t.startNvme c))

/-- R157, R255: a copy or gather whose destination and sources can be accessed writes its data; it ends when none of its
writes is held at the home of a read-duplicated page. -/
def Claims.CommandsMoveTheirData : Prop :=
  ∀ (s s1 s2 s3 : State) (c e : Cmd) (bs : List Byte), c ∈ s.cmds → (s.cmds.map Cmd.id).Nodup → c.eng ≤ 1 →
    s.cutHolds c.ctx = false → c.moved = false → c.failed = false → c.ended = false → c.tag = none →
    s.own c = (.ok (), s1) → s1.cmdData c = (.ok bs, s2) → s2.engWrite (s2.cmdUse c c.dstNud) c.dst bs = (.ok (), s3) →
    let t := (s3.updCmd c.id (fun k => { k with moved := true })).dropPend (.cmd c.id)
    t.cmds.find? (fun k => k.id == c.id) = some e →
      (t.holdsOf (.cmd c.id) = false → exec (.engineCommandEnd c.id) s = .next (t.endCmd e)) ∧
      (t.holdsOf (.cmd c.id) = true → e.failed = false → exec (.engineCommandEnd c.id) s = .next t)

/-- R255, R257, R344: a sheaf's command that ends settles its batch when that is closed; a COPY packet's goes, and its
packet completes. -/
def Claims.CommandsEnd : Prop :=
  ∀ (s : State) (c : Cmd),
    (∀ gid sh, c.owner = some (gid, sh) →
      let t := s.updCmd c.id (fun k => { k with ended := true })
      s.endCmd c = (match c.batch with
        | some n => t.settleBatch gid sh n
        | none => t).wakeBwait gid sh) ∧
    (∀ q, c.owner = none → c.queue = some q → (s.cmds.any (fun k => k.id == c.id && k.failed)) = false →
      s.endCmd c = { s with cmds := s.cmds.filter (fun k => k.id != c.id) }.packetDone q c.id)

/-- R408, R409: the engine reads a completion at its place in the drive's queue: one without the expected phase tag is none; else the
queue's head moves on, the tag changing where the queue begins again, and the live command of that CID fails with a status that is
not 0, or has the drive's data; one of no live command is ignored and reported (the report's fields: log 81; the entry's: log 41). -/
def Claims.CompletionQueues : Prop :=
  (∀ (s : State) (d : Nat) (bs : List Byte),
    let x := s.driveOf d
    let e := s.homeRead x.cqAt 16
    let cid := natOf ((e.drop 12).take 2)
    let st := natOf ((e.drop 14).take 2)
    let live (c : Cmd) : Bool := c.eng == 3 && c.drive == d && c.cid == cid && c.posted && !c.ended && !c.failed && c.data.isNone
    let head := (x.head + 1) % x.size
    let t := s.updDrive d (fun x => { x with head := head, tag := if head = 0 then !x.tag else x.tag })
    (st % 2 ≠ (if x.tag then 1 else 0) → s.readCq d bs = s) ∧
    (st % 2 = (if x.tag then 1 else 0) →
      (∀ c, s.cmds.find? live = some c → s.readCq d bs = t.updCmd c.id (fun k => if st / 2 ≠ 0 then { k with failed := true }
        else { k with data := some ((bs ++ List.replicate (t.cmdLen c) 0).take (t.cmdLen c)) })) ∧
      (s.cmds.find? live = none → s.readCq d bs = t.report 9 0xFF 0xFF 0xFF cid 0))) ∧
  (∀ (sq cid st : Nat) (tag : Bool), cid < 2 ^ 16 → st < 2 ^ 15 →
    let e := nvmeCqe sq cid st tag
    e.length = 16 ∧ natOf ((e.drop 12).take 2) = cid ∧ natOf ((e.drop 14).take 2) = 2 * st + (if tag then 1 else 0))

/-- R408, R410: what a drive answers, and what the waits for a drive and for a member come to. -/
def Claims.DrivesAndMembers : Prop :=
  ∀ (s : State) (c : Cmd), c ∈ s.cmds → (s.cmds.map Cmd.id).Nodup → c.ended = false →
    (c.eng = 3 → c.posted = true → ∀ (st : Nat) (bs : List Byte), exec (.nvmeCompletion c.id st bs) s = .next
      (if s.stackReady (s.driveOf c.drive).cqAt then (s.postCqe c.drive c.cid st).readCq c.drive bs else s)) ∧
    (c.eng = 3 → c.data = none → exec (.nvmeTimeout c.id) s = .next (if c.startedAt + 1000000000 ≤ s.stc then
      s.updCmd c.id (fun k => { k with failed := true }) else s)) ∧
    (c.eng = 2 → c.met = false → exec (.memberAbsentTimeout c.id) s = .next (if c.startedAt + 2000000 ≤ s.stc then
      s.updCmd c.id (fun k => { k with failed := true }) else s))

/-- R256, R258: BCLOSE closes the commands accepted since the last one into the next batch and gives LASTB; BWAIT waits
while a batch that it covers is RUNNING, raises 0x0E with the lowest failed one, and else goes on after an acquire. -/
def Claims.BatchInstructions : Prop :=
  ∀ (h : Hdr) (x : FA),
    Does (.bclose h x) (fun f s =>
      let s1 := s.closeBatch f.g.gid f.sh.idx
      let n := ((s1.sheaf? f.g.gid f.sh.idx).map Sheaf.lastb).getD 0
      if f.guardU h s.cycle then
        (s1.retire f (.bclose h x) (({ s := s, f := f, lane := none } : Rd).put x.d (n.setWidth 32))).advance f
          (.bclose h x)
      else s.advance f (.bclose h x)) ∧
    (∀ (s : State) (f : Frame), Issues s f (.bwait h x) →
      let n : BitVec 16 := (({ s := s, f := f, lane := none } : Rd).w32 x.a).setWidth 16
      let mine := f.sh.batches.filter (fun b => covers n b.num)
      (f.guardU h s.cycle = false → exec (.bwait h x) s = .next (s.advance f (.bwait h x))) ∧
      (f.guardU h s.cycle = true → (∃ b ∈ mine, b.st = .running) →
        exec (.bwait h x) s = .next (s.updT f (fun t => { t with st := .eventWait (.bwait h x n) }))) ∧
      (f.guardU h s.cycle = true → mine = [] → exec (.bwait h x) s = .next
        ((s.acquire f.g.core).updT f (fun t => { (t.advance s.cycle (.bwait h x)) with age := 0 }))) ∧
      (f.guardU h s.cycle = true → (∀ b ∈ mine, b.st = .failed) → ∀ b ∈ mine,
        (∀ c ∈ mine, b.num.toNat ≤ c.num.toNat) → exec (.bwait h x) s = .next
          (((s.updS f (fun y =>
            { y with batches := y.batches.filter (fun c => !(covers n c.num && c.st == .failed)) })).updT f
              (fun t => { t with st := .ready })).trapAll f 8 0x0E (b.num.setWidth 24))))

/-- R257: a closed batch of commands, one of which has not ended, is RUNNING under the next number; without a command
accepted since the last BCLOSE nothing changes. -/
def Claims.BatchesClose : Prop :=
  ∀ (s : State) (gid sh : Nat) (x : Sheaf), s.sheaf? gid sh = some x →
    let mine (c : Cmd) : Prop := c.owner = some (gid, sh) ∧ c.batch = none
    ((∀ c ∈ s.cmds, ¬ mine c) → s.closeBatch gid sh = s) ∧
    ((∃ c ∈ s.cmds, mine c ∧ c.ended = false) → ∃ y, (s.closeBatch gid sh).sheaf? gid sh = some y ∧
      y.lastb = nextBatch x.lastb ∧ { num := nextBatch x.lastb, st := .running } ∈ y.batches ∧
      ∀ c ∈ (s.closeBatch gid sh).cmds, ¬ mine c)

/-- R251 to R258, R344, R408, R410: stores to EQGO, the engines' commands from acceptance to end, and their batches. -/
def Obligations.EnginesAndBatches : Prop :=
  Claims.StoresToEqgo ∧ Claims.EnginesAcceptCommands ∧ Claims.CommandsMoveTheirData ∧ Claims.CommandsEnd ∧
    Claims.DrivesAndMembers ∧ Claims.CompletionQueues ∧ Claims.BatchInstructions ∧ Claims.BatchesClose

/-! ## Work queues (R259 to R262, R275, R276) -/

/-- R261, R264: the threads of ENQ, PUB, DEQ, SPAWN, TAKE and STEAL act one after another in ascending index, and when each
has performed its operation the tiller moves on. -/
def Claims.ThreadsActInTurn : Prop :=
  ∀ (h : Hdr) (x : FA) (s t : State) (f : Frame),
    let runs (i : Instr) (act : FA → Frame → State → Option Nat → QRes × State) : Prop :=
      Issues s f i → f.perform (act x f) (actLanes f h s) s = some t → exec i s = .next (t.moveOn f i)
    runs (.enq h x) enqAct ∧ runs (.pub h x) pubAct ∧ runs (.deq h x) deqAct ∧ runs (.spawn h x) spawnAct ∧
    runs (.take h x) takeAct ∧ runs (.steal h x) stealAct

/-- R261, R412: the queue that an instruction acts on is the handle's, but none for an instruction that was waiting when the queue
was unregistered; a bad handle raises 0x06, and a queue that another DEQ holds makes each operation wait. -/
def Claims.QueuesOfHandles : Prop :=
  ∀ (x : FA) (f : Frame) (s : State) (l : Option Nat),
    let hd := ({ s := s, f := f, lane := l } : Rd).w32 x.a
    (f.t.queued = none → s.wqFor f hd = s.wqOf f.g.ctx hd) ∧
    (∀ q : Queued, f.t.queued = some q → ((hd.extractLsb' 12 2).toNat, (hd.extractLsb' 0 12).toNat) ∈ q.gone → s.wqFor f hd = none) ∧
    (hd.extractLsb' 14 18 ≠ 0 → s.wqFor f hd = none) ∧
    (∀ die w, s.wqFor f hd = some (die, w) → w ∈ (s.die die).wqs ∧ w.ctx = f.g.ctx ∧ die * 4096 + w.q = hd.toNat) ∧
    ∀ act ∈ [enqAct, pubAct, deqAct], (s.wqFor f hd = none → act x f s l = (.park 0x06, s)) ∧
      ∀ die w, s.wqFor f hd = some (die, w) → s.wqHeld f l w = true → act x f s l = (.wait none, s)

/-- R261: ENQ reserves n slots from RSV, 1 to 64, when the queue has room, and else gives false; ENQ.WAIT waits for room, but gives
false for another n. -/
def Claims.EnqReservesSlots : Prop :=
  ∀ (x : FA) (f : Frame) (s : State) (l : Option Nat),
    let r : Rd := { s := s, f := f, lane := l }
    let n := (r.w32 x.b).toNat
    (∀ die w, s.wqFor f (r.w32 x.a) = some (die, w) → s.wqHeld f l w = false →
      let fits := 1 ≤ n ∧ n ≤ 64 ∧ (w.rsv - w.head).toNat + n ≤ 2 ^ w.logcap
      (fits → enqAct x f s l = (.done (r.put x.d w.rsv ++ r.putPr x.c true),
        s.setWq die { w with rsv := w.rsv + BitVec.ofNat 32 n,
                             resAt := w.resAt ++ (List.range n).map (fun k => (w.rsv + BitVec.ofNat 32 k, s.stc)) })) ∧
      (¬ fits → x.fn.getLsbD 0 = false ∨ n = 0 ∨ 64 < n → enqAct x f s l = (.done (r.putPr x.c false), s)) ∧
      (¬ fits → x.fn.getLsbD 0 = true → 1 ≤ n → n ≤ 64 → enqAct x f s l = (.wait none, s)))

/-- R261, R276: PUB publishes a reserved number that is not published yet, after a release, and raises 0x0E for another;
PUBP passes over every number published in turn and clears STUCK when it passes STUCKSEQ. -/
def Claims.PubPublishesInTurn : Prop :=
  (∀ (x : FA) (f : Frame) (s : State) (l : Option Nat) (die : Nat) (w : WorkQ),
    let r : Rd := { s := s, f := f, lane := l }
    let k := r.w32 x.b
    s.wqFor f (r.w32 x.a) = some (die, w) → s.wqHeld f l w = false →
    let reserved := (k - w.pubp).toNat < (w.rsv - w.pubp).toNat ∧ k ∉ w.early
    (reserved → pubAct x f s l = (.done [], (s.release f.g.core).setWq die
      (WorkQ.settle { w with early := w.early ++ [k] } (w.early.length + 1)))) ∧
    (¬ reserved → pubAct x f s l = (.park 0x0E, s))) ∧
  (∀ (w : WorkQ), w.early.Nodup → w.early.length < 2 ^ 32 →
    let v := w.settle w.early.length
    v.pubp ∉ v.early ∧ v.rsv = w.rsv ∧ v.head = w.head ∧ (∀ k ∈ v.early, k ∈ w.early) ∧
    (∀ j < (v.pubp - w.pubp).toNat, w.pubp + BitVec.ofNat 32 j ∈ w.early ∧
      (w.pubp + BitVec.ofNat 32 j = w.stuckSeq → v.stuck = false)) ∧
    (∀ k ∈ w.early, k ∉ v.early → ∃ j < (v.pubp - w.pubp).toNat, k = w.pubp + BitVec.ofNat 32 j))

/-- R261, R275: DEQ of an empty queue gives false or waits; else it takes the 64 bits of slot HEAD, after which comes an
acquire. -/
def Claims.DeqTakesTheOldest : Prop :=
  ∀ (x : FA) (f : Frame) (s : State) (l : Option Nat) (die : Nat) (w : WorkQ),
    let r : Rd := { s := s, f := f, lane := l }
    s.wqFor f (r.w32 x.a) = some (die, w) → s.wqHeld f l w = false →
    (w.head = w.pubp → x.fn.getLsbD 0 = false → deqAct x f s l = (.done (r.putPr x.c false), s)) ∧
    (w.head = w.pubp → x.fn.getLsbD 0 = true → deqAct x f s l = (.wait none, s)) ∧
    (w.head ≠ w.pubp → ∀ v s1,
      s.memLane { g := f.g, sh := f.sh, lane := l, helper := false }
        { kind := 0, sz := 3, spc := 0, ord := 4, nud := 31, off := 0, d := .sz, a := .sz, b := .sz, c := .sz, fn := 0,
          ret := false }
        { a := BitVec.ofNat 64 (w.ring.toNat + 8 * (w.head.toNat % 2 ^ w.logcap)), b := 0, c := 0 } = (.done [v], s1) →
      deqAct x f s l = (.done (r.put64 x.d (BitVec.ofNat 64 v) ++ r.putPr x.c true),
        (s1.acquire f.g.core).setWq die { w with head := w.head + 1, reader := none }))

/-- R259: a change of a queue is written to its descriptor, the 64 bytes at WQBASE + 64 q, and nowhere else: what the queue unit
holds is what those bytes say. -/
def Claims.QueuesAreWrittenBack : Prop :=
  (∀ (s : State) (die : Nat) (v w : WorkQ), Memory.wf s.mem = true → (s.die die).wqs.find? (fun x => x.q == w.q) = some v →
    let t := s.setWq die w
    let pa := (s.die die).wqbase.toNat % 2 ^ 41 + 64 * w.q
    (t.die die).wqs.find? (fun x => x.q == w.q) = some w ∧ (t.die die).wqbase = (s.die die).wqbase ∧
    (∀ k, k < 64 → some (cget t.mem (pa + k)) = w.bytes[k]?) ∧ ∀ a, a < pa ∨ pa + 64 ≤ a → cget t.mem a = cget s.mem a) ∧
  ∀ (w : WorkQ), w.logcap < 256 → w.ctx < 256 →
    w.bytes.length = 64 ∧ natOf ((w.bytes.drop 0).take 8) = w.ring.toNat ∧ natOf ((w.bytes.drop 8).take 1) = w.logcap ∧
    natOf ((w.bytes.drop 9).take 1) = w.ctx ∧ natOf ((w.bytes.drop 16).take 4) = w.rsv.toNat ∧
    natOf ((w.bytes.drop 20).take 4) = w.pubp.toNat ∧ natOf ((w.bytes.drop 24).take 4) = w.head.toNat ∧
    natOf ((w.bytes.drop 28).take 4) = w.thresh.toNat ∧ natOf ((w.bytes.drop 32).take 4) = w.stuckSeq.toNat ∧
    natOf ((w.bytes.drop 36).take 1) = (if w.stuck then 1 else 0)

/-- R262: a slot that has stayed reserved for THRESH ticks makes its queue STUCK, with its number, once, and the host is
told. -/
def Claims.StuckQueues : Prop :=
  ∀ (s : State) (die q : Nat) (w : WorkQ), (s.die die).wqs.find? (fun w => w.q == q) = some w →
    (w.isStuck s.stc = true → exec (.queueStuck die q) s = .next
      ((s.setWq die { w with stuck := true, stuckSeq := w.pubp, notified := some w.pubp }).report 6 w.ctx die 0xFF q
        w.pubp.toNat)) ∧
    (w.isStuck s.stc = false → exec (.queueStuck die q) s = .next s) ∧
    ({ w with stuck := true, stuckSeq := w.pubp, notified := some w.pubp } : WorkQ).isStuck s.stc = false

/-- R259 to R262, R275, R276: device work queues. -/
def Obligations.WorkQueues : Prop :=
  Claims.ThreadsActInTurn ∧ Claims.QueuesOfHandles ∧ Claims.EnqReservesSlots ∧ Claims.PubPublishesInTurn ∧ Claims.DeqTakesTheOldest ∧
    Claims.QueuesAreWrittenBack ∧ Claims.StuckQueues

/-! ## Tasks (R263 to R265) -/

/-- R264, R265: SPAWN hands its task to the oldest waiting thief whose deadline has not passed, or pushes it, or gives false at 64
tasks. -/
def Claims.SpawnFeedsThievesFirst : Prop :=
  ∀ (x : FA) (f : Frame) (s : State) (l : Option Nat) (g : Group),
    let r : Rd := { s := s, f := f, lane := l }
    let t := (s.release f.g.core).withdraw (fun q => decide (q.dl < s.stc))
    t.group? f.g.gid = some g → g.gid = f.g.gid →
    (∀ q rest, g.mailbox = q :: rest →
      let u := t.updGroup f.g.gid (fun k => { k with mailbox := rest })
      spawnAct x f s l = (.done (r.putPr x.d true),
        (u.answer q (putFor q (some (r.w64 x.a)))).acquire (u.coreOfGroup q.gid))) ∧
    (g.mailbox = [] → g.deque.length < 64 → spawnAct x f s l = (.done (r.putPr x.d true),
      t.updGroup f.g.gid (fun k => { k with deque := k.deque ++ [r.w64 x.a] }))) ∧
    (g.mailbox = [] → 64 ≤ g.deque.length → spawnAct x f s l = (.done (r.putPr x.d false), t))

/-- R264: TAKE takes the newest task of its own group, or gives false. -/
def Claims.TakeTakesTheNewest : Prop :=
  ∀ (x : FA) (f : Frame) (s : State) (l : Option Nat) (g : Group),
    let r : Rd := { s := s, f := f, lane := l }
    s.group? f.g.gid = some g → g.gid = f.g.gid →
    (∀ ts task, g.deque = ts ++ [task] → takeAct x f s l = (.done (r.put64 x.d task ++ r.putPr x.c true),
      (s.acquire f.g.core).updGroup f.g.gid (fun k => { k with deque := k.deque.dropLast }))) ∧
    (g.deque = [] → takeAct x f s l = (.done (r.putPr x.c false), s))

/-- R264, R265: STEAL takes the oldest task of its victim; from an empty deque it gives false with a limit of 0, at itself
or at 8 requests, and else posts a request, to wait; a slot outside the panicle raises 0x06. -/
def Claims.StealTakesTheOldest : Prop :=
  ∀ (x : FA) (f : Frame) (s : State) (l : Option Nat),
    let r : Rd := { s := s, f := f, lane := l }
    let v := (r.w32 x.a).toNat
    let n := (r.w64 x.b).toNat
    (f.g.slots ≤ v → stealAct x f s l = (.park 0x06, s)) ∧
    ∀ g, v < f.g.slots → s.group? (s.panGroup f.g v) = some g → g.pslot = v → g.st ≠ .done →
      (∀ task rest, g.deque = task :: rest → stealAct x f s l = (.done (r.put64 x.d task ++ r.putPr x.c true),
        (s.acquire f.g.core).updGroup g.gid (fun k => { k with deque := rest }))) ∧
      (g.deque = [] → v = f.g.pslot ∨ n = 0 ∨ 8 ≤ g.mailbox.length →
        stealAct x f s l = (.done (r.putPr x.c false), s)) ∧
      (g.deque = [] → v ≠ f.g.pslot → n ≠ 0 → g.mailbox.length < 8 →
        stealAct x f s l = (.wait none, s.updGroup g.gid (fun k => { k with mailbox := k.mailbox ++
          [{ gid := f.g.gid, sh := f.sh.idx, ti := f.t.idx, lane := l.getD 0, uni := l.isNone, dst := x.d, pred := x.c,
             dl := min (s.stc + n) (2 ^ 64 - 1) }] })))

/-- R265: a posted request whose deadline has passed is withdrawn, its thread's predicate becomes false, and the tiller
goes on; with none past its deadline nothing changes. -/
def Claims.StealRequestsTimeOut : Prop :=
  ∀ (s : State) (gid sh ti : Nat),
    let late (q : StealReq) : Bool := q.gid == gid && q.sh == sh && q.ti == ti && decide (q.dl ≤ s.stc)
    ((∀ g ∈ s.groups, ∀ q ∈ g.mailbox, late q = false) → exec (.stealTimeout gid sh ti) s = .next s) ∧
    (∀ g q, (s.groups.flatMap (fun g => (g.mailbox.filter late).map (fun q => (g.gid, q)))) = [(g, q)] →
      exec (.stealTimeout gid sh ti) s = .next ((s.updGroup g (fun k =>
        { k with mailbox := k.mailbox.filter (fun e => e != q) })).answer q (putFor q none)))

/-- R263 to R265: spawning, taking and stealing tasks. -/
def Obligations.TasksAndStealing : Prop :=
  Claims.SpawnFeedsThievesFirst ∧ Claims.TakeTakesTheNewest ∧ Claims.StealTakesTheOldest ∧ Claims.StealRequestsTimeOut

/-! ## Launches and the control of streams (R266 to R271, R273, R277) -/

/-- R267: the limits that a launch record keeps. -/
def Claims.LaunchRecordLimits : Prop :=
  ∀ r : LaunchRec, r.ok = true ↔
    r.code.toNat % 8 = 0 ∧ 1 ≤ r.gx.toNat ∧ 1 ≤ r.gy.toNat ∧ 1 ≤ r.gz.toNat ∧
    1 ≤ r.sheaves.toNat ∧ r.sheaves.toNat ≤ 16 ∧
    ((r.pw = 0 ∧ r.ph = 0) ∨ (1 ≤ r.pw.toNat ∧ r.pw.toNat ≤ 8 ∧ 1 ≤ r.ph.toNat ∧ r.ph.toNat ≤ 9 ∧
      r.pw.toNat * r.ph.toNat ≤ 24)) ∧
    r.flags.toNat < 16 ∧ r.scratch.toNat ≤ 261120 ∧ r.n0.toNat ≤ r.sheaves.toNat ∧
    (r.n0 ≠ r.sheaves → r.regs1 = 0 → r.sheaves.toNat ≤ r.n0.toNat + 4) ∧
    r.counter.toNat % 8 = 0 ∧ fmtOk r.fmt = true ∧ r.tailZero = true ∧
    (r.gx.toNat * r.gy.toNat * r.gz.toNat) % max 1 (r.pw.toNat * r.ph.toNat) = 0

/-- R268, R269: the threads of LAUNCH act in turn: each reads its record and its header and enters the launch when the
group has fewer than 4 pending; without .WAIT it gives false at 4. A record that breaks R267 raises 0x0E. -/
def Claims.LaunchEntersGrids : Prop :=
  ∀ (h : Hdr) (x : FA) (s : State) (f : Frame), Issues s f (.launch h x) →
    (∀ t, f.perform (launchAct x f) (actLanes f h s) s = some t →
      exec (.launch h x) s = .next (t.moveOn f (.launch h x))) ∧
    (∀ l s1, actLanes f h s = [l] → s.readLaunch f l (Rd.w64 { s := s, f := f, lane := l } x.a) = (.malformed, s1) →
      exec (.launch h x) s = .next (((s1.dropPends f).park f (laneTraps f 8 0 [(l, 0x0E)])).moveOn f (.launch h x))) ∧
    (∀ g r, (s.enterLaunch g r).pendingOf g.gid = (s.release g.core).pendingOf g.gid + 1 ∧
      ∃ k ∈ (s.enterLaunch g r).grids, k.launch = r ∧ k.ctx = g.ctx ∧ k.next = 0 ∧ k.ended = 0 ∧
        k.die = some (dieOf g.core) ∧ k.base = min 7 r.prio.toNat)

/-- R270, R277, R278: MSTART of an active stream gives 1; with a good header and a free context the stream runs from its
start with the sheaf's scalars as they stand at its issue, and MSTART gives 0; a fifth stream of a core waits. -/
def Claims.MstartStartsAStream : Prop :=
  ∀ (h : Hdr) (x : FA) (s : State) (f : Frame), Issues s f (.mstart h x) → f.guardU h s.cycle = true →
    let i : Instr := .mstart h x
    let r : Rd := { s := s, f := f, lane := none }
    let va := r.w64 x.a
    (f.g.stream.st = .running ∨ f.g.stream.st = .halted →
      exec i s = .next ((s.retire f i (r.put x.d 1)).advance f i)) ∧
    (f.g.stream.st = .idle ∨ f.g.stream.st = .ended →
      (va.toNat % 8 ≠ 0 → exec i s = .next (s.trapAll f 8 0x04 0)) ∧
      (va.toNat % 8 = 0 → va.extractLsb' 55 9 ≠ 0 → exec i s = .next (s.trapAll f 8 0x05 0)) ∧
      (va.toNat % 8 = 0 → va.extractLsb' 55 9 = 0 → ∀ n s1, s.readFor f none 3 (va - 8) = (.done [n], s1) →
        let s2 := s1.dropPends f
        (n ≠ 1 → exec i s = .next (s2.trapAll f 8 0x0E 0)) ∧
        (n = 1 → s2.streamsOn f.g.core < 4 → exec i s = .next (((s2.updStream f.g.gid (fun _ =>
          { st := .running, sh := f.sh.idx, start := va, pc := va, scalars := (if f.t.queued = none then f.sh.deliverAll else f.sh).scalars, cursors := [],
            loops := [], parity := 0, bind := [], recs := [], ring := none, why := 0, cause := 0, flight := [],
            faultTag := none, stampTag := none, mwait := none, checked := none, owes := 0 })).retire f i
              (r.put x.d 0)).advance f i)) ∧
        (n = 1 → 4 ≤ s2.streamsOn f.g.core →
          exec i s = .next (s2.updT f (fun t => { t with st := .eventWait .retry })))))

/-- R270, R271: MSTAT gives the status word and the offset of the stream's PC; MRES and MRES.SKIP of a HALTED stream make
it RUNNING at its instruction or after it and give 0, and give 1 of any other. -/
def Claims.StreamStatusAndResume : Prop :=
  ∀ (h : Hdr) (x : FA),
    Does (.mstat h x) (fun f s =>
      let r : Rd := { s := s, f := f, lane := none }
      (s.retire f (.mstat h x) (if f.guardU h s.cycle then r.putReg x.d 0 f.g.stream.status ++
        r.putReg x.d 1 ((f.g.stream.pc - f.g.stream.start).setWidth 32) else [])).advance f (.mstat h x)) ∧
    (∀ i skip, (i = .mres h x ∧ skip = 0) ∨ (i = .mresSkip h x ∧ skip = 8) → Does i (fun f s =>
      let r : Rd := { s := s, f := f, lane := none }
      if f.guardU h s.cycle = false then s.advance f i
      else if f.g.stream.st = .halted then
        ((s.updStream f.g.gid (fun t => { t with st := .running, why := 0, cause := 0, pc := t.pc + skip, recs :=
          if skip = 0 then t.recs else t.recs.map (fun q => q.skip s.stc) })).retire f i (r.put x.d 0)).advance f i
      else (s.retire f i (r.put x.d 1)).advance f i)) ∧
    (∀ t : Stream, t.status.extractLsb' 0 4 = (match t.st with
      | .idle => 0
      | .running => 1
      | .halted => 2
      | .ended => 3) ∧ t.status.extractLsb' 4 4 = t.why ∧
      t.status.extractLsb' 8 8 = (if t.why = 3 then t.cause else 0) ∧ t.status.extractLsb' 16 16 = 0)

/-- R266 to R271, R273, R277: LAUNCH, MSTART, MSTAT and MRES. -/
def Obligations.LaunchesAndStreamControl : Prop :=
  Claims.LaunchRecordLimits ∧ Claims.LaunchEntersGrids ∧ Claims.MstartStartsAStream ∧ Claims.StreamStatusAndResume

/-! ## Residencies (R300 to R306) -/

/-- R303, R304: RALLOC in every path: a bad count or position raises 0x02, a quota that is exceeded (that of context 63 is 0: log
154) 0x0A; without an
eligible run it gives false; else the run's residencies are evicted, its slots are cleared and a STALE residency of the next
generation holds them, whose handle it gives. -/
def Claims.Ralloc : Prop :=
  ∀ (h : Hdr) (x : FA) (s : State) (f : Frame), Issues s f (.ralloc h x) → f.guardU h s.cycle = true →
    f.suppressed none = false →
    let i : Instr := .ralloc h x
    let r : Rd := { s := s, f := f, lane := none }
    let n := (r.w32 x.a).toNat
    let pos := (r.w32 x.b).toNat
    let bad := n = 0 ∨ 32 < n ∨ (pos < 32 ∧ 32 < pos + n)
    let full := s.quota f.g.core f.g.ctx < (s.core f.g.core).heldBy f.g.ctx + n
    (bad → exec i s = .next (s.trapAll f 8 0x02 0)) ∧
    (¬ bad → full → exec i s = .next (s.trapAll f 8 0x0A 0)) ∧
    (¬ bad → ¬ full → s.bestRun f.g.core f.g.ctx pos n = none →
      exec i s = .next ((s.retire f i (r.putPr x.c false)).advance f i)) ∧
    (¬ bad → ¬ full → ∀ st gone, s.bestRun f.g.core f.g.ctx pos n = some (st, gone) →
      let s1 := gone.foldl (fun s g => s.evict f.g.core g.handle) s
      let old := cget (s1.core f.g.core).gens st
      let new : Res := { first := st, cnt := n, ctx := f.g.ctx, gen := if old = 0xFFFF then 1 else old + 1, st := .stale,
                         pin := false, auto := false, src := none, marked := false, lines := [] }
      exec i s = .next (((s1.updCore f.g.core (fun c =>
        { c with gens := cset c.gens st new.gen, ress := c.ress ++ [new],
                 rstore := cclear c.rstore (16384 * st) (16384 * (st + n)) })).retire f i
          (r.put x.d new.handle ++ r.putPr x.c true)).advance f i))

/-- R304: the run that RALLOC takes is eligible, and no eligible run among those it may take costs less. -/
def Claims.RallocTakesTheCheapestRun : Prop :=
  ∀ (s : State) (core ctx pos n : Nat), 1 ≤ n → n ≤ 32 → (pos < 32 → pos + n ≤ 32) →
    let may (st : Nat) : Prop := if pos < 32 then st = pos else st + n ≤ 32
    let cost (l : List Res) : Nat := 64 * slotsOf (l.filter Res.pin) + slotsOf l
    (s.bestRun core ctx pos n = none → ∀ st, may st → s.runCost core ctx st n = none) ∧
    ∀ st gone, s.bestRun core ctx pos n = some (st, gone) → may st ∧ s.runCost core ctx st n = some gone ∧
      ∀ k l, may k → s.runCost core ctx k n = some l → cost gone ≤ cost l ∧ (k < st → cost gone < cost l)

/-- R300: a handle names its slots, its context and its generation. -/
def Claims.HandlesNameTheirResidency : Prop :=
  ∀ r : Res, r.first < 32 → 1 ≤ r.cnt → r.cnt ≤ 32 → r.ctx < 64 →
    hndFirst r.handle = r.first ∧ hndCnt r.handle = r.cnt ∧ hndCtx r.handle = r.ctx ∧ r.handle.extractLsb' 0 16 = r.gen

/-- R303, R305, R306: RLOAD, RPIN, RUNPIN, RREVK and RQRY: a handle of another context raises 0x06; RLOAD of an address
that it does not take or of a residency that is gone raises 0x0E, and else queues a load and joins the sheaf's commands;
the others tell whether the residency is live. -/
def Claims.HandleInstructions : Prop :=
  ∀ (h : Hdr) (x : FA) (s : State) (f : Frame) (i : Instr), Issues s f i → f.guardU h s.cycle = true →
    f.suppressed none = false →
    i = .rload h x ∨ i = .rpin h x ∨ i = .runpin h x ∨ i = .rrevk h x ∨ i = .rqry h x →
    let r : Rd := { s := s, f := f, lane := none }
    let hd := r.w32 x.a
    let live := (s.core f.g.core).res? hd
    (hndCtx hd ≠ f.g.ctx → exec i s = .next (s.trapAll f 8 0x06 0)) ∧
    (hndCtx hd = f.g.ctx →
      (i = .rpin h x → exec i s = .next (((s.updRes f.g.core hd (fun e => { e with pin := true })).retire f i
        (r.putPr x.d live.isSome)).advance f i)) ∧
      (i = .runpin h x → exec i s = .next (((s.updRes f.g.core hd (fun e => { e with pin := false })).retire f i
        (r.putPr x.d live.isSome)).advance f i)) ∧
      (i = .rrevk h x → exec i s = .next (((if live.isSome then s.evict f.g.core hd else s).retire f i
        (r.putPr x.d live.isSome)).advance f i)) ∧
      (i = .rqry h x → ∃ v : Word, exec i s = .next ((s.retire f i (r.put x.d v)).advance f i) ∧
        v.extractLsb' 8 5 = hd.extractLsb' 27 5 ∧ v.extractLsb' 13 5 = hd.extractLsb' 22 5 ∧ v.extractLsb' 18 14 = 0 ∧
        v.extractLsb' 5 3 = 0 ∧ (live = none → v.extractLsb' 0 5 = 0) ∧
        (∀ e, live = some e → v.getLsbD 3 = e.pin ∧ v.getLsbD 4 = e.auto ∧
          v.extractLsb' 0 3 = (match e.st with
            | .loading => 1
            | .ready => 2
            | .stale => 3))) ∧
      (i = .rload h x →
        let va := r.w64 x.b
        let ok := va.toNat % 512 = 0 ∧ engVa va = true ∧ live ≠ none
        (¬ ok → exec i s = .next (s.trapAll f 8 0x0E 0)) ∧
        (ok → s.liveCmds f.g.gid f.sh.idx < 64 →
          let u := s.release f.g.core
          let c : Cmd :=
            { id := u.nextId, owner := some (f.g.gid, f.sh.idx), core := f.g.core, ctx := f.g.ctx, eng := 4, a := va,
              b := 0, c := hd.setWidth 64, d := 0, batch := none, moved := false, met := false, tag := none,
              failed := false, ended := false, startedAt := u.stc, queue := none, posted := false, cid := 0, data := none }
          exec i s = .next (((({ u with nextId := u.nextId + 1, cmds := u.cmds ++ [c] } : State).updRes f.g.core hd
            (fun r => { r with auto := x.fn.getLsbD 0, src := some va })).addLoad f.g.core f.g.gid f.sh.idx hd va
              (some u.nextId)).advance f i))))

/-- R306: RQRY.Q gives the quota and HELD of its context (of context 63: log 154). -/
def Claims.QuotaQuery : Prop :=
  ∀ (h : Hdr) (x : FA) (s : State) (f : Frame), Issues s f (.rqryQ h x) → f.guardU h s.cycle = true →
    f.suppressed none = false →
    ∃ v : Word, exec (.rqryQ h x) s = .next ((s.retire f (.rqryQ h x)
        (({ s := s, f := f, lane := none } : Rd).put x.d v)).advance f (.rqryQ h x)) ∧
      (s.quota f.g.core f.g.ctx < 64 → (v.extractLsb' 0 6).toNat = s.quota f.g.core f.g.ctx) ∧
      ((s.core f.g.core).heldBy f.g.ctx < 64 → (v.extractLsb' 8 6).toNat = (s.core f.g.core).heldBy f.g.ctx)

/-- R302, R402: RQSET sets the quota of a context on the cores it names, and on no other; a quota above 32, and a core that does not
exist, are reported (the report's fields: log 81). -/
def Claims.Rqset : Prop :=
  ∀ (s : State) (ctx : Nat) (v : BitVec 32), ctx < 32 →
    let n := v.toNat % 64
    let k := v.toNat / 256 % 128
    let names (core : Nat) : Prop := (v.getLsbD 18 = true ∨ core / 72 = v.toNat / 65536 % 4) ∧ core < 288 ∧
      (k = 127 ∨ core % 72 = k)
    (32 < n ∨ (72 ≤ k ∧ k ≠ 127) → exec (.rqset ctx v) s = .next (s.report 9 ctx 0xFF 0xFF (0x10020 + 0x1000 * ctx) v.toNat)) ∧
    (n ≤ 32 → k < 72 ∨ k = 127 → ∃ t, exec (.rqset ctx v) s = .next t ∧
      (∀ core, names core → t.quota core ctx = n) ∧
      (∀ core c, ¬ (c = ctx ∧ names core) → t.quota core c = s.quota core c))

/-- R301, R305: a load whose lines are registered, with no MMA on its slots, reads its source; the slots then hold exactly
those bytes, the residency is READY, or STALE when a source line was written meanwhile, and its command ends. -/
def Claims.ResidencyLoadsEnd : Prop :=
  ∀ (s s1 : State) (core : Nat) (l : Load) (r : Res) (bs : List Byte),
    (s.core core).loads.find? (fun k => k.id == l.id) = some l → l.tag = none → l.failed = none → l.reg = true →
    ((s.core core).loads.find? (fun k => k.handle == l.handle)).map Load.id = some l.id →
    (s.core core).res? l.handle = some r → s.cutHolds r.ctx = false →
    (∀ k < r.cnt, s.slotBusy core (r.first + k) = false) →
    s.unitRead (s.loadUse core r.ctx l) false l.va (r.cnt * 16384) = (.ok bs, s1) → bs.length = r.cnt * 16384 →
    cellsWf (s1.core core).rstore = true →
    ∃ u : State, exec (.residencyLoadEnd core l.id) s = .next (u.closeLoad core l none) ∧
      cellsWf (u.core core).rstore = true ∧
      (∀ k, k < r.cnt * 16384 → cget (u.core core).rstore (16384 * r.first + k) = bs.getD k 0) ∧
      (∀ a, a < 16384 * r.first ∨ 16384 * r.first + r.cnt * 16384 ≤ a →
        cget (u.core core).rstore a = cget (s1.core core).rstore a) ∧
      u.closeLoad core l none = ((((u.updRes core l.handle (fun r =>
        { r with st := if r.marked then .stale else .ready, marked := false })).updCore core (fun c =>
          { c with loads := c.loads.filter (fun x => x.id != l.id) })).dropPend (.load core l.id)).endLoadCmd l
            false).startLoad core l.handle

/-- R300 to R306: residencies. -/
def Obligations.Residencies : Prop :=
  Claims.Ralloc ∧ Claims.RallocTakesTheCheapestRun ∧ Claims.HandlesNameTheirResidency ∧ Claims.HandleInstructions ∧
    Claims.QuotaQuery ∧ Claims.Rqset ∧ Claims.ResidencyLoadsEnd

/-! ## The matrix unit (R68 to R73, R278 to R299, R307 to R312) -/

/-- R288: an MMA adds to each element of its rows the exact sum of the products of the row's elements, scaled by their
blocks, with the slot's column, residue by residue; every other element stays. -/
def Obligations.MatrixSumsAreExact : Prop :=
  ∀ (t : Tile) (rows : List ARow) (n : Nat) (b : List (List Int)), cellsWf t.acc = true →
    (rows.map ARow.row).Nodup → (∀ r ∈ b, r.length = 128) → (∀ r ∈ rows, r.elems.length = b.length) →
    (∀ r ∈ rows, ∀ c < 128, cget (t.mma rows n b).acc (128 * r.row + c) = raAdd (cget t.acc (128 * r.row + c))
      ((List.range b.length).map (fun k =>
        r.elems.getD k 0 * 2 ^ ((r.scales.getD (k / 32) 0).toNat % 8) * (b.getD k []).getD c 0)).sum) ∧
    (∀ a, a / 128 ∉ rows.map ARow.row → cget (t.mma rows n b).acc a = cget t.acc a) ∧
    cellsWf (t.mma rows n b).acc = true

/-- R278, R284 to R289, R298: an MMA or MMAG whose checks pass, whose slot is READY and whose rows can be read, with no
earlier one of the core still reading its rows, adds them to its tile and to no other, and is in flight until they have passed; an MMA
of a ring moves CUR. Of the rows of an MMAG, those that name one target are added one after another. While an earlier one of the core
still reads, it has issued and waits. A check that fails, and a residency that is absent, or STALE without AUTO, halt the stream. -/
def Claims.MultiplyAccumulate : Prop :=
  ∀ (i : Instr) (gather : Bool) (x : FX), (i = .mma x ∧ gather = false) ∨ (i = .mmag x ∧ gather = true) →
    ∀ (s : State) (g : Group) (p : Nat), Streams s g i → (∀ ld, .macc (fxTile x) ld ∉ g.stream.flight) →
      g.stream.faultTag = none → g.stream.checked = none → g.stream.phys (fxTile x) = some p →
      let s1 := s.updStream g.gid (fun t => t.updRec (fxTile x) (fun q => { q with
        trying := some (q.trying.getD s.stc),
        waitStart := if q.firstDone then q.waitStart else some (q.waitStart.getD (q.trying.getD s.stc)) }))
      (∀ c, g.mmaCheck gather x = some c → exec i s = .next (s1.stopMma g (fxTile x) (.halt 3 c))) ∧
      (g.mmaCheck gather x = none →
        ((s.core g.core).resAt (fxNum x) = none → exec i s = .next (s1.stopMma g (fxTile x) (.halt 2 0))) ∧
        ∀ r, (s.core g.core).resAt (fxNum x) = some r →
          (r.ctx ≠ g.ctx → exec i s = .next (s1.stopMma g (fxTile x) (.halt 2 0))) ∧
          (r.ctx = g.ctx → r.st = .stale → r.auto = false →
            exec i s = .next (s1.stopMma g (fxTile x) (.halt 1 0))) ∧
          (r.ctx = g.ctx → r.st = .loading → exec i s = .next (s1.noteWait (.stream g.gid) none)) ∧
          (r.ctx = g.ctx → r.st = .ready →
            let issued := ({ s1 with nextId := s.nextId + 1 } : State).updStream g.gid (fun t =>
              { t with checked := some (s.nextId, fxNum x, []) })
            (issued.mmaBefore g.core s.nextId = true → exec i s = .next issued) ∧
            ∀ rows s2, issued.mmaBefore g.core s.nextId = false → issued.aRows g gather x = (.ok rows, s2) →
            s2.mmaBefore g.core s.nextId = false → p < (s2.core g.core).tiles.length →
            ∃ t, exec i s = .next t ∧ t.mem = s2.mem ∧
              (t.core g.core).tile p = ((s2.core g.core).tile p).mma rows (fxRows x)
                (slotRows (x.fn.extractLsb' 0 2 == 1) (dense (s2.core g.core).rstore (16384 * fxNum x) 16384)) ∧
              (∀ k, k ≠ p → (t.core g.core).tile k = (s2.core g.core).tile k) ∧
              ∀ g2, s2.group? g.gid = some g2 → ∃ v pins, t.group? g.gid = some v ∧ v.scratch = g2.scratch ∧
                v.sheaves = g2.sheaves ∧ v.stream.pc = g2.stream.pc + 8 ∧ v.stream.checked = none ∧
                v.stream.flight = g2.stream.flight ++
                  [.mma s.nextId (fxTile x) (fxNum x) (s2.entryCycle g.core) (s2.entryCycle g.core + rows.length) pins] ∧
                (gather = false → x.fn.getLsbD 3 = false → cellsWf g2.stream.cursors = true →
                  v.stream.cur x.a = (g2.stream.cur x.a + fxRows x) % ringRows (g2.stream.pair x.a))))

/-- R134, R279, R310: the core's oldest MMA or MMAG completes once its rows have passed, and leaves what is in flight, with the pins
of its lines; in its tile's record one of which a row entered the array ends computing then; a MACC completes. -/
def Claims.MatrixCompletions : Prop :=
  (∀ (s : State) (gid : Nat) (g : Group) (l r : List InFlight) (n acc slot entry ready : Nat)
    (pins : List (Nat × Nat)), s.group? gid = some g →
    g.stream.flight = l ++ .mma n acc slot entry ready pins :: r → (∀ k ∈ l, ∀ a b c d e p, k ≠ .mma a b c d e p) →
    (s.oldestMma g.core = some n → ready ≤ s.cycle → ∃ t v, exec (.mmaComplete gid) s = .next t ∧
      t.group? gid = some v ∧ v.stream.flight = l ++ r ∧ t.cores = s.cores ∧ v.scratch = g.scratch ∧
      (∀ q, g.stream.rec? acc = some q →
        v.stream.rec? acc = some (if entry = ready then q else { q with compEnd := some s.stc })) ∧
      t.l2 = (pins.foldl (fun s e => s.unpin e.1 e.2) s).l2) ∧
    (s.oldestMma g.core ≠ some n ∨ s.cycle < ready → exec (.mmaComplete gid) s = .next s)) ∧
  (∀ (s : State) (gid : Nat) (g : Group) (l r : List InFlight) (acc : Nat) (ld : Bool), s.group? gid = some g →
    g.stream.flight = l ++ .macc acc ld :: r → (∀ k ∈ l, ∀ a b, k ≠ .macc a b) →
    ∃ t v, exec (.maccComplete gid) s = .next t ∧ t.group? gid = some v ∧ v.stream.flight = l ++ r ∧ t.cores = s.cores)

/-- R281, R290, R309: MACC.ZERO and MACC.LD wait while their tile is in use or no tile is free; else they bind their name
to its tile, or to the lowest free one, and leave in it zeros, or the rows of scratch from row rb and zeros elsewhere. -/
def Claims.AccumulatorLoads : Prop :=
  ∀ (i : Instr) (x : FX), i = .maccZero x ∨ i = .maccLd x → ∀ (s : State) (g : Group), Streams s g i →
    let tile := fxTile x
    let a := (g.stream.w32 x.a).toNat
    let rb := (g.stream.even x.b).toNat % 128
    let stride := (g.stream.odd x.b).toNat
    let free := g.stream.phys tile ≠ none ∨ (s.core g.core).freeTile ≠ none
    (g.stream.usesTile tile true = true ∨ ¬ free → exec i s = .next s) ∧
    (∀ c, i = .maccLd x → g.stream.usesTile tile true = false → free → g.rowsCheck x = some c →
      exec i s = .next (s.haltStream g.gid 3 c)) ∧
    ((i = .maccLd x → g.rowsCheck x = none) → (g.stream.usesTile tile true = false → ∀ p, p < (s.core g.core).tiles.length →
      g.stream.phys tile = some p ∨ (g.stream.phys tile = none ∧ (s.core g.core).freeTile = some p) →
      ∃ t v, exec i s = .next t ∧ t.group? g.gid = some v ∧ v.stream.phys tile = some p ∧
        v.stream.flight = g.stream.flight ++ [.macc tile (decide (i = .maccLd x))] ∧ v.stream.pc = g.stream.pc + 8 ∧
        v.scratch = g.scratch ∧ v.sheaves = g.sheaves ∧ t.mem = s.mem ∧
        (∀ k, k ≠ p → (t.core g.core).tile k = (s.core g.core).tile k) ∧
        (i = .maccZero x → ((t.core g.core).tile p).acc = [] ∧ ((t.core g.core).tile p).bound = 0 ∧
          ((t.core g.core).tile p).flag = false) ∧
        (i = .maccLd x → cellsWf g.scratch = true →
          (∀ j < fxRows x, ∀ c < 128, cget ((t.core g.core).tile p).acc (128 * (rb + j) + c) =
            raElem (BitVec.ofNat 64 (cgetLE g.scratch (a + j * stride + 8 * c) 8))) ∧
          (∀ k, k / 128 < rb ∨ rb + fxRows x ≤ k / 128 → cget ((t.core g.core).tile p).acc k = 0))))

/-- R291, R309: MOUT takes the rows of its tile as they stand at its issue (log 108), and MOUT_COMPLETE writes the oldest MOUT's rows to
scratch, and no other byte of it; one without .KEEP closes its tile's open record then (log 145), which waits to be written. -/
def Claims.AccumulatorStores : Prop :=
  (∀ (x : FX) (s : State) (g : Group), Streams s g (.mout x) →
    (g.stream.phys (fxTile x) = none → exec (.mout x) s = .next (s.haltStream g.gid 3 0x02)) ∧
    ∀ p, g.stream.phys (fxTile x) = some p →
      (g.stream.usesTile (fxTile x) false = true → exec (.mout x) s = .next s) ∧
      (∀ c, g.stream.usesTile (fxTile x) false = false → g.rowsCheck x = some c →
        exec (.mout x) s = .next (s.haltStream g.gid 3 c)) ∧
      (g.rowsCheck x = none → g.stream.usesTile (fxTile x) false = false →
        ∃ t v rows, exec (.mout x) s = .next t ∧ t.group? g.gid = some v ∧ t.cores = s.cores ∧
          v.stream.flight = g.stream.flight ++ [.mout (fxTile x) rows (!x.fn.getLsbD 1)] ∧ v.stream.pc = g.stream.pc + 8 ∧
          v.scratch = g.scratch ∧ rows.length = fxRows x ∧
          ∀ j < fxRows x, rows[j]? = some ((g.stream.w32 x.a).toNat + j * (g.stream.odd x.b).toNat,
            (((s.core g.core).tile p).row ((g.stream.even x.b).toNat % 128 + j)).map
              (moutWord (x.fn.getLsbD 0) ((s.core g.core).tile p).flag)))) ∧
  (∀ (s : State) (gid : Nat) (g : Group) (l r : List InFlight) (acc : Nat) (rows : List (Nat × List DWord)) (closes : Bool),
    s.group? gid = some g → g.stream.flight = l ++ .mout acc rows closes :: r → (∀ k ∈ l, ∀ a b c, k ≠ .mout a b c) →
    rows.Pairwise (fun a b => a.1 + 8 * a.2.length ≤ b.1) → cellsWf g.scratch = true →
    (∀ v, (s.finishMout g acc rows closes).group? gid = some v →
      (∀ e ∈ rows, ∀ k < e.2.length, cgetLE v.scratch (e.1 + 8 * k) 8 = (e.2.getD k 0).toNat) ∧
      (∀ a, (∀ e ∈ rows, a < e.1 ∨ e.1 + 8 * e.2.length ≤ a) → cget v.scratch a = cget g.scratch a)) ∧
    exec (.moutComplete gid) s = .next ((s.finishMout g acc rows closes).nextStamp gid) ∧
    ((∀ k ∈ l ++ r, ∀ a b c, k ≠ .stamp a b c) → (closes = true → g.stream.rec? acc = none) →
      ∃ v, ((s.finishMout g acc rows closes).nextStamp gid).group? gid = some v ∧ v.stream.flight = l ++ r ∧
        (s.finishMout g acc rows closes).group? gid = some v)) ∧
  (∀ (s : State) (g : Group) (acc : Nat) (rows : List (Nat × List DWord)) (q : OpenRec) (p : Nat), s.group? g.gid = some g →
    .mout acc rows true ∈ g.stream.flight → g.stream.rec? acc = some q → g.stream.phys acc = some p →
    ∃ v, (s.finishMout g acc rows true).group? g.gid = some v ∧ v.stream.rec? acc = none ∧
      v.stream.flight = g.stream.flight.erase (.mout acc rows true) ++
        [.stamp (q.skip s.stc) s.stc ((s.core g.core).tile p).flag])

/-- R289: rows of one MMAG that name one target row are all added to it: the sums of rows taken together are those of the first and
then of the rest. -/
def Claims.RowsOfOneTargetAreAllAdded : Prop :=
  ∀ (t : Tile) (r1 r2 : ARow) (n k : Nat) (b : List (List Int)), cellsWf t.acc = true → r1.row = r2.row → k < 128 →
    (∀ l ∈ b, l.length = 128) → r1.elems.length = b.length → r2.elems.length = b.length →
    let sum (r : ARow) : Int := ((List.range b.length).map (fun j =>
      r.elems.getD j 0 * 2 ^ ((r.scales.getD (j / 32) 0).toNat % 8) * (b.getD j []).getD k 0)).sum
    cget (t.mma [r1, r2] n b).acc (128 * r1.row + k) = raAdd (raAdd (cget t.acc (128 * r1.row + k)) (sum r1)) (sum r2)

/-- R278 to R281, R284 to R291, R298: the instructions of a stream on the matrix unit, and their completions. -/
def Obligations.MatrixInstructions : Prop :=
  Claims.MultiplyAccumulate ∧ Claims.RowsOfOneTargetAreAllAdded ∧ Claims.MatrixCompletions ∧ Claims.AccumulatorLoads ∧ Claims.AccumulatorStores

/-- R91, R283, R298, R312: a running stream that meets an instruction of its own that is a decode fault halts with WHY 3 and the cause
of that fault; an MMA or MMAG has been tried all the same. -/
def Claims.StreamDecodeFaults : Prop :=
  ∀ (i : Instr) (x : FX) (s : State) (g : Group),
    i ∈ [.mma x, .mmag x, .maccZero x, .maccLd x, .mout x, .msig x, .mwait x, .mloopBegin x, .mloopNext x, .mend x, .mtile x,
      .mtileRing x] → s.group? s.cur.gid = some g → g.stream.st = .running →
    let s1 : State := if i = .mma x ∨ i = .mmag x then s.noteTry x else s
    (i.reject ≠ none ∨ i.wf = false → exec i s = .next (s1.haltStream g.gid 3 0x01)) ∧
    (i.reject = none → i.wf = true → i.operandsOk 256 false = false → exec i s = .next (s1.haltStream g.gid 3 0x02))

/-- R228, R270, R278, R281, R283, R292 to R296, R309, R382: MSIG, MWAIT, the loops, MEND, MTILE and MTILE.RING in every path, a
halt, and a matrix band that is gated. -/
def Claims.StreamInstructions : Prop :=
  (∀ (x : FX) (s : State) (g : Group),
    (Streams s g (.msig x) → exec (.msig x) s = .next (if g.stream.flight.any (fun k => match k with
        | .mma .. => false
        | .macc _ ld => ld
        | _ => true) || s.holdsOf (.stream g.gid) then s
      else (s.updGroup g.gid (fun g => g.setPbar s.stc (fxNum x) (pbArrive (g.pbar (fxNum x)) (fxRows x)))).updStream g.gid
        (fun t => { t with pc := t.pc + 8 }))) ∧
    (Streams s g (.mwait x) → exec (.mwait x) s = .next (
      let par := g.stream.parity.getLsbD (fxNum x)
      if pbPh (g.pbar (fxNum x)) = par ∧ g.stream.mwait ≠ some (fxNum x, par, true) then
        s.updStream g.gid (fun t => { t with mwait := some (fxNum x, par, false) })
      else s.updStream g.gid (fun t =>
        { t with parity := setBit t.parity (fxNum x) (!par), mwait := none, pc := t.pc + 8 }))) ∧
    (Streams s g (.mloopBegin x) → exec (.mloopBegin x) s = .next (
      if g.stream.w32 x.a = 0 ∨ 4 ≤ g.stream.loops.length then s.haltStream g.gid 3 0x02
      else s.updStream g.gid (fun t => { t with loops := (g.stream.w32 x.a, t.pc + 8) :: t.loops, pc := t.pc + 8 }))) ∧
    (Streams s g (.mloopNext x) →
      (g.stream.loops = [] → exec (.mloopNext x) s = .next (s.haltStream g.gid 3 0x02)) ∧
      ∀ c va rest, g.stream.loops = (c, va) :: rest →
        (c = 1 → exec (.mloopNext x) s = .next (s.updStream g.gid (fun t => { t with loops := rest, pc := t.pc + 8 }))) ∧
        (c ≠ 1 → exec (.mloopNext x) s = .next
          (s.updStream g.gid (fun t => { t with loops := (c - 1, va) :: rest, pc := va })))) ∧
    (Streams s g (.mend x) →
      (g.stream.flight ≠ [] ∨ s.holdsOf (.stream g.gid) = true → exec (.mend x) s = .next s) ∧
      (g.stream.flight = [] → s.holdsOf (.stream g.gid) = false → ∃ t v, exec (.mend x) s = .next t ∧ t.group? g.gid = some v ∧ v.stream.st = .ended ∧
        v.stream.bind = [] ∧ v.stream.pc = g.stream.pc + 8 ∧ v.scratch = g.scratch ∧
        ∀ k, ((t.core g.core).tile k).owner ≠ some g.gid)) ∧
    (Streams s g (.mtile x) →
      (g.stream.phys (fxTile x) = none → exec (.mtile x) s = .next (s.haltStream g.gid 3 0x02)) ∧
      (g.stream.phys (fxTile x) ≠ none → ∃ t v r, exec (.mtile x) s = .next t ∧ t.group? g.gid = some v ∧
        v.stream.pc = g.stream.pc + 8 ∧ v.stream.rec? (fxTile x) = some r ∧ r.tag = g.stream.w32 x.a ∧
        r.opened = s.stc ∧ r.count = 0 ∧ r.rows = 0 ∧ v.scratch = g.scratch)) ∧
    (Streams s g (.mtileRing x) →
      let va := g.stream.pair x.a
      let k := (g.stream.w32 x.b).toNat
      (va.toNat % 64 ≠ 0 → exec (.mtileRing x) s = .next (s.haltStream g.gid 3 0x04)) ∧
      (va.toNat % 64 = 0 → 16 < k → exec (.mtileRing x) s = .next (s.haltStream g.gid 3 0x02)) ∧
      (va.toNat % 64 = 0 → k ≤ 16 → exec (.mtileRing x) s = .next (s.updStream g.gid (fun t =>
        { t with ring := some { va := va, k := k, pos := 0, seq := (t.ring.map StampRing.seq).getD 0 },
                 pc := t.pc + 8 }))))) ∧
  (∀ (s : State) (gid : Nat) (g : Group) (why : BitVec 4) (cause : BitVec 8), s.group? gid = some g →
    cellsWf g.pbars = true → ∃ v, (s.haltStream gid why cause).group? gid = some v ∧ v.stream.st = .halted ∧
      v.stream.why = why ∧ v.stream.cause = cause ∧ v.stream.pc = g.stream.pc ∧ v.stream.checked = none ∧
      (∀ b < 31, v.pbar b = g.pbar b) ∧
      (g.stream.owes = 0 → g.stream.writes = false → s.holdsOf (.stream gid) = false →
        v.pbar 31 = pbArrive (g.pbar 31) 1 ∧ v.stream.owes = 0) ∧
      (g.stream.writes = true ∨ s.holdsOf (.stream gid) = true →
        v.pbar 31 = g.pbar 31 ∧ v.stream.owes = g.stream.owes + 1)) ∧
  (∀ (s : State) (core band : Nat), band < 4 →
    exec (.bandGate core band) s = .next (
      if (s.core core).gate ≠ 0 ∧ (s.core core).bandUse.getD band 0 + (s.core core).gate.toNat ≤ s.cycle then
        s.updCore core (fun c => { c with gated := setBit c.gated band true })
      else s))

/-- R91, R228, R270, R278, R281, R283, R292 to R296, R298, R309, R312, R382: what a stream executes beside the matrix unit's
instructions, its decode faults and its halts. -/
def Obligations.StreamControlFlow : Prop := Claims.StreamInstructions ∧ Claims.StreamDecodeFaults

/-! ## Sequenced instructions (R314 to R341) -/

/-- R316, R319, R320, R340: a sequenced instruction whose block breaks its limits raises 0x02; one without an active thread
ends with 0, BLND apart; any other joins its core's queue with its block and inputs as they are read, and the tiller
waits. -/
def Claims.SequencedInstructionsIssue : Prop :=
  ∀ (i : Instr) (h : Hdr) (x : FS) (n : Fin 8),
    i ∈ [.rast h x, .trav h x, .filt h x, .blnd h x, .dist h x, .topk h x, .seqx n h x] →
    ∀ (s : State) (f : Frame), Issues s f i →
    let act := f.active h s.cycle
    let r : Rd := { s := s, f := f, lane := none }
    let shape := s.seqShapeOf (dieOf f.g.core) i x
    let inp := shape.2.2.1
    let block := (List.range shape.2.2.2.2.1).map (fun k => r.reg x.b k)
    let ok := blockOk (seqKind i) x.fn f.g.sBytes block
    (ok = false → exec i s = .next ((s.park f (act.lanes.map (f.trapAt 8 0x02 0))).moveOn f i)) ∧
    (ok = true → act = 0 → seqKind i ≠ .blnd → exec i s = .next ((s.retire f i (r.put x.d 0)).advance f i)) ∧
    (ok = true → act ≠ 0 ∨ seqKind i = .blnd → inp ≤ 8 → ∃ q : SeqRun,
      exec i s = .next ((s.updCore f.g.core (fun c => { c with seqQ := c.seqQ ++ [q] })).updT f
        (fun t => { t with st := .eventWait .seq })) ∧
      q.gid = f.g.gid ∧ q.sh = f.sh.idx ∧ q.ti = f.t.idx ∧ q.instr = i ∧ q.mask = act ∧ q.queuedAt = s.cycle ∧
      q.block = block ∧ q.tag = none ∧
      ∀ t ∈ act.lanes, ∀ k < inp, cget q.input (8 * t + k) = Rd.reg { s := s, f := f, lane := some t } x.a k)

/-- R319, R333, R340: the idle sequencer takes the head of its queue. A BLND whose ticket is not the tile's NEXT ends with
callback or order fault; else the threads that begin afresh have their windows written, and it ends when none is left. -/
def Claims.SequencerTakes : Prop :=
  ∀ (s : State) (core : Nat) (run : SeqRun) (rest : List SeqRun) (q : Seq), (s.core core).seqRun = none →
    (s.core core).seqQ = run :: rest → seqKind run.instr ≠ .seqx →
    s.withholds (dieOf core) s.cycle = false →
    let run1 : SeqRun := { run with micro := [] }
    let s1 := s.updCore core (fun c => { c with seqRun := some run1, seqQ := rest })
    s1.seqOf run1 = some q → s1.cutHolds q.g.ctx = false →
    let ahead := ((blkW run.block 1).toNat + 2 ^ 32 - q.next) % 2 ^ 32
    let early := seqKind run.instr = .blnd ∧ ahead ≠ 0
    (early → exec (.seqTake core) s = .next (s1.seqStop core run1 (if ahead < 2 ^ 31 then 0x0101 else 0x0200) [])) ∧
    (¬ early →
      let s2 := ({ s1 with freeCtr := s1.freeCtr + 1 } : State).updSheaf run.gid run.sh (fun x =>
        { (x.write (run.mask.lanes.flatMap (fun t => if q.needsFresh t then q.fresh s1.freeCtr t else q.callback t))) with
          hits := if seqKind run.instr = .trav then q.admitHits x.hits else x.hits })
      ∀ q2, s2.seqOf run1 = some q2 →
        (q2.nextLanes = none → exec (.seqTake core) s = .next (s2.seqDone core q2)) ∧
        (q2.nextLanes ≠ none → exec (.seqTake core) s = .next s2))

/-- R318, R319, R321, R323: a step performs its threads in ascending order and writes their windows; threads that park end the
instruction with 0x0201; while a record is unanswered only the slice test is made. Where SEQX ends for one of those reasons its
reason word holds the same code with a subcode that its microcode declares (which: log 14). -/
def Claims.SequencerSteps : Prop :=
  ∀ (s : State) (core : Nat) (run : SeqRun) (q : Seq), (s.core core).seqRun = some run → s.seqOf run = some q →
    s.cutHolds q.g.ctx = false → s.withholds (dieOf core) s.cycle = false →
    (run.tag ≠ none → exec (.seqStep core) s = .next (if s.sliceDue core run then s.seqStop core run (q.reason s.freeCtr 1 1) []
      else s)) ∧
    (run.tag = none → q.nextLanes = none → exec (.seqStep core) s = .next (s.seqDone core q)) ∧
    (run.tag = none → ∀ ts, q.nextLanes = some ts → (q.runLanes s ts).hold = none →
      let r := q.runLanes s ts
      let t := (({ r.s with freeCtr := r.s.freeCtr + 1 } : State).pendSeq core none).updSheaf run.gid run.sh (fun x => x.write r.writes)
      (r.parks = [] → exec (.seqStep core) s = .next (t.seqAfter core run)) ∧
      (r.parks ≠ [] → exec (.seqStep core) s = .next (t.seqStop core run (q.reason t.freeCtr 1 0x0201) r.parks))) ∧
    (seqKind run.instr ≠ .seqx → ∀ c k w, q.reason c k w = w) ∧
    (seqKind run.instr = .seqx → ∀ c k w, k < 256 → (q.reason c k w).toNat % 256 = k ∧ (q.reason c k w).toNat < 65536 ∧
      ∀ d, q.decl = some d → d.subs ≠ [] → ∃ u ∈ d.subs, (q.reason c k w).toNat / 256 = u % 256)

/-- R325: RAST covers a sample when each edge function is positive there, or 0 on a top or left edge. -/
def Claims.RasterCoverage : Prop :=
  ∀ (b : List Word) (px py : Nat),
    let x : Int := 256 * ((blkW b 0).toInt + px) + 128
    let y : Int := 256 * ((blkW b 1).toInt + py) + 128
    let a (i : Nat) : Int := (blkW b (2 + 4 * i)).toInt
    let c (i : Nat) : Int := (blkW b (3 + 4 * i)).toInt
    let e (i : Nat) : Int := a i * x + c i * y + (blkW b (5 + 4 * i) ++ blkW b (4 + 4 * i)).toInt
    let inside (i : Nat) : Bool := 0 < e i || (e i == 0 && (0 < a i || (a i == 0 && 0 < c i)))
    rastEval b px py = (inside 0 && inside 1 && inside 2,
      [BitVec.ofInt 64 (e 0), BitVec.ofInt 64 (e 1), BitVec.ofInt 64 (e 2)])

/-- R328: the line of a ray meets a triangle whose plane it crosses exactly where the point o + t d has weights 1 − u − v, u and v, none
negative, on the three corners; it meets none that it does not cross (log 52). A box is met first at the least t from tmin to T*, the
current hit's t or tmax, at which the ray is in it. -/
def Claims.RaysMeetTrianglesAndBoxes : Prop :=
  (∀ (r : Ray) (o d a b c : Fin 3 → ℚ), r.o = List.ofFn o → r.d = List.ofFn d →
    let (v0, v1, v2) := (List.ofFn a, List.ofFn b, List.ofFn c)
    let det := vDot (vSub v1 v0) (vCross r.d (vSub v2 v0))
    (det = 0 → triMeet r v0 v1 v2 = none) ∧
    (det ≠ 0 → ∀ t u v : ℚ, triMeet r v0 v1 v2 = some (t, u, v) ↔
      0 ≤ u ∧ 0 ≤ v ∧ u + v ≤ 1 ∧ ∀ k, o k + t * d k = (1 - u - v) * a k + u * b k + v * c k)) ∧
  (∀ (r : Ray) (o d lo hi : Fin 3 → ℚ) (m n : ℚ) (hit : Option ℚ), r.o = List.ofFn o → r.d = List.ofFn d →
    r.tmin.rat? = some m → r.tmax.rat? = some n →
    let inside (t : ℚ) : Prop := m ≤ t ∧ t ≤ hit.getD n ∧ ∀ k, lo k ≤ o k + t * d k ∧ o k + t * d k ≤ hi k
    let near := boxNear r hit (List.ofFn (fun k => (lo k, hi k)))
    (∀ t, near = some t ↔ inside t ∧ ∀ y, inside y → t ≤ y) ∧ (near = none ↔ ∀ t, ¬ inside t))

/-- R330, R331: FILT's texels: the levels of the image, an index wrapped in each mode, a fraction rounded to the nearest multiple of
2^−8 with ties to even, the four texels of a level with their weights, and a channel's sum rounded once. -/
def Claims.FilterSamples : Prop :=
  (∀ (b : List Word) (l : Nat),
    let w0 := (blkW b 2).toNat % 2 ^ 16 + 1
    let h0 := (blkW b 2).toNat / 2 ^ 16 + 1
    let (w, h, base, p) := filtLevel b l
    w = max 1 (w0 / 2 ^ l) ∧ h = max 1 (h0 / 2 ^ l) ∧
    p = (if l = 0 then (blkW b 4).toNat else 256 * ((w * (if (blkW b 3).toNat % 4 = 1 then 8 else 4) + 255) / 256)) ∧
    (l = 0 → base = (blkW b 1 ++ blkW b 0).toNat) ∧ (filtLevel b (l + 1)).2.2.1 = base + p * h) ∧
  (∀ (n : Nat) (i : Int), 1 ≤ n → (wrapIdx 0 n i : Int) = min (max i 0) (n - 1) ∧ (wrapIdx 1 n i : Int) = i % n ∧
    (wrapIdx 2 n i : Int) = (if i % (2 * n) < n then i % (2 * n) else 2 * n - 1 - i % (2 * n))) ∧
  (∀ x : ℚ, let (i, k) := splitFrac x
    let e := x - (i + (k : ℚ) / 256)
    k < 256 ∧ -(1 / 512) ≤ e ∧ e ≤ 1 / 512 ∧ (e = 1 / 512 ∨ e = -(1 / 512) → k % 2 = 0)) ∧
  (∀ (b : List Word) (l : Nat) (u v wt : ℚ) (texel : Nat → ℚ),
    let (w, h, base, p) := filtLevel b l
    let (i, f) := splitFrac (u * w - 1 / 2)
    let (j, g) := splitFrac (v * h - 1 / 2)
    let mode := (blkW b 3).toNat / 2 ^ 8 % 4
    let at_ (x y : Int) : ℚ := texel (base + p * wrapIdx mode h y + (if (blkW b 3).toNat % 4 = 1 then 8 else 4) * wrapIdx mode w x)
    let (f', g') := ((f : ℚ) / 256, (g : ℚ) / 256)
    ((bilTaps b l u v wt).map (fun e => e.1 * texel e.2)).sum = wt * ((1 - f') * (1 - g') * at_ i j + f' * (1 - g') * at_ (i + 1) j +
      (1 - f') * g' * at_ i (j + 1) + f' * g' * at_ (i + 1) (j + 1)) ∧ ∀ e ∈ bilTaps b l u v wt, e.1 ≠ 0) ∧
  (∀ (form c : Nat) (taps : List (ℚ × Nat)), c < 4 →
    let ch (e : ℚ × Nat) : Exact := (texelOf form e.2).getD c .nan
    ((∃ e ∈ taps, ch e = .nan) → filtChannel form c taps = 0x7FC00000) ∧
    (form = 0 → filtChannel form c taps =
      ratWord ((taps.map (fun e => e.1 * ((e.2 / 2 ^ (8 * c) % 256 : Nat) : ℚ) / 255)).sum)) ∧
    (0 < form → ∀ vals : List ℚ, taps.map (fun e => (ch e).rat?) = vals.map some → (∃ e ∈ taps, (ch e).negZero = false) →
      filtChannel form c taps = ratWord ((List.zipWith (fun (e : ℚ × Nat) v => e.1 * v) taps vals).sum)))

/-- R336: DIST's scores: an element is its exact value, a NaN or an infinity gives the canonical NaN, .L2 and .IP round their exact sum
once, and .COS rounds once the sum over the root of the product of the two squares, or gives +0 when one of them is 0. -/
def Claims.DistanceScores : Prop :=
  (∀ (ty bits : Nat), ty < 2 → bits < 2 ^ 16 →
    match ((if ty = 0 then fF16 else fBF16).decode false bits).rat? with
    | some x => ∃ v, distVal ty bits = some v ∧ x = v / 2 ^ distScale ty
    | none => distVal ty bits = none) ∧
  (∀ bits, bits < 256 → distVal 2 bits = some (BitVec.ofNat 8 bits).toInt) ∧
  (∀ (metric ty : Nat) (qs xs : List (Option Int)), none ∈ qs ++ xs → distScore metric ty qs xs = 0x7FC00000) ∧
  (∀ (ty : Nat) (qs xs : List Int),
    let score (metric : Nat) : Nat := distScore metric ty (qs.map some) (xs.map some)
    let rounds (v : Int) : Nat := fF32.round .rne false false false ((Exact.ofInt v).scale (-(2 * distScale ty : Nat)))
    let dot := (List.zipWith (fun x y => x * y) qs xs).sum
    let qq := (qs.map (fun x => x ^ 2)).sum
    let xx := (xs.map (fun x => x ^ 2)).sum
    score 0 = rounds (List.zipWith (fun x y => (x - y) ^ 2) qs xs).sum ∧ score 1 = rounds dot ∧
    (qq = 0 ∨ xx = 0 → score 2 = 0) ∧
    (qq ≠ 0 → xx ≠ 0 → ∃ (m k : Nat) (more : Bool),
      score 2 = fF32.round .rne false false false (.fin (decide (dot < 0)) m (-(k : Int)) more) ∧ 64 ≤ k ∧
      (m : Int) ^ 2 * (qq * xx) ≤ dot ^ 2 * 4 ^ k ∧ dot ^ 2 * 4 ^ k < ((m : Int) + 1) ^ 2 * (qq * xx) ∧
      (more = false ↔ (m : Int) ^ 2 * (qq * xx) = dot ^ 2 * 4 ^ k)))

/-- R334: BLND blends each channel by the source's alpha, which itself blends as 255. -/
def Claims.BlendChannels : Prop :=
  ∀ (src dst k : Nat), k < 4 →
    let ch (v k : Nat) : Nat := v / 2 ^ (8 * k) % 256
    let sc := if k = 3 then 255 else ch src k
    ch (blendPix src dst) k = (sc * ch src 3 + ch dst k * (255 - ch src 3) + 127) / 255

/-- R338: TOPK's list takes a candidate in its place by score and number, and keeps at most KMAX entries. -/
def Claims.TopkLists : Prop :=
  ∀ (mx : Bool) (kmax : Nat) (l : List (Word × Word)) (x : Word × Word),
    (topkMerge mx kmax l x).length = min kmax (l.length + 1) ∧ (∀ e ∈ topkMerge mx kmax l x, e ∈ l ∨ e = x) ∧
    topkInsert mx x l = l.takeWhile (fun y => !topkBefore mx x y) ++ x :: l.dropWhile (fun y => !topkBefore mx x y)

/-- R314 to R341: issue, taking and steps of the sequenced instructions, with the results of RAST, TRAV, FILT, BLND, DIST and TOPK. -/
def Obligations.SequencedInstructions : Prop :=
  Claims.SequencedInstructionsIssue ∧ Claims.SequencerTakes ∧ Claims.SequencerSteps ∧ Claims.RasterCoverage ∧
    Claims.RaysMeetTrianglesAndBoxes ∧ Claims.FilterSamples ∧ Claims.BlendChannels ∧ Claims.DistanceScores ∧ Claims.TopkLists

/-! ## System registers (R371, R372, R384) -/

/-- R20, R371: MOVS gives each reader the system value that its index names. -/
def Claims.SystemValues : Prop :=
  (∀ (h : Hdr) (x : FA), Gives (.movs h x) h x.d (fun r => r.sysValue x.fn.toNat)) ∧
  ∀ r : Rd, (List.range 12).map r.sysValue = [4, 0x00090008, 71, 4, 1024, 48, 32, 32, 12, 32, 96, 1] ∧
    r.sysValue 0x10 = r.s.plat.phase.setWidth 32 ∧
    r.sysValue 0x11 = (credOf r.s.creds r.f.g.core r.f.g.ctx).c.setWidth 32 ∧
    r.sysValue 0x12 = (r.s.core r.f.g.core).sl

/-- What an MTSR of the given width and limits does with the cores that it names and its value: `put` when the value is in
range, Illegal Operand with nothing written when the size, the core or the value is wrong (R372). -/
def Claims.SetsRegister (i : Instr) (h : Hdr) (x : FI) (wide : Bool) (ok : State → Nat → Prop)
    (put : Frame → List Nat → Nat → State → State) : Prop :=
  ∀ (s : State) (f : Frame), Issues s f i →
    let v := mtsrVal { s := s, f := f, lane := none } x
    (f.guardU h s.cycle = false → exec i s = .next (s.advance f i)) ∧
    (f.guardU h s.cycle = true →
      (∀ cs, mtsrCores f x = some cs → (x.fn2 = 1 ↔ wide = true) → ok s v → exec i s = .next ((put f cs v s).advance f i)) ∧
      (mtsrCores f x = none ∨ ¬ (x.fn2 = 1 ↔ wide = true) ∨ ¬ ok s v → exec i s = .next (s.trapAll f i.size 0x02 0)))

/-- R308, R321, R351, R361, R372, R392: each of the core's, the die's and the device's registers of MTSR. -/
def Claims.CoreAndDieRegisters : Prop :=
  ∀ (h : Hdr) (x : FI),
    let onCores (u : CoreSt → Word → CoreSt) (_ : Frame) (cs : List Nat) (v : Nat) (s : State) : State :=
      cs.foldl (fun s c => s.updCore c (fun k => u k (BitVec.ofNat 32 v))) s
    let onDie (u : DieSt → Nat → DieSt) (f : Frame) (_ : List Nat) (v : Nat) (s : State) : State :=
      s.updDie (dieOf f.g.core) (fun d => u d v)
    let flushed (ctx : Nat) (f : Frame) (s : State) : State :=
      (List.range 72).foldl (fun s k => s.bbcFlush (72 * dieOf f.g.core + k) ctx) s
    Claims.SetsRegister (.mtsrHorizon h x) h x false (fun _ v => x.mtsrIndex = 0 ∧ 1 ≤ v ∧ v ≤ 4095)
      (onCores (fun c v => { c with horizon := v })) ∧
    Claims.SetsRegister (.mtsrSl h x) h x false (fun _ v => 16 ≤ v ∧ v ≤ 65535) (onCores (fun c v => { c with sl := v })) ∧
    Claims.SetsRegister (.mtsrGate h x) h x false (fun _ _ => True) (onCores (fun c v => { c with gate := v })) ∧
    Claims.SetsRegister (.mtsrStallchk h x) h x false (fun _ _ => True)
      (onDie (fun d v => { d with stallchk := BitVec.ofNat 32 v })) ∧
    Claims.SetsRegister (.mtsrStarve h x) h x false (fun _ v => v ≠ 0)
      (fun _ _ v s => { s with plat := { s.plat with starve := BitVec.ofNat 32 v } }) ∧
    Claims.SetsRegister (.mtsrWqbase h x) h x true (fun s v => v = 0 ∨ (v % 2 ^ 18 = 0 ∧ s.inHbm v = true))
      (onDie (fun d v => { d with wqbase := BitVec.ofNat 64 v })) ∧
    Claims.SetsRegister (.mtsrPdl h x) h x false (fun _ v => v ≠ 0) (fun _ _ v s =>
      let others := s.plat.pdl.filter (fun e => e.1 != x.mtsrIndex - 8)
      { s with plat := { s.plat with pdl := (x.mtsrIndex - 8, BitVec.ofNat 32 v) :: others } }) ∧
    Claims.SetsRegister (.mtsrBbcb h x) h x true (fun _ v => v % 8 = 0) (fun f cs v s =>
      onDie (fun d v => { d with bbcb := cset d.bbcb (x.mtsrIndex - 0x40) (BitVec.ofNat 64 v) }) f cs v
        (flushed (x.mtsrIndex - 0x40) f s)) ∧
    Claims.SetsRegister (.mtsrBbcn h x) h x false (fun _ _ => True) (fun f cs v s =>
      onDie (fun d v => { d with bbcn := cset d.bbcn (x.mtsrIndex - 0x60) (BitVec.ofNat 32 v) }) f cs v
        (flushed (x.mtsrIndex - 0x60) f s))

/-- R384, R385, R391: each of the gleaner's registers. -/
def Claims.GleanerRegisters : Prop :=
  ∀ (h : Hdr) (x : FI),
    let onCores (u : State → CoreSt → Nat → CoreSt) (_ : Frame) (cs : List Nat) (v : Nat) (s : State) : State :=
      cs.foldl (fun t c => t.updCore c (fun k => u s k v)) s
    Claims.SetsRegister (.mtsrGlnPeriod h x) h x false (fun _ v => v = 0 ∨ (16 ≤ v ∧ v ≤ 16777215))
      (onCores (fun s c v => { c with glnPeriod := BitVec.ofNat 32 v, glnC0 := s.cycle, glnLast := 63 })) ∧
    Claims.SetsRegister (.mtsrGlnCtxm h x) h x false (fun _ _ => True)
      (onCores (fun _ c v => { c with glnCtxm := BitVec.ofNat 32 v })) ∧
    Claims.SetsRegister (.mtsrGlnRing h x) h x true (fun s v => s.glnRingOk v = true) (fun _ cs v s =>
      cs.foldl (fun s c => (s.updCore c (fun k =>
        { k with glnRing := BitVec.ofNat 64 v, glnWidx := 0, glnDrop := 0 })).homeWrite
          ((v / 4096 % 2 ^ 42 * 4096) % 2 ^ 41) (List.replicate 64 0)) s) ∧
    Claims.SetsRegister (.mtsrGlnStart h x) h x false (fun _ v => v % 16 ≤ 4 ∧ v < 2 ^ 28)
      (onCores (fun s c v => { (c.glnForward s.cycle) with glnStart := BitVec.ofNat 32 v })) ∧
    Claims.SetsRegister (.mtsrGlnStop h x) h x false (fun _ v => v % 16 ≤ 4 ∧ v < 2 ^ 28)
      (onCores (fun s c v => { (c.glnForward s.cycle) with glnStop := BitVec.ofNat 32 v })) ∧
    Claims.SetsRegister (.mtsrGlnTstc h x) h x true (fun _ _ => True)
      (onCores (fun s c v => { (c.glnForward s.cycle) with glnTstc := BitVec.ofNat 64 v }))

/-- R371, R372, R384: MOVS and every register of MTSR. -/
def Obligations.SystemRegisters : Prop :=
  Claims.SystemValues ∧ Claims.CoreAndDieRegisters ∧ Claims.GleanerRegisters

/-! ## TLB invalidation, cuts and pre-emption (R360 to R363, R375, R379, R402) -/

/-- R375, R402: TLBI and TLB_INV remove the translations they name from every core and die, and no other, TLBI after a
release; a context that does not exist raises 0x02. -/
def Claims.TlbInvalidation : Prop :=
  (∀ (i : Instr) (h : Hdr) (x : FA) (byCtx : Bool) (scope : Rd → TlbScope),
    (i = .tlbiAll h x ∧ byCtx = false ∧ scope = fun _ => .all) ∨
    (i = .tlbiCtx h x ∧ byCtx = true ∧ scope = fun r => .ctx ((r.w32 x.a).toNat % 64)) ∨
    (i = .tlbiPage h x ∧ byCtx = true ∧ scope = fun r => .page ((r.w32 x.a).toNat % 64) (r.w64 x.b)) →
    Does i (fun f s =>
      let r : Rd := { s := s, f := f, lane := none }
      let c := (r.w32 x.a).toNat % 64
      if f.guardU h s.cycle = false then s.advance f i
      else if byCtx = true ∧ 32 ≤ c ∧ c ≠ 63 then s.trapAll f 8 0x02 0
      else ((s.release f.g.core).tlbi (scope r)).advance f i)) ∧
  (∀ (s : State) (ctx : Nat) (v : BitVec 64), exec (.tlbInv ctx v) s = .next (s.tlbi
    (if v.getLsbD 0 then .ctx ctx else .page ctx (v &&& 0x7FFFFFFFFF0000)))) ∧
  (∀ (s : State) (t : TlbScope) (k : Nat),
    ((s.tlbi t).core k).tlb = (s.core k).tlb.filter (fun e => !t.hits e) ∧
    ((s.tlbi t).die k).tlb = (s.die k).tlb.filter (fun e => !t.hits e) ∧ (s.tlbi t).mem = s.mem ∧
    (s.tlbi t).groups = s.groups)

/-- R362, R363, R379: STOPAT enters a cut, or waits while 4 are pending, and does nothing with a mask of 0. Of the cuts whose
time has come and that nothing holds, the earliest takes effect, in the order issued among equals; a .RUN is held while a
pre-emption that a cut began is unfinished, and its lateness is reported. The fields of that report that R404 does not fix are the
model's choice (log 81). -/
def Claims.Cuts : Prop :=
  (∀ (i : Instr) (h : Hdr) (x : FA) (op : Nat),
    (i = .stopatHalt h x ∧ op = 0) ∨ (i = .stopatRun h x ∧ op = 1) ∨ (i = .stopatPre h x ∧ op = 2) → Does i (fun f s =>
      let r : Rd := { s := s, f := f, lane := none }
      if f.guardU h s.cycle = false ∨ r.w32 x.b = 0 then s.advance f i
      else if 4 ≤ s.cuts.length then s.updT f (fun t => { t with st := .blocked .room })
      else ({ s with cuts := s.cuts ++ [{ op := op, t := (r.w64 x.a).toNat, ctxs := r.w32 x.b, held := false }] } :
        State).advance f i)) ∧
  (∀ s : State,
    let late (c : Cut) : Cut := if c.op = 1 ∧ c.t ≤ s.stc ∧ s.cutPreempting = true then { c with held := true } else c
    let s1 : State := { s with cuts := s.cuts.map late }
    let goes (c : Cut) : Bool := decide (c.t ≤ s.stc) && !(c.op == 1 && s.cutPreempting)
    ((∀ c ∈ s1.cuts, goes c = false) → exec .cutEffect s = .next s1) ∧
    (∀ before c after, s1.cuts.filter goes = before ++ c :: after → (∀ k ∈ before, c.t < k.t) →
      (∀ k ∈ after, c.t ≤ k.t) → exec .cutEffect s = .next (s1.applyCut c))) ∧
  (∀ (s : State) (c : Cut),
    let t := s.applyCut c
    (c.op ≤ 1 → t.cuts = s.cuts.erase c ∧ t.groups = s.groups ∧
      ∀ k < 32, (t.ctxSt k).halted = if c.ctxs.getLsbD k then decide (c.op = 0) else (s.ctxSt k).halted) ∧
    (c.op = 1 → ∃ u : State, u.plat = s.plat ∧
      t = if c.held then u.report 6 0xFF 0xFF 0xFF 0 (s.stc - c.t) else u) ∧
    (c.op = 2 → t = (ctxsOf c.ctxs).foldl (fun s k => s.beginPreempt k true) { s with cuts := s.cuts.erase c }))

/-- R360, R361, R402: a pre-emption is asked for, completes with a report when nothing of the context remains, and is
released; past its deadline, or when the host forces it, the context is reset. Which priority the deadline is of, and what remains
of a context, are the model's reading (log 141), and so are the fields of the report that R404 does not fix (log 81). -/
def Claims.PreEmption : Prop :=
  ∀ (s : State) (ctx : Nat), ctx < 32 →
    exec (.preemptRequest ctx) s = .next (s.beginPreempt ctx false) ∧
    ((s.ctxSt ctx).pre ≠ .preempting → (s.ctxSt ctx).pre ≠ .preempted →
      (∀ g ∈ s.groups, ¬ (g.ctx = ctx ∧ g.kind = .user ∧ g.launch.saves = true)) →
      s.beginPreempt ctx false = s.updCtx ctx (fun c => { c with pre := .preempting, preAt := s.stc, byCut := false })) ∧
    ((s.ctxSt ctx).pre = .preempting → s.remains ctx = false → exec (.preemptComplete ctx) s = .next
      ((s.updCtx ctx (fun c => { c with pre := .preempted, byCut := false })).report 6 ctx 0xFF 0xFF ctx 0)) ∧
    (∃ t, exec (.preemptRelease ctx) s = .next t ∧ (t.ctxSt ctx).pre = .running ∧ t.groups = s.groups ∧
      ∀ m ∈ s.images, (∃ g ∈ m.groups, g.ctx = ctx) → (m.tag.map Prod.fst) = some 2 → m.wanted = none → m.dead = false →
        { m with wanted := some s.stc } ∈ t.images) ∧
    exec (.forcedReset ctx) s = .next (s.resetCtx ctx) ∧
    exec (.preemptDeadline ctx) s = .next (if (s.ctxSt ctx).pre = .preempting ∧
        (s.ctxSt ctx).preAt + s.pdl (s.topPrio ctx) ≤ s.stc then
      (if s.remains ctx then s.resetCtx ctx
       else (s.updCtx ctx (fun c => { c with pre := .preempted, byCut := false })).report 6 ctx 0xFF 0xFF ctx 0)
      else s)

/-- R361: after the reset of a context no group, grid, fault record, residency, batch or translation of it is left, its
queues are STOPPED, and its page reads RESET. -/
def Claims.ContextReset : Prop :=
  ∀ (s : State) (ctx : Nat), ctx < 32 →
    let t := s.resetCtx ctx
    (∀ g ∈ t.groups, g.ctx ≠ ctx) ∧ (∀ x ∈ t.grids, x.ctx ≠ ctx) ∧ (∀ r ∈ t.faults, r.ctx ≠ ctx) ∧
    (∀ c ∈ t.cores, (∀ r ∈ c.ress, r.ctx ≠ ctx) ∧ (∀ b ∈ c.batches, b.ctx ≠ ctx) ∧ ∀ e ∈ c.tlb, e.ctx ≠ ctx) ∧
    (∀ q ∈ t.sqs, q.ctx.toNat = ctx → q.st = .stopped) ∧ (t.ctxSt ctx).pre = .reset

/-- R360 to R363, R375, R379, R402: invalidation, cuts, pre-emption and the reset of a context. -/
def Obligations.InvalidationCutsAndPreemption : Prop :=
  Claims.TlbInvalidation ∧ Claims.Cuts ∧ Claims.PreEmption ∧ Claims.ContextReset

/-! ## Saves, restores and microcode (R274, R356 to R359, R376 to R378) -/

/-- R356, R376: SAVEG of a group that it cannot save gives 1, of an area that is not aligned 2; else its unit enters
QUIESCE and the result comes when the save ends. -/
def Claims.SavegBeginsASave : Prop :=
  ∀ (h : Hdr) (x : FA) (s : State) (f : Frame), Issues s f (.saveg h x) → f.guardU h s.cycle = true →
    let i : Instr := .saveg h x
    let r : Rd := { s := s, f := f, lane := none }
    let now (v : Word) : State := (s.retire f i (r.put x.d v)).advance f i
    (s.located (dieOf f.g.core) (r.w32 x.a) = none → exec i s = .next (now 1)) ∧
    ∀ g, s.located (dieOf f.g.core) (r.w32 x.a) = some g →
      let free := ∀ u ∈ s.unitOf g, u.save = none ∧ (u.st = .resident ∨ u.st = .done ∨ u.st = .reclaim)
      (¬ free → exec i s = .next (now 1)) ∧
      (free → (r.w64 x.b).toNat % 4096 ≠ 0 → exec i s = .next (now 2)) ∧
      (free → (r.w64 x.b).toNat % 4096 = 0 → exec i s = .next ((s.quiesce (s.unitOf g)
        { gid := f.g.gid, sh := f.sh.idx, dst := x.d, area := r.w64 x.b, image := none }).advance f i))

/-- What stands in a state u after a unit of s has left its cores with its image: the image, wanted again when the dispatcher
swapped it for a wait or saved it for a pre-emption that is over; none of its groups, and single cores after FUSE. -/
def Claims.LeftItsCores (s : State) (g : Group) (m : Image) (written u : State) : Prop :=
  (∃ k ∈ u.images, { k with wanted := none } = m ∧
    (k.wanted = some written.stc ↔ g.asked.map Prod.fst = some 1 ∨
      (g.asked.map Prod.fst = some 2 ∧ (written.ctxSt g.ctx).pre = .running))) ∧
  (∀ x ∈ s.unitOf g, ∀ w ∈ u.groups, w.gid ≠ x.gid) ∧
  (g.launch.fuse = true → g.core ∈ written.l1Group g.core → (u.core g.core).fused = none)

/-- R356, R376, R419: a unit with nothing under way passes CHECKPOINT, with the L1s of its cores brought up to date, to
WRITING; its state is then written to the area, it leaves its cores, which are single again after a unit that FUSE joined, and SAVEG gives
0; a fault on the area leaves it RESIDENT and gives 2; a write whose memory does not answer waits, and so does the end while a write
is held. The lines the cores keep are log 73's reading. -/
def Claims.SavesEnd : Prop :=
  ∀ (s : State) (gid : Nat) (g : Group) (q : SaveReq), s.group? gid = some g → g.save = some q →
    (g.st = .quiesce → (∀ u ∈ s.unitOf g, u.st = .done ∨ (u.st = .quiesce ∧ s.quiet u = true)) →
      exec (.saveQuiesced gid) s = .next (((s.unitOf g).foldl (fun s u => s.refresh u.core) s).updUnit (s.unitOf g)
        (fun u => { u with st := if u.st = .done then .done else .writing }))) ∧
    (g.st = .writing → q.image = none →
      let who : Agent := .save (((s.unitOf g).map Group.gid).headD gid)
      let m : Image :=
        { id := s.nextId, groups := (s.unitOf g).map (fun u =>
            { u with save := none, asked := none, granules := [], swapSince := none }),
          tiles := s.boundTiles (s.unitOf g), die := dieOf g.core, tag := g.asked, area := q.area,
          seqx := s.seqxRecord (dieOf g.core), dead := false, wanted := none, asked := false }
      let s0 : State := { s with nextId := s.nextId + 1 }
      let out := s0.writeImage { Use.firmware (s.coreOfGroup q.gid) with who := who } m
      (∀ on, out.1 = .error (.wait on) → exec (.saveWritten gid) s = .next (s.noteWait who on)) ∧
      (∀ e, out.1 = .error e → (∀ on, e ≠ .wait on) → exec (.saveWritten gid) s =
        .next ((((out.2.noteRefusal (out.2.coreOfGroup q.gid) 63 e).dropPend who).updUnit (s.unitOf g) (fun u =>
          { u with save := none, asked := none, st := if u.st = .done then .done else .resident })).giveResult q 2)) ∧
      (out.1 = .ok () → (out.2.dropPend who).holdsOf who = true → exec (.saveWritten gid) s =
        .next ((out.2.dropPend who).updUnit (s.unitOf g) (fun u => { u with save := some { q with image := some m.id } }))) ∧
      (out.1 = .ok () → (out.2.dropPend who).holdsOf who = false →
        ∃ u, exec (.saveWritten gid) s = .next (u.giveResult q 0) ∧ Claims.LeftItsCores s g m out.2 u)) ∧
    (g.st = .writing → ∀ id, q.image = some id →
      let who : Agent := .save (((s.unitOf g).map Group.gid).headD gid)
      let m : Image :=
        { id := id, groups := (s.unitOf g).map (fun u =>
            { u with save := none, asked := none, granules := [], swapSince := none }),
          tiles := s.boundTiles (s.unitOf g), die := dieOf g.core, tag := g.asked, area := q.area,
          seqx := s.seqxRecord (dieOf g.core), dead := false, wanted := none, asked := false }
      (s.holdsOf who = true → exec (.saveWritten gid) s = .next s) ∧
      (s.holdsOf who = false →
        ∃ u, exec (.saveWritten gid) s = .next (u.giveResult q 0) ∧ Claims.LeftItsCores s g m s u)) ∧
    ∀ v : Word, s.giveResult q v = match q.dst with
      | .s n => s.updSheaf q.gid q.sh (fun x =>
          { x with board := x.board ++ [{ mem := false, writes := [{ key := .s n.val, val := v }] }] })
      | _ => s

/-- R358, R359, R376: RESTG of an area that is not aligned, cannot be read or holds no image gives 2, of a unit whose context was
reset 3, under other microcode 4, where the unit does not fit 1, which is tested in this order (log 83); else the unit is placed,
and the result comes when it is back. It waits where its reads do (R419). -/
def Claims.RestgPlacesAnImage : Prop :=
  ∀ (h : Hdr) (x : FA) (s : State) (f : Frame), Issues s f (.restg h x) → f.guardU h s.cycle = true →
    let i : Instr := .restg h x
    let r : Rd := { s := s, f := f, lane := none }
    let die := dieOf f.g.core
    let core := 72 * die + (r.w32 x.a).toNat % 128
    let back (s : State) : List Image := updWhere (fun m => m.area == r.w64 x.b) (fun m => { m with asked := false }) s.images
    let now (v : Word) (s : State) : State := ({ s with images := back s } : State).endSteward f i x.d v
    ((r.w64 x.b).toNat % 4096 ≠ 0 → exec i s = .next (now 2 s)) ∧
    let fits (m : Image) (g : Group) (s : State) : Prop := (r.w32 x.a).toNat % 128 < 72 ∧
      s.fitsAt g.launch core = true ∧
      ∀ u ∈ m.groups, s.streamFits m u (((rectangle g.launch.rect.1 g.launch.rect.2 core).getD []).getD u.pslot core) = true
    ((r.w64 x.b).toNat % 4096 = 0 →
      match s.imageAt f.g.core (r.w64 x.b) with
      | (.error (.wait on), s1) =>
        exec i s = .next ((s1.pendLanes f [(none, on)]).updT f (fun t => { t with st := .blocked .room }))
      | (.error e, s1) => exec i s = .next (now 2 (s1.noteRefusal f.g.core 63 e))
      | (.ok none, s1) => exec i s = .next (now 2 s1)
      | (.ok (some m), s1) =>
        (m.dead = true → exec i s = .next (now 3 s1)) ∧
        (m.dead = false → s1.seqxOk m die = false → exec i s = .next (now 4 s1)) ∧
        match m.groups with
        | [] => m.dead = false → s1.seqxOk m die = true → exec i s = .next (now 2 s1)
        | g :: _ =>
          (m.dead = false → s1.seqxOk m die = true → ¬ fits m g s1 → exec i s = .next (now 1 s1)) ∧
          (m.dead = false → s1.seqxOk m die = true → fits m g s1 → exec i s = .next (((s1.dropPends f).restore m
            core { gid := f.g.gid, sh := f.sh.idx, dst := x.d, area := r.w64 x.b, image := none }).advance f i)))

/-- R274, R356, R358, R360: a placed unit whose granules are all SCRATCH is RESIDENT again, RESTG gives 0, its waits are
evaluated, and it is saved again while its context is pre-empted; the waits of a unit that is away are evaluated with all its
groups, each condition that holds is latched (R232), and a unit swapped out whose wait would release is entered for restore. The
lines that the cores keep are log 73's reading; the evaluation of a wait while its group is away, which drops a fault that it meets,
is that of logs 85 and 153. -/
def Claims.RestoresEnd : Prop :=
  (∀ (s : State) (gid : Nat) (g : Group) (q : SaveReq), s.group? gid = some g → g.save = some q → g.st = .reclaim →
    (∀ u ∈ s.unitOf g, ∀ k ∈ u.granules, k ∉ (s.core u.core).reclaiming) →
    let s1 := (s.unitOf g).foldl (fun s u => s.refresh u.core) s
    let s2 := (s1.updUnit (s.unitOf g) (fun u => u.restored (s1.cycle / 64))).giveResult q 0
    let s3 := (s.unitOf g).foldl (fun s u => s.waitsAnew u.gid) s2
    exec (.restoreDone gid) s = .next
      (if ((s3.ctxSt g.ctx).pre = .preempting ∨ (s3.ctxSt g.ctx).pre = .preempted) ∧ g.launch.saves = true
        then s3.saveAgain gid else s3)) ∧
  (∀ (g : Group) (now : Nat), g.st ≠ .done → (g.restored now).st = .resident ∧ (g.restored now).scratch = g.scratch ∧
    (g.restored now).sheaves.map Sheaf.vregs = g.sheaves.map Sheaf.vregs ∧
    (g.restored now).sheaves.map Sheaf.scalars = g.sheaves.map Sheaf.scalars ∧ (g.restored now).pbars = g.pbars) ∧
  (∀ (s : State) (gid : Nat) (m : Image), s.images.find? (fun m => m.groups.any (fun g => g.gid == gid)) = some m →
    let (n, s1) := s.pollImage m
    let goes := ∃ g ∈ n.groups, ∃ x ∈ g.sheaves, ∃ t ∈ x.tillers, t.wouldRelease s1.stc = true
    let wanted := if n.wanted = none ∧ n.tag.map Prod.fst = some 0 ∧ goes then some s1.stc else n.wanted
    exec (.swapRestoreEntry gid) s = .next (
      if m.dead = true then s
      else { s1 with images := updWhere (fun x => x.id == m.id) (fun _ => { n with wanted := wanted }) s1.images })) ∧
  (∀ (s : State) (f : Frame) (w : WaitSt),
    (w.conds = [] → s.pollConds f w = (w, s)) ∧
    ∀ c, w.conds = [c] → s.pollConds f w =
      if w.latched.getLsbD 0 = true then (w, s)
      else match s.evalCond f c with
        | (.ok true, s1) => ({ w with latched := setBit w.latched 0 true }, s1)
        | (_, s1) => (w, s1)) ∧
  (∀ (s : State) (m : Image),
    (m.swapWaits = [] → s.pollImage m = (m, s)) ∧
    ∀ f w, m.swapWaits = [(f, w)] →
      let away : State := { s with groups := s.groups ++ m.groups }
      (w.noLimit = true ∨ s.stc ≤ w.dlv → s.pollImage m =
        (m.setWait f (away.pollConds f w).1, { (away.pollConds f w).2 with groups := s.groups })) ∧
      (w.noLimit = false → w.dlv < s.stc → s.pollImage m = (m, s)))

/-- R378, R413, R416: MCLD of an image that cannot be read, or whose address is not aligned (log 84), gives 3, that is not
accepted 1, whose declaration is bad 2; else it replaces the slot on the die, or empties it without code, extends MEAS2 and gives 0. -/
def Claims.McldLoadsMicrocode : Prop :=
  ∀ (h : Hdr) (x : FA) (s : State) (f : Frame), Issues s f (.mcld h x) → f.guardU h s.cycle = true →
    let i : Instr := .mcld h x
    let r : Rd := { s := s, f := f, lane := none }
    let die := dieOf f.g.core
    let k := (r.w32 x.a).toNat % 8
    let now (v : Word) (s : State) : State := s.endSteward f i x.d v
    let put (l : List (Nat × List Byte)) (s : State) : State :=
      s.updDie die (fun d => { d with seqx := l ++ d.seqx.filter (fun e => e.1 != k) })
    ((r.w64 x.b).toNat % 64 ≠ 0 → exec i s = .next (now 3 s)) ∧
    ((r.w64 x.b).toNat % 64 = 0 →
      (∀ on s1, s.readImage f.g.core (r.w64 x.b) = (.error (.wait on), s1) →
        exec i s = .next ((s1.pendLanes f [(none, on)]).updT f (fun t => { t with st := .blocked .room }))) ∧
      (∀ e s1, s.readImage f.g.core (r.w64 x.b) = (.error e, s1) → (∀ on, e ≠ .wait on) →
        exec i s = .next (now 3 (s1.noteRefusal f.g.core 63 e))) ∧
      ∀ b s1, s.readImage f.g.core (r.w64 x.b) = (.ok b, s1) →
        exec i s = .next (
          if imageOk 0x51584553 b = false then now 1 s1
          else if imageLen b = 0 ∨ Config.microCodeLen b = 0 then now 0 ((put [] s1).extendWith 2 b)
          else if Config.microDecl b = none then now 2 s1
          else now 0 ((put [(k, b)] s1).extendWith 2 b)))

/-- R377: a read of DSPREQ takes the oldest request of its die, with its kind, tag and locator, and gives 0 when there is
none. -/
def Claims.DispatcherRequests : Prop :=
  ∀ (s : State) (die : Nat),
    ((s.die die).dspreq = [] → exec (.dspreq die) s = .next s ∧ (s.dspPop die).1 = 0) ∧
    ∀ q rest, (s.die die).dspreq = q :: rest →
      exec (.dspreq die) s = .next (s.updDie die (fun d => { d with dspreq := rest })) ∧
      (q.kind < 8 → q.tag < 2 ^ 16 → q.locator < 2 ^ 14 →
        let v : BitVec 64 := BitVec.ofNat 64 (s.dspPop die).1
        v.getLsbD 63 = true ∧ (v.extractLsb' 60 3).toNat = q.kind ∧ (v.extractLsb' 32 16).toNat = q.tag ∧
          (v.extractLsb' 0 14).toNat = q.locator)

/-- R274, R356 to R359, R376 to R378: saves, restores, microcode and the dispatchers' requests. -/
def Obligations.SavesRestoresAndMicrocode : Prop :=
  Claims.SavegBeginsASave ∧ Claims.SavesEnd ∧ Claims.RestgPlacesAnImage ∧ Claims.RestoresEnd ∧ Claims.McldLoadsMicrocode ∧
    Claims.DispatcherRequests

/-! ## Packets and queues (R161, R342 to R349, R380, R381, R399, R403) -/

/-- R343, R344, R348, R349: each packet of a queue that may process it: what it does, and that the queue goes on; one
whose accesses fail stops the queue, one whose access waits stays, and a refused launch is reported and passed. A COPY that R253
would refuse is a command that fails at once, and a COPY of no bytes has ended (log 62). -/
def Claims.PacketsAct : Prop :=
  ∀ (s s1 : State) (q : Nat) (b : List Byte),
    let x := s1.sq q
    let ctx := x.ctx.toNat
    let waits (id : Nat) (t : State) : State :=
      (t.updSq q (fun x => { x with pending := x.pending ++ [(id, x.head.toNat)] })).packetNext q
    (Packet s q 1 b s1 →
      (∀ e s2, s1.feRead q ctx (pktVa b) 64 = (.error e, s2) → exec (.launchPacket q) s = .next (s2.feStop q false e)) ∧
      ∀ d s2, s1.feRead q ctx (pktVa b) 64 = (.ok d, s2) →
        let r := LaunchRec.ofBytes d
        let ok := r.ok = true ∧ r.phase.toNat = pktPhase b
        (¬ ok → exec (.launchPacket q) s = .next (s2.badLaunch q 1)) ∧
        (ok → ∀ e s3, s2.feRead q ctx (r.code - 8) 8 = (.error e, s3) →
          exec (.launchPacket q) s = .next (s3.feStop q false e)) ∧
        (ok → ∀ h s3, s2.feRead q ctx (r.code - 8) 8 = (.ok h, s3) →
          (natOf h ≠ 1 → exec (.launchPacket q) s = .next (s3.badLaunch q 2)) ∧
          (natOf h = 1 → exec (.launchPacket q) s = .next (waits s3.nextId
            { s3 with nextId := s3.nextId + 1, grids := s3.grids ++ [
              { id := s3.nextId, ctx := ctx, launch := r, next := 0, ended := 0, base := min 7 x.prio.toNat,
                readySince := s3.stc, lastPlace := s3.stc, queue := some (q, x.head.toNat), die := none, done := none }] })))) ∧
    (Packet s q 2 b s1 → exec (.phasePacket q) s = .next (s1.packetNext q)) ∧
    (Packet s q 3 b s1 →
      let f (old : Nat) : Nat := if pktNat b 24 1 = 1 then old + pktNat b 16 8 else pktNat b 16 8
      (∀ t, s1.feModify q ctx (pktVa b) (pktNat b 24 1 == 1) f = (.ok (), t) →
        exec (.signalPacket q) s = .next (t.packetNext q)) ∧
      (∀ e t, s1.feModify q ctx (pktVa b) (pktNat b 24 1 == 1) f = (.error e, t) →
        exec (.signalPacket q) s = .next (t.feStop q false e))) ∧
    (Packet s q 4 b s1 →
      let due (t : State) : Nat := if pktNat b 24 8 = 0 then 0 else min (t.stc + pktNat b 24 8) (2 ^ 64 - 1)
      (∀ e s2, s1.waitWord q b = (.error e, s2) → exec (.waitPacket q) s = .next (s2.feStop q false e)) ∧
      (∀ s2, s1.waitWord q b = (.ok true, s2) → exec (.waitPacket q) s = .next (s2.packetNext q)) ∧
      (∀ s2, s1.waitWord q b = (.ok false, s2) → exec (.waitPacket q) s =
        .next ((s2.dropPend (.sq q)).updSq q (fun x => { x with waiting := some (due s2, b) })))) ∧
    (Packet s q 5 b s1 →
      let dst : DWord := BitVec.ofNat 64 (pktNat b 16 8)
      let n : DWord := BitVec.ofNat 64 (pktNat b 24 8)
      let ok := s1.cmdValid 0 (pktVa b) dst n 0
      let s2 : State := { s1 with nextId := s1.nextId + 1 }
      (n = 0 → ok = true → exec (.copyPacket q) s = .next (s2.packetNext q)) ∧
      (n ≠ 0 ∨ ok = false → exec (.copyPacket q) s = .next (waits s1.nextId { s2 with cmds := s1.cmds ++ [
        { id := s1.nextId, owner := none, core := 0, ctx := ctx, eng := 0, a := pktVa b, b := dst, c := n, d := 0,
          batch := none, moved := false, met := false, tag := none, failed := !ok, ended := false, startedAt := s1.stc,
          queue := some q, posted := false, cid := 0, data := none }] }))) ∧
    (Packet s q 6 b s1 → exec (.indirectPacket q) s = .next ((s1.updSq q (fun x =>
      { x with ind := some { va := pktVa b, count := pktNat b 16 4, taken := 0, ahead := [] } })).indAhead q)) ∧
    (Packet s q 7 b s1 →
      (∀ t, s1.feModify q ctx (pktVa b) false (fun _ => s1.stc) = (.ok (), t) →
        exec (.markerPacket q) s = .next (t.packetNext q)) ∧
      (∀ e t, s1.feModify q ctx (pktVa b) false (fun _ => s1.stc) = (.error e, t) →
        exec (.markerPacket q) s = .next (t.feStop q false e)))

/-- R159, R345 to R349, R380, R381: how a queue goes on, how it stops at a malformed packet, how a packet that may not be
processed yet stays, read, and how a refused launch is passed. The reports' fields that R404 does not fix are the model's choice,
among them detail 1 or 2 of a refused launch (logs 62, 81). -/
def Claims.QueuesGoOn : Prop :=
  ∀ (s : State) (q : Nat),
    ((s.sq q).ind = none → (s.packetNext q).sq q = { s.sq q with head := (s.sq q).head + 1 }) ∧
    (∀ i, (s.sq q).ind = some i → i.taken + 1 = i.count →
      (s.packetNext q).sq q = { s.sq q with head := (s.sq q).head + 1, ind := none }) ∧
    ((s.malformed q).sq q).st = .error ∧ ((s.malformed q).sq q).head = (s.sq q).head ∧
    s.feStop q false .fail = s.malformed q ∧
    s.feStop q false .removed = (s.report 9 (s.sq q).ctx.toNat 0xFF 0xFF q 5).malformed q ∧
    (∀ on, s.feStop q false (.wait on) = s.setPend (.sq q) 0 false on.toList) ∧
    (∀ s1 b, s.nextPacket q = some (.ok b, s1) →
      pktPhase b ≠ s.plat.phase.toNat ∨ (pktBar b = true ∧ (s.sq q).pending ≠ []) →
      ∀ i ∈ [Instr.launchPacket q, .phasePacket q, .signalPacket q, .waitPacket q, .copyPacket q, .indirectPacket q,
        .markerPacket q], exec i s = .next s1) ∧
    (∀ r, s.badLaunch q r = (s.report 5 (s.sq q).ctx.toNat 0xFF 0xFF q r).packetNext q)

/-- R344, R348: a WAIT packet in progress is evaluated again: it completes when its condition holds, and stays otherwise; at its
deadline its word is read once more, and unless its condition holds then the timeout is reported and it completes (log 81: the
report's fields that R404 does not fix). -/
def Claims.WaitPacketsEnd : Prop :=
  ∀ (s : State) (q dl : Nat) (b : List Byte), s.waitOf q = some (dl, b) →
    (∀ s2, s.waitWord q b = (.ok true, s2) → exec (.waitPacketReevaluate q) s = .next
      ((s2.updSq q (fun x => { x with waiting := none })).packetNext q)) ∧
    (∀ s2, s.waitWord q b = (.ok false, s2) → exec (.waitPacketReevaluate q) s = .next (s2.dropPend (.sq q))) ∧
    (∀ e s2, s.waitWord q b = (.error e, s2) → exec (.waitPacketReevaluate q) s = .next (s2.feStop q false e)) ∧
    (dl = 0 ∨ s.stc < dl → exec (.waitPacketTimeout q) s = .next s) ∧
    (dl ≠ 0 → dl ≤ s.stc →
      let out (s : State) : State := (s.updSq q (fun x => { x with waiting := none })).packetNext q
      let late (s2 : State) : State := s2.report 6 (s.sq q).ctx.toNat 0xFF 0xFF q (s.sq q).head.toNat
      (∀ s2, s.waitWord q b = (.ok true, s2) → exec (.waitPacketTimeout q) s = .next (out s2)) ∧
      (∀ s2, s.waitWord q b = (.ok false, s2) → exec (.waitPacketTimeout q) s = .next (out (late s2))) ∧
      (∀ on s2, s.waitWord q b = (.error (.wait on), s2) → exec (.waitPacketTimeout q) s = .next (out (late s2))) ∧
      (∀ e s2, s.waitWord q b = (.error e, s2) → (∀ on, e ≠ .wait on) →
        exec (.waitPacketTimeout q) s = .next (s2.feStop q false e)))

/-- R161, R346: when the next packet names another phase and every earlier one has completed, every L1 is cleaned, and the
phase changes. -/
def Claims.PhasesChange : Prop :=
  ∀ (s s1 : State) (q : Nat) (b : List Byte), s.nextPacket q = some (.ok b, s1) →
    (pktPhase b ≠ s.plat.phase.toNat → (s.sq q).pending = [] → exec (.coherenceClean q) s = .next
      { s1.cleanAll with plat := { s1.cleanAll.plat with phase := BitVec.ofNat 16 (pktPhase b) } }) ∧
    (pktPhase b = s.plat.phase.toNat ∨ (s.sq q).pending ≠ [] → exec (.coherenceClean q) s = .next s1)

/-- R342, R399, R403: a doorbell sets TAIL, puts a registered queue whose ring it overruns into ERROR, and reaches from a
virtual function its own context's queues only; a write of STATE registers and starts, or stops, a queue. That a doorbell of a
queue that is not registered only sets TAIL, and that STATE checks TAIL, are the model's readings (logs 91, 146); so are the fields
of reports that R404 does not fix (log 81). -/
def Claims.QueueRegisters : Prop :=
  ∀ (s : State) (q : Nat) (v : BitVec 8) (tail : BitVec 32),
    let x := s.sq q
    let good := x.reg = false ∨ (tail - x.head).toNat ≤ 2 ^ x.logsz.toNat
    (good → exec (.doorbell none q tail) s = .next (s.updSq q (fun x => { x with tail := tail }))) ∧
    (¬ good → exec (.doorbell none q tail) s = .next (s.sqError q)) ∧
    (∀ c, x.reg = false ∨ x.ctx.toNat ≠ c →
      exec (.doorbell (some c) q tail) s = .next (s.report 9 c 0xFF 0xFF q tail.toNat)) ∧
    (∀ c, x.reg = true → x.ctx.toNat = c → exec (.doorbell (some c) q tail) s = exec (.doorbell none q tail) s) ∧
    let room := (x.tail - x.head).toNat ≤ 2 ^ x.logsz.toNat
    (v = 0 → exec (.sqStateWrite q v) s =
      .next ((s.updSq q (fun x => { x with st := .stopped, waiting := none })).dropPend (.sq q))) ∧
    (v = 1 → x.st = .running → exec (.sqStateWrite q v) s = .next s) ∧
    (v = 1 → x.st ≠ .running → x.limitsOk = true → room →
      exec (.sqStateWrite q v) s = .next (s.updSq q (fun x => { x with st := .running, reg := true, waiting := none }))) ∧
    (v = 1 → x.st ≠ .running → x.limitsOk = false ∨ ¬ room → exec (.sqStateWrite q v) s = .next (s.sqError q)) ∧
    (2 ≤ v.toNat → exec (.sqStateWrite q v) s = .next (s.report 9 x.ctx.toNat 0xFF 0xFF (0x40000 + 32 * q) v.toNat)) ∧
    (x.limitsOk = true ↔ x.ring.toNat % 4096 = 0 ∧ 4 ≤ x.logsz.toNat ∧ x.logsz.toNat ≤ 16 ∧ x.ctx.toNat ≤ 31 ∧
      x.prio.toNat ≤ 7)

/-- R161, R342 to R349, R380, R381, R399, R403: packets, the phase and the queues. -/
def Obligations.PacketsAndQueues : Prop :=
  Claims.PacketsAct ∧ Claims.QueuesGoOn ∧ Claims.WaitPacketsEnd ∧ Claims.PhasesChange ∧ Claims.QueueRegisters

/-! ## Placement and ends of groups (R24, R109, R110, R246, R350 to R355) -/

/-- R350 to R355: a dispatcher places the chosen launch's next unit, or asks for the chosen image's restore, and then sees
to those that do not fit. -/
def Claims.DispatchersPlace : Prop :=
  ∀ (s : State) (die : Nat), die < 4 →
    let s1 := s.noteSwap.handOut
    ((s1.choose die (s1.ranked die) []).1 = none → exec (.dispatchPlace die) s = .next
      (s1.makeRoom die (s1.choose die (s1.ranked die) []).2)) ∧
    ∀ x c no, s1.choose die (s1.ranked die) [] = (some (x, c), no) →
      (∀ g, x.what = .inl g → exec (.dispatchPlace die) s = .next ((s1.placeUnit g c).makeRoom die no)) ∧
      (∀ m, x.what = .inr m → exec (.dispatchPlace die) s = .next ((s1.askRestore m c).makeRoom die no)) ∧
      s1.fitsAt x.launch c = true ∧ 72 * die ≤ c ∧ c < 72 * die + 72 ∧
      ∀ k, 72 * die ≤ k → k < c → s1.fitsAt x.launch k = false

/-- R24, R28, R30, R107: a group that is placed starts with its sheaves on quarters in turn, all threads at the code
address, its argument in s0 and s1, every other register 0, and FMT of its launch. -/
def Claims.GroupsStart : Prop :=
  ∀ (s : State) (x : Grid) (core linear pan pslot : Nat), ∃ g,
    (s.addGroup x core linear pan pslot).groups = s.groups ++ [g] ∧
    g.gid = s.nextId ∧ g.kind = .user ∧ g.ctx = x.ctx ∧ g.core = core ∧ g.linear = linear ∧ g.pan = pan ∧
    g.pslot = pslot ∧ g.launch = x.launch ∧ g.scratch = [] ∧ g.stream.st = .idle ∧
    (g.st = .resident ∨ g.st = .reclaim) ∧ g.granules = (s.lent core).take x.launch.granules ∧
    g.sheaves.length = x.launch.sheaves.toNat ∧
    ∀ k y, g.sheaves[k]? = some y → y.idx = k ∧ y.quarter = k % 4 ∧ y.budget = x.launch.budget k ∧ y.exited = 0 ∧
      (∃ t, y.tillers = [t] ∧ t.idx = 0 ∧ t.pc = x.launch.code ∧ t.mask = Mask.full ∧ t.fmt = x.launch.fmt ∧
        t.stack = [] ∧ t.st = .ready) ∧
      y.read (.s 0) = x.launch.arg.setWidth 32 ∧ y.read (.s 1) = (x.launch.arg >>> 32).setWidth 32 ∧
      (∀ n, 2 ≤ n → y.read (.s n) = 0) ∧ (∀ n t, y.read (.v n t) = 0 ∧ y.read (.p n t) = 0) ∧ ∀ n, y.read (.q n) = 0

/-- R246, R272, R393: a stream whose group's sheaves have all ended stops once what it has issued is complete; while something
of a group is under way its end does not come about; of a group that is over, the counts of its context on its core are
written back, and when they have been added the group is done. -/
def Claims.GroupsEnd : Prop :=
  ∀ (s : State) (gid : Nat) (g0 : Group), s.group? gid = some g0 →
    let s1 := if g0.allEnded = true ∧ g0.stream.st = .running ∧ g0.stream.flight = [] then s.freeStream gid .ended else s
    (∀ w ∈ (s.freeStream gid .ended).groups, w.gid = gid → w.stream.st = .ended ∧ w.stream.recs = []) ∧
    ∀ g, s1.group? gid = some g →
      let s2 := (s1.release g.core).bbcFlush g.core g.ctx
      (s1.groupOver g = false → exec (.groupEnd gid) s = .next s1) ∧
      (s1.groupOver g = true → (∃ o ∈ (s2.core g.core).bbcOut, o.ctx = g.ctx) → exec (.groupEnd gid) s = .next s2) ∧
      (s1.groupOver g = true → (∀ o ∈ (s2.core g.core).bbcOut, o.ctx ≠ g.ctx) → ∃ t, exec (.groupEnd gid) s = .next t ∧
        ∀ w ∈ t.groups, w.gid = gid → w.st = .done ∧ w.sheaves = [] ∧ w.stream.st ≠ .running)

/-- R109, R110: a granule whose lines are written back and invalidated is SCRATCH, and a group in RECLAIM all of whose
granules are is RESIDENT. -/
def Claims.GranulesAreReclaimed : Prop :=
  ∀ (s : State) (core k : Nat),
    (k ∉ (s.core core).reclaiming → exec (.reclaimWritebackDone core k) s = .next s) ∧
    (k ∈ (s.core core).reclaiming →
      let s1 := (((s.core core).lines.filter (fun x => x.tag.way == k)).map (fun x => x.tag.line)).foldl
        (fun s l => s.dropLine core l) s
      let s2 := s1.updCore core (fun c => { c with reclaiming := c.reclaiming.filter (fun n => n != k) })
      let ready (g : Group) : Bool := g.core == core && g.st == .reclaim && g.save.isNone &&
        g.granules.all (fun n => !(s2.core core).reclaiming.contains n)
      exec (.reclaimWritebackDone core k) s = .next
        { s2 with groups := updWhere ready (fun g => { g with st := .resident }) s2.groups })

/-- R24, R109, R110, R246, R350 to R355: placement, the start and the end of groups. -/
def Obligations.PlacementAndEnds : Prop :=
  Claims.DispatchersPlace ∧ Claims.GroupsStart ∧ Claims.GroupsEnd ∧ Claims.GranulesAreReclaimed

/-! ## Verdicts, timeouts and readiness (R123 to R128, R157 to R159, R363, R411, R419) -/

/-- R123, R125, R126, R401: a verdict on a record that stands in the ring takes it and goes to its waiter: a fetch is made again or
its tiller traps; the lanes of an operand-log entry replay once none of their pages awaits a verdict, or have failed; an engine
command goes on or fails. Another tag is reported, with fields that R404 does not fix (log 81). -/
def Claims.VerdictsReachTheirWaiter : Prop :=
  ∀ (i : Instr) (v : Verdict) (tag : Nat) (s : State),
    (i = .faultReplyRetry tag ∧ v = .retry) ∨ (i = .faultReplyFailUnresolved tag ∧ v = .fail 0x05) ∨
    (i = .faultReplyFailProtection tag ∧ v = .fail 0x06) →
    ((∀ r ∈ s.faults, ¬ (r.tag = tag ∧ r.written = true)) →
      exec i s = .next (s.report 9 0xFF 0xFF 0xFF 0x90 (tag % 2 ^ 32))) ∧
    ∀ r, s.faults.find? (fun r => r.tag == tag && r.written) = some r →
      let s1 : State := { s with faults := s.faults.filter (fun x => x.tag != tag) }
      (∃ t, exec i s = .next t) ∧
      (∀ gid sh ti f, r.who = .fetch gid sh ti → s.frameOf gid sh ti = some f → f.t.st = .eventWait (.fetch tag) →
        let s2 := s1.updT f (fun t => { t with st := .ready, age := 0 })
        exec i s = .next (match v with
          | .retry => s2
          | .fail c => s2.trapAll f 8 c 3)) ∧
      (∀ gid sh id e, r.who = .log gid sh id → (s.sheaf? gid sh).bind (fun x => x.entry? id) = some e →
        let lanes : Mask := ((e.tags.find? (fun t => t.1 == tag)).map Prod.snd).getD 0
        let left : LogEntry := { e with tags := e.tags.filter (fun t => t.1 != tag) }
        let s2 := s1.updSheaf gid sh (fun x => x.updEntry id (fun _ => left))
        let fresh := (lanes &&& e.mask).lanes.filter (fun t => !e.failed.any (fun k => k.1 == t))
        exec i s = .next (match v with
          | .retry => s2.replay gid sh id (lanes &&& left.idle)
          | .fail c => s2.updSheaf gid sh (fun x => x.updEntry id (fun e =>
              { e with failed := e.failed ++ fresh.map (fun t => (t, c)) }))) ∧
        ∀ t < 64, left.idle.getLsbD t = true ↔
          e.mask.getLsbD t = true ∧ (∀ k ∈ e.failed, k.1 ≠ t) ∧ ∀ k ∈ left.tags, k.2.getLsbD t = false) ∧
      (∀ id, r.who = .cmd id → exec i s = .next (s1.updCmd id (fun c => if c.tag ≠ some tag then c
        else { c with tag := none, failed := c.failed || decide (v ≠ .retry) })))

/-- R126: failed lanes of a log entry whose tiller is at a boundary, with every instruction that it has issued complete, park
with the faulting instruction's PC and the tiller's next as resume point; one that is not yet there waits. FQ_HEAD takes every
value, and gives space to records that wait. -/
def Claims.FailedLanesPark : Prop :=
  (∀ (s : State) (gid sh id : Nat) (e : LogEntry) (f : Frame), (s.sheaf? gid sh).bind (fun x => x.entry? id) = some e →
    f.sh.tillers = [f.t] → s.frameOf gid sh f.t.idx = some f → e.failed ≠ [] →
    (∀ l ∈ e.failed, f.t.mask.getLsbD l.1 = true) → e.idle = 0 →
    let kind := ((memForm e.instr).map MemForm.kind).getD 0
    (f.sh.atBoundary f.t = false → exec (.failedLanesPark gid sh id) s = .next s) ∧
    (f.sh.atBoundary f.t = true → exec (.failedLanesPark gid sh id) s = .next ((s.updSheaf gid sh (fun x => (x.deliverAll).updEntry id (fun k =>
      { k with failed := k.failed.filter (fun l => !(e.failed.map Prod.fst).contains l.1) }))).parkAll
        [(f, e.failed.map (e.trap f.t kind f.g))])) ∧
    (f.sh.atBoundary f.t = true ↔ f.t.todo = none ∧ ∀ o ∈ f.sh.oplog, o.idle &&& f.t.mask = 0 ∧
      ∀ k ∈ o.tags, k.2 &&& f.t.mask = 0) ∧
    ∀ l, (e.trap f.t kind f.g l).pc = e.pc ∧ (e.trap f.t kind f.g l).resume = f.t.pc ∧
      (e.trap f.t kind f.g l).cause = l.2) ∧
  (∀ (s : State) (gid sh id : Nat), (s.sheaf? gid sh).bind (fun x => x.entry? id) = none →
    exec (.failedLanesPark gid sh id) s = .next s) ∧
  (∀ (s : State) (v : BitVec 32),
    exec (.fqHead v) s = .next ({ s with plat := { s.plat with fqHead := v } } : State).fqDrain)

/-- R363, R411, R419: a pending access fails 2,000,000 ticks after it began to wait for its stack, for the fabric, or for a device
that holds a .RUN cut back, and not before; the failure of one that went over the fabric is reported, with fields that R404 does not
fix (log 81). -/
def Claims.PendingAccessesTimeOut : Prop :=
  (∀ (s : State) (id : Nat) (p : Pend),
    (∀ n, s.pends.find? (fun p => p.id == id && p.stack) = some p → p.on = .stack n →
      exec (.stackNotReadyTimeout id) s = .next (if s.stc < p.since + 2000000 then s else s.giveUp p)) ∧
    ((∀ p ∈ s.pends, p.id = id → ∀ n, p.on ≠ .stack n) → exec (.stackNotReadyTimeout id) s = .next s) ∧
    (s.pends.find? (fun p => p.id == id && !p.stack) = some p → exec (.fabricTimeout id) s = .next
      (if s.stc < p.since + 2000000 then s else (s.giveUp p).report 4 (s.agentCtx p.who) 0xFF 0xFF 0 0)) ∧
    ((∀ p ∈ s.pends, p.id = id → ∃ n, p.on = .stack n) → exec (.fabricTimeout id) s = .next s)) ∧
  (∀ (s : State) (p : Pend), let s1 : State := { s with pends := s.pends.filter (fun q => q.id != p.id) }
    (∀ gid sh t f i m, p.who = .thread gid sh (some t) → p.ti < 64 → p.fetch = false → s.frameOf gid sh p.ti = some f →
      s1.peekInstr f.g.core f.g.ctx f.t.pc = some i → memForm i = some m →
      s.giveUp p = (s1.park f [f.trapAt i.size 0x05 (memPayload 0x05 m.kind) t]).updT f (fun t =>
        if t.todo = some 0 ∧ t.mask ≠ 0 then t.advance s.cycle i else t)) ∧
    (∀ gid sh lane f, p.who = .thread gid sh lane → p.ti < 64 → p.fetch = true → s.frameOf gid sh p.ti = some f →
      s.giveUp p = s1.trapAll f 8 0x05 (memPayload 0x05 3)) ∧
    (∀ id, p.who = .cmd id → s.giveUp p = s1.updCmd id (fun c => { c with failed := true })) ∧
    (∀ core id, p.who = .load core id → s.giveUp p = s1.updLoad core id (fun l => { l with failed := some 0x05 })) ∧
    (∀ gid, p.who = .stream gid → p.ti ≠ 1 → s.giveUp p = s1.haltStream gid 3 0x05) ∧
    (∀ core page, p.who = .seq core page →
      s.giveUp p = s1.updRun core (fun q => { q with fails := (page, 0x05) :: q.fails })) ∧
    (∀ q, p.who = .sq q → s.giveUp p = s1.malformed q))

/-- R419: a stack or link that becomes ready sets its bit and no other, and nothing waits for it any more; one that fails clears
its bit and is reported, with fields that R404 does not fix (log 81). -/
def Claims.Readiness : Prop :=
  ∀ (s : State) (bit : Nat),
    (bit < 20 → ∃ t, exec (.readySet 0 bit) s = .next t ∧ t.plat.ready1 = s.plat.ready1 ∧
      t.pends = (if bit < 8 then s.pends else s.pends.filter (fun p => p.on != .stack (bit - 8))) ∧
      ∀ k < 64, t.plat.ready0.getLsbD k = (s.plat.ready0.getLsbD k || decide (k = bit))) ∧
    (bit < 48 → ∃ t, exec (.readySet 1 bit) s = .next t ∧ t.plat.ready0 = s.plat.ready0 ∧
      t.pends = s.pends.filter (fun p => p.on != .fabric) ∧
      ∀ k < 64, t.plat.ready1.getLsbD k = (s.plat.ready1.getLsbD k || decide (k = bit))) ∧
    (∀ reg : Fin 2, (if reg = 0 then s.plat.ready0 else s.plat.ready1).getLsbD bit = true → ∃ u : State,
      exec (.readyClear reg bit) s = .next (u.report 6 0xFF 0xFF 0xFF (0x40 + 8 * reg.val) bit) ∧ u.mem = s.mem ∧
      (if reg = 0 then u.plat.ready1 = s.plat.ready1 else u.plat.ready0 = s.plat.ready0) ∧
      ∀ k < 64, (if reg = 0 then u.plat.ready0 else u.plat.ready1).getLsbD k =
        ((if reg = 0 then s.plat.ready0 else s.plat.ready1).getLsbD k && decide (k ≠ bit))) ∧
    (∀ reg : Fin 2, (if reg = 0 then s.plat.ready0 else s.plat.ready1).getLsbD bit = false →
      exec (.readyClear reg bit) s = .next s)

/-- R157 to R159: a read-duplicated page: a holder that drops its replica, and the clean lines that its caches hold of the page,
acknowledges; when the last acknowledgement comes, or 2,000,000 ticks have passed, the held writes are performed and the page is
owned by the last writer's device. The reports of holders that do not acknowledge have fields that R404 does not fix (log 81). -/
def Claims.ReadDuplication : Prop :=
  (∀ (s : State) (page dev : Nat), exec (.rdDropRequest page) s = exec (.rdDropAck page s.devnum) s ∧
    (let s1 := s.updRd page (fun e =>
      { e with due := e.due.filter (fun d => d != dev), holders := e.holders.filter (fun d => d != dev),
               replica := if dev = s.devnum then none else e.replica })
     exec (.rdDropAck page dev) s = .next ((if dev = s.devnum then
       { s1 with cores := s1.cores.map (fun c =>
          { c with lines := c.lines.filter (fun x => x.tag.line / 128 != page || !x.wrote.isEmpty) }) } else s1).rdPerform page))) ∧
  (∀ (s : State) (page : Nat) (e : RdPage), s.rds.find? (fun e => e.page == page) = some e →
    (e.due ≠ [] → s.rdPerform page = s) ∧
    (e.due = [] → (∀ w ∈ e.held, w.bytes ≠ []) → ∀ w ws, e.held = ws ++ [w] → ∃ k, (s.rdPerform page).rds.find? (fun e => e.page == page) = some k ∧
      k.held = [] ∧ k.holders = [] ∧ k.replica = none ∧ k.owner = some w.dev) ∧
    (e.due ≠ [] → s.stc < e.since + 2000000 → exec (.rdAckTimeout page) s = .next s) ∧
    (e.due ≠ [] → e.since + 2000000 ≤ s.stc → 
      exec (.rdAckTimeout page) s = .next (((e.due.foldl (fun s d => s.report 4 0xFF 0xFF 0xFF (page * 65536) d) s).updRd
        page (fun e =>
          { e with due := [], holders := e.holders.filter (fun d => !e.due.contains d),
                   removed := e.removed ++ e.due.filter (fun d => !e.removed.contains d) })).rdPerform page)))

/-- R123 to R128, R157 to R159, R363, R411, R419: verdicts, timeouts, readiness and read-duplicated pages. -/
def Obligations.VerdictsAndTimeouts : Prop :=
  Claims.VerdictsReachTheirWaiter ∧ Claims.FailedLanesPark ∧ Claims.PendingAccessesTimeOut ∧ Claims.Readiness ∧
    Claims.ReadDuplication

/-! ## Handler sheaves, the gleaner, power and heat (R19, R130, R131, R133, R364, R365, R368, R385 to R390, R415, R420,
R426) -/

/-- R364, R365, R368: a batch closes 64 cycles after its first entry; a closed one becomes a handler sheaf on the quarter
with the most free registers, with a thread for each entry and their number in s2; without handler code, or without room
for 2,000,000 ticks, it is a double fault. -/
def Claims.HandlerSheaves : Prop :=
  ∀ (s : State) (core ctx : Nat),
    (∃ t, exec (.handlerBatchClose core ctx) s = .next t ∧ t.groups = s.groups ∧ t.mem = s.mem ∧
      (t.core core).batches = (s.core core).batches.map (fun b =>
        if b.ctx = ctx ∧ b.closed = none ∧ b.opened + 64 ≤ s.cycle then { b with closed := some s.cycle } else b)) ∧
    ((s.core core).closedBatch ctx = none → exec (.handlerSheafStart core ctx) s = .next s ∧
      exec (.handlerRoomTimeout core ctx) s = .next s) ∧
    ∀ b, (s.core core).closedBatch ctx = some b →
      let regs := (s.handlerOf ctx).2.2
      ((s.handlerOf ctx).1 = 0 → exec (.handlerSheafStart core ctx) s = .next (s.noHandler core b)) ∧
      ((s.handlerOf ctx).1 ≠ 0 → s.handlerQuarter core regs = none → exec (.handlerSheafStart core ctx) s = .next s) ∧
      ((s.handlerOf ctx).1 ≠ 0 → ∀ q, s.handlerQuarter core regs = some q →
        s.quarterFits core q [regs] = true ∧
        (∀ k < 4, s.quarterFits core k [regs] = true → s.freeRegs core k ≤ s.freeRegs core q ∧
          (s.freeRegs core k = s.freeRegs core q → q ≤ k)) ∧
        ∃ t g y u, exec (.handlerSheafStart core ctx) s = .next t ∧ t.groups = s.groups ++ [g] ∧ g.kind = .handler ∧
          g.ctx = ctx ∧ g.core = core ∧ g.entries = b.entries ∧ g.sheaves = [y] ∧ y.quarter = q ∧ y.budget = regs ∧
          y.tillers = [u] ∧ u.pc = (s.handlerOf ctx).1 ∧ u.mask = Mask.ofLanes (List.range b.entries.length) ∧
          u.fmt = 0 ∧ y.read (.s 0) = (s.handlerOf ctx).2.1.setWidth 32 ∧
          y.read (.s 1) = ((s.handlerOf ctx).2.1 >>> 32).setWidth 32 ∧
          y.read (.s 2) = BitVec.ofNat 32 b.entries.length ∧ (t.core core).batches = (s.core core).batches.erase b) ∧
      exec (.handlerRoomTimeout core ctx) s = .next
        (if stcAt (b.closed.getD 0) + 2000000 ≤ s.stc then s.noHandler core b else s)

/-- R385 to R390: at the start of a core's sample cycle the next sheaf in turn is chosen, going round after slot 63; once the cycle
is over, the sample clock goes on, and inside the window the chosen sheaf's record is put into the ring; before that nothing comes
about. -/
def Claims.GleanerSamples : Prop :=
  ∀ (s : State) (core : Nat),
    (s.glnDue core = false → exec (.gleanerSample core) s = .next s) ∧
    (s.glnDue core = true →
      let k := (s.core core).glnC0 + (s.core core).glnPeriod.toNat
      let s1 := s.updCore core (fun c => { (c.glnForward k) with glnC0 := k })
      ((s1.core core).chosen k = none → exec (.gleanerSample core) s = .next s1) ∧
      ∀ e, (s1.core core).chosen k = some e →
        let s2 := s1.updCore core (fun c => { c with glnLast := e.slot })
        ((s2.core core).windowOpen k = false → exec (.gleanerSample core) s = .next s2) ∧
        ((s2.core core).windowOpen k = true → ∀ b, (s2.core core).glnBytes k e (s2.issuedAt core k e) = some b →
          exec (.gleanerSample core) s = .next (s2.glnPut core b))) ∧
    (s.glnSheaves core = [] → s.glance core = none) ∧
    (s.glnSheaves core ≠ [] → ∃ e g x, s.glance core = some e ∧ (e.slot, g, x) ∈ s.glnSheaves core ∧
      e.gid = g.gid ∧ e.sh = x.idx ∧ e.ctx = g.ctx ∧ e.linear = g.linear ∧ (e.handler = true ↔ g.kind = .handler) ∧
      e.tillers.map GlnTiller.pc = x.tillers.map Tiller.pc ∧
      ∀ o ∈ s.glnSheaves core,
        (e.slot + 127 - (s.core core).glnLast) % 64 ≤ (o.1 + 127 - (s.core core).glnLast) % 64)

/-- R18, R19, R401, R420: a power cap is clamped to 800 to 2,200 W and takes effect at the next interval of 1,000 ticks, when
it is divided in proportion to demand; a die whose demand exceeds its share withholds cycles; a die at its limit has its share
lowered, and one that has recovered has it whole again. The rounding of a share is the model's choice (log 125). -/
def Claims.PowerAndHeat : Prop :=
  ∀ (s : State),
    (∀ w : BitVec 32, let v := max 800 (min 2200 w.toNat)
      let t : State := { s with plat := { s.plat with powerNext := some (BitVec.ofNat 32 v) } }
      exec (.powerCap w) s = .next (if v = w.toNat then t else t.report 9 0xFF 0xFF 0xFF 0x60 v)) ∧
    (s.stc / 1000 = s.plat.powerAt → exec .powerInterval s = .next s) ∧
    (s.stc / 1000 ≠ s.plat.powerAt → ∃ t, exec .powerInterval s = .next t ∧
      t.plat.powerCap = s.plat.powerNext.getD s.plat.powerCap ∧ t.plat.powerNext = none ∧
      t.plat.powerAt = s.stc / 1000 ∧ t.groups = s.groups ∧ t.mem = s.mem ∧ (∀ d, (t.die d).hot = (s.die d).hot) ∧
      ∀ d < 4, (t.die d).full = shareOf t.plat.powerCap.toNat ((List.range 4).map (fun d => (t.die d).demand)) d ∧
        ((t.die d).scant = true ↔ (t.die d).share < (t.die d).demand) ∧
        ((t.die d).hot = false → (t.die d).share = (t.die d).full)) ∧
    (∀ (cap : Nat) (demand : List Nat) (d : Nat), shareOf cap demand d =
      if demand.sum = 0 then cap / 4 else cap * demand.getD d 0 / demand.sum) ∧
    (∀ die cycle, (s.die die).scant = false → s.withholds die cycle = false) ∧
    (∀ die, die < 4 →
      ((s.die die).hot = true → exec (.thermalLimit die) s = .next s) ∧
      ((s.die die).hot = false → ∃ u : State, exec (.thermalLimit die) s = .next (u.report 10 0xFF die 0xFF 0 95) ∧
        (u.die die).hot = true ∧ u.mem = s.mem ∧ u.groups = s.groups ∧
        ((s.die die).share ≠ 0 → (u.die die).share < (s.die die).share)) ∧
      exec (.thermalRecovery die) s = .next (if (s.die die).hot = true then s.updDie die (fun x =>
        { x with share := x.full, hot := false, scant := decide (x.full < x.demand) }) else s))

/-- R16, R401, R411, R413, R415, R420, R426: a module reset leaves every register at its reset value but for NEXTIDX, and
the four ROMs start the flash image if it is accepted; a loss of power and a shutdown leave nothing running. Only Tuizel writes
flash, with an image that is accepted; an update cut short leaves none. That local HBM is cleared with the module is the model's
reading (log 112), and so are the turns of an update of flash (log 150). -/
def Claims.ResetAndLossOfPower : Prop :=
  ∀ (s : State), let cold (powered : Bool) : State :=
      { State.reset with sign := Sign.reset s.sign.idxNext, hostMem := s.hostMem, remote := s.remote, peers := s.peers,
                         latePeers := s.latePeers, powered := powered, flash := s.flash }
    let image := s.flash.getD Config.flashImage
    exec .powerLoss s = .next (cold false) ∧ exec .thermalShutdown s = .next (cold false) ∧
    exec .moduleReset s = .next (if imageOk 0x4C5A5554 image = true then
      ({ cold true with mem := csets [] tuizelCode ((image.drop 64).take (imageLen image)) } :
        State).boot image false (BitVec.ofNat 64 tuizelCode) else cold true) ∧
    (∀ new whole, s.updateFlash new whole = if (∃ g ∈ s.groups, g.kind = .steward) ∧ imageOk 0x4C5A5554 new = true then
      { s with flash := some (if whole then new else []) } else s) ∧
    (∀ image recovery code, let t := s.boot image recovery code
      t.plat.devnum = Config.bootDevnum.val ∧ t.mem = s.mem ∧
      t.groups.length = s.groups.length + 4 ∧
      ∀ d < 4, ∃ g ∈ t.groups, g.kind = .steward ∧ g.ctx = 63 ∧ g.core = 72 * d ∧
        ∃ x u, g.sheaves = [x] ∧ x.tillers = [u] ∧ u.pc = code ∧ u.mask = Mask.full ∧ u.st = .ready)

/-- R130, R131, R133: time passes to the next winnow tick; a recount of a cache's fills gives the context's credibility
from the lines kept and expired. -/
def Claims.WinnowClock : Prop :=
  (∀ s : State, ∃ t, exec .winnowTick s = .next t ∧ t.cycle = (s.cycle / 64 + 1) * 64 ∧
    ((∀ c ∈ s.cores, c.glnPeriod = 0) → t.mem = s.mem ∧ ((∀ d ∈ s.dies, d.scant = false) → t.groups = s.groups))) ∧
  (∀ (s : State) (k slice ctx : Nat),
    exec (.credibilityRecount (some k) slice ctx) s = .next { s with creds := s.creds.map (fun c =>
      if c.cache = k ∧ c.ctx = ctx ∧ 65536 ≤ c.fills then c.recount else c) } ∧
    exec (.credibilityRecount none slice ctx) s = .next { s with l2creds := s.l2creds.map (fun c =>
      if c.cache = slice ∧ c.ctx = ctx ∧ 65536 ≤ c.fills then c.recount else c) }) ∧
  (∀ c : Cred, c.recount.kept = 0 ∧ c.recount.expired = 0 ∧ c.recount.fills = c.fills - 65536 ∧
    (c.kept + c.expired = 0 → c.recount.c = c.c) ∧
    (0 < c.kept + c.expired → c.recount.c.toNat = min 7 (8 * c.kept / (c.kept + c.expired))))

/-- R19, R130, R131, R133, R364, R365, R368, R385 to R390, R411, R415, R420, R426: handler sheaves, the gleaner, power, heat,
reset and the winnow clock. The places of Tuizel's code and its group are the model's choice (log 15). -/
def Obligations.HandlersGleanerPowerAndReset : Prop :=
  Claims.HandlerSheaves ∧ Claims.GleanerSamples ∧ Claims.PowerAndHeat ∧ Claims.ResetAndLossOfPower ∧ Claims.WinnowClock

/-! ## Accesses from outside and registers (R16, R160, R398 to R403, R405, R406, R411, R412) -/

/-- R398, R419: an access of the host is performed, or waits and is tried again; one through the register space reads or writes
its registers, and one through a function that does not exist is nothing. One that reaches nothing is aborted, and is reported when
it lay beyond HBM or came through a virtual function. That one that must wait stands in a list of the model's is log 86, and the
reports' fields that R404 does not fix are log 81. -/
def Claims.AccessesOfTheHost : Prop :=
  ∀ (s s1 s2 : State) (port : HostPort) (addr : BitVec 64) (w : Option (List (BitVec 8))) (n : Nat) (ps : List (Nat × Nat)),
    let len := match w with
      | some b => b.length
      | none => n
    let ctx := match port with
      | .vf c => c
      | _ => 0xFF
    let abort (s : State) : State :=
      let s : State := { s with out := s.out ++ [HostOut.abort port] }
      match port with
        | .pf => if hbmEnd < addr.toNat + len then s.report 9 0xFF 0xFF 0xFF addr.toNat 0 else s
        | .vf c => s.report 9 c 0xFF 0xFF addr.toNat 0
        | .regs => s
    (∀ u, s.hostPerform port addr w n = .ok u → exec (.hostAccess port addr w n) s = .next u) ∧
    (∀ on, s.hostPerform port addr w n = .error on → exec (.hostAccess port addr w n) s = .next
      (({ s with nextId := s.nextId + 1, hostAccs := s.hostAccs ++ [
        { id := s.nextId, port := port, addr := addr, write := w, len := n }] } : State).noteWait (.host s.nextId) on)) ∧
    (port = .regs →
      (2 ^ 24 < addr.toNat + len → s.hostPerform port addr w n = .ok (abort s)) ∧
      (addr.toNat + len ≤ 2 ^ 24 → w = none → s.hostPerform port addr w n =
        .ok { s with out := s.out ++ [HostOut.data ((List.range n).map (fun i => s.regByte false (addr.toNat + i)))] }) ∧
      ∀ b, w = some b → addr.toNat + len ≤ 2 ^ 24 → b ≠ [] → addr.toNat % 8 + b.length ≤ 8 →
        let write : Instr := .registerWrite false (BitVec.ofNat 24 addr.toNat) b.length (BitVec.ofNat 64 (natOf b))
        s.hostPerform port addr w n = .ok (s.putRegTurn { cycles := 0, act := .event write })) ∧
    (∀ c, port = .vf c → 32 ≤ c → s.hostPerform port addr w n = .ok s) ∧
    (port = .pf ∨ (∃ c < 32, port = .vf c) →
      (∀ e, s.hostParts port addr w.isSome len = (.error e, s1) → s.hostPerform port addr w n =
        match e with
        | .wait on => .error on
        | .fail | .removed => .ok (abort s1)) ∧
      (s.hostParts port addr w.isSome len = (.ok ps, s1) →
        (∀ e, s1.outsideAccess ctx s1.devnum ps w = (.error e, s2) → s.hostPerform port addr w n =
          match e with
          | .wait on => .error on
          | .fail | .removed => .ok (abort s2)) ∧
        ∀ d, s1.outsideAccess ctx s1.devnum ps w = (.ok d, s2) → s.hostPerform port addr w n =
          .ok (if w = none then { s2 with out := s2.out ++ [HostOut.data d] } else s2)) ∧
      (port = .pf →
        (hbmEnd < addr.toNat + n → s.hostParts port addr w.isSome n = (.error .fail, s)) ∧
        (addr.toNat + n ≤ hbmEnd → s.hostParts port addr w.isSome n =
          (.ok ((chunksOf addr.toNat n).map (fun c => (s.localPa c.1, c.2))), s))))

/-- R16, R159, R363, R411: a request of another device is held back while its context's .RUN cut is (log 142); it is refused unless
ADMIT names the device and it asks for this device's HBM, with a report when it asks for the unpopulated range or comes from a device
that was removed from the page's holders; else it is performed. The reports' fields that R404 does not fix are log 81. -/
def Claims.RequestsOfOtherDevices : Prop :=
  ∀ (s : State) (by_ : Requester) (addr : BitVec 64) (w : Option (List (BitVec 8))) (n : Nat),
    let ps := chunksOf addr.toNat (match w with
      | some b => b.length
      | none => n)
    let i : Instr := .fabricRequest by_ addr w n
    let answer (d : Option (List Byte)) (s : State) : State := { s with out := s.out ++ [HostOut.fabric by_.dev d] }
    let told (s : State) : State := (answer none s).report 9 0xFF 0xFF 0xFF addr.toNat by_.dev
    (s.runHeld by_.ctx = true ↔ by_.ctx < 32 ∧ ∃ c ∈ s.cuts, c.held = true ∧ c.ctxs.getLsbD by_.ctx = true) ∧
    (s.runHeld by_.ctx = true → exec i s = .next s) ∧
    (s.runHeld by_.ctx = false →
      (s.admits by_.dev = false ∨ (∃ p ∈ ps, s.isLocal p.1 = false) → exec i s = .next (answer none s)) ∧
      (s.admits by_.dev = true → (∀ p ∈ ps, s.isLocal p.1 = true) →
        ((∃ p ∈ ps, s.inHole p.1 = true) → exec i s = .next (told s)) ∧
        ((∀ p ∈ ps, s.inHole p.1 = false) → (∃ p ∈ ps, s.inHbm p.1 = false) → exec i s = .next (answer none s)) ∧
        ((∀ p ∈ ps, s.inHole p.1 = false) → (∀ p ∈ ps, s.inHbm p.1 = true) → exec i s = .next
          (match s.outsideAccess by_.ctx by_.dev ps w with
            | (.error (.wait _), _) => s
            | (.error .removed, s2) => told s2
            | (.error .fail, s2) => answer none s2
            | (.ok d, s2) => answer (some d) s2))))

/-- R157 to R160, R164, R405, R411, R419: an access from outside to one line reads, or writes, the bytes at their home: it waits for
the home's stack, for the fabric, or for a write that is held; it fails on poison, and where its device was removed from the page. -/
def Claims.AccessesAtTheHome : Prop :=
  ∀ (s : State) (ctx dev pa n l : Nat), s.cmds = [] → (s.homeOf pa = .hbm l →
    (s.stackReady l = false → ∀ w, s.outsideAccess ctx dev [(pa, n)] w = (.error (.wait (some (.stack (stackOf l)))), s)) ∧
    (s.stackReady l = true →
      (s.rdOf pa = none → s.outsideAccess ctx dev [(pa, n)] none =
        (if s.poisoned l n = true then .error .fail else .ok (cgets s.mem l n), s)) ∧
      (s.rdOf pa = none → ∀ b, b.length = n → s.outsideAccess ctx dev [(pa, n)] (some b) =
        (.ok [], s.homeMerge (pa / 512) (cellsAt pa b))) ∧
      (∀ e, s.rdOf pa = some e → dev ∈ e.removed → s.outsideAccess ctx dev [(pa, n)] none = (.error .removed, s)) ∧
      (∀ e, s.rdOf pa = some e → dev ∉ e.removed → e.held ≠ [] →
        s.outsideAccess ctx dev [(pa, n)] none = (.error (.wait none), s)) ∧
      (∀ e, s.rdOf pa = some e → e.holders = [] → e.held = [] → ∀ b, b.length = n →
        s.outsideAccess ctx dev [(pa, n)] (some b) =
          (.ok [], (s.homeMerge (pa / 512) (cellsAt pa b)).rdOwn e.page dev)) ∧
      (∀ e, s.rdOf pa = some e → e.holders ≠ [] ∨ e.held ≠ [] → ∀ b, b.length = n →
        s.outsideAccess ctx dev [(pa, n)] (some b) =
          (.ok [], s.rdWrite { dev := dev, pa := pa, bytes := b, who := .other })))) ∧
    (∀ p, s.homeOf pa = .far p →
      (s.fabricUp = false → ∀ w, s.outsideAccess ctx dev [(pa, n)] w = (.error (.wait (some .fabric)), s)) ∧
      (s.fabricUp = true → s.lateFor ctx p = true →
        ∀ w, s.outsideAccess ctx dev [(pa, n)] w = (.error (.wait (some (.peer (p / 2 ^ 41)))), s)) ∧
      (s.fabricUp = true → s.lateFor ctx p = false → s.rdOf pa = none →
        s.outsideAccess ctx dev [(pa, n)] none =
          (if s.admitted p = true ∧ p % 2 ^ 41 < hbmEnd then .ok (s.homeBytes pa n) else .error .fail, s))) ∧
    (s.homeOf pa = .hole → ∀ w, s.outsideAccess ctx dev [(pa, n)] w = (.error .fail, s))

/-- R16, R157 to R160, R164, R363, R398, R405, R411, R419: the accesses of the host and of other devices. -/
def Claims.AccessesFromOutside : Prop :=
  Claims.AccessesOfTheHost ∧ Claims.RequestsOfOtherDevices ∧ Claims.AccessesAtTheHome

/-- R400 to R403, R414, R421: a write of the register space is performed on each register that it meets. One
beyond the writer's reach changes nothing. -/
def Claims.RegisterWrites : Prop :=
  (∀ (s : State) (steward : Bool) (off : BitVec 24) (n : Nat) (v : BitVec 64),
    exec (.registerWrite steward off n v) s = .next ((regsMet steward off.toNat (min 8 n)).foldl (fun t r =>
      t.writeReg r.1 r.2 (t.merged steward off.toNat (min 8 n) v.toNat r)) s)) ∧
  (∀ (s : State) (c : Nat) (v : BitVec 64), c < 32 →
    let page (o : Nat) : BitVec 24 := BitVec.ofNat 24 (0x10000 + 0x1000 * c + o)
    exec (.registerWrite false (page 0x28) 8 v) s = .next (s.updCtx c (fun x => { x with hndCode := v })) ∧
    exec (.registerWrite false (page 0x30) 8 v) s = .next (s.updCtx c (fun x => { x with hndArg := v })) ∧
    (v = 1 → exec (.registerWrite false (page 0x40) 4 v) s = exec (.preemptRequest c) s) ∧
    (v = 2 → exec (.registerWrite false (page 0x40) 4 v) s = exec (.preemptRelease c) s) ∧
    (v = 3 → exec (.registerWrite false (page 0x40) 4 v) s = exec (.forcedReset c) s)) ∧
  (∀ (s : State) (v : BitVec 64),
    exec (.registerWrite false 0x380 8 v) s = .next s ∧
    exec (.registerWrite true 0x388 8 v) s = .next { s with plat := { s.plat with fwHndCode := v } } ∧
    exec (.registerWrite true 0x390 8 v) s = .next { s with plat := { s.plat with fwHndArg := v } } ∧
    (v.toNat < 2 ^ 32 → exec (.registerWrite false 0x60 4 v) s = exec (.powerCap (v.setWidth 32)) s) ∧
    (∀ q : Nat, q < 1024 → (s.sq q).st ≠ .running → exec (.registerWrite false (BitVec.ofNat 24 (0x40000 + 32 * q)) 8 v) s =
      .next (s.updSq q (fun x => { x with ring := v }))))

/-- R401, R405, R406: clearing an error zeroes one aligned sector of local HBM and its poison, with the write waiting for a stack that
is not ready (log 144); arming a watch entry on a word of local HBM evaluates it at once. The reports' fields that R404 does not fix
are the model's choice (log 81). -/
def Claims.ErrorsAndWatches : Prop :=
  (∀ (s : State) (pa : BitVec 64),
    (pa.toNat % 128 ≠ 0 ∨ s.inHbm pa.toNat = false →
      exec (.errClear pa) s = .next (s.report 9 0xFF 0xFF 0xFF 0xB0 (pa.toNat % 2 ^ 32))) ∧
    (pa.toNat % 128 = 0 → s.inHbm pa.toNat = true →
      s.stackReady (pa.toNat % 2 ^ 41) = true → (∀ k < 128, s.inDescriptor (pa.toNat % 2 ^ 41 + k) = false) → s.rdOf (s.localPa (pa.toNat % 2 ^ 41)) = none →
      Memory.wf s.mem = true → ∃ t, exec (.errClear pa) s = .next t ∧
        s.poison.filter (fun q => q != pa.toNat % 2 ^ 41 / 128) = t.poison ∧ t.groups = s.groups ∧
        ∀ a, cget t.mem a = if pa.toNat % 2 ^ 41 ≤ a ∧ a < pa.toNat % 2 ^ 41 + 128 then 0 else cget s.mem a) ∧
    (pa.toNat % 128 = 0 → s.inHbm pa.toNat = true → s.stackReady (pa.toNat % 2 ^ 41) = false → exec (.errClear pa) s =
      .next { s with poison := s.poison.filter (fun q => q != pa.toNat % 2 ^ 41 / 128), late := s.late ++ [
        { pa := pa.toNat % 2 ^ 41, bytes := List.replicate 128 0, since := s.stc }] })) ∧
  (∀ (s : State) (e : Nat), e < 4096 →
    let w := s.watch e
    (w.pa.toNat % 4 ≠ 0 ∨ s.inHbm w.pa.toNat = false → ∃ u : State, exec (.watchArm e) s = .next
      (u.report 9 0xFF 0xFF 0xFF (0x80000 + 32 * e) 0) ∧ (u.watch e).armed = false ∧ u.mem = s.mem) ∧
    (w.pa.toNat % 4 = 0 → s.inHbm w.pa.toNat = true → ∃ t, exec (.watchArm e) s = .next t ∧ t.mem = s.mem ∧
      ((t.watch e).armed = true ↔ w.holds (cgetLE s.mem (w.pa.toNat % 2 ^ 41) 4) = false) ∧
      (w.holds (cgetLE s.mem (w.pa.toNat % 2 ^ 41) 4) = true → w.action = 1 → t.out = s.out ++ [.msix w.vector.toNat])))

/-- R412: a queue is registered from its descriptor in memory when it keeps its limits and is not registered yet, and else
refused with a report; when it is unregistered, what waits for it, of a group that is resident or saved, finds no queue when it is
tried again, and so ends with 0x06 (Claims.QueuesOfHandles), though the queue is registered afresh. The report's fields that R404
does not fix are the model's choice (log 81). -/
def Claims.QueueRegistration : Prop :=
  ∀ (s : State) (v : BitVec 32),
    let q := v.toNat % 4096
    let die := v.toNat / 4096 % 4
    let w := s.readWq ((s.die die).wqbase.toNat % 2 ^ 41 + 64 * q) q
    let ok := (s.die die).wqbase ≠ 0 ∧ (∀ x ∈ (s.die die).wqs, x.q ≠ q) ∧ 1 ≤ w.logcap ∧ w.logcap ≤ 12 ∧ w.ctx ≤ 31 ∧
      w.ring.toNat % 8 = 0
    (ok → exec (.wqRegister v) s = .next (s.updDie die (fun d => { d with wqs := d.wqs ++ [w] }))) ∧
    (¬ ok → exec (.wqRegister v) s = .next (s.report 9 0xFF die 0xFF 0xC0 v.toNat)) ∧
    ((∀ x ∈ (s.die die).wqs, x.q ≠ q) → exec (.wqUnregister v) s = .next s) ∧
    ((∃ x ∈ (s.die die).wqs, x.q = q) → exec (.wqUnregister v) s = .next
      (let s1 := s.updDie die (fun d => { d with wqs := d.wqs.filter (fun x => x.q != q) })
       { s1 with groups := s1.groups.map (fun g => g.forgetQueue die q),
                 images := s1.images.map (fun m => { m with groups := m.groups.map (fun g => g.forgetQueue die q) }) })) ∧
    ∀ (g : Group) (t : State) (f : Frame) (hd : BitVec 32), ∀ x ∈ (g.forgetQueue die q).sheaves, ∀ u ∈ x.tillers,
      u.queued.isSome = true → f.t = u → hd.toNat = 4096 * die + q → t.wqFor f hd = none

/-- R16, R160, R398 to R403, R405, R406, R411, R412, R421: the host, other devices and the register space. -/
def Obligations.OutsideAccessesAndRegisters : Prop :=
  Claims.AccessesFromOutside ∧ Claims.RegisterWrites ∧ Claims.ErrorsAndWatches ∧ Claims.QueueRegistration

/-! ## Attestation (R415 to R418, R421 to R425) -/

/-- R401, R415, R416: RCV_LEN runs a recovery image that is accepted, and only while no Tuizel runs; a measurement register
is extended with its old value and the data. The reports' fields that R404 does not fix are the model's choice (log 81). -/
def Claims.RecoveryAndMeasurements : Prop :=
  (∀ (s : State) (len : BitVec 32),
    let pa := s.plat.rcvAddr.toNat % 2 ^ 41
    let n := len.toNat
    let fits := s.plat.ready0.getLsbD 1 = false ∧ 2884 ≤ n ∧ n ≤ 268435456
    (¬ fits → exec (.rcvLen len) s = .next (s.report 9 0xFF 0xFF 0xFF 0x78 n)) ∧
    (fits → s.booted = true → exec (.rcvLen len) s = .next s) ∧
    (fits → s.booted = false → exec (.rcvLen len) s = .next (
      if pa + n ≤ hbmEnd ∧ imageOk 0x4C5A5554 (cgets s.mem pa n) = true then
        s.boot (cgets s.mem pa n) true (BitVec.ofNat 64 (pa + 64))
      else s.report 9 0xFF 0xFF 0xFF 0x78 n))) ∧
  (∀ (s : State) (die : Nat) (v : BitVec 32), ∃ t, exec (.measExt die v) s = .next t ∧ t.mem = s.mem ∧
    (v.toNat % 8 < s.plat.meas.length → t.plat.meas[v.toNat % 8]? =
      some (shake256 (s.plat.meas.getD (v.toNat % 8) [] ++ cgets s.plat.measData 0 64) 64)) ∧
    ∀ k, k ≠ v.toNat % 8 → t.plat.meas[k]? = s.plat.meas[k]?)

/-- R421, R423, R424: SIGN_GO starts a signature with an index that has not been used and is reserved, and moves the floor
past it; any other is refused: the register reads the value written, SIGN_STAT reads 3, and nothing else changes (log 88); the
signature is written when it is done. IDX_RESV reserves indices upwards only. The reports' fields that R404 does not fix are the
model's choice (log 81). -/
def Claims.SigningBlock : Prop :=
  (∀ (s : State) (v : BitVec 64),
    let idx := v.toNat % 2 ^ 20
    let off := v.toNat / 2 ^ 32 % 2 ^ 13
    let ok := s.sign.floor ≤ idx ∧ idx < s.sign.idxNext ∧ off + 2820 ≤ 8192 ∧ v.extractLsb' 21 11 = 0 ∧
      v.extractLsb' 45 19 = 0
    (s.sign.stat = 1 → exec (.signGo v) s = .next (s.report 9 0xFF 0xFF 0xFF 0x410 (v.toNat % 2 ^ 32))) ∧
    (s.sign.stat ≠ 1 → ok → exec (.signGo v) s = .next { s with
      plat := { s.plat with signGo := v }
      sign := { s.sign with
        stat := 1
        floor := idx + 1
        job := some (v.getLsbD 20, idx, off, cgets s.plat.signMsg 0 64) } }) ∧
    (s.sign.stat ≠ 1 → ¬ ok → exec (.signGo v) s = .next { s with
      plat := { s.plat with signGo := v }
      sign := { s.sign with stat := 3 } })) ∧
  (∀ (s : State), (s.sign.job = none → exec .signDone s = .next s) ∧
    ∀ c idx off msg, s.sign.job = some (c, idx, off, msg) → ∃ t, exec .signDone s = .next t ∧ t.sign.stat = 2 ∧
      t.sign.job = none ∧ t.sign.floor = s.sign.floor ∧
      t.plat.doeRsp = csets s.plat.doeRsp off ((List.range 2820).map (Config.xmssSign c idx msg))) ∧
  (∀ (s : State) (v : BitVec 32),
    (s.sign.idxNext < v.toNat → v.toNat ≤ 2 ^ 20 →
      exec (.idxResv v) s = .next { s with
        plat := { s.plat with idxResv := BitVec.ofNat 32 v.toNat }
        sign := { s.sign with commit := some v.toNat } }) ∧
    (v.toNat ≤ s.sign.idxNext ∨ 2 ^ 20 < v.toNat → exec (.idxResv v) s = .next (s.report 9 0xFF 0xFF 0xFF 0x41C v.toNat)) ∧
    (s.sign.commit = none → exec .idxCommitDone s = .next s) ∧
    (∀ n, s.sign.commit = some n → exec .idxCommitDone s = .next { s with sign := { s.sign with idxNext := n, commit := none } }))

/-- R418, R421, R422: the mailbox answers a request by itself before Tuizel is ready or when its length is wrong, also while another
is pending; else it is pending, or waits for its turn; DOE_RSPLEN sends the response (log 81: its report's fields). -/
def Claims.Mailbox : Prop :=
  (∀ (s : State) (b : List (BitVec 8)), s.plat.doeWait = [] →
    (s.plat.doeReqLen ≠ 0 → s.plat.ready0.getLsbD 1 = true → 4 ≤ b.length → b.length ≤ 1024 →
      exec (.doeRequest b) s = .next { s with plat := { s.plat with doeWait := [b] } }) ∧
    (s.plat.doeReqLen = 0 → s.plat.ready0.getLsbD 1 = true → 4 ≤ b.length → b.length ≤ 1024 →
      exec (.doeRequest b) s = .next { s with
        plat := { s.plat with
          doeReqLen := BitVec.ofNat 32 b.length
          doeReq := csets s.plat.doeReq 0 b } }) ∧
    (s.plat.ready0.getLsbD 1 = false ∨ b.length < 4 ∨ 1024 < b.length →
      exec (.doeRequest b) s = .next { s with out := s.out ++ [HostOut.doe
        [if b.headD 0x10 = 0x10 ∨ b.headD 0x10 = 0x12 then b.headD 0x10 else 0x10, 0x7F,
         if s.plat.ready0.getLsbD 1 then 0x01 else 0x03, 0]] })) ∧
  (∀ (s : State) (n : BitVec 32), s.plat.doeWait = [] →
    (n = 0 ∨ 8192 < n.toNat → exec (.doeRsplen n) s = .next (s.report 9 0xFF 0xFF 0xFF 0x404 n.toNat)) ∧
    (n ≠ 0 → n.toNat ≤ 8192 → exec (.doeRsplen n) s = .next { s with
      out := s.out ++ [HostOut.doe (cgets s.plat.doeRsp 0 n.toNat)]
      plat := { s.plat with doeReqLen := 0, doeRspLen := n } })) ∧
  (∀ (s : State) (n : Nat), exec (.trng n) s = .next { s with freeCtr := s.freeCtr + 1 })

/-- R418, R425: each request of the connection whose answer is not signed, taken in its order when nothing is pending or
signing, with room in the transcripts: its response goes to the host and is entered with it, and the connection follows. -/
def Claims.SpdmAnswers : Prop :=
  ∀ (s : State) (i : Instr) (req rest b : List Byte) (code v : Byte) (conn : Nat),
    req = v :: code :: rest → v = (if code = 0x84 then 0x10 else 0x12) → 4 ≤ req.length → req.length ≤ 1024 →
    s.plat.ready0.getLsbD 1 = true → s.plat.doeReqLen = 0 → s.plat.doeWait = [] → s.sign.stat ≠ 1 →
    s.spdm.m.length + req.length + natOf ((req.drop 6).take 2) + 1024 ≤ 65536 →
    (i = .getVersion req ∧ code = 0x84 ∧ conn = 1 ∧ b = [0x10, 0x04, 0, 0, 0, 0x01, 0, 0x12]) ∨
    (i = .getCapabilities req ∧ code = 0xE1 ∧ s.spdm.conn = 1 ∧ conn = 2 ∧
      b = [0x12, 0x61, 0, 0, 0, 0x14, 0, 0, 0x16, 0, 0, 0, 0, 0x20, 0, 0, 0, 0x20, 0, 0]) ∨
    (i = .negotiateAlgorithms req ∧ code = 0xE3 ∧ s.spdm.conn = 2 ∧ conn = 3 ∧
      b = [0x12, 0x63, 0, 0, 0x2C, 0, 0x01, 0, 0x01, 0, 0, 0] ++ List.replicate 20 0 ++
        [0x01, 0x01, 0, 0, 0x03, 0, 0x01, 0, 0x03, 0, 0x02, 0]) ∨
    (i = .getDigests req ∧ code = 0x81 ∧ s.spdm.conn = 3 ∧ conn = 3 ∧
      b = [0x12, 0x01, 0, 0x01] ++ shake256 Config.certChain 64) →
    ∃ t, exec i s = .next t ∧ t.out = s.out ++ [HostOut.doe b] ∧ t.spdm.conn = conn ∧
      t.spdm.m = (if code = 0x84 then [] else s.spdm.m) ++ req ++ b ∧ t.mem = s.mem ∧ t.groups = s.groups ∧ t.sign = s.sign

/-- R418, R425: GET_CERTIFICATE gives the portion of the chain asked for, as far as the mailbox holds it (log 151), and how much
remains, or an error beyond its end; another code, and a request out of order, are answered with an error. -/
def Claims.SpdmCertificatesAndErrors : Prop :=
  ∀ (s : State) (req rest : List Byte) (code : Byte), req = 0x12 :: code :: rest → 4 ≤ req.length → req.length ≤ 1024 →
    s.plat.ready0.getLsbD 1 = true → s.plat.doeReqLen = 0 → s.plat.doeWait = [] → s.sign.stat ≠ 1 →
    (code = 0x82 → s.spdm.conn = 3 → 8 ≤ req.length →
      s.spdm.m.length + req.length + natOf ((req.drop 6).take 2) + 8 ≤ 65536 →
      let all := Config.certChain
      let off := natOf ((req.drop 4).take 2)
      let k := min (min (natOf ((req.drop 6).take 2)) 8184) (all.length - off)
      let b := [0x12, 0x02, 0, 0] ++ bytesOf 2 k ++ bytesOf 2 (all.length - off - k) ++ (all.drop off).take k
      ∃ t, exec (.getCertificate req) s = .next t ∧ t.spdm.conn = 3 ∧ t.mem = s.mem ∧ t.groups = s.groups ∧
        t.out = s.out ++ [HostOut.doe (if off < all.length then b else [0x12, 0x7F, 0x01, 0])] ∧
        t.spdm.m = if off < all.length then s.spdm.m ++ req ++ b else s.spdm.m) ∧
    (code ∉ [0x84, 0xE1, 0xE3, 0x81, 0x82, 0x83, 0xE0] → ∃ t, exec (.spdmUnknownRequest req) s = .next t ∧
      t.out = s.out ++ [HostOut.doe [0x12, 0x7F, 0x07, 0]] ∧ t.spdm = s.spdm ∧ t.mem = s.mem ∧ t.groups = s.groups) ∧
    (code = 0x81 → s.spdm.conn ≠ 3 → ∃ t, exec (.getDigests req) s = .next t ∧
      t.out = s.out ++ [HostOut.doe [0x12, 0x7F, 0x04, 0]] ∧ t.spdm = s.spdm)

/-- R417, R418, R423, R425: CHALLENGE and a signed GET_MEASUREMENTS are answered with a signature over their transcript
under the next index, which is then used up; an unsigned GET_MEASUREMENTS with the blocks asked for alone. -/
def Claims.SpdmSignatures : Prop :=
  ∀ (s : State) (req rest : List Byte) (code : Byte), req = 0x12 :: code :: rest → 37 ≤ req.length → req.length ≤ 1024 →
    s.plat.ready0.getLsbD 1 = true → s.plat.doeReqLen = 0 → s.plat.doeWait = [] → s.sign.stat ≠ 1 → s.spdm.conn = 3 →
    s.sign.floor < s.sign.idxNext → s.sign.idxNext ≤ 2 ^ 20 → (∀ b ∈ s.plat.meas, b.length = 64) →
    s.plat.meas.length = 8 →
    let nonce := (List.range 32).map (fun i => Config.freeByte (s.freeCtr + i))
    let sig (c : Bool) (t : List Byte) : List Byte :=
      (List.range 2820).map (Config.xmssSign c s.sign.floor (shake256 t 64))
    (code = 0x83 → s.spdm.m.length + req.length + 1024 ≤ 65536 →
      let b := [0x12, 0x03, 0, 0x01] ++ shake256 Config.certChain 64 ++ nonce ++
        (if req.getD 3 0 = 0 then [] else shake256 s.plat.meas.flatten 64) ++ [0, 0]
      ∃ t, exec (.challenge req) s = .next t ∧
        t.out = s.out ++ [HostOut.doe (b ++ sig false (s.spdm.m ++ req ++ b))] ∧ t.sign.floor = s.sign.floor + 1 ∧
        t.spdm = { s.spdm with m := s.spdm.vca } ∧ t.mem = s.mem ∧ t.groups = s.groups) ∧
    (code = 0xE0 → s.spdm.l.length + req.length + 1024 ≤ 65536 → ∀ op, op = (req.getD 3 0).toNat →
      1 ≤ op → op ≤ 8 ∨ op = 255 →
      let ks := if op = 255 then [1, 2, 3, 4, 5, 6, 7, 8] else [op]
      let block (k : Nat) : List Byte := [BitVec.ofNat 8 k, 0x01, 0x43, 0,
        if k = 2 then 0x83 else if k = 4 then 0x85 else 0x81, 0x40, 0] ++ s.plat.meas.getD (k - 1) []
      let b := [0x12, 0x60, 0, 0, BitVec.ofNat 8 ks.length] ++ bytesOf 3 (71 * ks.length) ++ ks.flatMap block ++ nonce ++
        [0, 0]
      ∃ t, exec (.getMeasurements req) s = .next t ∧ t.mem = s.mem ∧ t.groups = s.groups ∧
        (if (req.getD 2 0).getLsbD 0 then
          t.out = s.out ++ [HostOut.doe (b ++ sig true (s.spdm.l ++ req ++ b))] ∧ t.sign.floor = s.sign.floor + 1 ∧
            t.spdm = { s.spdm with l := s.spdm.vca }
        else t.out = s.out ++ [HostOut.doe b] ∧ t.sign = s.sign ∧ t.spdm = { s.spdm with l := s.spdm.l ++ req ++ b }))

/-- R401, R415 to R418, R421 to R425: recovery, measurements, the signing block, the mailbox and the SPDM responder. The
values of signatures, random bits and the certificate chain are free (logs 10, 12 and 15). -/
def Obligations.Attestation : Prop :=
  Claims.RecoveryAndMeasurements ∧ Claims.SigningBlock ∧ Claims.Mailbox ∧ Claims.SpdmAnswers ∧
    Claims.SpdmCertificatesAndErrors ∧ Claims.SpdmSignatures

/-! ## The invariant -/

/-- R3, R16: memory stays in its canonical form: from every state whose memory is canonical, a step leads to one whose
memory is, so that memories that read alike are equal. The form is the model's own (log 3). -/
def Obligations.EveryStepKeepsMemoryCanonical : Prop :=
  ∀ s t : State, s.canonical = true → step s = .next t → t.canonical = true
end

