-- ==== Sys2Proof/Laws/Cells.lean ====
section
/-! SUPPORT. Sparse storage: what a write leaves at every key, and that every operation keeps the canonical form. -/

namespace Sys2Proof.Machine

variable {w : Nat}

/-! ## Canonical form -/

theorem cellsAbove_mono {lo lo' : Nat} {m : Cells w} (h : lo' ≤ lo) (hm : cellsAbove lo m = true) :
    cellsAbove lo' m = true := by
  cases m with
  | nil => rfl
  | cons e r =>
    obtain ⟨k, x⟩ := e
    simp only [cellsAbove, Bool.and_eq_true, decide_eq_true_eq] at hm ⊢
    exact ⟨⟨by omega, hm.1.2⟩, hm.2⟩

theorem cellsWf_of_above {lo : Nat} {m : Cells w} (hm : cellsAbove lo m = true) : cellsWf m = true := by
  cases m with
  | nil => rfl
  | cons e r =>
    obtain ⟨k, x⟩ := e
    simp only [cellsAbove, cellsWf, Bool.and_eq_true] at hm ⊢
    exact ⟨hm.1.2, hm.2⟩

theorem cellsAbove_ccons {lo a : Nat} {x : BitVec w} {r : Cells w} (h : lo < a) (hr : cellsAbove a r = true) :
    cellsAbove lo (ccons a x r) = true := by
  unfold ccons
  split
  · exact cellsAbove_mono (by omega) hr
  · rename_i hx
    simp_all [cellsAbove]

theorem cellsAbove_cset {lo a : Nat} {x : BitVec w} {m : Cells w} (h : lo < a) (hm : cellsAbove lo m = true) :
    cellsAbove lo (cset m a x) = true := by
  induction m generalizing lo with
  | nil => exact cellsAbove_ccons h rfl
  | cons e r ih =>
    obtain ⟨k, y⟩ := e
    have hm' := hm
    simp only [cellsAbove, Bool.and_eq_true, decide_eq_true_eq] at hm
    simp only [cset]
    split
    · rename_i hlt
      exact cellsAbove_ccons h (by simp_all [cellsAbove])
    · split
      · rename_i _ heq
        exact cellsAbove_ccons h (heq ▸ hm.2)
      · simp only [cellsAbove, Bool.and_eq_true, decide_eq_true_eq]
        exact ⟨hm.1, ih (by omega) hm.2⟩

theorem cellsWf_cset (m : Cells w) (a : Nat) (x : BitVec w) (hm : cellsWf m = true) : cellsWf (cset m a x) = true := by
  cases m with
  | nil =>
    simp only [cset, ccons]
    split
    · rfl
    · simp_all [cellsWf, cellsAbove]
  | cons e r =>
    obtain ⟨k, y⟩ := e
    simp only [cellsWf, Bool.and_eq_true] at hm
    simp only [cset]
    split
    · rename_i hlt
      simp only [ccons]
      split
      · simp_all [cellsWf]
      · simp_all [cellsWf, cellsAbove]
    · split
      · rename_i _ heq
        subst heq
        simp only [ccons]
        split
        · exact cellsWf_of_above hm.2
        · simp_all [cellsWf]
      · simp only [cellsWf, Bool.and_eq_true]
        exact ⟨hm.1, cellsAbove_cset (by omega) hm.2⟩

theorem cellsWf_csets (m : Cells w) (a : Nat) (l : List (BitVec w)) (hm : cellsWf m = true) :
    cellsWf (csets m a l) = true := by
  induction l generalizing m a with
  | nil => exact hm
  | cons x xs ih => exact ih _ _ (cellsWf_cset m a x hm)

theorem cellsWf_csetLE (m : Cells 8) (a n v : Nat) (hm : cellsWf m = true) : cellsWf (csetLE m a n v) = true :=
  cellsWf_csets m a _ hm

theorem cellsAbove_filter {lo : Nat} {m : Cells w} (p : Nat × BitVec w → Bool) (hm : cellsAbove lo m = true) :
    cellsAbove lo (m.filter p) = true := by
  induction m generalizing lo with
  | nil => rfl
  | cons e r ih =>
    obtain ⟨k, x⟩ := e
    simp only [cellsAbove, Bool.and_eq_true, decide_eq_true_eq] at hm
    simp only [List.filter_cons]
    split
    · simp only [cellsAbove, Bool.and_eq_true, decide_eq_true_eq]
      exact ⟨hm.1, ih hm.2⟩
    · exact cellsAbove_mono (by omega) (ih hm.2)

theorem cellsWf_cclear (m : Cells w) (lo hi : Nat) (hm : cellsWf m = true) : cellsWf (cclear m lo hi) = true := by
  cases m with
  | nil => rfl
  | cons e r =>
    obtain ⟨k, x⟩ := e
    simp only [cellsWf, Bool.and_eq_true] at hm
    simp only [cclear, List.filter_cons]
    split
    · simp only [cellsWf, Bool.and_eq_true]
      exact ⟨hm.1, cellsAbove_filter _ hm.2⟩
    · exact cellsWf_of_above (cellsAbove_filter _ hm.2)

/-! ## Reading back -/

theorem cget_of_above {lo a : Nat} {m : Cells w} (h : a ≤ lo) (hm : cellsAbove lo m = true) : cget m a = 0 := by
  cases m with
  | nil => rfl
  | cons e r =>
    obtain ⟨k, x⟩ := e
    simp only [cellsAbove, Bool.and_eq_true, decide_eq_true_eq] at hm
    simp only [cget]
    rw [if_pos (by omega)]

theorem cget_ccons {a b : Nat} {x : BitVec w} {r : Cells w} (hr : cellsAbove a r = true) :
    cget (ccons a x r) b = if b = a then x else cget r b := by
  unfold ccons
  split
  · rename_i hx
    split
    · rename_i hb
      rw [hb, hx]
      exact cget_of_above (Nat.le_refl a) hr
    · rfl
  · simp only [cget]
    split
    · rename_i hlt
      rw [if_neg (by omega)]
      exact (cget_of_above (by omega) hr).symm
    · split
      · rfl
      · rfl

theorem cget_cset_above {lo a b : Nat} {x : BitVec w} {m : Cells w} (hm : cellsAbove lo m = true) :
    cget (cset m a x) b = if b = a then x else cget m b := by
  induction m generalizing lo with
  | nil => exact cget_ccons rfl
  | cons e r ih =>
    obtain ⟨k, y⟩ := e
    have hm' := hm
    simp only [cellsAbove, Bool.and_eq_true, decide_eq_true_eq] at hm
    simp only [cset]
    split
    · rename_i hlt
      exact cget_ccons (by simp_all [cellsAbove])
    · split
      · rename_i _ heq
        subst heq
        rw [cget_ccons hm.2]
        simp only [cget]
        split
        · rfl
        · split
          · rename_i hlt; exact cget_of_above (by omega) hm.2
          · rfl
      · rename_i hge hne
        simp only [cget]
        split
        · rename_i hlt; rw [if_neg (by omega)]
        · split
          · rename_i _ heq; rw [if_neg (by omega)]
          · exact ih hm.2

/-- What a key holds after a write: the value at the key written, and elsewhere what it held. -/
theorem cget_cset (m : Cells w) (a b : Nat) (x : BitVec w) (hm : cellsWf m = true) :
    cget (cset m a x) b = if b = a then x else cget m b := by
  cases m with
  | nil => exact cget_cset_above (lo := 0) rfl
  | cons e r =>
    obtain ⟨k, y⟩ := e
    simp only [cellsWf, Bool.and_eq_true] at hm
    cases k with
    | succ n => exact cget_cset_above (lo := n) (by simp_all [cellsAbove])
    | zero =>
      simp only [cset]
      rw [if_neg (Nat.not_lt_zero a)]
      split
      · rename_i heq
        subst heq
        rw [cget_ccons hm.2]
        simp only [cget]
        rw [if_neg (Nat.not_lt_zero b)]
        split
        · rfl
        · rfl
      · rename_i hne
        simp only [cget]
        rw [if_neg (Nat.not_lt_zero b)]
        split
        · rename_i heq; simp [heq, Ne.symm hne]
        · exact cget_cset_above hm.2

/-- What a key holds after consecutive keys from `a` are written. -/
theorem cget_csets (m : Cells w) (a b : Nat) (l : List (BitVec w)) (hm : cellsWf m = true) :
    cget (csets m a l) b = if a ≤ b ∧ b < a + l.length then l.getD (b - a) 0 else cget m b := by
  induction l generalizing m a with
  | nil => simp only [csets, List.length_nil]; rw [if_neg (by omega)]
  | cons x xs ih =>
    simp only [csets, List.length_cons]
    rw [ih _ _ (cellsWf_cset m a x hm), cget_cset m a b x hm]
    by_cases hb : b = a
    · subst hb
      rw [if_neg (by omega), if_pos rfl, if_pos (by omega)]
      simp
    · by_cases hin : a + 1 ≤ b ∧ b < a + 1 + xs.length
      · rw [if_pos hin, if_pos (by omega)]
        obtain ⟨n, hn⟩ : ∃ n, b - a = n + 1 := ⟨b - a - 1, by omega⟩
        rw [hn, show b - (a + 1) = n by omega]
        simp
      · rw [if_neg hin, if_neg hb, if_neg (by omega)]

/-- Reading n bytes where they were just written gives them back. -/
theorem cgets_csets (m : Cells w) (a : Nat) (l : List (BitVec w)) (hm : cellsWf m = true) :
    cgets (csets m a l) a l.length = l := by
  apply List.ext_getElem
  · simp [cgets]
  · intro i h1 h2
    simp only [cgets, List.getElem_map, List.getElem_range]
    rw [cget_csets m a _ l hm, if_pos (by omega)]
    simp [List.getD, h2]

end Sys2Proof.Machine
end

