-- ==== Sys2Proof/Laws/State.lean ====
section
/-! SUPPORT. Every field of the machine after each of its named updates. -/

namespace Sys2Proof.Machine

/-! ## `State.updGroup` -/

@[simp] theorem State.updGroup_cycle (s : State) (gid : Nat) (f : Group → Group) :
    (s.updGroup gid f).cycle = s.cycle := rfl
@[simp] theorem State.updGroup_mem (s : State) (gid : Nat) (f : Group → Group) : (s.updGroup gid f).mem = s.mem := rfl
@[simp] theorem State.updGroup_poison (s : State) (gid : Nat) (f : Group → Group) :
    (s.updGroup gid f).poison = s.poison := rfl
@[simp] theorem State.updGroup_hostMem (s : State) (gid : Nat) (f : Group → Group) :
    (s.updGroup gid f).hostMem = s.hostMem := rfl
@[simp] theorem State.updGroup_remote (s : State) (gid : Nat) (f : Group → Group) :
    (s.updGroup gid f).remote = s.remote := rfl
@[simp] theorem State.updGroup_peers (s : State) (gid : Nat) (f : Group → Group) :
    (s.updGroup gid f).peers = s.peers := rfl
@[simp] theorem State.updGroup_groups (s : State) (gid : Nat) (f : Group → Group) :
    (s.updGroup gid f).groups = updWhere (fun g => g.gid == gid) f s.groups := rfl
@[simp] theorem State.updGroup_images (s : State) (gid : Nat) (f : Group → Group) :
    (s.updGroup gid f).images = s.images := rfl
@[simp] theorem State.updGroup_grids (s : State) (gid : Nat) (f : Group → Group) :
    (s.updGroup gid f).grids = s.grids := rfl
@[simp] theorem State.updGroup_pending (s : State) (gid : Nat) (f : Group → Group) :
    (s.updGroup gid f).pending = s.pending := rfl
@[simp] theorem State.updGroup_cores (s : State) (gid : Nat) (f : Group → Group) :
    (s.updGroup gid f).cores = s.cores := rfl
@[simp] theorem State.updGroup_dies (s : State) (gid : Nat) (f : Group → Group) :
    (s.updGroup gid f).dies = s.dies := rfl
@[simp] theorem State.updGroup_l2 (s : State) (gid : Nat) (f : Group → Group) : (s.updGroup gid f).l2 = s.l2 := rfl
@[simp] theorem State.updGroup_creds (s : State) (gid : Nat) (f : Group → Group) :
    (s.updGroup gid f).creds = s.creds := rfl
@[simp] theorem State.updGroup_l2creds (s : State) (gid : Nat) (f : Group → Group) :
    (s.updGroup gid f).l2creds = s.l2creds := rfl
@[simp] theorem State.updGroup_cmds (s : State) (gid : Nat) (f : Group → Group) :
    (s.updGroup gid f).cmds = s.cmds := rfl
@[simp] theorem State.updGroup_faults (s : State) (gid : Nat) (f : Group → Group) :
    (s.updGroup gid f).faults = s.faults := rfl
@[simp] theorem State.updGroup_rds (s : State) (gid : Nat) (f : Group → Group) : (s.updGroup gid f).rds = s.rds := rfl
@[simp] theorem State.updGroup_pends (s : State) (gid : Nat) (f : Group → Group) :
    (s.updGroup gid f).pends = s.pends := rfl
@[simp] theorem State.updGroup_late (s : State) (gid : Nat) (f : Group → Group) :
    (s.updGroup gid f).late = s.late := rfl
@[simp] theorem State.updGroup_hostAccs (s : State) (gid : Nat) (f : Group → Group) :
    (s.updGroup gid f).hostAccs = s.hostAccs := rfl
@[simp] theorem State.updGroup_latePeers (s : State) (gid : Nat) (f : Group → Group) :
    (s.updGroup gid f).latePeers = s.latePeers := rfl
@[simp] theorem State.updGroup_cuts (s : State) (gid : Nat) (f : Group → Group) :
    (s.updGroup gid f).cuts = s.cuts := rfl
@[simp] theorem State.updGroup_ctxs (s : State) (gid : Nat) (f : Group → Group) :
    (s.updGroup gid f).ctxs = s.ctxs := rfl
@[simp] theorem State.updGroup_sqs (s : State) (gid : Nat) (f : Group → Group) : (s.updGroup gid f).sqs = s.sqs := rfl
@[simp] theorem State.updGroup_watches (s : State) (gid : Nat) (f : Group → Group) :
    (s.updGroup gid f).watches = s.watches := rfl
@[simp] theorem State.updGroup_drives (s : State) (gid : Nat) (f : Group → Group) :
    (s.updGroup gid f).drives = s.drives := rfl
@[simp] theorem State.updGroup_plat (s : State) (gid : Nat) (f : Group → Group) :
    (s.updGroup gid f).plat = s.plat := rfl
@[simp] theorem State.updGroup_sign (s : State) (gid : Nat) (f : Group → Group) :
    (s.updGroup gid f).sign = s.sign := rfl
@[simp] theorem State.updGroup_spdm (s : State) (gid : Nat) (f : Group → Group) :
    (s.updGroup gid f).spdm = s.spdm := rfl
@[simp] theorem State.updGroup_out (s : State) (gid : Nat) (f : Group → Group) : (s.updGroup gid f).out = s.out := rfl
@[simp] theorem State.updGroup_powered (s : State) (gid : Nat) (f : Group → Group) :
    (s.updGroup gid f).powered = s.powered := rfl
@[simp] theorem State.updGroup_flash (s : State) (gid : Nat) (f : Group → Group) :
    (s.updGroup gid f).flash = s.flash := rfl
@[simp] theorem State.updGroup_nextId (s : State) (gid : Nat) (f : Group → Group) :
    (s.updGroup gid f).nextId = s.nextId := rfl
@[simp] theorem State.updGroup_freeCtr (s : State) (gid : Nat) (f : Group → Group) :
    (s.updGroup gid f).freeCtr = s.freeCtr := rfl
@[simp] theorem State.updGroup_agenda (s : State) (gid : Nat) (f : Group → Group) :
    (s.updGroup gid f).agenda = s.agenda := rfl
@[simp] theorem State.updGroup_focus (s : State) (gid : Nat) (f : Group → Group) :
    (s.updGroup gid f).focus = s.focus := rfl
@[simp] theorem State.updGroup_cur (s : State) (gid : Nat) (f : Group → Group) : (s.updGroup gid f).cur = s.cur := rfl
@[simp] theorem State.updGroup_issued (s : State) (gid : Nat) (f : Group → Group) :
    (s.updGroup gid f).issued = s.issued := rfl

/-! ## `State.updSheaf` -/

@[simp] theorem State.updSheaf_cycle (s : State) (gid sh : Nat) (f : Sheaf → Sheaf) :
    (s.updSheaf gid sh f).cycle = s.cycle := rfl
@[simp] theorem State.updSheaf_mem (s : State) (gid sh : Nat) (f : Sheaf → Sheaf) :
    (s.updSheaf gid sh f).mem = s.mem := rfl
@[simp] theorem State.updSheaf_poison (s : State) (gid sh : Nat) (f : Sheaf → Sheaf) :
    (s.updSheaf gid sh f).poison = s.poison := rfl
@[simp] theorem State.updSheaf_hostMem (s : State) (gid sh : Nat) (f : Sheaf → Sheaf) :
    (s.updSheaf gid sh f).hostMem = s.hostMem := rfl
@[simp] theorem State.updSheaf_remote (s : State) (gid sh : Nat) (f : Sheaf → Sheaf) :
    (s.updSheaf gid sh f).remote = s.remote := rfl
@[simp] theorem State.updSheaf_peers (s : State) (gid sh : Nat) (f : Sheaf → Sheaf) :
    (s.updSheaf gid sh f).peers = s.peers := rfl
@[simp] theorem State.updSheaf_groups (s : State) (gid sh : Nat) (f : Sheaf → Sheaf) :
    (s.updSheaf gid sh f).groups = updWhere (fun g => g.gid == gid) (fun g => g.updSheaf sh f) s.groups := rfl
@[simp] theorem State.updSheaf_images (s : State) (gid sh : Nat) (f : Sheaf → Sheaf) :
    (s.updSheaf gid sh f).images = s.images := rfl
@[simp] theorem State.updSheaf_grids (s : State) (gid sh : Nat) (f : Sheaf → Sheaf) :
    (s.updSheaf gid sh f).grids = s.grids := rfl
@[simp] theorem State.updSheaf_pending (s : State) (gid sh : Nat) (f : Sheaf → Sheaf) :
    (s.updSheaf gid sh f).pending = s.pending := rfl
@[simp] theorem State.updSheaf_cores (s : State) (gid sh : Nat) (f : Sheaf → Sheaf) :
    (s.updSheaf gid sh f).cores = s.cores := rfl
@[simp] theorem State.updSheaf_dies (s : State) (gid sh : Nat) (f : Sheaf → Sheaf) :
    (s.updSheaf gid sh f).dies = s.dies := rfl
@[simp] theorem State.updSheaf_l2 (s : State) (gid sh : Nat) (f : Sheaf → Sheaf) :
    (s.updSheaf gid sh f).l2 = s.l2 := rfl
@[simp] theorem State.updSheaf_creds (s : State) (gid sh : Nat) (f : Sheaf → Sheaf) :
    (s.updSheaf gid sh f).creds = s.creds := rfl
@[simp] theorem State.updSheaf_l2creds (s : State) (gid sh : Nat) (f : Sheaf → Sheaf) :
    (s.updSheaf gid sh f).l2creds = s.l2creds := rfl
@[simp] theorem State.updSheaf_cmds (s : State) (gid sh : Nat) (f : Sheaf → Sheaf) :
    (s.updSheaf gid sh f).cmds = s.cmds := rfl
@[simp] theorem State.updSheaf_faults (s : State) (gid sh : Nat) (f : Sheaf → Sheaf) :
    (s.updSheaf gid sh f).faults = s.faults := rfl
@[simp] theorem State.updSheaf_rds (s : State) (gid sh : Nat) (f : Sheaf → Sheaf) :
    (s.updSheaf gid sh f).rds = s.rds := rfl
@[simp] theorem State.updSheaf_pends (s : State) (gid sh : Nat) (f : Sheaf → Sheaf) :
    (s.updSheaf gid sh f).pends = s.pends := rfl
@[simp] theorem State.updSheaf_late (s : State) (gid sh : Nat) (f : Sheaf → Sheaf) :
    (s.updSheaf gid sh f).late = s.late := rfl
@[simp] theorem State.updSheaf_hostAccs (s : State) (gid sh : Nat) (f : Sheaf → Sheaf) :
    (s.updSheaf gid sh f).hostAccs = s.hostAccs := rfl
@[simp] theorem State.updSheaf_latePeers (s : State) (gid sh : Nat) (f : Sheaf → Sheaf) :
    (s.updSheaf gid sh f).latePeers = s.latePeers := rfl
@[simp] theorem State.updSheaf_cuts (s : State) (gid sh : Nat) (f : Sheaf → Sheaf) :
    (s.updSheaf gid sh f).cuts = s.cuts := rfl
@[simp] theorem State.updSheaf_ctxs (s : State) (gid sh : Nat) (f : Sheaf → Sheaf) :
    (s.updSheaf gid sh f).ctxs = s.ctxs := rfl
@[simp] theorem State.updSheaf_sqs (s : State) (gid sh : Nat) (f : Sheaf → Sheaf) :
    (s.updSheaf gid sh f).sqs = s.sqs := rfl
@[simp] theorem State.updSheaf_watches (s : State) (gid sh : Nat) (f : Sheaf → Sheaf) :
    (s.updSheaf gid sh f).watches = s.watches := rfl
@[simp] theorem State.updSheaf_drives (s : State) (gid sh : Nat) (f : Sheaf → Sheaf) :
    (s.updSheaf gid sh f).drives = s.drives := rfl
@[simp] theorem State.updSheaf_plat (s : State) (gid sh : Nat) (f : Sheaf → Sheaf) :
    (s.updSheaf gid sh f).plat = s.plat := rfl
@[simp] theorem State.updSheaf_sign (s : State) (gid sh : Nat) (f : Sheaf → Sheaf) :
    (s.updSheaf gid sh f).sign = s.sign := rfl
@[simp] theorem State.updSheaf_spdm (s : State) (gid sh : Nat) (f : Sheaf → Sheaf) :
    (s.updSheaf gid sh f).spdm = s.spdm := rfl
@[simp] theorem State.updSheaf_out (s : State) (gid sh : Nat) (f : Sheaf → Sheaf) :
    (s.updSheaf gid sh f).out = s.out := rfl
@[simp] theorem State.updSheaf_powered (s : State) (gid sh : Nat) (f : Sheaf → Sheaf) :
    (s.updSheaf gid sh f).powered = s.powered := rfl
@[simp] theorem State.updSheaf_flash (s : State) (gid sh : Nat) (f : Sheaf → Sheaf) :
    (s.updSheaf gid sh f).flash = s.flash := rfl
@[simp] theorem State.updSheaf_nextId (s : State) (gid sh : Nat) (f : Sheaf → Sheaf) :
    (s.updSheaf gid sh f).nextId = s.nextId := rfl
@[simp] theorem State.updSheaf_freeCtr (s : State) (gid sh : Nat) (f : Sheaf → Sheaf) :
    (s.updSheaf gid sh f).freeCtr = s.freeCtr := rfl
@[simp] theorem State.updSheaf_agenda (s : State) (gid sh : Nat) (f : Sheaf → Sheaf) :
    (s.updSheaf gid sh f).agenda = s.agenda := rfl
@[simp] theorem State.updSheaf_focus (s : State) (gid sh : Nat) (f : Sheaf → Sheaf) :
    (s.updSheaf gid sh f).focus = s.focus := rfl
@[simp] theorem State.updSheaf_cur (s : State) (gid sh : Nat) (f : Sheaf → Sheaf) :
    (s.updSheaf gid sh f).cur = s.cur := rfl
@[simp] theorem State.updSheaf_issued (s : State) (gid sh : Nat) (f : Sheaf → Sheaf) :
    (s.updSheaf gid sh f).issued = s.issued := rfl

/-! ## `State.updTiller` -/

@[simp] theorem State.updTiller_cycle (s : State) (gid sh ti : Nat) (f : Tiller → Tiller) :
    (s.updTiller gid sh ti f).cycle = s.cycle := rfl
@[simp] theorem State.updTiller_mem (s : State) (gid sh ti : Nat) (f : Tiller → Tiller) :
    (s.updTiller gid sh ti f).mem = s.mem := rfl
@[simp] theorem State.updTiller_poison (s : State) (gid sh ti : Nat) (f : Tiller → Tiller) :
    (s.updTiller gid sh ti f).poison = s.poison := rfl
@[simp] theorem State.updTiller_hostMem (s : State) (gid sh ti : Nat) (f : Tiller → Tiller) :
    (s.updTiller gid sh ti f).hostMem = s.hostMem := rfl
@[simp] theorem State.updTiller_remote (s : State) (gid sh ti : Nat) (f : Tiller → Tiller) :
    (s.updTiller gid sh ti f).remote = s.remote := rfl
@[simp] theorem State.updTiller_peers (s : State) (gid sh ti : Nat) (f : Tiller → Tiller) :
    (s.updTiller gid sh ti f).peers = s.peers := rfl
@[simp] theorem State.updTiller_groups (s : State) (gid sh ti : Nat) (f : Tiller → Tiller) :
    (s.updTiller gid sh ti f).groups =
      updWhere (fun g => g.gid == gid) (fun g => g.updSheaf sh (fun x => x.updTiller ti f)) s.groups := rfl
@[simp] theorem State.updTiller_images (s : State) (gid sh ti : Nat) (f : Tiller → Tiller) :
    (s.updTiller gid sh ti f).images = s.images := rfl
@[simp] theorem State.updTiller_grids (s : State) (gid sh ti : Nat) (f : Tiller → Tiller) :
    (s.updTiller gid sh ti f).grids = s.grids := rfl
@[simp] theorem State.updTiller_pending (s : State) (gid sh ti : Nat) (f : Tiller → Tiller) :
    (s.updTiller gid sh ti f).pending = s.pending := rfl
@[simp] theorem State.updTiller_cores (s : State) (gid sh ti : Nat) (f : Tiller → Tiller) :
    (s.updTiller gid sh ti f).cores = s.cores := rfl
@[simp] theorem State.updTiller_dies (s : State) (gid sh ti : Nat) (f : Tiller → Tiller) :
    (s.updTiller gid sh ti f).dies = s.dies := rfl
@[simp] theorem State.updTiller_l2 (s : State) (gid sh ti : Nat) (f : Tiller → Tiller) :
    (s.updTiller gid sh ti f).l2 = s.l2 := rfl
@[simp] theorem State.updTiller_creds (s : State) (gid sh ti : Nat) (f : Tiller → Tiller) :
    (s.updTiller gid sh ti f).creds = s.creds := rfl
@[simp] theorem State.updTiller_l2creds (s : State) (gid sh ti : Nat) (f : Tiller → Tiller) :
    (s.updTiller gid sh ti f).l2creds = s.l2creds := rfl
@[simp] theorem State.updTiller_cmds (s : State) (gid sh ti : Nat) (f : Tiller → Tiller) :
    (s.updTiller gid sh ti f).cmds = s.cmds := rfl
@[simp] theorem State.updTiller_faults (s : State) (gid sh ti : Nat) (f : Tiller → Tiller) :
    (s.updTiller gid sh ti f).faults = s.faults := rfl
@[simp] theorem State.updTiller_rds (s : State) (gid sh ti : Nat) (f : Tiller → Tiller) :
    (s.updTiller gid sh ti f).rds = s.rds := rfl
@[simp] theorem State.updTiller_pends (s : State) (gid sh ti : Nat) (f : Tiller → Tiller) :
    (s.updTiller gid sh ti f).pends = s.pends := rfl
@[simp] theorem State.updTiller_late (s : State) (gid sh ti : Nat) (f : Tiller → Tiller) :
    (s.updTiller gid sh ti f).late = s.late := rfl
@[simp] theorem State.updTiller_hostAccs (s : State) (gid sh ti : Nat) (f : Tiller → Tiller) :
    (s.updTiller gid sh ti f).hostAccs = s.hostAccs := rfl
@[simp] theorem State.updTiller_latePeers (s : State) (gid sh ti : Nat) (f : Tiller → Tiller) :
    (s.updTiller gid sh ti f).latePeers = s.latePeers := rfl
@[simp] theorem State.updTiller_cuts (s : State) (gid sh ti : Nat) (f : Tiller → Tiller) :
    (s.updTiller gid sh ti f).cuts = s.cuts := rfl
@[simp] theorem State.updTiller_ctxs (s : State) (gid sh ti : Nat) (f : Tiller → Tiller) :
    (s.updTiller gid sh ti f).ctxs = s.ctxs := rfl
@[simp] theorem State.updTiller_sqs (s : State) (gid sh ti : Nat) (f : Tiller → Tiller) :
    (s.updTiller gid sh ti f).sqs = s.sqs := rfl
@[simp] theorem State.updTiller_watches (s : State) (gid sh ti : Nat) (f : Tiller → Tiller) :
    (s.updTiller gid sh ti f).watches = s.watches := rfl
@[simp] theorem State.updTiller_drives (s : State) (gid sh ti : Nat) (f : Tiller → Tiller) :
    (s.updTiller gid sh ti f).drives = s.drives := rfl
@[simp] theorem State.updTiller_plat (s : State) (gid sh ti : Nat) (f : Tiller → Tiller) :
    (s.updTiller gid sh ti f).plat = s.plat := rfl
@[simp] theorem State.updTiller_sign (s : State) (gid sh ti : Nat) (f : Tiller → Tiller) :
    (s.updTiller gid sh ti f).sign = s.sign := rfl
@[simp] theorem State.updTiller_spdm (s : State) (gid sh ti : Nat) (f : Tiller → Tiller) :
    (s.updTiller gid sh ti f).spdm = s.spdm := rfl
@[simp] theorem State.updTiller_out (s : State) (gid sh ti : Nat) (f : Tiller → Tiller) :
    (s.updTiller gid sh ti f).out = s.out := rfl
@[simp] theorem State.updTiller_powered (s : State) (gid sh ti : Nat) (f : Tiller → Tiller) :
    (s.updTiller gid sh ti f).powered = s.powered := rfl
@[simp] theorem State.updTiller_flash (s : State) (gid sh ti : Nat) (f : Tiller → Tiller) :
    (s.updTiller gid sh ti f).flash = s.flash := rfl
@[simp] theorem State.updTiller_nextId (s : State) (gid sh ti : Nat) (f : Tiller → Tiller) :
    (s.updTiller gid sh ti f).nextId = s.nextId := rfl
@[simp] theorem State.updTiller_freeCtr (s : State) (gid sh ti : Nat) (f : Tiller → Tiller) :
    (s.updTiller gid sh ti f).freeCtr = s.freeCtr := rfl
@[simp] theorem State.updTiller_agenda (s : State) (gid sh ti : Nat) (f : Tiller → Tiller) :
    (s.updTiller gid sh ti f).agenda = s.agenda := rfl
@[simp] theorem State.updTiller_focus (s : State) (gid sh ti : Nat) (f : Tiller → Tiller) :
    (s.updTiller gid sh ti f).focus = s.focus := rfl
@[simp] theorem State.updTiller_cur (s : State) (gid sh ti : Nat) (f : Tiller → Tiller) :
    (s.updTiller gid sh ti f).cur = s.cur := rfl
@[simp] theorem State.updTiller_issued (s : State) (gid sh ti : Nat) (f : Tiller → Tiller) :
    (s.updTiller gid sh ti f).issued = s.issued := rfl

/-! ## `State.updS` -/

@[simp] theorem State.updS_cycle (s : State) (f : Frame) (u : Sheaf → Sheaf) : (s.updS f u).cycle = s.cycle := rfl
@[simp] theorem State.updS_mem (s : State) (f : Frame) (u : Sheaf → Sheaf) : (s.updS f u).mem = s.mem := rfl
@[simp] theorem State.updS_poison (s : State) (f : Frame) (u : Sheaf → Sheaf) : (s.updS f u).poison = s.poison := rfl
@[simp] theorem State.updS_hostMem (s : State) (f : Frame) (u : Sheaf → Sheaf) :
    (s.updS f u).hostMem = s.hostMem := rfl
@[simp] theorem State.updS_remote (s : State) (f : Frame) (u : Sheaf → Sheaf) : (s.updS f u).remote = s.remote := rfl
@[simp] theorem State.updS_peers (s : State) (f : Frame) (u : Sheaf → Sheaf) : (s.updS f u).peers = s.peers := rfl
@[simp] theorem State.updS_groups (s : State) (f : Frame) (u : Sheaf → Sheaf) :
    (s.updS f u).groups = updWhere (fun g => g.gid == f.g.gid) (fun g => g.updSheaf f.sh.idx u) s.groups := rfl
@[simp] theorem State.updS_images (s : State) (f : Frame) (u : Sheaf → Sheaf) : (s.updS f u).images = s.images := rfl
@[simp] theorem State.updS_grids (s : State) (f : Frame) (u : Sheaf → Sheaf) : (s.updS f u).grids = s.grids := rfl
@[simp] theorem State.updS_pending (s : State) (f : Frame) (u : Sheaf → Sheaf) :
    (s.updS f u).pending = s.pending := rfl
@[simp] theorem State.updS_cores (s : State) (f : Frame) (u : Sheaf → Sheaf) : (s.updS f u).cores = s.cores := rfl
@[simp] theorem State.updS_dies (s : State) (f : Frame) (u : Sheaf → Sheaf) : (s.updS f u).dies = s.dies := rfl
@[simp] theorem State.updS_l2 (s : State) (f : Frame) (u : Sheaf → Sheaf) : (s.updS f u).l2 = s.l2 := rfl
@[simp] theorem State.updS_creds (s : State) (f : Frame) (u : Sheaf → Sheaf) : (s.updS f u).creds = s.creds := rfl
@[simp] theorem State.updS_l2creds (s : State) (f : Frame) (u : Sheaf → Sheaf) :
    (s.updS f u).l2creds = s.l2creds := rfl
@[simp] theorem State.updS_cmds (s : State) (f : Frame) (u : Sheaf → Sheaf) : (s.updS f u).cmds = s.cmds := rfl
@[simp] theorem State.updS_faults (s : State) (f : Frame) (u : Sheaf → Sheaf) : (s.updS f u).faults = s.faults := rfl
@[simp] theorem State.updS_rds (s : State) (f : Frame) (u : Sheaf → Sheaf) : (s.updS f u).rds = s.rds := rfl
@[simp] theorem State.updS_pends (s : State) (f : Frame) (u : Sheaf → Sheaf) : (s.updS f u).pends = s.pends := rfl
@[simp] theorem State.updS_late (s : State) (f : Frame) (u : Sheaf → Sheaf) : (s.updS f u).late = s.late := rfl
@[simp] theorem State.updS_hostAccs (s : State) (f : Frame) (u : Sheaf → Sheaf) : (s.updS f u).hostAccs = s.hostAccs := rfl
@[simp] theorem State.updS_latePeers (s : State) (f : Frame) (u : Sheaf → Sheaf) : (s.updS f u).latePeers = s.latePeers := rfl
@[simp] theorem State.updS_cuts (s : State) (f : Frame) (u : Sheaf → Sheaf) : (s.updS f u).cuts = s.cuts := rfl
@[simp] theorem State.updS_ctxs (s : State) (f : Frame) (u : Sheaf → Sheaf) : (s.updS f u).ctxs = s.ctxs := rfl
@[simp] theorem State.updS_sqs (s : State) (f : Frame) (u : Sheaf → Sheaf) : (s.updS f u).sqs = s.sqs := rfl
@[simp] theorem State.updS_watches (s : State) (f : Frame) (u : Sheaf → Sheaf) :
    (s.updS f u).watches = s.watches := rfl
@[simp] theorem State.updS_drives (s : State) (f : Frame) (u : Sheaf → Sheaf) : (s.updS f u).drives = s.drives := rfl
@[simp] theorem State.updS_plat (s : State) (f : Frame) (u : Sheaf → Sheaf) : (s.updS f u).plat = s.plat := rfl
@[simp] theorem State.updS_sign (s : State) (f : Frame) (u : Sheaf → Sheaf) : (s.updS f u).sign = s.sign := rfl
@[simp] theorem State.updS_spdm (s : State) (f : Frame) (u : Sheaf → Sheaf) : (s.updS f u).spdm = s.spdm := rfl
@[simp] theorem State.updS_out (s : State) (f : Frame) (u : Sheaf → Sheaf) : (s.updS f u).out = s.out := rfl
@[simp] theorem State.updS_powered (s : State) (f : Frame) (u : Sheaf → Sheaf) :
    (s.updS f u).powered = s.powered := rfl
@[simp] theorem State.updS_flash (s : State) (f : Frame) (u : Sheaf → Sheaf) :
    (s.updS f u).flash = s.flash := rfl
@[simp] theorem State.updS_nextId (s : State) (f : Frame) (u : Sheaf → Sheaf) : (s.updS f u).nextId = s.nextId := rfl
@[simp] theorem State.updS_freeCtr (s : State) (f : Frame) (u : Sheaf → Sheaf) :
    (s.updS f u).freeCtr = s.freeCtr := rfl
@[simp] theorem State.updS_agenda (s : State) (f : Frame) (u : Sheaf → Sheaf) : (s.updS f u).agenda = s.agenda := rfl
@[simp] theorem State.updS_focus (s : State) (f : Frame) (u : Sheaf → Sheaf) : (s.updS f u).focus = s.focus := rfl
@[simp] theorem State.updS_cur (s : State) (f : Frame) (u : Sheaf → Sheaf) : (s.updS f u).cur = s.cur := rfl
@[simp] theorem State.updS_issued (s : State) (f : Frame) (u : Sheaf → Sheaf) : (s.updS f u).issued = s.issued := rfl

/-! ## `State.updT` -/

@[simp] theorem State.updT_cycle (s : State) (f : Frame) (u : Tiller → Tiller) : (s.updT f u).cycle = s.cycle := rfl
@[simp] theorem State.updT_mem (s : State) (f : Frame) (u : Tiller → Tiller) : (s.updT f u).mem = s.mem := rfl
@[simp] theorem State.updT_poison (s : State) (f : Frame) (u : Tiller → Tiller) :
    (s.updT f u).poison = s.poison := rfl
@[simp] theorem State.updT_hostMem (s : State) (f : Frame) (u : Tiller → Tiller) :
    (s.updT f u).hostMem = s.hostMem := rfl
@[simp] theorem State.updT_remote (s : State) (f : Frame) (u : Tiller → Tiller) :
    (s.updT f u).remote = s.remote := rfl
@[simp] theorem State.updT_peers (s : State) (f : Frame) (u : Tiller → Tiller) : (s.updT f u).peers = s.peers := rfl
@[simp] theorem State.updT_groups (s : State) (f : Frame) (u : Tiller → Tiller) :
    (s.updT f u).groups =
      updWhere (fun g => g.gid == f.g.gid) (fun g => g.updSheaf f.sh.idx (fun x => x.updTiller f.t.idx u)) s.groups := rfl
@[simp] theorem State.updT_images (s : State) (f : Frame) (u : Tiller → Tiller) :
    (s.updT f u).images = s.images := rfl
@[simp] theorem State.updT_grids (s : State) (f : Frame) (u : Tiller → Tiller) : (s.updT f u).grids = s.grids := rfl
@[simp] theorem State.updT_pending (s : State) (f : Frame) (u : Tiller → Tiller) :
    (s.updT f u).pending = s.pending := rfl
@[simp] theorem State.updT_cores (s : State) (f : Frame) (u : Tiller → Tiller) : (s.updT f u).cores = s.cores := rfl
@[simp] theorem State.updT_dies (s : State) (f : Frame) (u : Tiller → Tiller) : (s.updT f u).dies = s.dies := rfl
@[simp] theorem State.updT_l2 (s : State) (f : Frame) (u : Tiller → Tiller) : (s.updT f u).l2 = s.l2 := rfl
@[simp] theorem State.updT_creds (s : State) (f : Frame) (u : Tiller → Tiller) : (s.updT f u).creds = s.creds := rfl
@[simp] theorem State.updT_l2creds (s : State) (f : Frame) (u : Tiller → Tiller) :
    (s.updT f u).l2creds = s.l2creds := rfl
@[simp] theorem State.updT_cmds (s : State) (f : Frame) (u : Tiller → Tiller) : (s.updT f u).cmds = s.cmds := rfl
@[simp] theorem State.updT_faults (s : State) (f : Frame) (u : Tiller → Tiller) :
    (s.updT f u).faults = s.faults := rfl
@[simp] theorem State.updT_rds (s : State) (f : Frame) (u : Tiller → Tiller) : (s.updT f u).rds = s.rds := rfl
@[simp] theorem State.updT_pends (s : State) (f : Frame) (u : Tiller → Tiller) : (s.updT f u).pends = s.pends := rfl
@[simp] theorem State.updT_late (s : State) (f : Frame) (u : Tiller → Tiller) : (s.updT f u).late = s.late := rfl
@[simp] theorem State.updT_hostAccs (s : State) (f : Frame) (u : Tiller → Tiller) : (s.updT f u).hostAccs = s.hostAccs := rfl
@[simp] theorem State.updT_latePeers (s : State) (f : Frame) (u : Tiller → Tiller) : (s.updT f u).latePeers = s.latePeers := rfl
@[simp] theorem State.updT_cuts (s : State) (f : Frame) (u : Tiller → Tiller) : (s.updT f u).cuts = s.cuts := rfl
@[simp] theorem State.updT_ctxs (s : State) (f : Frame) (u : Tiller → Tiller) : (s.updT f u).ctxs = s.ctxs := rfl
@[simp] theorem State.updT_sqs (s : State) (f : Frame) (u : Tiller → Tiller) : (s.updT f u).sqs = s.sqs := rfl
@[simp] theorem State.updT_watches (s : State) (f : Frame) (u : Tiller → Tiller) :
    (s.updT f u).watches = s.watches := rfl
@[simp] theorem State.updT_drives (s : State) (f : Frame) (u : Tiller → Tiller) :
    (s.updT f u).drives = s.drives := rfl
@[simp] theorem State.updT_plat (s : State) (f : Frame) (u : Tiller → Tiller) : (s.updT f u).plat = s.plat := rfl
@[simp] theorem State.updT_sign (s : State) (f : Frame) (u : Tiller → Tiller) : (s.updT f u).sign = s.sign := rfl
@[simp] theorem State.updT_spdm (s : State) (f : Frame) (u : Tiller → Tiller) : (s.updT f u).spdm = s.spdm := rfl
@[simp] theorem State.updT_out (s : State) (f : Frame) (u : Tiller → Tiller) : (s.updT f u).out = s.out := rfl
@[simp] theorem State.updT_powered (s : State) (f : Frame) (u : Tiller → Tiller) :
    (s.updT f u).powered = s.powered := rfl
@[simp] theorem State.updT_flash (s : State) (f : Frame) (u : Tiller → Tiller) :
    (s.updT f u).flash = s.flash := rfl
@[simp] theorem State.updT_nextId (s : State) (f : Frame) (u : Tiller → Tiller) :
    (s.updT f u).nextId = s.nextId := rfl
@[simp] theorem State.updT_freeCtr (s : State) (f : Frame) (u : Tiller → Tiller) :
    (s.updT f u).freeCtr = s.freeCtr := rfl
@[simp] theorem State.updT_agenda (s : State) (f : Frame) (u : Tiller → Tiller) :
    (s.updT f u).agenda = s.agenda := rfl
@[simp] theorem State.updT_focus (s : State) (f : Frame) (u : Tiller → Tiller) : (s.updT f u).focus = s.focus := rfl
@[simp] theorem State.updT_cur (s : State) (f : Frame) (u : Tiller → Tiller) : (s.updT f u).cur = s.cur := rfl
@[simp] theorem State.updT_issued (s : State) (f : Frame) (u : Tiller → Tiller) :
    (s.updT f u).issued = s.issued := rfl

/-! ## `State.advance` -/

@[simp] theorem State.advance_cycle (s : State) (f : Frame) (i : Instr) : (s.advance f i).cycle = s.cycle := rfl
@[simp] theorem State.advance_mem (s : State) (f : Frame) (i : Instr) : (s.advance f i).mem = s.mem := rfl
@[simp] theorem State.advance_poison (s : State) (f : Frame) (i : Instr) : (s.advance f i).poison = s.poison := rfl
@[simp] theorem State.advance_hostMem (s : State) (f : Frame) (i : Instr) : (s.advance f i).hostMem = s.hostMem := rfl
@[simp] theorem State.advance_remote (s : State) (f : Frame) (i : Instr) : (s.advance f i).remote = s.remote := rfl
@[simp] theorem State.advance_peers (s : State) (f : Frame) (i : Instr) : (s.advance f i).peers = s.peers := rfl
@[simp] theorem State.advance_groups (s : State) (f : Frame) (i : Instr) :
    (s.advance f i).groups =
      updWhere (fun g => g.gid == f.g.gid) (fun g => g.updSheaf f.sh.idx (fun x => x.updTiller f.t.idx (fun t => t.advance s.cycle i))) s.groups := rfl
@[simp] theorem State.advance_images (s : State) (f : Frame) (i : Instr) : (s.advance f i).images = s.images := rfl
@[simp] theorem State.advance_grids (s : State) (f : Frame) (i : Instr) : (s.advance f i).grids = s.grids := rfl
@[simp] theorem State.advance_pending (s : State) (f : Frame) (i : Instr) : (s.advance f i).pending = s.pending := rfl
@[simp] theorem State.advance_cores (s : State) (f : Frame) (i : Instr) : (s.advance f i).cores = s.cores := rfl
@[simp] theorem State.advance_dies (s : State) (f : Frame) (i : Instr) : (s.advance f i).dies = s.dies := rfl
@[simp] theorem State.advance_l2 (s : State) (f : Frame) (i : Instr) : (s.advance f i).l2 = s.l2 := rfl
@[simp] theorem State.advance_creds (s : State) (f : Frame) (i : Instr) : (s.advance f i).creds = s.creds := rfl
@[simp] theorem State.advance_l2creds (s : State) (f : Frame) (i : Instr) : (s.advance f i).l2creds = s.l2creds := rfl
@[simp] theorem State.advance_cmds (s : State) (f : Frame) (i : Instr) : (s.advance f i).cmds = s.cmds := rfl
@[simp] theorem State.advance_faults (s : State) (f : Frame) (i : Instr) : (s.advance f i).faults = s.faults := rfl
@[simp] theorem State.advance_rds (s : State) (f : Frame) (i : Instr) : (s.advance f i).rds = s.rds := rfl
@[simp] theorem State.advance_pends (s : State) (f : Frame) (i : Instr) : (s.advance f i).pends = s.pends := rfl
@[simp] theorem State.advance_late (s : State) (f : Frame) (i : Instr) : (s.advance f i).late = s.late := rfl
@[simp] theorem State.advance_hostAccs (s : State) (f : Frame) (i : Instr) : (s.advance f i).hostAccs = s.hostAccs := rfl
@[simp] theorem State.advance_latePeers (s : State) (f : Frame) (i : Instr) : (s.advance f i).latePeers = s.latePeers := rfl
@[simp] theorem State.advance_cuts (s : State) (f : Frame) (i : Instr) : (s.advance f i).cuts = s.cuts := rfl
@[simp] theorem State.advance_ctxs (s : State) (f : Frame) (i : Instr) : (s.advance f i).ctxs = s.ctxs := rfl
@[simp] theorem State.advance_sqs (s : State) (f : Frame) (i : Instr) : (s.advance f i).sqs = s.sqs := rfl
@[simp] theorem State.advance_watches (s : State) (f : Frame) (i : Instr) : (s.advance f i).watches = s.watches := rfl
@[simp] theorem State.advance_drives (s : State) (f : Frame) (i : Instr) : (s.advance f i).drives = s.drives := rfl
@[simp] theorem State.advance_plat (s : State) (f : Frame) (i : Instr) : (s.advance f i).plat = s.plat := rfl
@[simp] theorem State.advance_sign (s : State) (f : Frame) (i : Instr) : (s.advance f i).sign = s.sign := rfl
@[simp] theorem State.advance_spdm (s : State) (f : Frame) (i : Instr) : (s.advance f i).spdm = s.spdm := rfl
@[simp] theorem State.advance_out (s : State) (f : Frame) (i : Instr) : (s.advance f i).out = s.out := rfl
@[simp] theorem State.advance_powered (s : State) (f : Frame) (i : Instr) : (s.advance f i).powered = s.powered := rfl
@[simp] theorem State.advance_flash (s : State) (f : Frame) (i : Instr) : (s.advance f i).flash = s.flash := rfl
@[simp] theorem State.advance_nextId (s : State) (f : Frame) (i : Instr) : (s.advance f i).nextId = s.nextId := rfl
@[simp] theorem State.advance_freeCtr (s : State) (f : Frame) (i : Instr) : (s.advance f i).freeCtr = s.freeCtr := rfl
@[simp] theorem State.advance_agenda (s : State) (f : Frame) (i : Instr) : (s.advance f i).agenda = s.agenda := rfl
@[simp] theorem State.advance_focus (s : State) (f : Frame) (i : Instr) : (s.advance f i).focus = s.focus := rfl
@[simp] theorem State.advance_cur (s : State) (f : Frame) (i : Instr) : (s.advance f i).cur = s.cur := rfl
@[simp] theorem State.advance_issued (s : State) (f : Frame) (i : Instr) : (s.advance f i).issued = s.issued := rfl

/-! ## `State.updCore` -/

@[simp] theorem State.updCore_cycle (s : State) (id : Nat) (f : CoreSt → CoreSt) :
    (s.updCore id f).cycle = s.cycle := rfl
@[simp] theorem State.updCore_mem (s : State) (id : Nat) (f : CoreSt → CoreSt) : (s.updCore id f).mem = s.mem := rfl
@[simp] theorem State.updCore_poison (s : State) (id : Nat) (f : CoreSt → CoreSt) :
    (s.updCore id f).poison = s.poison := rfl
@[simp] theorem State.updCore_hostMem (s : State) (id : Nat) (f : CoreSt → CoreSt) :
    (s.updCore id f).hostMem = s.hostMem := rfl
@[simp] theorem State.updCore_remote (s : State) (id : Nat) (f : CoreSt → CoreSt) :
    (s.updCore id f).remote = s.remote := rfl
@[simp] theorem State.updCore_peers (s : State) (id : Nat) (f : CoreSt → CoreSt) :
    (s.updCore id f).peers = s.peers := rfl
@[simp] theorem State.updCore_groups (s : State) (id : Nat) (f : CoreSt → CoreSt) :
    (s.updCore id f).groups = s.groups := rfl
@[simp] theorem State.updCore_images (s : State) (id : Nat) (f : CoreSt → CoreSt) :
    (s.updCore id f).images = s.images := rfl
@[simp] theorem State.updCore_grids (s : State) (id : Nat) (f : CoreSt → CoreSt) :
    (s.updCore id f).grids = s.grids := rfl
@[simp] theorem State.updCore_pending (s : State) (id : Nat) (f : CoreSt → CoreSt) :
    (s.updCore id f).pending = s.pending := rfl
@[simp] theorem State.updCore_cores (s : State) (id : Nat) (f : CoreSt → CoreSt) :
    (s.updCore id f).cores = putBy CoreSt.id (f (s.core id)) s.cores := rfl
@[simp] theorem State.updCore_dies (s : State) (id : Nat) (f : CoreSt → CoreSt) :
    (s.updCore id f).dies = s.dies := rfl
@[simp] theorem State.updCore_l2 (s : State) (id : Nat) (f : CoreSt → CoreSt) : (s.updCore id f).l2 = s.l2 := rfl
@[simp] theorem State.updCore_creds (s : State) (id : Nat) (f : CoreSt → CoreSt) :
    (s.updCore id f).creds = s.creds := rfl
@[simp] theorem State.updCore_l2creds (s : State) (id : Nat) (f : CoreSt → CoreSt) :
    (s.updCore id f).l2creds = s.l2creds := rfl
@[simp] theorem State.updCore_cmds (s : State) (id : Nat) (f : CoreSt → CoreSt) :
    (s.updCore id f).cmds = s.cmds := rfl
@[simp] theorem State.updCore_faults (s : State) (id : Nat) (f : CoreSt → CoreSt) :
    (s.updCore id f).faults = s.faults := rfl
@[simp] theorem State.updCore_rds (s : State) (id : Nat) (f : CoreSt → CoreSt) : (s.updCore id f).rds = s.rds := rfl
@[simp] theorem State.updCore_pends (s : State) (id : Nat) (f : CoreSt → CoreSt) :
    (s.updCore id f).pends = s.pends := rfl
@[simp] theorem State.updCore_late (s : State) (id : Nat) (f : CoreSt → CoreSt) :
    (s.updCore id f).late = s.late := rfl
@[simp] theorem State.updCore_hostAccs (s : State) (id : Nat) (f : CoreSt → CoreSt) :
    (s.updCore id f).hostAccs = s.hostAccs := rfl
@[simp] theorem State.updCore_latePeers (s : State) (id : Nat) (f : CoreSt → CoreSt) :
    (s.updCore id f).latePeers = s.latePeers := rfl
@[simp] theorem State.updCore_cuts (s : State) (id : Nat) (f : CoreSt → CoreSt) :
    (s.updCore id f).cuts = s.cuts := rfl
@[simp] theorem State.updCore_ctxs (s : State) (id : Nat) (f : CoreSt → CoreSt) :
    (s.updCore id f).ctxs = s.ctxs := rfl
@[simp] theorem State.updCore_sqs (s : State) (id : Nat) (f : CoreSt → CoreSt) : (s.updCore id f).sqs = s.sqs := rfl
@[simp] theorem State.updCore_watches (s : State) (id : Nat) (f : CoreSt → CoreSt) :
    (s.updCore id f).watches = s.watches := rfl
@[simp] theorem State.updCore_drives (s : State) (id : Nat) (f : CoreSt → CoreSt) :
    (s.updCore id f).drives = s.drives := rfl
@[simp] theorem State.updCore_plat (s : State) (id : Nat) (f : CoreSt → CoreSt) :
    (s.updCore id f).plat = s.plat := rfl
@[simp] theorem State.updCore_sign (s : State) (id : Nat) (f : CoreSt → CoreSt) :
    (s.updCore id f).sign = s.sign := rfl
@[simp] theorem State.updCore_spdm (s : State) (id : Nat) (f : CoreSt → CoreSt) :
    (s.updCore id f).spdm = s.spdm := rfl
@[simp] theorem State.updCore_out (s : State) (id : Nat) (f : CoreSt → CoreSt) : (s.updCore id f).out = s.out := rfl
@[simp] theorem State.updCore_powered (s : State) (id : Nat) (f : CoreSt → CoreSt) :
    (s.updCore id f).powered = s.powered := rfl
@[simp] theorem State.updCore_flash (s : State) (id : Nat) (f : CoreSt → CoreSt) :
    (s.updCore id f).flash = s.flash := rfl
@[simp] theorem State.updCore_nextId (s : State) (id : Nat) (f : CoreSt → CoreSt) :
    (s.updCore id f).nextId = s.nextId := rfl
@[simp] theorem State.updCore_freeCtr (s : State) (id : Nat) (f : CoreSt → CoreSt) :
    (s.updCore id f).freeCtr = s.freeCtr := rfl
@[simp] theorem State.updCore_agenda (s : State) (id : Nat) (f : CoreSt → CoreSt) :
    (s.updCore id f).agenda = s.agenda := rfl
@[simp] theorem State.updCore_focus (s : State) (id : Nat) (f : CoreSt → CoreSt) :
    (s.updCore id f).focus = s.focus := rfl
@[simp] theorem State.updCore_cur (s : State) (id : Nat) (f : CoreSt → CoreSt) : (s.updCore id f).cur = s.cur := rfl
@[simp] theorem State.updCore_issued (s : State) (id : Nat) (f : CoreSt → CoreSt) :
    (s.updCore id f).issued = s.issued := rfl

/-! ## `State.updDie` -/

@[simp] theorem State.updDie_cycle (s : State) (id : Nat) (f : DieSt → DieSt) : (s.updDie id f).cycle = s.cycle := rfl
@[simp] theorem State.updDie_mem (s : State) (id : Nat) (f : DieSt → DieSt) : (s.updDie id f).mem = s.mem := rfl
@[simp] theorem State.updDie_poison (s : State) (id : Nat) (f : DieSt → DieSt) :
    (s.updDie id f).poison = s.poison := rfl
@[simp] theorem State.updDie_hostMem (s : State) (id : Nat) (f : DieSt → DieSt) :
    (s.updDie id f).hostMem = s.hostMem := rfl
@[simp] theorem State.updDie_remote (s : State) (id : Nat) (f : DieSt → DieSt) :
    (s.updDie id f).remote = s.remote := rfl
@[simp] theorem State.updDie_peers (s : State) (id : Nat) (f : DieSt → DieSt) : (s.updDie id f).peers = s.peers := rfl
@[simp] theorem State.updDie_groups (s : State) (id : Nat) (f : DieSt → DieSt) :
    (s.updDie id f).groups = s.groups := rfl
@[simp] theorem State.updDie_images (s : State) (id : Nat) (f : DieSt → DieSt) :
    (s.updDie id f).images = s.images := rfl
@[simp] theorem State.updDie_grids (s : State) (id : Nat) (f : DieSt → DieSt) : (s.updDie id f).grids = s.grids := rfl
@[simp] theorem State.updDie_pending (s : State) (id : Nat) (f : DieSt → DieSt) :
    (s.updDie id f).pending = s.pending := rfl
@[simp] theorem State.updDie_cores (s : State) (id : Nat) (f : DieSt → DieSt) : (s.updDie id f).cores = s.cores := rfl
@[simp] theorem State.updDie_dies (s : State) (id : Nat) (f : DieSt → DieSt) :
    (s.updDie id f).dies = putBy DieSt.id (f (s.die id)) s.dies := rfl
@[simp] theorem State.updDie_l2 (s : State) (id : Nat) (f : DieSt → DieSt) : (s.updDie id f).l2 = s.l2 := rfl
@[simp] theorem State.updDie_creds (s : State) (id : Nat) (f : DieSt → DieSt) : (s.updDie id f).creds = s.creds := rfl
@[simp] theorem State.updDie_l2creds (s : State) (id : Nat) (f : DieSt → DieSt) :
    (s.updDie id f).l2creds = s.l2creds := rfl
@[simp] theorem State.updDie_cmds (s : State) (id : Nat) (f : DieSt → DieSt) : (s.updDie id f).cmds = s.cmds := rfl
@[simp] theorem State.updDie_faults (s : State) (id : Nat) (f : DieSt → DieSt) :
    (s.updDie id f).faults = s.faults := rfl
@[simp] theorem State.updDie_rds (s : State) (id : Nat) (f : DieSt → DieSt) : (s.updDie id f).rds = s.rds := rfl
@[simp] theorem State.updDie_pends (s : State) (id : Nat) (f : DieSt → DieSt) : (s.updDie id f).pends = s.pends := rfl
@[simp] theorem State.updDie_late (s : State) (id : Nat) (f : DieSt → DieSt) : (s.updDie id f).late = s.late := rfl
@[simp] theorem State.updDie_hostAccs (s : State) (id : Nat) (f : DieSt → DieSt) : (s.updDie id f).hostAccs = s.hostAccs := rfl
@[simp] theorem State.updDie_latePeers (s : State) (id : Nat) (f : DieSt → DieSt) : (s.updDie id f).latePeers = s.latePeers := rfl
@[simp] theorem State.updDie_cuts (s : State) (id : Nat) (f : DieSt → DieSt) : (s.updDie id f).cuts = s.cuts := rfl
@[simp] theorem State.updDie_ctxs (s : State) (id : Nat) (f : DieSt → DieSt) : (s.updDie id f).ctxs = s.ctxs := rfl
@[simp] theorem State.updDie_sqs (s : State) (id : Nat) (f : DieSt → DieSt) : (s.updDie id f).sqs = s.sqs := rfl
@[simp] theorem State.updDie_watches (s : State) (id : Nat) (f : DieSt → DieSt) :
    (s.updDie id f).watches = s.watches := rfl
@[simp] theorem State.updDie_drives (s : State) (id : Nat) (f : DieSt → DieSt) :
    (s.updDie id f).drives = s.drives := rfl
@[simp] theorem State.updDie_plat (s : State) (id : Nat) (f : DieSt → DieSt) : (s.updDie id f).plat = s.plat := rfl
@[simp] theorem State.updDie_sign (s : State) (id : Nat) (f : DieSt → DieSt) : (s.updDie id f).sign = s.sign := rfl
@[simp] theorem State.updDie_spdm (s : State) (id : Nat) (f : DieSt → DieSt) : (s.updDie id f).spdm = s.spdm := rfl
@[simp] theorem State.updDie_out (s : State) (id : Nat) (f : DieSt → DieSt) : (s.updDie id f).out = s.out := rfl
@[simp] theorem State.updDie_powered (s : State) (id : Nat) (f : DieSt → DieSt) :
    (s.updDie id f).powered = s.powered := rfl
@[simp] theorem State.updDie_flash (s : State) (id : Nat) (f : DieSt → DieSt) :
    (s.updDie id f).flash = s.flash := rfl
@[simp] theorem State.updDie_nextId (s : State) (id : Nat) (f : DieSt → DieSt) :
    (s.updDie id f).nextId = s.nextId := rfl
@[simp] theorem State.updDie_freeCtr (s : State) (id : Nat) (f : DieSt → DieSt) :
    (s.updDie id f).freeCtr = s.freeCtr := rfl
@[simp] theorem State.updDie_agenda (s : State) (id : Nat) (f : DieSt → DieSt) :
    (s.updDie id f).agenda = s.agenda := rfl
@[simp] theorem State.updDie_focus (s : State) (id : Nat) (f : DieSt → DieSt) : (s.updDie id f).focus = s.focus := rfl
@[simp] theorem State.updDie_cur (s : State) (id : Nat) (f : DieSt → DieSt) : (s.updDie id f).cur = s.cur := rfl
@[simp] theorem State.updDie_issued (s : State) (id : Nat) (f : DieSt → DieSt) :
    (s.updDie id f).issued = s.issued := rfl

/-! ## `State.updCtx` -/

@[simp] theorem State.updCtx_cycle (s : State) (id : Nat) (f : CtxSt → CtxSt) : (s.updCtx id f).cycle = s.cycle := rfl
@[simp] theorem State.updCtx_mem (s : State) (id : Nat) (f : CtxSt → CtxSt) : (s.updCtx id f).mem = s.mem := rfl
@[simp] theorem State.updCtx_poison (s : State) (id : Nat) (f : CtxSt → CtxSt) :
    (s.updCtx id f).poison = s.poison := rfl
@[simp] theorem State.updCtx_hostMem (s : State) (id : Nat) (f : CtxSt → CtxSt) :
    (s.updCtx id f).hostMem = s.hostMem := rfl
@[simp] theorem State.updCtx_remote (s : State) (id : Nat) (f : CtxSt → CtxSt) :
    (s.updCtx id f).remote = s.remote := rfl
@[simp] theorem State.updCtx_peers (s : State) (id : Nat) (f : CtxSt → CtxSt) : (s.updCtx id f).peers = s.peers := rfl
@[simp] theorem State.updCtx_groups (s : State) (id : Nat) (f : CtxSt → CtxSt) :
    (s.updCtx id f).groups = s.groups := rfl
@[simp] theorem State.updCtx_images (s : State) (id : Nat) (f : CtxSt → CtxSt) :
    (s.updCtx id f).images = s.images := rfl
@[simp] theorem State.updCtx_grids (s : State) (id : Nat) (f : CtxSt → CtxSt) : (s.updCtx id f).grids = s.grids := rfl
@[simp] theorem State.updCtx_pending (s : State) (id : Nat) (f : CtxSt → CtxSt) :
    (s.updCtx id f).pending = s.pending := rfl
@[simp] theorem State.updCtx_cores (s : State) (id : Nat) (f : CtxSt → CtxSt) : (s.updCtx id f).cores = s.cores := rfl
@[simp] theorem State.updCtx_dies (s : State) (id : Nat) (f : CtxSt → CtxSt) : (s.updCtx id f).dies = s.dies := rfl
@[simp] theorem State.updCtx_l2 (s : State) (id : Nat) (f : CtxSt → CtxSt) : (s.updCtx id f).l2 = s.l2 := rfl
@[simp] theorem State.updCtx_creds (s : State) (id : Nat) (f : CtxSt → CtxSt) : (s.updCtx id f).creds = s.creds := rfl
@[simp] theorem State.updCtx_l2creds (s : State) (id : Nat) (f : CtxSt → CtxSt) :
    (s.updCtx id f).l2creds = s.l2creds := rfl
@[simp] theorem State.updCtx_cmds (s : State) (id : Nat) (f : CtxSt → CtxSt) : (s.updCtx id f).cmds = s.cmds := rfl
@[simp] theorem State.updCtx_faults (s : State) (id : Nat) (f : CtxSt → CtxSt) :
    (s.updCtx id f).faults = s.faults := rfl
@[simp] theorem State.updCtx_rds (s : State) (id : Nat) (f : CtxSt → CtxSt) : (s.updCtx id f).rds = s.rds := rfl
@[simp] theorem State.updCtx_pends (s : State) (id : Nat) (f : CtxSt → CtxSt) : (s.updCtx id f).pends = s.pends := rfl
@[simp] theorem State.updCtx_late (s : State) (id : Nat) (f : CtxSt → CtxSt) : (s.updCtx id f).late = s.late := rfl
@[simp] theorem State.updCtx_hostAccs (s : State) (id : Nat) (f : CtxSt → CtxSt) : (s.updCtx id f).hostAccs = s.hostAccs := rfl
@[simp] theorem State.updCtx_latePeers (s : State) (id : Nat) (f : CtxSt → CtxSt) : (s.updCtx id f).latePeers = s.latePeers := rfl
@[simp] theorem State.updCtx_cuts (s : State) (id : Nat) (f : CtxSt → CtxSt) : (s.updCtx id f).cuts = s.cuts := rfl
@[simp] theorem State.updCtx_ctxs (s : State) (id : Nat) (f : CtxSt → CtxSt) :
    (s.updCtx id f).ctxs = putBy CtxSt.id (f (s.ctxSt id)) s.ctxs := rfl
@[simp] theorem State.updCtx_sqs (s : State) (id : Nat) (f : CtxSt → CtxSt) : (s.updCtx id f).sqs = s.sqs := rfl
@[simp] theorem State.updCtx_watches (s : State) (id : Nat) (f : CtxSt → CtxSt) :
    (s.updCtx id f).watches = s.watches := rfl
@[simp] theorem State.updCtx_drives (s : State) (id : Nat) (f : CtxSt → CtxSt) :
    (s.updCtx id f).drives = s.drives := rfl
@[simp] theorem State.updCtx_plat (s : State) (id : Nat) (f : CtxSt → CtxSt) : (s.updCtx id f).plat = s.plat := rfl
@[simp] theorem State.updCtx_sign (s : State) (id : Nat) (f : CtxSt → CtxSt) : (s.updCtx id f).sign = s.sign := rfl
@[simp] theorem State.updCtx_spdm (s : State) (id : Nat) (f : CtxSt → CtxSt) : (s.updCtx id f).spdm = s.spdm := rfl
@[simp] theorem State.updCtx_out (s : State) (id : Nat) (f : CtxSt → CtxSt) : (s.updCtx id f).out = s.out := rfl
@[simp] theorem State.updCtx_powered (s : State) (id : Nat) (f : CtxSt → CtxSt) :
    (s.updCtx id f).powered = s.powered := rfl
@[simp] theorem State.updCtx_flash (s : State) (id : Nat) (f : CtxSt → CtxSt) :
    (s.updCtx id f).flash = s.flash := rfl
@[simp] theorem State.updCtx_nextId (s : State) (id : Nat) (f : CtxSt → CtxSt) :
    (s.updCtx id f).nextId = s.nextId := rfl
@[simp] theorem State.updCtx_freeCtr (s : State) (id : Nat) (f : CtxSt → CtxSt) :
    (s.updCtx id f).freeCtr = s.freeCtr := rfl
@[simp] theorem State.updCtx_agenda (s : State) (id : Nat) (f : CtxSt → CtxSt) :
    (s.updCtx id f).agenda = s.agenda := rfl
@[simp] theorem State.updCtx_focus (s : State) (id : Nat) (f : CtxSt → CtxSt) : (s.updCtx id f).focus = s.focus := rfl
@[simp] theorem State.updCtx_cur (s : State) (id : Nat) (f : CtxSt → CtxSt) : (s.updCtx id f).cur = s.cur := rfl
@[simp] theorem State.updCtx_issued (s : State) (id : Nat) (f : CtxSt → CtxSt) :
    (s.updCtx id f).issued = s.issued := rfl

/-! ## `State.updSq` -/

@[simp] theorem State.updSq_cycle (s : State) (q : Nat) (f : Sq → Sq) : (s.updSq q f).cycle = s.cycle := rfl
@[simp] theorem State.updSq_mem (s : State) (q : Nat) (f : Sq → Sq) : (s.updSq q f).mem = s.mem := rfl
@[simp] theorem State.updSq_poison (s : State) (q : Nat) (f : Sq → Sq) : (s.updSq q f).poison = s.poison := rfl
@[simp] theorem State.updSq_hostMem (s : State) (q : Nat) (f : Sq → Sq) : (s.updSq q f).hostMem = s.hostMem := rfl
@[simp] theorem State.updSq_remote (s : State) (q : Nat) (f : Sq → Sq) : (s.updSq q f).remote = s.remote := rfl
@[simp] theorem State.updSq_peers (s : State) (q : Nat) (f : Sq → Sq) : (s.updSq q f).peers = s.peers := rfl
@[simp] theorem State.updSq_groups (s : State) (q : Nat) (f : Sq → Sq) : (s.updSq q f).groups = s.groups := rfl
@[simp] theorem State.updSq_images (s : State) (q : Nat) (f : Sq → Sq) : (s.updSq q f).images = s.images := rfl
@[simp] theorem State.updSq_grids (s : State) (q : Nat) (f : Sq → Sq) : (s.updSq q f).grids = s.grids := rfl
@[simp] theorem State.updSq_pending (s : State) (q : Nat) (f : Sq → Sq) : (s.updSq q f).pending = s.pending := rfl
@[simp] theorem State.updSq_cores (s : State) (q : Nat) (f : Sq → Sq) : (s.updSq q f).cores = s.cores := rfl
@[simp] theorem State.updSq_dies (s : State) (q : Nat) (f : Sq → Sq) : (s.updSq q f).dies = s.dies := rfl
@[simp] theorem State.updSq_l2 (s : State) (q : Nat) (f : Sq → Sq) : (s.updSq q f).l2 = s.l2 := rfl
@[simp] theorem State.updSq_creds (s : State) (q : Nat) (f : Sq → Sq) : (s.updSq q f).creds = s.creds := rfl
@[simp] theorem State.updSq_l2creds (s : State) (q : Nat) (f : Sq → Sq) : (s.updSq q f).l2creds = s.l2creds := rfl
@[simp] theorem State.updSq_cmds (s : State) (q : Nat) (f : Sq → Sq) : (s.updSq q f).cmds = s.cmds := rfl
@[simp] theorem State.updSq_faults (s : State) (q : Nat) (f : Sq → Sq) : (s.updSq q f).faults = s.faults := rfl
@[simp] theorem State.updSq_rds (s : State) (q : Nat) (f : Sq → Sq) : (s.updSq q f).rds = s.rds := rfl
@[simp] theorem State.updSq_pends (s : State) (q : Nat) (f : Sq → Sq) : (s.updSq q f).pends = s.pends := rfl
@[simp] theorem State.updSq_late (s : State) (q : Nat) (f : Sq → Sq) : (s.updSq q f).late = s.late := rfl
@[simp] theorem State.updSq_hostAccs (s : State) (q : Nat) (f : Sq → Sq) : (s.updSq q f).hostAccs = s.hostAccs := rfl
@[simp] theorem State.updSq_latePeers (s : State) (q : Nat) (f : Sq → Sq) : (s.updSq q f).latePeers = s.latePeers := rfl
@[simp] theorem State.updSq_cuts (s : State) (q : Nat) (f : Sq → Sq) : (s.updSq q f).cuts = s.cuts := rfl
@[simp] theorem State.updSq_ctxs (s : State) (q : Nat) (f : Sq → Sq) : (s.updSq q f).ctxs = s.ctxs := rfl
@[simp] theorem State.updSq_sqs (s : State) (q : Nat) (f : Sq → Sq) :
    (s.updSq q f).sqs = putBy Sq.q (f (s.sq q)) s.sqs := rfl
@[simp] theorem State.updSq_watches (s : State) (q : Nat) (f : Sq → Sq) : (s.updSq q f).watches = s.watches := rfl
@[simp] theorem State.updSq_drives (s : State) (q : Nat) (f : Sq → Sq) : (s.updSq q f).drives = s.drives := rfl
@[simp] theorem State.updSq_plat (s : State) (q : Nat) (f : Sq → Sq) : (s.updSq q f).plat = s.plat := rfl
@[simp] theorem State.updSq_sign (s : State) (q : Nat) (f : Sq → Sq) : (s.updSq q f).sign = s.sign := rfl
@[simp] theorem State.updSq_spdm (s : State) (q : Nat) (f : Sq → Sq) : (s.updSq q f).spdm = s.spdm := rfl
@[simp] theorem State.updSq_out (s : State) (q : Nat) (f : Sq → Sq) : (s.updSq q f).out = s.out := rfl
@[simp] theorem State.updSq_powered (s : State) (q : Nat) (f : Sq → Sq) : (s.updSq q f).powered = s.powered := rfl
@[simp] theorem State.updSq_flash (s : State) (q : Nat) (f : Sq → Sq) : (s.updSq q f).flash = s.flash := rfl
@[simp] theorem State.updSq_nextId (s : State) (q : Nat) (f : Sq → Sq) : (s.updSq q f).nextId = s.nextId := rfl
@[simp] theorem State.updSq_freeCtr (s : State) (q : Nat) (f : Sq → Sq) : (s.updSq q f).freeCtr = s.freeCtr := rfl
@[simp] theorem State.updSq_agenda (s : State) (q : Nat) (f : Sq → Sq) : (s.updSq q f).agenda = s.agenda := rfl
@[simp] theorem State.updSq_focus (s : State) (q : Nat) (f : Sq → Sq) : (s.updSq q f).focus = s.focus := rfl
@[simp] theorem State.updSq_cur (s : State) (q : Nat) (f : Sq → Sq) : (s.updSq q f).cur = s.cur := rfl
@[simp] theorem State.updSq_issued (s : State) (q : Nat) (f : Sq → Sq) : (s.updSq q f).issued = s.issued := rfl

/-! ## `State.fresh` -/

@[simp] theorem State.fresh_cycle (s : State) : (s.fresh).2.cycle = s.cycle := rfl
@[simp] theorem State.fresh_mem (s : State) : (s.fresh).2.mem = s.mem := rfl
@[simp] theorem State.fresh_poison (s : State) : (s.fresh).2.poison = s.poison := rfl
@[simp] theorem State.fresh_hostMem (s : State) : (s.fresh).2.hostMem = s.hostMem := rfl
@[simp] theorem State.fresh_remote (s : State) : (s.fresh).2.remote = s.remote := rfl
@[simp] theorem State.fresh_peers (s : State) : (s.fresh).2.peers = s.peers := rfl
@[simp] theorem State.fresh_groups (s : State) : (s.fresh).2.groups = s.groups := rfl
@[simp] theorem State.fresh_images (s : State) : (s.fresh).2.images = s.images := rfl
@[simp] theorem State.fresh_grids (s : State) : (s.fresh).2.grids = s.grids := rfl
@[simp] theorem State.fresh_pending (s : State) : (s.fresh).2.pending = s.pending := rfl
@[simp] theorem State.fresh_cores (s : State) : (s.fresh).2.cores = s.cores := rfl
@[simp] theorem State.fresh_dies (s : State) : (s.fresh).2.dies = s.dies := rfl
@[simp] theorem State.fresh_l2 (s : State) : (s.fresh).2.l2 = s.l2 := rfl
@[simp] theorem State.fresh_creds (s : State) : (s.fresh).2.creds = s.creds := rfl
@[simp] theorem State.fresh_l2creds (s : State) : (s.fresh).2.l2creds = s.l2creds := rfl
@[simp] theorem State.fresh_cmds (s : State) : (s.fresh).2.cmds = s.cmds := rfl
@[simp] theorem State.fresh_faults (s : State) : (s.fresh).2.faults = s.faults := rfl
@[simp] theorem State.fresh_rds (s : State) : (s.fresh).2.rds = s.rds := rfl
@[simp] theorem State.fresh_pends (s : State) : (s.fresh).2.pends = s.pends := rfl
@[simp] theorem State.fresh_late (s : State) : (s.fresh).2.late = s.late := rfl
@[simp] theorem State.fresh_hostAccs (s : State) : (s.fresh).2.hostAccs = s.hostAccs := rfl
@[simp] theorem State.fresh_latePeers (s : State) : (s.fresh).2.latePeers = s.latePeers := rfl
@[simp] theorem State.fresh_cuts (s : State) : (s.fresh).2.cuts = s.cuts := rfl
@[simp] theorem State.fresh_ctxs (s : State) : (s.fresh).2.ctxs = s.ctxs := rfl
@[simp] theorem State.fresh_sqs (s : State) : (s.fresh).2.sqs = s.sqs := rfl
@[simp] theorem State.fresh_watches (s : State) : (s.fresh).2.watches = s.watches := rfl
@[simp] theorem State.fresh_drives (s : State) : (s.fresh).2.drives = s.drives := rfl
@[simp] theorem State.fresh_plat (s : State) : (s.fresh).2.plat = s.plat := rfl
@[simp] theorem State.fresh_sign (s : State) : (s.fresh).2.sign = s.sign := rfl
@[simp] theorem State.fresh_spdm (s : State) : (s.fresh).2.spdm = s.spdm := rfl
@[simp] theorem State.fresh_out (s : State) : (s.fresh).2.out = s.out := rfl
@[simp] theorem State.fresh_powered (s : State) : (s.fresh).2.powered = s.powered := rfl
@[simp] theorem State.fresh_flash (s : State) : (s.fresh).2.flash = s.flash := rfl
@[simp] theorem State.fresh_nextId (s : State) : (s.fresh).2.nextId = s.nextId + 1 := rfl
@[simp] theorem State.fresh_freeCtr (s : State) : (s.fresh).2.freeCtr = s.freeCtr := rfl
@[simp] theorem State.fresh_agenda (s : State) : (s.fresh).2.agenda = s.agenda := rfl
@[simp] theorem State.fresh_focus (s : State) : (s.fresh).2.focus = s.focus := rfl
@[simp] theorem State.fresh_cur (s : State) : (s.fresh).2.cur = s.cur := rfl
@[simp] theorem State.fresh_issued (s : State) : (s.fresh).2.issued = s.issued := rfl

/-! ## `State.freshFree` -/

@[simp] theorem State.freshFree_cycle (s : State) : (s.freshFree).2.cycle = s.cycle := rfl
@[simp] theorem State.freshFree_mem (s : State) : (s.freshFree).2.mem = s.mem := rfl
@[simp] theorem State.freshFree_poison (s : State) : (s.freshFree).2.poison = s.poison := rfl
@[simp] theorem State.freshFree_hostMem (s : State) : (s.freshFree).2.hostMem = s.hostMem := rfl
@[simp] theorem State.freshFree_remote (s : State) : (s.freshFree).2.remote = s.remote := rfl
@[simp] theorem State.freshFree_peers (s : State) : (s.freshFree).2.peers = s.peers := rfl
@[simp] theorem State.freshFree_groups (s : State) : (s.freshFree).2.groups = s.groups := rfl
@[simp] theorem State.freshFree_images (s : State) : (s.freshFree).2.images = s.images := rfl
@[simp] theorem State.freshFree_grids (s : State) : (s.freshFree).2.grids = s.grids := rfl
@[simp] theorem State.freshFree_pending (s : State) : (s.freshFree).2.pending = s.pending := rfl
@[simp] theorem State.freshFree_cores (s : State) : (s.freshFree).2.cores = s.cores := rfl
@[simp] theorem State.freshFree_dies (s : State) : (s.freshFree).2.dies = s.dies := rfl
@[simp] theorem State.freshFree_l2 (s : State) : (s.freshFree).2.l2 = s.l2 := rfl
@[simp] theorem State.freshFree_creds (s : State) : (s.freshFree).2.creds = s.creds := rfl
@[simp] theorem State.freshFree_l2creds (s : State) : (s.freshFree).2.l2creds = s.l2creds := rfl
@[simp] theorem State.freshFree_cmds (s : State) : (s.freshFree).2.cmds = s.cmds := rfl
@[simp] theorem State.freshFree_faults (s : State) : (s.freshFree).2.faults = s.faults := rfl
@[simp] theorem State.freshFree_rds (s : State) : (s.freshFree).2.rds = s.rds := rfl
@[simp] theorem State.freshFree_pends (s : State) : (s.freshFree).2.pends = s.pends := rfl
@[simp] theorem State.freshFree_late (s : State) : (s.freshFree).2.late = s.late := rfl
@[simp] theorem State.freshFree_hostAccs (s : State) : (s.freshFree).2.hostAccs = s.hostAccs := rfl
@[simp] theorem State.freshFree_latePeers (s : State) : (s.freshFree).2.latePeers = s.latePeers := rfl
@[simp] theorem State.freshFree_cuts (s : State) : (s.freshFree).2.cuts = s.cuts := rfl
@[simp] theorem State.freshFree_ctxs (s : State) : (s.freshFree).2.ctxs = s.ctxs := rfl
@[simp] theorem State.freshFree_sqs (s : State) : (s.freshFree).2.sqs = s.sqs := rfl
@[simp] theorem State.freshFree_watches (s : State) : (s.freshFree).2.watches = s.watches := rfl
@[simp] theorem State.freshFree_drives (s : State) : (s.freshFree).2.drives = s.drives := rfl
@[simp] theorem State.freshFree_plat (s : State) : (s.freshFree).2.plat = s.plat := rfl
@[simp] theorem State.freshFree_sign (s : State) : (s.freshFree).2.sign = s.sign := rfl
@[simp] theorem State.freshFree_spdm (s : State) : (s.freshFree).2.spdm = s.spdm := rfl
@[simp] theorem State.freshFree_out (s : State) : (s.freshFree).2.out = s.out := rfl
@[simp] theorem State.freshFree_powered (s : State) : (s.freshFree).2.powered = s.powered := rfl
@[simp] theorem State.freshFree_flash (s : State) : (s.freshFree).2.flash = s.flash := rfl
@[simp] theorem State.freshFree_nextId (s : State) : (s.freshFree).2.nextId = s.nextId := rfl
@[simp] theorem State.freshFree_freeCtr (s : State) : (s.freshFree).2.freeCtr = s.freeCtr + 1 := rfl
@[simp] theorem State.freshFree_agenda (s : State) : (s.freshFree).2.agenda = s.agenda := rfl
@[simp] theorem State.freshFree_focus (s : State) : (s.freshFree).2.focus = s.focus := rfl
@[simp] theorem State.freshFree_cur (s : State) : (s.freshFree).2.cur = s.cur := rfl
@[simp] theorem State.freshFree_issued (s : State) : (s.freshFree).2.issued = s.issued := rfl

end Sys2Proof.Machine
end

