-- ==== Sys2Proof/Laws/Issue.lean ====
section
/-! SUPPORT. What issuing does: the three ways an instruction of a sheaf stream can go (R91, R93), and the register
forms. -/

namespace Sys2Proof.Machine

/-- An instruction that issues has its effect. -/
theorem issue_of_issues {i : Instr} {s : State} {f : Frame} (h : Issues s f i) (e : Frame → State → State) :
    issue i s e = .next (e f s) := by
  obtain ⟨hf, hd, hc⟩ := h
  simp [issue, hf, hd, hc]

/-- A decode fault traps every active lane, and nothing else happens. -/
theorem issue_of_decodeFault {i : Instr} {s : State} {f : Frame} {c : BitVec 8} (hf : s.frame? = some f)
    (hd : s.decodeFault f i = some c) (e : Frame → State → State) : issue i s e = .next (s.trapAll f i.size c 0) := by
  simp [issue, hf, hd]

/-- An uncovered read under stall checking traps every active lane with Stall-Count Violation. -/
theorem issue_of_uncovered {i : Instr} {s : State} {f : Frame} (hf : s.frame? = some f)
    (hd : s.decodeFault f i = none) (hc : (s.stallChecked f && s.uncovered f i) = true) (e : Frame → State → State) :
    issue i s e = .next (s.trapAll f i.size 0x07 0) := by
  simp only [issue, hf, hd, hc, if_true]

/-- Without a tiller nothing executes. -/
theorem issue_of_noFrame {i : Instr} {s : State} (hf : s.frame? = none) (e : Frame → State → State) :
    issue i s e = .fault .noTiller := by
  simp [issue, hf]

/-- An instruction whose meaning is `issue` has its effect wherever it issues. -/
theorem does_issue {i : Instr} {e : Frame → State → State} (h : ∀ s, exec i s = issue i s e) : Does i e := by
  intro s f hi
  rw [h s, issue_of_issues hi]

/-- A register instruction writes what each reader computes. -/
theorem writes_regOp {i : Instr} {h : Hdr} {w : Rd → List RegWrite} (hx : ∀ s, exec i s = regOp i h s w) :
    Writes i h (fun rs => rs.flatMap w) := by
  intro s f hi
  rw [hx s, regOp, issue_of_issues hi]

/-- A crosswise instruction writes what its readers compute together. -/
theorem writes_crossOp {i : Instr} {h : Hdr} {w : List Rd → List RegWrite} (hx : ∀ s, exec i s = crossOp i h s w) :
    Writes i h w := by
  intro s f hi
  rw [hx s, crossOp, issue_of_issues hi]

end Sys2Proof.Machine
end

