-- ==== Sys2Proof/Laws/Memory.lean ====
section
/-! SUPPORT. What an operation on memory can do: `Keeps s t` says it once for each of them. Each keeps the canonical form
of every store of bytes, and changes nothing of the machine but those stores, the caches and their marks, the directory,
the watches, the log's registers, what waits for its stack and what goes to the host. -/

namespace Sys2Proof.Machine

/-- A state without what memory operations change. -/
def State.still (s : State) : State :=
  { s with mem := [], hostMem := [], remote := [], cores := [], dies := [], l2 := [], creds := [], l2creds := [],
           rds := [], late := [], watches := [], plat := State.reset.plat, out := [] }

/-- What a memory operation leaves: canonical stores if they were, and the rest of the machine as it was. -/
structure Keeps (s t : State) : Prop where
  canonical : s.canonical = true → t.canonical = true
  still : t.still = s.still

theorem Keeps.refl (s : State) : Keeps s s := ⟨id, rfl⟩

theorem Keeps.trans {s t u : State} (h : Keeps s t) (k : Keeps t u) : Keeps s u :=
  ⟨k.canonical ∘ h.canonical, k.still.trans h.still⟩

/-- A change of none of the three stores. -/
theorem Keeps.ofSame {s t : State} (hm : t.mem = s.mem) (hh : t.hostMem = s.hostMem) (hr : t.remote = s.remote)
    (hs : t.still = s.still) : Keeps s t :=
  ⟨fun h => by simpa only [State.canonical, hm, hh, hr] using h, hs⟩

theorem Keeps.foldl {α : Type} {f : State → α → State} (hf : ∀ s a, Keeps s (f s a)) (l : List α) (s : State) :
    Keeps s (l.foldl f s) := by
  induction l generalizing s with
  | nil => exact .refl s
  | cons a l ih => exact (hf s a).trans (ih (f s a))

/-! ## The rest of the machine -/

variable {s t : State}

theorem Keeps.groups (h : Keeps s t) : t.groups = s.groups := (congrArg State.groups h.still :)
theorem Keeps.cycle (h : Keeps s t) : t.cycle = s.cycle := (congrArg State.cycle h.still :)
theorem Keeps.poison (h : Keeps s t) : t.poison = s.poison := (congrArg State.poison h.still :)
theorem Keeps.peers (h : Keeps s t) : t.peers = s.peers := (congrArg State.peers h.still :)
theorem Keeps.latePeers (h : Keeps s t) : t.latePeers = s.latePeers := (congrArg State.latePeers h.still :)
theorem Keeps.hostAccs (h : Keeps s t) : t.hostAccs = s.hostAccs := (congrArg State.hostAccs h.still :)
theorem Keeps.images (h : Keeps s t) : t.images = s.images := (congrArg State.images h.still :)
theorem Keeps.grids (h : Keeps s t) : t.grids = s.grids := (congrArg State.grids h.still :)
theorem Keeps.pending (h : Keeps s t) : t.pending = s.pending := (congrArg State.pending h.still :)
theorem Keeps.cmds (h : Keeps s t) : t.cmds = s.cmds := (congrArg State.cmds h.still :)
theorem Keeps.faults (h : Keeps s t) : t.faults = s.faults := (congrArg State.faults h.still :)
theorem Keeps.pends (h : Keeps s t) : t.pends = s.pends := (congrArg State.pends h.still :)
theorem Keeps.cuts (h : Keeps s t) : t.cuts = s.cuts := (congrArg State.cuts h.still :)
theorem Keeps.ctxs (h : Keeps s t) : t.ctxs = s.ctxs := (congrArg State.ctxs h.still :)
theorem Keeps.sqs (h : Keeps s t) : t.sqs = s.sqs := (congrArg State.sqs h.still :)
theorem Keeps.drives (h : Keeps s t) : t.drives = s.drives := (congrArg State.drives h.still :)
theorem Keeps.sign (h : Keeps s t) : t.sign = s.sign := (congrArg State.sign h.still :)
theorem Keeps.spdm (h : Keeps s t) : t.spdm = s.spdm := (congrArg State.spdm h.still :)
theorem Keeps.powered (h : Keeps s t) : t.powered = s.powered := (congrArg State.powered h.still :)
theorem Keeps.flash (h : Keeps s t) : t.flash = s.flash := (congrArg State.flash h.still :)
theorem Keeps.nextId (h : Keeps s t) : t.nextId = s.nextId := (congrArg State.nextId h.still :)
theorem Keeps.freeCtr (h : Keeps s t) : t.freeCtr = s.freeCtr := (congrArg State.freeCtr h.still :)
theorem Keeps.agenda (h : Keeps s t) : t.agenda = s.agenda := (congrArg State.agenda h.still :)
theorem Keeps.focus (h : Keeps s t) : t.focus = s.focus := (congrArg State.focus h.still :)
theorem Keeps.cur (h : Keeps s t) : t.cur = s.cur := (congrArg State.cur h.still :)
theorem Keeps.issued (h : Keeps s t) : t.issued = s.issued := (congrArg State.issued h.still :)
theorem Keeps.frame? (h : Keeps s t) : t.frame? = s.frame? := by
  simp only [State.frame?, State.frameOf, State.group?, h.cur, h.groups]

/-! ## Stores, marks and watches -/

theorem canonical_iff : s.canonical = true ↔ Memory.wf s.mem = true ∧ Memory.wf s.hostMem = true ∧ Memory.wf s.remote = true := by
  simp [State.canonical, and_assoc]

/-- A new memory in canonical form. -/
theorem Keeps.ofMem {m : Cells 8} (h : Memory.wf s.mem = true → Memory.wf m = true) : Keeps s { s with mem := m } :=
  ⟨fun c => canonical_iff.2 ⟨h (canonical_iff.1 c).1, (canonical_iff.1 c).2⟩, rfl⟩

theorem Keeps.ofHostMem {m : Cells 8} (h : Memory.wf s.hostMem = true → Memory.wf m = true) :
    Keeps s { s with hostMem := m } :=
  ⟨fun c => canonical_iff.2 ⟨(canonical_iff.1 c).1, h (canonical_iff.1 c).2.1, (canonical_iff.1 c).2.2⟩, rfl⟩

theorem Keeps.ofRemote {m : Cells 8} (h : Memory.wf s.remote = true → Memory.wf m = true) :
    Keeps s { s with remote := m } :=
  ⟨fun c => canonical_iff.2 ⟨(canonical_iff.1 c).1, (canonical_iff.1 c).2.1, h (canonical_iff.1 c).2.2⟩, rfl⟩

theorem reset_canonical : State.reset.canonical = true := rfl

theorem keeps_updCore (s : State) (c : Nat) (f : CoreSt → CoreSt) : Keeps s (s.updCore c f) := .ofSame rfl rfl rfl rfl

theorem keeps_updDie (s : State) (d : Nat) (f : DieSt → DieSt) : Keeps s (s.updDie d f) := .ofSame rfl rfl rfl rfl

theorem keeps_markStale (s : State) (line : Nat) : Keeps s (s.markStale line) := .ofSame rfl rfl rfl rfl

theorem keeps_fireWatch (s : State) (w : Watch) : Keeps s (s.fireWatch w) := by
  unfold State.fireWatch
  refine Keeps.trans (t := { s with
    watches := updWhere (fun x => x.e == w.e) (fun x => { x with armed := false }) s.watches })
    (.ofSame rfl rfl rfl rfl) ?_
  dsimp only
  split
  · exact .ofSame rfl rfl rfl rfl
  · exact .ofHostMem (cellsWf_csetLE _ _ _ _)
  · exact .refl _

theorem keeps_evalWatches (s : State) (line : Nat) : Keeps s (s.evalWatches line) :=
  .foldl (fun s w => by dsimp only; split; exacts [keeps_fireWatch s w, .refl s]) _ _

/-! ## Writes at the home -/

theorem cellsWf_foldl {α : Type} {f : Cells 8 → α → Cells 8} (hf : ∀ m a, cellsWf m = true → cellsWf (f m a) = true)
    (l : List α) (m : Cells 8) (h : cellsWf m = true) : cellsWf (l.foldl f m) = true := by
  induction l generalizing m with
  | nil => exact h
  | cons a l ih => exact ih _ (hf m a h)

theorem keeps_l2Written (s : State) (line : Nat) (pas : List Nat) : Keeps s (s.l2Written line pas) := .ofSame rfl rfl rfl rfl

theorem keeps_homeMerge (s : State) (line : Nat) (bs : List (Nat × Byte)) : Keeps s (s.homeMerge line bs) := by
  have marks : Keeps s ((s.markStale (s.lineKey (line * 512))).l2Written line (bs.map Prod.fst)) :=
    (keeps_markStale s _).trans (keeps_l2Written _ _ _)
  unfold State.homeMerge
  dsimp only
  split
  · refine .trans (marks.trans (.ofMem (cellsWf_foldl ?_ _ _))) (keeps_evalWatches _ _)
    intro m a h
    split
    exacts [h, cellsWf_cset m _ _ h]
  · exact marks.trans (.ofRemote (cellsWf_foldl (fun m a h => cellsWf_cset m _ _ h) _ _))

theorem keeps_updRd (s : State) (page : Nat) (f : RdPage → RdPage) : Keeps s (s.updRd page f) := .ofSame rfl rfl rfl rfl

theorem keeps_forgetPage (s : State) (page : Nat) : Keeps s (s.forgetPage page) := .ofSame rfl rfl rfl rfl

theorem keeps_rdOwn (s : State) (page dev : Nat) : Keeps s (s.rdOwn page dev) :=
  (keeps_updRd s page _).trans (keeps_forgetPage _ _)

theorem keeps_rdPerform (s : State) (page : Nat) : Keeps s (s.rdPerform page) := by
  unfold State.rdPerform
  split
  · exact .refl s
  · split
    · exact .refl s
    · have merged (l : List HeldWrite) :
          Keeps s (l.foldl (fun s w => s.homeMerge (w.pa / 512) (cellsAt w.pa w.bytes)) s) :=
        .foldl (fun s w => keeps_homeMerge s _ _) _ _
      dsimp only
      split
      exacts [(merged _).trans (keeps_updRd _ _ _), ((merged _).trans (keeps_updRd _ _ _)).trans (keeps_rdOwn _ _ _)]

theorem keeps_rdAck (s : State) (page dev : Nat) : Keeps s (s.rdAck page dev) := by
  have forget (u : State) (b : Prop) [Decidable b] : Keeps u ((if b then u.forgetPage page else u).rdPerform page) := by
    split
    exacts [(keeps_forgetPage u page).trans (keeps_rdPerform _ _), keeps_rdPerform _ _]
  exact (keeps_updRd s page _).trans (forget _ _)

theorem keeps_rdWrite (s : State) (w : HeldWrite) : Keeps s (s.rdWrite w) := by
  have go (u : State) : Keeps u (if w.dev = u.devnum then u.rdPerform (w.pa / 65536) else u.rdAck (w.pa / 65536) u.devnum) := by
    split
    exacts [keeps_rdPerform _ _, keeps_rdAck _ _ _]
  exact (keeps_updRd s (w.pa / 65536) _).trans (go _)

theorem keeps_homeStore (s : State) (who : Agent) (pa : Nat) (bytes : List Byte) : Keeps s (s.homeStore who pa bytes) := by
  unfold State.homeStore
  split
  · split
    exacts [(keeps_homeMerge s _ _).trans (keeps_rdOwn _ _ _), keeps_rdWrite s _]
  · exact keeps_homeMerge s _ _

theorem keeps_homeWrite (s : State) (pa : Nat) (bytes : List Byte) : Keeps s (s.homeWrite pa bytes) := by
  unfold State.homeWrite
  split
  exacts [keeps_homeStore s _ _ _, .ofSame rfl rfl rfl rfl]

theorem keeps_payLate (s : State) : Keeps s s.payLate := by
  have due (l : List LateWrite) (u : State) :
      Keeps u (l.foldl (fun s w => s.homeStore .other (s.localPa w.pa) w.bytes) u) :=
    .foldl (fun _ _ => keeps_homeStore _ _ _ _) _ _
  have left (l : List LateWrite) : Keeps s { s with late := l } := .ofSame rfl rfl rfl rfl
  exact (left _).trans (due _ _)

theorem keeps_homeWriteLines (s : State) (pa : Nat) (bytes : List Byte) : Keeps s (s.homeWriteLines pa bytes) :=
  .foldl (fun _ _ => keeps_homeWrite _ _ _) _ _

theorem keeps_report (s : State) (kind ctx die core addr detail : Nat) :
    Keeps s (s.report kind ctx die core addr detail) := by
  unfold State.report
  dsimp only
  split
  · exact .ofSame rfl rfl rfl rfl
  · split
    · exact .ofSame rfl rfl rfl rfl
    · exact (keeps_homeWrite s _ _).trans (.ofSame rfl rfl rfl rfl)

/-! ## The caches -/

theorem keeps_l2Enter (s : State) (a : Acc) (m : LMeta) (secs : BitVec 4) : Keeps s (s.l2Enter a m secs) := by
  unfold State.l2Enter
  dsimp only
  split
  exacts [.refl s, .ofSame rfl rfl rfl rfl]

theorem keeps_l2Alloc (s : State) (core : Nat) (m : LMeta) (secs : BitVec 4) : Keeps s (s.l2Alloc core m secs) := by
  unfold State.l2Alloc
  split
  exacts [.refl s, keeps_l2Enter s _ _ _]

theorem keeps_writeBack (s : State) (core line : Nat) : Keeps s (s.writeBack core line) := by
  unfold State.writeBack
  split
  · exact .refl s
  · split
    exacts [.refl s, ((keeps_updCore s core _).trans (keeps_l2Alloc _ _ _ _)).trans (keeps_homeMerge _ _ _)]

theorem keeps_dropLine (s : State) (core line : Nat) : Keeps s (s.dropLine core line) :=
  (keeps_writeBack s core line).trans (keeps_updCore _ _ _)

theorem keeps_toHome (s : State) (core pa : Nat) : Keeps s (s.toHome core pa) := keeps_dropLine s _ _

theorem keeps_release (s : State) (core : Nat) : Keeps s (s.release core) :=
  .foldl (fun s k => .foldl (fun s l => keeps_writeBack s k l) _ s) _ _

theorem keeps_acquire (s : State) (core : Nat) : Keeps s (s.acquire core) :=
  .foldl (fun s k => .foldl (fun s l => keeps_dropLine s k l) _ s) _ _

theorem keeps_refresh (s : State) (core : Nat) : Keeps s (s.refresh core) :=
  .foldl (fun s k => (Keeps.foldl (fun s l => keeps_writeBack s k l) _ s).trans (keeps_updCore _ _ _)) _ _

theorem keeps_l2Touch (s : State) (a : Acc) (line : Nat) (secs : BitVec 4) : Keeps s (s.l2Touch a line secs) := by
  unfold State.l2Touch
  dsimp only
  split
  · exact .ofSame rfl rfl rfl rfl
  · exact keeps_l2Enter s _ _ _

theorem keeps_pin (s : State) (core line : Nat) : Keeps s (s.pin core line) := .ofSame rfl rfl rfl rfl

theorem keeps_unpin (s : State) (die line : Nat) : Keeps s (s.unpin die line) := .ofSame rfl rfl rfl rfl

theorem keeps_l1Mark (s : State) (a : Acc) (core line : Nat) (isHit : Bool) : Keeps s (s.l1Mark a core line isHit) := by
  unfold State.l1Mark
  dsimp only
  refine .trans ?_ (keeps_updCore _ _ _)
  repeat' split
  all_goals exact .ofSame rfl rfl rfl rfl

theorem keeps_l1Fill (s : State) (a : Acc) (core pa : Nat) : Keeps s (s.l1Fill a core pa) := by
  unfold State.l1Fill
  dsimp only
  split
  · exact .refl s
  · split
    exacts [.refl s, (keeps_l2Touch s a _ _).trans (keeps_updCore _ _ _)]

theorem keeps_l1Alloc {s t : State} {a : Acc} {core line : Nat} (h : s.l1Alloc a core line = some t) : Keeps s t := by
  unfold State.l1Alloc at h
  dsimp only at h
  split at h
  · cases h
  · rw [Option.some.injEq] at h
    subst h
    have fills (u : State) : Keeps u { u with creds := updCred u.creds core a.ctx (fun c => { c with fills := c.fills + 1 }) } :=
      .ofSame rfl rfl rfl rfl
    refine .trans (.trans ?_ (fills _)) (keeps_updCore _ _ _)
    split
    exacts [keeps_dropLine s _ _, .refl s]

theorem keeps_l1Open {s t : State} {a : Acc} {pa core : Nat} (h : s.l1Open a pa = some (core, t)) : Keeps s t := by
  unfold State.l1Open at h
  dsimp only at h
  split at h
  · split at h
    · cases h
    · obtain ⟨rfl, rfl⟩ := h
      exact (keeps_l1Fill s a _ pa).trans (keeps_l1Mark _ _ _ _ _)
  · split at h
    · cases h
    · obtain ⟨u, hu, he⟩ := Option.map_eq_some_iff.1 h
      obtain ⟨rfl, rfl⟩ := he
      exact (keeps_l1Alloc hu).trans ((keeps_l1Fill u a _ pa).trans (keeps_l1Mark _ _ _ _ _))

theorem keeps_cachedRead (s : State) (a : Acc) (pa n : Nat) : Keeps s (s.cachedRead a pa n).2 := by
  unfold State.cachedRead
  split
  · exact keeps_l2Touch s a _ _
  · rename_i core t h
    split <;> exact keeps_l1Open h

theorem keeps_cachedWrite (s : State) (a : Acc) (pa : Nat) (bytes : List Byte) : Keeps s (s.cachedWrite a pa bytes) := by
  unfold State.cachedWrite
  dsimp only
  split
  · exact (keeps_l2Touch s a _ _).trans (keeps_homeMerge _ _ _)
  · rename_i core t h
    have through : ∀ u : State, Keeps u (if u.watched (pa / 512) = true then u.writeBack core (pa / 512) else u) := by
      intro u
      split
      exacts [keeps_writeBack u _ _, .refl u]
    exact (keeps_l1Open h).trans ((keeps_markStale t _).trans ((keeps_updCore _ core _).trans (through _)))

/-! ## Translation -/

theorem keeps_orPte (s : State) (pte bits : Nat) : Keeps s (s.orPte pte bits) := by
  unfold State.orPte
  dsimp only
  split
  exacts [.refl s, keeps_homeWrite s _ _]

theorem keeps_fillTlb (s : State) (core : Nat) (e : TlbEntry) : Keeps s (s.fillTlb core e) :=
  .ofSame rfl rfl rfl rfl

theorem keeps_walkReads {s t : State} {core ctx base : Nat} {va : DWord} (h : s.walkReads core ctx va base = .ok t) :
    Keeps s t := by
  unfold State.walkReads at h
  dsimp only at h
  split at h <;> cases h
  exact .foldl (fun _ _ => keeps_l2Touch _ _ _ _) _ _

theorem keeps_walkLeaf (s : State) (core ctx : Nat) (p : Perm) (va : DWord) (base : Nat) :
    Keeps s (s.walkLeaf core ctx p va base).2 := by
  unfold State.walkLeaf
  split
  · exact keeps_report s _ _ _ _ _ _
  · exact .refl s
  · split
    · exact (keeps_orPte s _ _).trans (keeps_fillTlb _ _ _)
    · exact .refl s

theorem keeps_walk (s : State) (core ctx : Nat) (p : Perm) (va : DWord) : Keeps s (s.walk core ctx p va).2 := by
  unfold State.walk
  split
  · exact .refl s
  · split
    · exact .refl s
    · rename_i hr
      exact (keeps_walkReads hr).trans (keeps_walkLeaf _ _ _ _ _ _)

theorem keeps_translate (s : State) (core ctx : Nat) (p : Perm) (va : DWord) :
    Keeps s (s.translate core ctx p va).2 := by
  unfold State.translate
  dsimp only
  split
  · exact keeps_walk s _ _ _ _
  · split
    · split
      · exact .refl s
      · split
        exacts [(keeps_orPte s _ _).trans (keeps_fillTlb _ _ _), keeps_fillTlb s _ _]
    · exact keeps_walk s _ _ _ _

theorem keeps_tlbi (s : State) (t : TlbScope) : Keeps s (s.tlbi t) := .ofSame rfl rfl rfl rfl

/-! ## Accesses of engines and of other units -/

theorem keeps_rdTurn (s : State) (who : Agent) (e : RdPage) (pa : Nat) (writes : Bool) :
    Keeps s (s.rdTurn who e pa writes).2 := by
  unfold State.rdTurn
  dsimp only
  repeat' split
  all_goals first
    | exact .refl s | exact keeps_updRd s _ _ | exact keeps_rdWrite s _ | exact keeps_rdOwn s _ _
    | exact (keeps_updRd s _ _).trans (keeps_rdOwn _ _ _)

theorem keeps_agentWrite {s t : State} {who : Agent} {pa : Nat} {bytes : List Byte}
    (h : s.agentWrite who pa bytes = .ok t) : Keeps s t := by
  unfold State.agentWrite at h
  split at h <;> cases h
  exacts [.ofHostMem (cellsWf_csets _ _ _), keeps_homeStore s _ _ _]

theorem keeps_engPa (s : State) (core ctx : Nat) (write : Bool) (va : DWord) : Keeps s (s.engPa core ctx write va).2 := by
  unfold State.engPa
  split
  · exact .refl s
  · split
    · exact .refl s
    · have k := keeps_translate s core ctx { write := write, fetch := false } va
      split <;> rename_i h <;> rw [h] at k
      · exact k
      · split <;> exact k
      all_goals exact k

theorem keeps_engTouch {s t : State} {u : Use} {leaf : DWord} {pa n : Nat} (h : s.engTouch u leaf pa n = some t) :
    Keeps s t := by
  unfold State.engTouch at h
  split at h
  · split at h <;> cases h
    exact keeps_l2Touch s _ _ _
  · split at h <;> cases h
    exact keeps_l2Touch s _ _ _
  · cases h
    exact .refl _

theorem keeps_foldl_pair {α β : Type} {f : β × State → α → β × State} (hf : ∀ p a, Keeps p.2 (f p a).2) (l : List α)
    (p : β × State) : Keeps p.2 (l.foldl f p).2 := by
  induction l generalizing p with
  | nil => exact .refl p.2
  | cons a l ih => exact (hf p a).trans (ih (f p a))

theorem keeps_engRead1 (s : State) (u : Use) (va n : Nat) : Keeps s (s.engRead1 u va n).2 := by
  unfold State.engRead1
  have k := keeps_engPa s u.core u.ctx false (BitVec.ofNat 64 va)
  split <;> rename_i h <;> rw [h] at k
  · exact k
  · split
    · exact k
    · exact k
    · rename_i ht
      exact k.trans (keeps_engTouch ht)

theorem keeps_engRead (s : State) (u : Use) (va n : Nat) : Keeps s (s.engRead u va n).2 := by
  refine keeps_foldl_pair ?_ _ (Except.ok [], s)
  rintro ⟨r, t⟩ c
  cases r with
  | error e => exact .refl t
  | ok bs =>
    have k := keeps_engRead1 t u c.1 c.2
    dsimp only
    split <;> rename_i h <;> rw [h] at k <;> exact k

theorem keeps_engWrite1 (s : State) (u : Use) (va : Nat) (bytes : List Byte) : Keeps s (s.engWrite1 u va bytes).2 := by
  unfold State.engWrite1
  have k := keeps_engPa s u.core u.ctx true (BitVec.ofNat 64 va)
  split <;> rename_i h <;> rw [h] at k
  · exact k
  · split
    · exact k
    · rename_i ht
      split
      · exact k
      · rename_i hw
        exact k.trans ((keeps_engTouch ht).trans (keeps_agentWrite hw))

theorem keeps_engWrite (s : State) (u : Use) (va : Nat) (bytes : List Byte) : Keeps s (s.engWrite u va bytes).2 := by
  refine keeps_foldl_pair ?_ _ (Except.ok (), s)
  rintro ⟨r, t⟩ c
  cases r with
  | error e => exact .refl t
  | ok _ => exact keeps_engWrite1 t u _ _

end Sys2Proof.Machine
end

