-- ==== Sys2Proof/Laws/Effects.lean ====
section
/-! SUPPORT. What the shared operations of an instruction can do: those that change groups alone, and those that take a
trap. -/

namespace Sys2Proof.Machine

/-- Nothing but the groups of a state has changed. -/
def GroupsOnly (s t : State) : Prop := t = { s with groups := t.groups }

namespace GroupsOnly

variable {s t u : State}

theorem refl (s : State) : GroupsOnly s s := rfl

theorem trans (h : GroupsOnly s t) (k : GroupsOnly t u) : GroupsOnly s u := by
  rw [GroupsOnly, k, h]

theorem canonical (h : GroupsOnly s t) : t.canonical = s.canonical := by rw [h]; rfl
theorem mem (h : GroupsOnly s t) : t.mem = s.mem := by rw [h]
theorem cores (h : GroupsOnly s t) : t.cores = s.cores := by rw [h]
theorem dies (h : GroupsOnly s t) : t.dies = s.dies := by rw [h]
theorem plat (h : GroupsOnly s t) : t.plat = s.plat := by rw [h]
theorem cur (h : GroupsOnly s t) : t.cur = s.cur := by rw [h]
theorem cycle (h : GroupsOnly s t) : t.cycle = s.cycle := by rw [h]

end GroupsOnly

theorem groupsOnly_updGroup (s : State) (gid : Nat) (f : Group → Group) : GroupsOnly s (s.updGroup gid f) := rfl

theorem groupsOnly_updSheaf (s : State) (gid sh : Nat) (f : Sheaf → Sheaf) : GroupsOnly s (s.updSheaf gid sh f) := rfl

theorem groupsOnly_updS (s : State) (f : Frame) (u : Sheaf → Sheaf) : GroupsOnly s (s.updS f u) := rfl

theorem groupsOnly_updT (s : State) (f : Frame) (u : Tiller → Tiller) : GroupsOnly s (s.updT f u) := rfl

/-- Moving a tiller past its instruction changes nothing else. -/
theorem groupsOnly_advance (s : State) (f : Frame) (i : Instr) : GroupsOnly s (s.advance f i) := rfl

/-- A result changes registers, or waits to. -/
theorem groupsOnly_retire (s : State) (f : Frame) (i : Instr) (ws : List RegWrite) : GroupsOnly s (s.retire f i ws) := by
  unfold State.retire
  split
  · rfl
  · split <;> rfl

theorem groupsOnly_parkLanes (s : State) (f : Frame) (ts : List Trap) : GroupsOnly s (s.parkLanes f ts) := rfl

/-- What an instruction on registers does changes nothing outside the groups. -/
theorem groupsOnly_writes {i : Instr} {h : Hdr} {ws : List Rd → List RegWrite} (hw : Writes i h ws) {s t : State} {f : Frame}
    (hi : Issues s f i) (ht : exec i s = .next t) : GroupsOnly s t := by
  rw [hw s f hi] at ht
  cases ht
  exact (groupsOnly_retire s f i _).trans (groupsOnly_advance _ f i)

/-! ## Traps -/

/-- A double fault keeps memory canonical. -/
theorem canonical_doubleFault {s : State} (g : Group) (cause : Nat) (h : s.canonical = true) :
    (s.doubleFault g cause).canonical = true :=
  (keeps_report _ 7 g.ctx (dieOf g.core) (coreOf g.core) 0 (0x0D + 256 * cause)).canonical
    (show ((s.updCore g.core (fun c => c.glnNote s.cycle true cause)).updGroup g.gid
      (fun g => { g with sheaves := g.sheaves.map (fun x => { x with tillers := [] }) })).canonical = true from h)

/-- Entries of a batch change the core's trap unit alone. -/
theorem canonical_gatherTraps {s : State} (f : Frame) (ts : List Trap) (h : s.canonical = true) :
    (s.gatherTraps f ts).canonical = true := h

theorem canonical_park {s : State} (f : Frame) (ts : List Trap) (h : s.canonical = true) :
    (s.park f ts).canonical = true := by
  unfold State.park
  split
  · exact h
  · split
    · exact canonical_doubleFault _ _ h
    · exact canonical_gatherTraps f _ (((groupsOnly_parkLanes s f _).canonical).trans h)

/-- A trap of every active lane keeps memory canonical. -/
theorem canonical_trapAll {s : State} (f : Frame) (size : Nat) (cause : BitVec 8) (payload : BitVec 24)
    (h : s.canonical = true) : (s.trapAll f size cause payload).canonical = true := by
  unfold State.trapAll
  split
  · split
    · exact canonical_doubleFault _ _ h
    · exact h
  · exact canonical_park f _ h

/-- An instruction of a sheaf keeps memory canonical if its effect does. -/
theorem canonical_issue {i : Instr} {s t : State} {e : Frame → State → State}
    (he : ∀ f, (e f s).canonical = true) (h : s.canonical = true) (hx : issue i s e = .next t) : t.canonical = true := by
  unfold issue at hx
  split at hx
  · cases hx
  · split at hx
    · cases hx
      exact canonical_trapAll _ _ _ _ h
    · split at hx <;> cases hx
      · exact canonical_trapAll _ _ _ _ h
      · exact he _

end Sys2Proof.Machine
end

