-- ==== Sys2Proof/Laws/Exec.lean ====
section
/-! SUPPORT. The arm of every instruction and event: `exec` of it is its meaning. -/

namespace Sys2Proof.Machine

theorem exec_nop (h : Hdr) (x : FA) (s : State) : exec (.nop h x) s = execNop h x s := rfl
theorem exec_iadd (h : Hdr) (x : FA) (s : State) : exec (.iadd h x) s = execIadd h x s := rfl
theorem exec_isub (h : Hdr) (x : FA) (s : State) : exec (.isub h x) s = execIsub h x s := rfl
theorem exec_imul (h : Hdr) (x : FA) (s : State) : exec (.imul h x) s = execImul h x s := rfl
theorem exec_imulh (h : Hdr) (x : FA) (s : State) : exec (.imulh h x) s = execImulh h x s := rfl
theorem exec_imad (h : Hdr) (x : FA) (s : State) : exec (.imad h x) s = execImad h x s := rfl
theorem exec_imin (h : Hdr) (x : FA) (s : State) : exec (.imin h x) s = execImin h x s := rfl
theorem exec_imax (h : Hdr) (x : FA) (s : State) : exec (.imax h x) s = execImax h x s := rfl
theorem exec_iabsd (h : Hdr) (x : FA) (s : State) : exec (.iabsd h x) s = execIabsd h x s := rfl
theorem exec_bitf (h : Hdr) (x : FA) (s : State) : exec (.bitf h x) s = execBitf h x s := rfl
theorem exec_shl (h : Hdr) (x : FA) (s : State) : exec (.shl h x) s = execShl h x s := rfl
theorem exec_shr (h : Hdr) (x : FA) (s : State) : exec (.shr h x) s = execShr h x s := rfl
theorem exec_bfx (h : Hdr) (x : FA) (s : State) : exec (.bfx h x) s = execBfx h x s := rfl
theorem exec_bfi (h : Hdr) (x : FA) (s : State) : exec (.bfi h x) s = execBfi h x s := rfl
theorem exec_popc (h : Hdr) (x : FA) (s : State) : exec (.popc h x) s = execPopc h x s := rfl
theorem exec_clz (h : Hdr) (x : FA) (s : State) : exec (.clz h x) s = execClz h x s := rfl
theorem exec_brev (h : Hdr) (x : FA) (s : State) : exec (.brev h x) s = execBrev h x s := rfl
theorem exec_icmp (h : Hdr) (x : FA) (s : State) : exec (.icmp h x) s = execIcmp h x s := rfl
theorem exec_sel (h : Hdr) (x : FA) (s : State) : exec (.sel h x) s = execSel h x s := rfl
theorem exec_mov (h : Hdr) (x : FA) (s : State) : exec (.mov h x) s = execMov h x s := rfl
theorem exec_movi (h : Hdr) (x : FI) (s : State) : exec (.movi h x) s = execMovi h x s := rfl
theorem exec_moviZ (h : Hdr) (x : FI) (s : State) : exec (.moviZ h x) s = execMoviZ h x s := rfl
theorem exec_moviLong (h : Hdr) (x : FI) (s : State) : exec (.moviLong h x) s = execMoviLong h x s := rfl
theorem exec_movi64 (h : Hdr) (x : FI) (s : State) : exec (.movi64 h x) s = execMovi64 h x s := rfl
theorem exec_iadd64 (h : Hdr) (x : FA) (s : State) : exec (.iadd64 h x) s = execIadd64 h x s := rfl
theorem exec_lea (h : Hdr) (x : FA) (s : State) : exec (.lea h x) s = execLea h x s := rfl
theorem exec_idiv (h : Hdr) (x : FA) (s : State) : exec (.idiv h x) s = execIdiv h x s := rfl
theorem exec_irem (h : Hdr) (x : FA) (s : State) : exec (.irem h x) s = execIrem h x s := rfl
theorem exec_idot4 (h : Hdr) (x : FA) (s : State) : exec (.idot4 h x) s = execIdot4 h x s := rfl
theorem exec_pbitf (h : Hdr) (x : FA) (s : State) : exec (.pbitf h x) s = execPbitf h x s := rfl
theorem exec_pmovPack (h : Hdr) (x : FA) (s : State) : exec (.pmovPack h x) s = execPmovPack h x s := rfl
theorem exec_pmovUnpk (h : Hdr) (x : FA) (s : State) : exec (.pmovUnpk h x) s = execPmovUnpk h x s := rfl
theorem exec_kecf (h : Hdr) (x : FA) (s : State) : exec (.kecf h x) s = execKecf h x s := rfl
theorem exec_fadd (h : Hdr) (x : FA) (s : State) : exec (.fadd h x) s = execFadd h x s := rfl
theorem exec_fmul (h : Hdr) (x : FA) (s : State) : exec (.fmul h x) s = execFmul h x s := rfl
theorem exec_ffma (h : Hdr) (x : FA) (s : State) : exec (.ffma h x) s = execFfma h x s := rfl
theorem exec_fmin (h : Hdr) (x : FA) (s : State) : exec (.fmin h x) s = execFmin h x s := rfl
theorem exec_fmax (h : Hdr) (x : FA) (s : State) : exec (.fmax h x) s = execFmax h x s := rfl
theorem exec_fcmp (h : Hdr) (x : FA) (s : State) : exec (.fcmp h x) s = execFcmp h x s := rfl
theorem exec_frcp (h : Hdr) (x : FA) (s : State) : exec (.frcp h x) s = execFrcp h x s := rfl
theorem exec_frsq (h : Hdr) (x : FA) (s : State) : exec (.frsq h x) s = execFrsq h x s := rfl
theorem exec_fsqrt (h : Hdr) (x : FA) (s : State) : exec (.fsqrt h x) s = execFsqrt h x s := rfl
theorem exec_fex2 (h : Hdr) (x : FA) (s : State) : exec (.fex2 h x) s = execFex2 h x s := rfl
theorem exec_flg2 (h : Hdr) (x : FA) (s : State) : exec (.flg2 h x) s = execFlg2 h x s := rfl
theorem exec_fsin (h : Hdr) (x : FA) (s : State) : exec (.fsin h x) s = execFsin h x s := rfl
theorem exec_fcos (h : Hdr) (x : FA) (s : State) : exec (.fcos h x) s = execFcos h x s := rfl
theorem exec_fclass (h : Hdr) (x : FA) (s : State) : exec (.fclass h x) s = execFclass h x s := rfl
theorem exec_hadd2 (h : Hdr) (x : FA) (s : State) : exec (.hadd2 h x) s = execHadd2 h x s := rfl
theorem exec_hmul2 (h : Hdr) (x : FA) (s : State) : exec (.hmul2 h x) s = execHmul2 h x s := rfl
theorem exec_hfma2 (h : Hdr) (x : FA) (s : State) : exec (.hfma2 h x) s = execHfma2 h x s := rfl
theorem exec_hmin2 (h : Hdr) (x : FA) (s : State) : exec (.hmin2 h x) s = execHmin2 h x s := rfl
theorem exec_hmax2 (h : Hdr) (x : FA) (s : State) : exec (.hmax2 h x) s = execHmax2 h x s := rfl
theorem exec_hcmp2 (h : Hdr) (x : FA) (s : State) : exec (.hcmp2 h x) s = execHcmp2 h x s := rfl
theorem exec_cvtif (h : Hdr) (x : FA) (s : State) : exec (.cvtif h x) s = execCvtif h x s := rfl
theorem exec_cvtfi (h : Hdr) (x : FA) (s : State) : exec (.cvtfi h x) s = execCvtfi h x s := rfl
theorem exec_cvtff (h : Hdr) (x : FA) (s : State) : exec (.cvtff h x) s = execCvtff h x s := rfl
theorem exec_cvtn (h : Hdr) (x : FA) (s : State) : exec (.cvtn h x) s = execCvtn h x s := rfl
theorem exec_cvtw (h : Hdr) (x : FA) (s : State) : exec (.cvtw h x) s = execCvtw h x s := rfl
theorem exec_cvtra (h : Hdr) (x : FA) (s : State) : exec (.cvtra h x) s = execCvtra h x s := rfl
theorem exec_cvtar (h : Hdr) (x : FA) (s : State) : exec (.cvtar h x) s = execCvtar h x s := rfl
theorem exec_packH (h : Hdr) (x : FA) (s : State) : exec (.packH h x) s = execPackH h x s := rfl
theorem exec_packBi (h : Hdr) (x : FA) (s : State) : exec (.packBi h x) s = execPackBi h x s := rfl
theorem exec_packN (h : Hdr) (x : FA) (s : State) : exec (.packN h x) s = execPackN h x s := rfl
theorem exec_unpkH (h : Hdr) (x : FA) (s : State) : exec (.unpkH h x) s = execUnpkH h x s := rfl
theorem exec_unpkB (h : Hdr) (x : FA) (s : State) : exec (.unpkB h x) s = execUnpkB h x s := rfl
theorem exec_unpkN (h : Hdr) (x : FA) (s : State) : exec (.unpkN h x) s = execUnpkN h x s := rfl
theorem exec_setfmtR (h : Hdr) (x : FI) (s : State) : exec (.setfmtR h x) s = execSetfmtR h x s := rfl
theorem exec_setfmt (h : Hdr) (x : FI) (s : State) : exec (.setfmt h x) s = execSetfmt h x s := rfl
theorem exec_setfmtLong (h : Hdr) (x : FI) (s : State) : exec (.setfmtLong h x) s = execSetfmtLong h x s := rfl
theorem exec_setfmtSeed (h : Hdr) (x : FI) (s : State) : exec (.setfmtSeed h x) s = execSetfmtSeed h x s := rfl
theorem exec_getfmt (h : Hdr) (x : FA) (s : State) : exec (.getfmt h x) s = execGetfmt h x s := rfl
theorem exec_bscale (h : Hdr) (x : FA) (s : State) : exec (.bscale h x) s = execBscale h x s := rfl
theorem exec_efclr (h : Hdr) (x : FA) (s : State) : exec (.efclr h x) s = execEfclr h x s := rfl
theorem exec_qswz (h : Hdr) (x : FA) (s : State) : exec (.qswz h x) s = execQswz h x s := rfl
theorem exec_qred (h : Hdr) (x : FA) (s : State) : exec (.qred h x) s = execQred h x s := rfl
theorem exec_shfl (h : Hdr) (x : FA) (s : State) : exec (.shfl h x) s = execShfl h x s := rfl
theorem exec_voteAll (h : Hdr) (x : FA) (s : State) : exec (.voteAll h x) s = execVoteAll h x s := rfl
theorem exec_voteAny (h : Hdr) (x : FA) (s : State) : exec (.voteAny h x) s = execVoteAny h x s := rfl
theorem exec_voteUni (h : Hdr) (x : FA) (s : State) : exec (.voteUni h x) s = execVoteUni h x s := rfl
theorem exec_voteBal (h : Hdr) (x : FA) (s : State) : exec (.voteBal h x) s = execVoteBal h x s := rfl
theorem exec_scan (h : Hdr) (x : FA) (s : State) : exec (.scan h x) s = execScan h x s := rfl
theorem exec_sred (h : Hdr) (x : FA) (s : State) : exec (.sred h x) s = execSred h x s := rfl
theorem exec_match32 (h : Hdr) (x : FA) (s : State) : exec (.match32 h x) s = execMatch32 h x s := rfl
theorem exec_match64 (h : Hdr) (x : FA) (s : State) : exec (.match64 h x) s = execMatch64 h x s := rfl
theorem exec_elect (h : Hdr) (x : FA) (s : State) : exec (.elect h x) s = execElect h x s := rfl
theorem exec_electNh (h : Hdr) (x : FA) (s : State) : exec (.electNh h x) s = execElectNh h x s := rfl
theorem exec_ld (h : Hdr) (x : FM) (s : State) : exec (.ld h x) s = execLd h x s := rfl
theorem exec_st (h : Hdr) (x : FM) (s : State) : exec (.st h x) s = execSt h x s := rfl
theorem exec_ldu (h : Hdr) (x : FM) (s : State) : exec (.ldu h x) s = execLdu h x s := rfl
theorem exec_stu (h : Hdr) (x : FM) (s : State) : exec (.stu h x) s = execStu h x s := rfl
theorem exec_ldc (h : Hdr) (x : FM) (s : State) : exec (.ldc h x) s = execLdc h x s := rfl
theorem exec_pref (h : Hdr) (x : FM) (s : State) : exec (.pref h x) s = execPref h x s := rfl
theorem exec_cctlWb (h : Hdr) (x : FM) (s : State) : exec (.cctlWb h x) s = execCctlWb h x s := rfl
theorem exec_cctlInv (h : Hdr) (x : FM) (s : State) : exec (.cctlInv h x) s = execCctlInv h x s := rfl
theorem exec_cctlDemote (h : Hdr) (x : FM) (s : State) : exec (.cctlDemote h x) s = execCctlDemote h x s := rfl
theorem exec_cctlRenud (h : Hdr) (x : FM) (s : State) : exec (.cctlRenud h x) s = execCctlRenud h x s := rfl
theorem exec_atom (h : Hdr) (x : FT) (s : State) : exec (.atom h x) s = execAtom h x s := rfl
theorem exec_acas (h : Hdr) (x : FT) (s : State) : exec (.acas h x) s = execAcas h x s := rfl
theorem exec_red (h : Hdr) (x : FT) (s : State) : exec (.red h x) s = execRed h x s := rfl
theorem exec_atomu (h : Hdr) (x : FT) (s : State) : exec (.atomu h x) s = execAtomu h x s := rfl
theorem exec_fence (h : Hdr) (x : FA) (s : State) : exec (.fence h x) s = execFence h x s := rfl
theorem exec_waitv (h : Hdr) (x : FA) (s : State) : exec (.waitv h x) s = execWaitv h x s := rfl
theorem exec_pbari (h : Hdr) (x : FA) (s : State) : exec (.pbari h x) s = execPbari h x s := rfl
theorem exec_pbara (h : Hdr) (x : FA) (s : State) : exec (.pbara h x) s = execPbara h x s := rfl
theorem exec_pbarw (h : Hdr) (x : FA) (s : State) : exec (.pbarw h x) s = execPbarw h x s := rfl
theorem exec_yield (h : Hdr) (x : FA) (s : State) : exec (.yield h x) s = execYield h x s := rfl
theorem exec_stampCis (h : Hdr) (x : FA) (s : State) : exec (.stampCis h x) s = execStampCis h x s := rfl
theorem exec_stampCie (h : Hdr) (x : FA) (s : State) : exec (.stampCie h x) s = execStampCie h x s := rfl
theorem exec_bra (h : Hdr) (x : FB) (s : State) : exec (.bra h x) s = execBra h x s := rfl
theorem exec_brx (h : Hdr) (x : FA) (s : State) : exec (.brx h x) s = execBrx h x s := rfl
theorem exec_join (h : Hdr) (x : FB) (s : State) : exec (.join h x) s = execJoin h x s := rfl
theorem exec_joint (h : Hdr) (x : FB) (s : State) : exec (.joint h x) s = execJoint h x s := rfl
theorem exec_call (h : Hdr) (x : FB) (s : State) : exec (.call h x) s = execCall h x s := rfl
theorem exec_ret (h : Hdr) (x : FA) (s : State) : exec (.ret h x) s = execRet h x s := rfl
theorem exec_exit (h : Hdr) (x : FA) (s : State) : exec (.exit h x) s = execExit h x s := rfl
theorem exec_exitH (h : Hdr) (x : FA) (s : State) : exec (.exitH h x) s = execExitH h x s := rfl
theorem exec_bar (h : Hdr) (x : FA) (s : State) : exec (.bar h x) s = execBar h x s := rfl
theorem exec_bara (h : Hdr) (x : FA) (s : State) : exec (.bara h x) s = execBara h x s := rfl
theorem exec_barw (h : Hdr) (x : FA) (s : State) : exec (.barw h x) s = execBarw h x s := rfl
theorem exec_trap (h : Hdr) (x : FI) (s : State) : exec (.trap h x) s = execTrap h x s := rfl
theorem exec_bkpt (h : Hdr) (x : FI) (s : State) : exec (.bkpt h x) s = execBkpt h x s := rfl
theorem exec_bbc (h : Hdr) (x : FI) (s : State) : exec (.bbc h x) s = execBbc h x s := rfl
theorem exec_bclose (h : Hdr) (x : FA) (s : State) : exec (.bclose h x) s = execBclose h x s := rfl
theorem exec_bwait (h : Hdr) (x : FA) (s : State) : exec (.bwait h x) s = execBwait h x s := rfl
theorem exec_enq (h : Hdr) (x : FA) (s : State) : exec (.enq h x) s = execEnq h x s := rfl
theorem exec_pub (h : Hdr) (x : FA) (s : State) : exec (.pub h x) s = execPub h x s := rfl
theorem exec_deq (h : Hdr) (x : FA) (s : State) : exec (.deq h x) s = execDeq h x s := rfl
theorem exec_spawn (h : Hdr) (x : FA) (s : State) : exec (.spawn h x) s = execSpawn h x s := rfl
theorem exec_take (h : Hdr) (x : FA) (s : State) : exec (.take h x) s = execTake h x s := rfl
theorem exec_steal (h : Hdr) (x : FA) (s : State) : exec (.steal h x) s = execSteal h x s := rfl
theorem exec_launch (h : Hdr) (x : FA) (s : State) : exec (.launch h x) s = execLaunch h x s := rfl
theorem exec_mstart (h : Hdr) (x : FA) (s : State) : exec (.mstart h x) s = execMstart h x s := rfl
theorem exec_mstat (h : Hdr) (x : FA) (s : State) : exec (.mstat h x) s = execMstat h x s := rfl
theorem exec_mres (h : Hdr) (x : FA) (s : State) : exec (.mres h x) s = execMres h x s := rfl
theorem exec_mresSkip (h : Hdr) (x : FA) (s : State) : exec (.mresSkip h x) s = execMresSkip h x s := rfl
theorem exec_ralloc (h : Hdr) (x : FA) (s : State) : exec (.ralloc h x) s = execRalloc h x s := rfl
theorem exec_rload (h : Hdr) (x : FA) (s : State) : exec (.rload h x) s = execRload h x s := rfl
theorem exec_rpin (h : Hdr) (x : FA) (s : State) : exec (.rpin h x) s = execRpin h x s := rfl
theorem exec_runpin (h : Hdr) (x : FA) (s : State) : exec (.runpin h x) s = execRunpin h x s := rfl
theorem exec_rrevk (h : Hdr) (x : FA) (s : State) : exec (.rrevk h x) s = execRrevk h x s := rfl
theorem exec_rqry (h : Hdr) (x : FA) (s : State) : exec (.rqry h x) s = execRqry h x s := rfl
theorem exec_rqryQ (h : Hdr) (x : FA) (s : State) : exec (.rqryQ h x) s = execRqryQ h x s := rfl
theorem exec_mma (x : FX) (s : State) : exec (.mma x) s = execMma x s := rfl
theorem exec_mmag (x : FX) (s : State) : exec (.mmag x) s = execMmag x s := rfl
theorem exec_maccZero (x : FX) (s : State) : exec (.maccZero x) s = execMaccZero x s := rfl
theorem exec_maccLd (x : FX) (s : State) : exec (.maccLd x) s = execMaccLd x s := rfl
theorem exec_mout (x : FX) (s : State) : exec (.mout x) s = execMout x s := rfl
theorem exec_msig (x : FX) (s : State) : exec (.msig x) s = execMsig x s := rfl
theorem exec_mwait (x : FX) (s : State) : exec (.mwait x) s = execMwait x s := rfl
theorem exec_mloopBegin (x : FX) (s : State) : exec (.mloopBegin x) s = execMloopBegin x s := rfl
theorem exec_mloopNext (x : FX) (s : State) : exec (.mloopNext x) s = execMloopNext x s := rfl
theorem exec_mend (x : FX) (s : State) : exec (.mend x) s = execMend x s := rfl
theorem exec_mtile (x : FX) (s : State) : exec (.mtile x) s = execMtile x s := rfl
theorem exec_mtileRing (x : FX) (s : State) : exec (.mtileRing x) s = execMtileRing x s := rfl
theorem exec_rast (h : Hdr) (x : FS) (s : State) : exec (.rast h x) s = execRast h x s := rfl
theorem exec_trav (h : Hdr) (x : FS) (s : State) : exec (.trav h x) s = execTrav h x s := rfl
theorem exec_filt (h : Hdr) (x : FS) (s : State) : exec (.filt h x) s = execFilt h x s := rfl
theorem exec_blnd (h : Hdr) (x : FS) (s : State) : exec (.blnd h x) s = execBlnd h x s := rfl
theorem exec_dist (h : Hdr) (x : FS) (s : State) : exec (.dist h x) s = execDist h x s := rfl
theorem exec_topk (h : Hdr) (x : FS) (s : State) : exec (.topk h x) s = execTopk h x s := rfl
theorem exec_seqx (slot : Fin 8) (h : Hdr) (x : FS) (s : State) : exec (.seqx slot h x) s = execSeqx slot h x s := rfl
theorem exec_movs (h : Hdr) (x : FA) (s : State) : exec (.movs h x) s = execMovs h x s := rfl
theorem exec_mtsrHorizon (h : Hdr) (x : FI) (s : State) : exec (.mtsrHorizon h x) s = execMtsrHorizon h x s := rfl
theorem exec_mtsrSl (h : Hdr) (x : FI) (s : State) : exec (.mtsrSl h x) s = execMtsrSl h x s := rfl
theorem exec_mtsrGate (h : Hdr) (x : FI) (s : State) : exec (.mtsrGate h x) s = execMtsrGate h x s := rfl
theorem exec_mtsrStallchk (h : Hdr) (x : FI) (s : State) : exec (.mtsrStallchk h x) s = execMtsrStallchk h x s := rfl
theorem exec_mtsrStarve (h : Hdr) (x : FI) (s : State) : exec (.mtsrStarve h x) s = execMtsrStarve h x s := rfl
theorem exec_mtsrWqbase (h : Hdr) (x : FI) (s : State) : exec (.mtsrWqbase h x) s = execMtsrWqbase h x s := rfl
theorem exec_mtsrPdl (h : Hdr) (x : FI) (s : State) : exec (.mtsrPdl h x) s = execMtsrPdl h x s := rfl
theorem exec_mtsrGlnPeriod (h : Hdr) (x : FI) (s : State) :
    exec (.mtsrGlnPeriod h x) s = execMtsrGlnPeriod h x s := rfl
theorem exec_mtsrGlnCtxm (h : Hdr) (x : FI) (s : State) : exec (.mtsrGlnCtxm h x) s = execMtsrGlnCtxm h x s := rfl
theorem exec_mtsrGlnRing (h : Hdr) (x : FI) (s : State) : exec (.mtsrGlnRing h x) s = execMtsrGlnRing h x s := rfl
theorem exec_mtsrGlnStart (h : Hdr) (x : FI) (s : State) : exec (.mtsrGlnStart h x) s = execMtsrGlnStart h x s := rfl
theorem exec_mtsrGlnStop (h : Hdr) (x : FI) (s : State) : exec (.mtsrGlnStop h x) s = execMtsrGlnStop h x s := rfl
theorem exec_mtsrGlnTstc (h : Hdr) (x : FI) (s : State) : exec (.mtsrGlnTstc h x) s = execMtsrGlnTstc h x s := rfl
theorem exec_mtsrBbcb (h : Hdr) (x : FI) (s : State) : exec (.mtsrBbcb h x) s = execMtsrBbcb h x s := rfl
theorem exec_mtsrBbcn (h : Hdr) (x : FI) (s : State) : exec (.mtsrBbcn h x) s = execMtsrBbcn h x s := rfl
theorem exec_rft (h : Hdr) (x : FA) (s : State) : exec (.rft h x) s = execRft h x s := rfl
theorem exec_rftSkip (h : Hdr) (x : FA) (s : State) : exec (.rftSkip h x) s = execRftSkip h x s := rfl
theorem exec_xrd (h : Hdr) (x : FA) (s : State) : exec (.xrd h x) s = execXrd h x s := rfl
theorem exec_xwr (h : Hdr) (x : FA) (s : State) : exec (.xwr h x) s = execXwr h x s := rfl
theorem exec_tlbiAll (h : Hdr) (x : FA) (s : State) : exec (.tlbiAll h x) s = execTlbiAll h x s := rfl
theorem exec_tlbiCtx (h : Hdr) (x : FA) (s : State) : exec (.tlbiCtx h x) s = execTlbiCtx h x s := rfl
theorem exec_tlbiPage (h : Hdr) (x : FA) (s : State) : exec (.tlbiPage h x) s = execTlbiPage h x s := rfl
theorem exec_stopatHalt (h : Hdr) (x : FA) (s : State) : exec (.stopatHalt h x) s = execStopatHalt h x s := rfl
theorem exec_stopatRun (h : Hdr) (x : FA) (s : State) : exec (.stopatRun h x) s = execStopatRun h x s := rfl
theorem exec_stopatPre (h : Hdr) (x : FA) (s : State) : exec (.stopatPre h x) s = execStopatPre h x s := rfl
theorem exec_saveg (h : Hdr) (x : FA) (s : State) : exec (.saveg h x) s = execSaveg h x s := rfl
theorem exec_restg (h : Hdr) (x : FA) (s : State) : exec (.restg h x) s = execRestg h x s := rfl
theorem exec_mcld (h : Hdr) (x : FA) (s : State) : exec (.mcld h x) s = execMcld h x s := rfl
theorem exec_jointTimeout (gid sh tok : Nat) (s : State) :
    exec (.jointTimeout gid sh tok) s = execJointTimeout gid sh tok s := rfl
theorem exec_memoryAccessComplete (gid sh : Nat) (s : State) :
    exec (.memoryAccessComplete gid sh) s = execMemoryAccessComplete gid sh s := rfl
theorem exec_waitvReevaluate (gid sh ti : Nat) (s : State) :
    exec (.waitvReevaluate gid sh ti) s = execWaitvReevaluate gid sh ti s := rfl
theorem exec_waitvTimeout (gid sh ti : Nat) (s : State) :
    exec (.waitvTimeout gid sh ti) s = execWaitvTimeout gid sh ti s := rfl
theorem exec_moutComplete (gid : Nat) (s : State) : exec (.moutComplete gid) s = execMoutComplete gid s := rfl
theorem exec_residencyLoadEnd (core load : Nat) (s : State) :
    exec (.residencyLoadEnd core load) s = execResidencyLoadEnd core load s := rfl
theorem exec_bandGate (core band : Nat) (s : State) : exec (.bandGate core band) s = execBandGate core band s := rfl
theorem exec_seqTake (core : Nat) (s : State) : exec (.seqTake core) s = execSeqTake core s := rfl
theorem exec_seqStep (core : Nat) (s : State) : exec (.seqStep core) s = execSeqStep core s := rfl
theorem exec_engineCopy (gid sh : Nat) (s : State) : exec (.engineCopy gid sh) s = execEngineCopy gid sh s := rfl
theorem exec_engineGather (gid sh : Nat) (s : State) :
    exec (.engineGather gid sh) s = execEngineGather gid sh s := rfl
theorem exec_engineCollective (gid sh : Nat) (s : State) :
    exec (.engineCollective gid sh) s = execEngineCollective gid sh s := rfl
theorem exec_engineStorage (gid sh : Nat) (s : State) :
    exec (.engineStorage gid sh) s = execEngineStorage gid sh s := rfl
theorem exec_engineCommandEnd (cmd : Nat) (s : State) :
    exec (.engineCommandEnd cmd) s = execEngineCommandEnd cmd s := rfl
theorem exec_nvmeTimeout (cmd : Nat) (s : State) : exec (.nvmeTimeout cmd) s = execNvmeTimeout cmd s := rfl
theorem exec_memberAbsentTimeout (cmd : Nat) (s : State) :
    exec (.memberAbsentTimeout cmd) s = execMemberAbsentTimeout cmd s := rfl
theorem exec_queueStuck (die q : Nat) (s : State) : exec (.queueStuck die q) s = execQueueStuck die q s := rfl
theorem exec_stealTimeout (gid sh ti : Nat) (s : State) :
    exec (.stealTimeout gid sh ti) s = execStealTimeout gid sh ti s := rfl
theorem exec_failedLanesPark (gid sh log : Nat) (s : State) :
    exec (.failedLanesPark gid sh log) s = execFailedLanesPark gid sh log s := rfl
theorem exec_credibilityRecount (core : Option Nat) (slice ctx : Nat) (s : State) :
    exec (.credibilityRecount core slice ctx) s = execCredibilityRecount core slice ctx s := rfl
theorem exec_reclaimWritebackDone (core granule : Nat) (s : State) :
    exec (.reclaimWritebackDone core granule) s = execReclaimWritebackDone core granule s := rfl
theorem exec_rdAckTimeout (page : Nat) (s : State) : exec (.rdAckTimeout page) s = execRdAckTimeout page s := rfl
theorem exec_fabricTimeout (req : Nat) (s : State) : exec (.fabricTimeout req) s = execFabricTimeout req s := rfl
theorem exec_stackNotReadyTimeout (req : Nat) (s : State) :
    exec (.stackNotReadyTimeout req) s = execStackNotReadyTimeout req s := rfl
theorem exec_launchPacket (q : Nat) (s : State) : exec (.launchPacket q) s = execLaunchPacket q s := rfl
theorem exec_phasePacket (q : Nat) (s : State) : exec (.phasePacket q) s = execPhasePacket q s := rfl
theorem exec_signalPacket (q : Nat) (s : State) : exec (.signalPacket q) s = execSignalPacket q s := rfl
theorem exec_waitPacket (q : Nat) (s : State) : exec (.waitPacket q) s = execWaitPacket q s := rfl
theorem exec_waitPacketReevaluate (q : Nat) (s : State) :
    exec (.waitPacketReevaluate q) s = execWaitPacketReevaluate q s := rfl
theorem exec_waitPacketTimeout (q : Nat) (s : State) :
    exec (.waitPacketTimeout q) s = execWaitPacketTimeout q s := rfl
theorem exec_copyPacket (q : Nat) (s : State) : exec (.copyPacket q) s = execCopyPacket q s := rfl
theorem exec_indirectPacket (q : Nat) (s : State) : exec (.indirectPacket q) s = execIndirectPacket q s := rfl
theorem exec_markerPacket (q : Nat) (s : State) : exec (.markerPacket q) s = execMarkerPacket q s := rfl
theorem exec_coherenceClean (q : Nat) (s : State) : exec (.coherenceClean q) s = execCoherenceClean q s := rfl
theorem exec_dispatchPlace (die : Nat) (s : State) : exec (.dispatchPlace die) s = execDispatchPlace die s := rfl
theorem exec_swapRestoreEntry (gid : Nat) (s : State) :
    exec (.swapRestoreEntry gid) s = execSwapRestoreEntry gid s := rfl
theorem exec_groupEnd (gid : Nat) (s : State) : exec (.groupEnd gid) s = execGroupEnd gid s := rfl
theorem exec_saveQuiesced (gid : Nat) (s : State) : exec (.saveQuiesced gid) s = execSaveQuiesced gid s := rfl
theorem exec_saveWritten (gid : Nat) (s : State) : exec (.saveWritten gid) s = execSaveWritten gid s := rfl
theorem exec_restoreDone (gid : Nat) (s : State) : exec (.restoreDone gid) s = execRestoreDone gid s := rfl
theorem exec_preemptComplete (ctx : Nat) (s : State) :
    exec (.preemptComplete ctx) s = execPreemptComplete ctx s := rfl
theorem exec_preemptDeadline (ctx : Nat) (s : State) :
    exec (.preemptDeadline ctx) s = execPreemptDeadline ctx s := rfl
theorem exec_cutEffect (s : State) : exec .cutEffect s = execCutEffect s := rfl
theorem exec_handlerBatchClose (core ctx : Nat) (s : State) :
    exec (.handlerBatchClose core ctx) s = execHandlerBatchClose core ctx s := rfl
theorem exec_handlerSheafStart (core ctx : Nat) (s : State) :
    exec (.handlerSheafStart core ctx) s = execHandlerSheafStart core ctx s := rfl
theorem exec_handlerRoomTimeout (core ctx : Nat) (s : State) :
    exec (.handlerRoomTimeout core ctx) s = execHandlerRoomTimeout core ctx s := rfl
theorem exec_gleanerSample (core : Nat) (s : State) : exec (.gleanerSample core) s = execGleanerSample core s := rfl
theorem exec_powerInterval (s : State) : exec .powerInterval s = execPowerInterval s := rfl
theorem exec_signDone (s : State) : exec .signDone s = execSignDone s := rfl
theorem exec_idxCommitDone (s : State) : exec .idxCommitDone s = execIdxCommitDone s := rfl
theorem exec_variableLatencyResult (gid sh : Nat) (s : State) :
    exec (.variableLatencyResult gid sh) s = execVariableLatencyResult gid sh s := rfl
theorem exec_mmaComplete (gid : Nat) (s : State) : exec (.mmaComplete gid) s = execMmaComplete gid s := rfl
theorem exec_maccComplete (gid : Nat) (s : State) : exec (.maccComplete gid) s = execMaccComplete gid s := rfl
theorem exec_registerWrite (steward : Bool) (off : BitVec 24) (size : Nat) (v : BitVec 64) (s : State) :
    exec (.registerWrite steward off size v) s = execRegisterWrite steward off size v s := rfl
theorem exec_rdDropRequest (page : Nat) (s : State) : exec (.rdDropRequest page) s = execRdDropRequest page s := rfl
theorem exec_yieldEnd (gid sh ti : Nat) (s : State) : exec (.yieldEnd gid sh ti) s = execYieldEnd gid sh ti s := rfl
theorem exec_nvmeCompletion (cmd : Nat) (status : Nat) (data : List (BitVec 8)) (s : State) :
    exec (.nvmeCompletion cmd status data) s = execNvmeCompletion cmd status data s := rfl
theorem exec_faultReplyRetry (tag : Nat) (s : State) :
    exec (.faultReplyRetry tag) s = execFaultReplyRetry tag s := rfl
theorem exec_faultReplyFailUnresolved (tag : Nat) (s : State) :
    exec (.faultReplyFailUnresolved tag) s = execFaultReplyFailUnresolved tag s := rfl
theorem exec_faultReplyFailProtection (tag : Nat) (s : State) :
    exec (.faultReplyFailProtection tag) s = execFaultReplyFailProtection tag s := rfl
theorem exec_fqHead (v : BitVec 32) (s : State) : exec (.fqHead v) s = execFqHead v s := rfl
theorem exec_winnowTick (s : State) : exec .winnowTick s = execWinnowTick s := rfl
theorem exec_rdDropAck (page dev : Nat) (s : State) : exec (.rdDropAck page dev) s = execRdDropAck page dev s := rfl
theorem exec_hostAccess (port : HostPort) (addr : BitVec 64) (write : Option (List (BitVec 8))) (len : Nat) (s : State) :
    exec (.hostAccess port addr write len) s = execHostAccess port addr write len s := rfl
theorem exec_doorbell (vf : Option Nat) (q : Nat) (tail : BitVec 32) (s : State) :
    exec (.doorbell vf q tail) s = execDoorbell vf q tail s := rfl
theorem exec_fabricRequest (dev : Requester) (addr : BitVec 64) (write : Option (List (BitVec 8))) (len : Nat) (s : State) :
    exec (.fabricRequest dev addr write len) s = execFabricRequest dev addr write len s := rfl
theorem exec_sqStateWrite (q : Nat) (v : BitVec 8) (s : State) :
    exec (.sqStateWrite q v) s = execSqStateWrite q v s := rfl
theorem exec_dspreq (die : Nat) (s : State) : exec (.dspreq die) s = execDspreq die s := rfl
theorem exec_preemptRequest (ctx : Nat) (s : State) : exec (.preemptRequest ctx) s = execPreemptRequest ctx s := rfl
theorem exec_preemptRelease (ctx : Nat) (s : State) : exec (.preemptRelease ctx) s = execPreemptRelease ctx s := rfl
theorem exec_forcedReset (ctx : Nat) (s : State) : exec (.forcedReset ctx) s = execForcedReset ctx s := rfl
theorem exec_powerCap (watts : BitVec 32) (s : State) : exec (.powerCap watts) s = execPowerCap watts s := rfl
theorem exec_thermalLimit (die : Nat) (s : State) : exec (.thermalLimit die) s = execThermalLimit die s := rfl
theorem exec_thermalRecovery (die : Nat) (s : State) :
    exec (.thermalRecovery die) s = execThermalRecovery die s := rfl
theorem exec_thermalShutdown (s : State) : exec .thermalShutdown s = execThermalShutdown s := rfl
theorem exec_moduleReset (s : State) : exec .moduleReset s = execModuleReset s := rfl
theorem exec_powerLoss (s : State) : exec .powerLoss s = execPowerLoss s := rfl
theorem exec_readySet (reg : Fin 2) (bit : Nat) (s : State) :
    exec (.readySet reg bit) s = execReadySet reg bit s := rfl
theorem exec_rcvLen (len : BitVec 32) (s : State) : exec (.rcvLen len) s = execRcvLen len s := rfl
theorem exec_errClear (pa : BitVec 64) (s : State) : exec (.errClear pa) s = execErrClear pa s := rfl
theorem exec_wqRegister (v : BitVec 32) (s : State) : exec (.wqRegister v) s = execWqRegister v s := rfl
theorem exec_wqUnregister (v : BitVec 32) (s : State) : exec (.wqUnregister v) s = execWqUnregister v s := rfl
theorem exec_tlbInv (ctx : Nat) (v : BitVec 64) (s : State) : exec (.tlbInv ctx v) s = execTlbInv ctx v s := rfl
theorem exec_rqset (ctx : Nat) (v : BitVec 32) (s : State) : exec (.rqset ctx v) s = execRqset ctx v s := rfl
theorem exec_watchArm (e : Nat) (s : State) : exec (.watchArm e) s = execWatchArm e s := rfl
theorem exec_measExt (die : Nat) (v : BitVec 32) (s : State) : exec (.measExt die v) s = execMeasExt die v s := rfl
theorem exec_doeRequest (bytes : List (BitVec 8)) (s : State) :
    exec (.doeRequest bytes) s = execDoeRequest bytes s := rfl
theorem exec_doeRsplen (n : BitVec 32) (s : State) : exec (.doeRsplen n) s = execDoeRsplen n s := rfl
theorem exec_trng (n : Nat) (s : State) : exec (.trng n) s = execTrng n s := rfl
theorem exec_signGo (v : BitVec 64) (s : State) : exec (.signGo v) s = execSignGo v s := rfl
theorem exec_idxResv (v : BitVec 32) (s : State) : exec (.idxResv v) s = execIdxResv v s := rfl
theorem exec_getVersion (req : List (BitVec 8)) (s : State) : exec (.getVersion req) s = execGetVersion req s := rfl
theorem exec_getCapabilities (req : List (BitVec 8)) (s : State) :
    exec (.getCapabilities req) s = execGetCapabilities req s := rfl
theorem exec_negotiateAlgorithms (req : List (BitVec 8)) (s : State) :
    exec (.negotiateAlgorithms req) s = execNegotiateAlgorithms req s := rfl
theorem exec_getDigests (req : List (BitVec 8)) (s : State) : exec (.getDigests req) s = execGetDigests req s := rfl
theorem exec_getCertificate (req : List (BitVec 8)) (s : State) :
    exec (.getCertificate req) s = execGetCertificate req s := rfl
theorem exec_challenge (req : List (BitVec 8)) (s : State) : exec (.challenge req) s = execChallenge req s := rfl
theorem exec_getMeasurements (req : List (BitVec 8)) (s : State) :
    exec (.getMeasurements req) s = execGetMeasurements req s := rfl
theorem exec_spdmUnknownRequest (req : List (BitVec 8)) (s : State) :
    exec (.spdmUnknownRequest req) s = execSpdmUnknownRequest req s := rfl
theorem exec_stallCountExpiry (gid sh ti : Nat) (s : State) :
    exec (.stallCountExpiry gid sh ti) s = execStallCountExpiry gid sh ti s := rfl
theorem exec_readyClear (reg : Fin 2) (bit : Nat) (s : State) :
    exec (.readyClear reg bit) s = execReadyClear reg bit s := rfl

end Sys2Proof.Machine
end

