-- ==== Sys2Proof/Tests/Slice0.lean ====
section
/-! SUPPORT. Tests of the definitions: ill-formed terms, words written out from the manual, results of the manual's worked
examples, and for each statement states and operands that meet its hypotheses. -/

namespace Sys2Proof.Tests

set_option Elab.async false

open Sys2Proof.Machine

/-! ## Words and states for the tests -/

/-- Header of a word without U, and with U, guarded by the true predicate. -/
def hg : Hdr := { st := 0, y := false, u := false, gn := false, gp := 15 }
/-- The uniform header. -/
def hu : Hdr := { hg with u := true }
/-- The same under a predicate that is false in the base state. -/
def hn (h : Hdr) : Hdr := { h with gn := true }
/-- Format A. -/
def fa (d a b c : Opd) (fn : BitVec 8) : FA := { d := d, a := a, b := b, c := c, fn := fn }
/-- Format M, to global memory with a zero offset. -/
def fm (d a : Opd) (sz ord spc : Nat) : FM :=
  { d := d, a := a, nud := 0, sz := BitVec.ofNat 3 sz, ord := BitVec.ofNat 3 ord, spc := BitVec.ofNat 2 spc, off := .short 0 }
/-- Format X. -/
def fx (acc slot : Nat) (a b : Opd) (cnt fn : Nat) : FX :=
  { acc := BitVec.ofNat 4 acc, slot := BitVec.ofNat 5 slot, a := a, b := b, cnt := BitVec.ofNat 9 cnt, fn := BitVec.ofNat 8 fn }
/-- The state after placing a word, with the new group's tiller current. -/
def placed (w : Nat) : State := { State.reset.withFetchWord 64 w with cur := { gid := 1, sh := 0, ti := 0 } }
/-- A steward's sheaf of 64 threads at its code. -/
def base : State := placed 0x0000F00000000000
/-- The base state in a tenant's context 0. -/
def tenant : State := base.updGroup 1 (fun g => { g with ctx := 0, kind := .user })
/-- A handler's sheaf. -/
def handler : State := placed 0xE200F00000000000
/-- A group whose stream is RUNNING. -/
def running : State := placed 0xC700000000000000
/-- A state with the scalars given. -/
def sc (s : State) (l : List (Nat × Nat)) : State :=
  s.updSheaf 1 0 (fun x => x.write (l.map (fun e => { key := .s e.1, val := BitVec.ofNat 32 e.2 })))
/-- Whether i issues in the state's current frame. -/
def issues (s : State) (i : Instr) : Bool :=
  match s.frame? with
  | none => false
  | some f => s.decodeFault f i == none && !(s.stallChecked f && s.uncovered f i)
/-- A word decodes to an instruction of a kind, and that issues. -/
def issuesAs (s : State) (w : Nat) (p : Instr → Bool) : Bool :=
  match decodeTableWord 128 w with
  | none => false
  | some i => p i && issues s i
/-- Whether the group's stream performs i. -/
def streams (s : State) (i : Instr) : Bool :=
  match s.group? s.cur.gid with
  | none => false
  | some g => g.stream.st == .running && i.reject == none && i.wf && i.operandsOk 256 false
/-- A word decodes to a stream instruction of a kind, and a running stream performs it. -/
def streamsAs (w : Nat) (p : Instr → Bool) : Bool :=
  match decodeTableWord 128 w with
  | none => false
  | some i => p i && streams running i

/-- The current frame satisfies a test. -/
def onFrame (s : State) (p : Frame → Bool) : Bool := s.frame?.any p
/-- The current group satisfies a test. -/
def onGroup (s : State) (p : Group → Bool) : Bool := (s.group? s.cur.gid).any p
/-- Every element of a list of checks holds. -/
def allOf (l : List Bool) : Bool := l.all id

/-- What `issues` computes is what the statements ask for. -/
theorem issues_spec {s : State} {i : Instr} (h : issues s i = true) : ∃ f, Issues s f i := by
  unfold issues at h
  split at h
  · simp at h
  · rename_i f hf
    simp only [Bool.and_eq_true, beq_iff_eq, Bool.not_eq_true'] at h
    exact ⟨f, hf, h.1, h.2⟩

/-- The same for streams. -/
theorem streams_spec {s : State} {i : Instr} (h : streams s i = true) : ∃ g, Streams s g i := by
  unfold streams at h
  split at h
  · simp at h
  · rename_i g hg
    simp only [Bool.and_eq_true, beq_iff_eq] at h
    exact ⟨g, hg, h.1.1.1, h.1.1.2, h.1.2, h.2⟩

/-! ## Well-formedness: an ill-formed term for each kind of check -/

/-- An immediate of the wrong length or FN2 (R85, R181, R201). -/
theorem test_wf_immediates :
    let short (n : Nat) : FI := { d := .v 0, a := .v 0, fn2 := BitVec.ofNat 2 n, imm := .short 0 }
    let long (n : Nat) : FI := { d := .v 0, a := .v 0, fn2 := BitVec.ofNat 2 n, imm := .long 0 }
    [Instr.movi hg (long 0), .movi hg (short 1), .moviZ hg (short 0), .moviLong hg (short 0), .moviLong hg (long 1),
     .movi64 hg (long 0), .setfmtR hu (short 1), .setfmt hu (long 1), .setfmtLong hu (short 1),
     .setfmtSeed hu (short 1)].all (fun i => !i.wf) = true := by decide

/-- An FN that is another row's (R183, R197, R211, R212, R236, R245, R271, R306, R373, R375, R379). -/
theorem test_wf_fn :
    let x (n : Nat) : FA := fa (.v 0) (.v 0) (.v 0) (.v 0) (BitVec.ofNat 8 n)
    [Instr.pmovPack hg (x 1), .pmovUnpk hg (x 0), .voteAll hg (x 1), .voteAny hg (x 0), .voteUni hg (x 3), .voteBal hg (x 2),
     .match32 hg (x 1), .match64 hg (x 0), .elect hg (x 1), .electNh hg (x 0), .stampCis hu (x 1), .stampCie hu (x 0),
     .exit hg (x 1), .exitH hg (x 0), .packH hg (x 1), .packBi hg (x 2), .packN hg (x 0), .unpkH hg (x 2), .unpkB hg (x 4),
     .unpkN hg (x 1), .mres hu (x 1), .mresSkip hu (x 0), .rqry hu (x 1), .rqryQ hu (x 0), .rft hg (x 1), .rftSkip hg (x 0),
     .tlbiAll hu (x 1), .tlbiCtx hu (x 2), .tlbiPage hu (x 0), .stopatHalt hu (x 2), .stopatRun hu (x 0),
     .stopatPre hu (x 1)].all (fun i => !i.wf) = true := by decide

/-- A stream's FN, CCTL's SZ and MTSR's index that are another row's (R220, R282, R372). -/
theorem test_wf_selectors :
    let x (n : Nat) : FX := fx 0 0 (.v 0) (.v 0) 0 n
    let m (n : Nat) : FI := { d := .v 0, a := .s 0, fn2 := 0, imm := .short (BitVec.ofNat 24 n) }
    [Instr.maccZero (x 1), .maccLd (x 0), .mloopBegin (x 1), .mloopNext (x 0), .mtile (x 1), .mtileRing (x 0),
     .cctlWb hg (fm (.v 0) (.v 0) 1 0 0), .cctlInv hg (fm (.v 0) (.v 0) 0 0 0), .cctlDemote hg (fm (.v 0) (.v 0) 3 0 0),
     .cctlRenud hg (fm (.v 0) (.v 0) 2 0 0), .mtsrHorizon hu (m 1), .mtsrSl hu (m 2), .mtsrGate hu (m 3), .mtsrStallchk hu (m 4),
     .mtsrStarve hu (m 5), .mtsrWqbase hu (m 4), .mtsrPdl hu (m 7), .mtsrGlnPeriod hu (m 0x21), .mtsrGlnCtxm hu (m 0x20),
     .mtsrGlnRing hu (m 0x23), .mtsrGlnStart hu (m 0x24), .mtsrGlnStop hu (m 0x23), .mtsrGlnTstc hu (m 0x26),
     .mtsrBbcb hu (m 0x60), .mtsrBbcn hu (m 0x5F)].all (fun i => !i.wf) = true := by decide

/-- An event is no instruction word. -/
theorem test_wf_event : Instr.cutEffect.wf = false := by decide

/-! ## Decoding: words of the manual, and words that it refuses -/

/-- R202, R208, R216, R221, R226, R229, R243, R244, R250, R268, R373: the words of the manual's examples. -/
theorem test_decode_examples :
    decodeTableWord 64 0x0112F8341B020000 = some (.iadd { hu with st := 1 } (fa (.s 6) (.s 6) (.int 1) (.v 0) 0)) ∧
    decodeTableWord 64 0x1640F010080E0003 = some (.lea { hg with st := 4 } (fa (.v 2) (.v 2) (.v 7) (.v 0) 3)) ∧
    decodeTableWord 64 0x5200F0481B030E12 = some (.shfl hg (fa (.v 9) (.v 6) (.int 1) (.s 14) 0x12)) ∧
    decodeTableWord 64 0x8102F884521C0008 = some (.waitv hu (fa (.s 16) (.s 20) (.s 14) (.v 0) 8)) ∧
    decodeTableWord 64 0x8402F00606140000 = some (.pbarw hu (fa (.v 0) (.int 1) (.s 10) (.v 0) 0)) ∧
    decodeTableWord 64 0x90120000FFFFFFD9 =
      some (.bra { hu with st := 1, gp := 0 } { fn4 := 0, tok := 0, off := 0xFFFFFFD9 }) ∧
    decodeTableWord 64 0x9200F00200000000 = some (.join hg { fn4 := 0, tok := 2, off := 0 }) ∧
    decodeTableWord 64 0x9400130400000008 = some (.call { hg with gp := 1 } { fn4 := 3, tok := 4, off := 8 }) ∧
    decodeTableWord 64 0x9C02F00000000025 = some (.bbc hu { d := .v 0, a := .v 0, fn2 := 0, imm := .short 0x25 }) ∧
    decodeTableWord 64 0xE200F00000000001 = some (.rftSkip hg (fa (.v 0) (.v 0) (.v 0) (.v 0) 1)) := by
  refine ⟨?_, ?_, ?_, ?_, ?_, ?_, ?_, ?_, ?_, ?_⟩ <;> decide +kernel

/-- R282, R290, R291, R314: words of the manual's kernels for the matrix unit and the sequencer. -/
theorem test_decode_streams :
    decodeTableWord 64 0xC000001C120C0304 = some (.mma (fx 0 3 (.s 4) (.s 6) 3 4)) ∧
    decodeTableWord 64 0xC200000000000000 = some (.maccZero (fx 0 0 (.v 0) (.v 0) 0 0)) ∧
    decodeTableWord 64 0xC3000004221C0700 = some (.mout (fx 0 0 (.s 8) (.s 14) 7 0)) ∧
    decodeTableWord 64 0xC400000800000000 = some (.msig (fx 0 1 (.v 0) (.v 0) 0 0)) ∧
    decodeTableWord 64 0xC500001800000000 = some (.mwait (fx 0 3 (.v 0) (.v 0) 0 0)) ∧
    decodeTableWord 64 0xC600000000000001 = some (.mloopNext (fx 0 0 (.v 0) (.v 0) 0 1)) ∧
    decodeTableWord 64 0xC800000428000000 = some (.mtile (fx 0 0 (.s 10) (.v 0) 0 0)) ∧
    decodeTableWord 64 0xC800000442240001 = some (.mtileRing (fx 0 0 (.s 16) (.s 18) 0 1)) ∧
    decodeTableWord 64 0xD100F10062511E01 =
      some (.trav hg { w := .v 32, a := .v 24, b := .s 40, d := .s 30, fn := 1 }) ∧
    decodeTableWord 64 0xD30000C02A492601 =
      some (.blnd { hg with gp := 0 } { w := .v 24, a := .v 10, b := .s 36, d := .s 38, fn := 1 }) := by
  refine ⟨?_, ?_, ?_, ?_, ?_, ?_, ?_, ?_, ?_, ?_⟩ <;> decide +kernel

/-- R82, R83, R90: words written out field by field for families without an example: FADD v1, v2, v3; CVTIF v1, v2;
RPIN q1, s4; SAVEG s2, s4, s6. -/
theorem test_decode_fields :
    decodeTableWord 64 (0x20 * 2 ^ 56 + 15 * 2 ^ 44 + 1 * 2 ^ 35 + 2 * 2 ^ 26 + 3 * 2 ^ 17) =
      some (.fadd hg (fa (.v 1) (.v 2) (.v 3) (.v 0) 0)) ∧
    decodeTableWord 64 (0x40 * 2 ^ 56 + 15 * 2 ^ 44 + 1 * 2 ^ 35 + 2 * 2 ^ 26) =
      some (.cvtif hg (fa (.v 1) (.v 2) (.v 0) (.v 0) 0)) ∧
    decodeTableWord 64 (0xB2 * 2 ^ 56 + 2 ^ 49 + 15 * 2 ^ 44 + 0x151 * 2 ^ 35 + 0x104 * 2 ^ 26) =
      some (.rpin hu (fa (.q 1) (.s 4) (.v 0) (.v 0) 0)) ∧
    decodeTableWord 64 (0xE7 * 2 ^ 56 + 2 ^ 49 + 15 * 2 ^ 44 + 0x102 * 2 ^ 35 + 0x104 * 2 ^ 26 + 0x106 * 2 ^ 17) =
      some (.saveg hu (fa (.s 2) (.s 4) (.s 6) (.v 0) 0)) := by
  refine ⟨?_, ?_, ?_, ?_⟩ <;> decide +kernel

/-- R91, point 1: a reserved opcode, a reserved FN, a nonzero unused field, an L and a U against their columns, a guard on
a barrier, and a word of the other kind of stream. -/
theorem test_decode_refuses :
    (decode false 0x1D00F00000000000 0 matches .error .opcode) = true ∧
    (decode false 0x0100F00000000004 0 matches .error .fn) = true ∧
    (decode false 0x0000F00000000100 0 matches .error .reserved) = true ∧
    (decode false 0x0104F00000000000 0 matches .error .longForm) = true ∧
    (decode false 0x5002F00000000000 0 matches .error .uniform) = true ∧
    (decode false 0x9700000400000000 0 matches .error .guard) = true ∧
    (decode true 0x0000F00000000000 0 matches .error .stream) = true := by
  refine ⟨?_, ?_, ?_, ?_, ?_, ?_, ?_⟩ <;> decide +kernel

/-! ## Every instruction issues somewhere -/


/-- R171 to R184: each instruction of the family, of a word with its opcode and FN, issues in the base state. -/
theorem witness_issues_integer : [
    (base, 0xF00000000000, (· matches .nop ..)),
    (base, 0x100F00000000000, (· matches .iadd ..)),
    (base, 0x200F00000000000, (· matches .isub ..)),
    (base, 0x300F00000000000, (· matches .imul ..)),
    (base, 0x400F00000000000, (· matches .imulh ..)),
    (base, 0x500F00000000000, (· matches .imad ..)),
    (base, 0x600F00000000000, (· matches .imin ..)),
    (base, 0x700F00000000000, (· matches .imax ..)),
    (base, 0x800F00000000000, (· matches .iabsd ..)),
    (base, 0x900F00000000000, (· matches .bitf ..)),
    (base, 0xA00F00000000000, (· matches .shl ..)),
    (base, 0xB00F00000000000, (· matches .shr ..)),
    (base, 0xC00F00000000000, (· matches .bfx ..)),
    (base, 0xD00F00000000000, (· matches .bfi ..)),
    (base, 0xE00F00000000000, (· matches .popc ..)),
    (base, 0xF00F00000000000, (· matches .clz ..)),
    (base, 0x1000F00000000000, (· matches .brev ..)),
    (base, 0x1100FA0000014000, (· matches .icmp ..)),
    (base, 0x1200F00000014000, (· matches .sel ..)),
    (base, 0x1300F00000000000, (· matches .mov ..)),
    (base, 0x1400F00000000000, (· matches .movi ..)),
    (base, 0x1400F00001000000, (· matches .moviZ ..)),
    (base, 0x1404F00000000000, (· matches .moviLong ..)),
    (base, 0x1404F00001000000, (· matches .movi64 ..)),
    (base, 0x1500F00000000000, (· matches .iadd64 ..)),
    (base, 0x1600F00000000000, (· matches .lea ..)),
    (base, 0x1700F00000000000, (· matches .idiv ..)),
    (base, 0x1800F00000000000, (· matches .irem ..)),
    (base, 0x1900F00000000000, (· matches .idot4 ..)),
    (base, 0x1A00FA0502814000, (· matches .pbitf ..)),
    (base, 0x1B00F00000000000, (· matches .pmovPack ..)),
    (base, 0x1B00F00000000001, (· matches .pmovUnpk ..)),
    (base, 0x1C02F84600000002, (· matches .kecf ..))].all (fun e => issuesAs e.1 e.2.1 e.2.2) = true := by decide +kernel

/-- R185 to R190: each instruction of the family, of a word with its opcode and FN, issues in the base state. -/
theorem witness_issues_float : [
    (base, 0x2000F00000000000, (· matches .fadd ..)),
    (base, 0x2100F00000000000, (· matches .fmul ..)),
    (base, 0x2200F00000000000, (· matches .ffma ..)),
    (base, 0x2300F00000000000, (· matches .fmin ..)),
    (base, 0x2400F00000000000, (· matches .fmax ..)),
    (base, 0x2500FA0003094000, (· matches .fcmp ..)),
    (base, 0x2600F00000000000, (· matches .frcp ..)),
    (base, 0x2700F00000000000, (· matches .frsq ..)),
    (base, 0x2800F00000000000, (· matches .fsqrt ..)),
    (base, 0x2900F00000000000, (· matches .fex2 ..)),
    (base, 0x2A00F00000000000, (· matches .flg2 ..)),
    (base, 0x2B00F00000000000, (· matches .fsin ..)),
    (base, 0x2C00F00000000000, (· matches .fcos ..)),
    (base, 0x2D00F00000000000, (· matches .fclass ..)),
    (base, 0x3000F00000000000, (· matches .hadd2 ..)),
    (base, 0x3100F00000000000, (· matches .hmul2 ..)),
    (base, 0x3200F00000000000, (· matches .hfma2 ..)),
    (base, 0x3300F00000000000, (· matches .hmin2 ..)),
    (base, 0x3400F00000000000, (· matches .hmax2 ..)),
    (base, 0x3500FA0000000000, (· matches .hcmp2 ..))].all (fun e => issuesAs e.1 e.2.1 e.2.2) = true := by decide +kernel

/-- R191 to R202: each instruction of the family, of a word with its opcode and FN, issues in the base state. -/
theorem witness_issues_convert : [
    (base, 0x4000F00000000000, (· matches .cvtif ..)),
    (base, 0x4100F00000000000, (· matches .cvtfi ..)),
    (base, 0x4200F00000000000, (· matches .cvtff ..)),
    (base, 0x4300F00000000000, (· matches .cvtn ..)),
    (base, 0x4400F00000000000, (· matches .cvtw ..)),
    (base, 0x4500F00000000000, (· matches .cvtra ..)),
    (base, 0x4600F00000000000, (· matches .cvtar ..)),
    (base, 0x4700F00000000000, (· matches .packH ..)),
    (base, 0x4700F00000000001, (· matches .packBi ..)),
    (base, 0x4700F00000000002, (· matches .packN ..)),
    (base, 0x4800F00000000000, (· matches .unpkH ..)),
    (base, 0x4800F00000000002, (· matches .unpkB ..)),
    (base, 0x4800F00000000004, (· matches .unpkN ..)),
    (base, 0x4902F00480000000, (· matches .setfmtR ..)),
    (base, 0x4902F00001000000, (· matches .setfmt ..)),
    (base, 0x4906F00001000000, (· matches .setfmtLong ..)),
    (base, 0x4902F00002000000, (· matches .setfmtSeed ..)),
    (base, 0x4A00F00000000000, (· matches .getfmt ..)),
    (base, 0x4B00F00000000000, (· matches .bscale ..)),
    (base, 0x4C00F00000000000, (· matches .efclr ..))].all (fun e => issuesAs e.1 e.2.1 e.2.2) = true := by decide +kernel

/-- R206 to R212: each instruction of the family, of a word with its opcode and FN, issues in the base state. -/
theorem witness_issues_exchange : [
    (base, 0x5000F00000000000, (· matches .qswz ..)),
    (base, 0x5100F00000000000, (· matches .qred ..)),
    (base, 0x5200F00000000000, (· matches .shfl ..)),
    (base, 0x5300FA0500000000, (· matches .voteAll ..)),
    (base, 0x5300FA0500000001, (· matches .voteAny ..)),
    (base, 0x5300FA353C000002, (· matches .voteUni ..)),
    (base, 0x5300F00500000003, (· matches .voteBal ..)),
    (base, 0x5400F00000000000, (· matches .scan ..)),
    (base, 0x5500F00000000000, (· matches .sred ..)),
    (base, 0x5600F00000000000, (· matches .match32 ..)),
    (base, 0x5600F00000000001, (· matches .match64 ..)),
    (base, 0x5700FA0000000000, (· matches .elect ..)),
    (base, 0x5700FA0000000001, (· matches .electNh ..))].all (fun e => issuesAs e.1 e.2.1 e.2.2) = true := by decide +kernel

/-- R213 to R225: each instruction of the family, of a word with its opcode and FN, issues in the base state. -/
theorem witness_issues_memory : [
    (base, 0x6000F00000000000, (· matches .ld ..)),
    (base, 0x6100F00000000000, (· matches .st ..)),
    (base, 0x6202F80400400000, (· matches .ldu ..)),
    (base, 0x6302F80400000000, (· matches .stu ..)),
    (base, 0x6400F00000000000, (· matches .ldc ..)),
    (base, 0x6500F00000000000, (· matches .pref ..)),
    (base, 0x6600F00000000000, (· matches .cctlWb ..)),
    (base, 0x6600F00000040000, (· matches .cctlInv ..)),
    (base, 0x6600F00000080000, (· matches .cctlDemote ..)),
    (base, 0x6600F000000C0000, (· matches .cctlRenud ..)),
    (base, 0x2000000000000007004F04008120010, (· matches .atom ..)),
    (base, 0x2000000000000007104F04008120A10, (· matches .acas ..)),
    (base, 0x2000000000000007204F00008120000, (· matches .red ..)),
    (base, 0x2000000000000007306F8440A120000, (· matches .atomu ..))].all (fun e => issuesAs e.1 e.2.1 e.2.2) = true := by decide +kernel

/-- R226 to R236: each instruction of the family, of a word with its opcode and FN, issues in the base state. -/
theorem witness_issues_order : [
    (base, 0x8000F00600000002, (· matches .fence ..)),
    (base, 0x8102F82482100000, (· matches .waitv ..)),
    (base, 0x8202F00402000000, (· matches .pbari ..)),
    (base, 0x8302F80602080000, (· matches .pbara ..)),
    (base, 0x8402F00402000000, (· matches .pbarw ..)),
    (base, 0x8502F00400000000, (· matches .yield ..)),
    (base, 0x8602F80600000000, (· matches .stampCis ..)),
    (base, 0x8602F80600000001, (· matches .stampCie ..))].all (fun e => issuesAs e.1 e.2.1 e.2.2) = true := by decide +kernel

/-- R241 to R250: each instruction of the family, of a word with its opcode and FN, issues in the base state. -/
theorem witness_issues_flow : [
    (base, 0x9000F00000000000, (· matches .bra ..)),
    (base, 0x9100F00000000000, (· matches .brx ..)),
    (base, 0x9200F00000000000, (· matches .join ..)),
    (base, 0x9300F00000000000, (· matches .joint ..)),
    (base, 0x9400F00000000000, (· matches .call ..)),
    (base, 0x9500F00000000000, (· matches .ret ..)),
    (base, 0x9600F00000000000, (· matches .exit ..)),
    (base, 0x9600F00000000001, (· matches .exitH ..)),
    (base, 0x9700F00400000000, (· matches .bar ..)),
    (base, 0x9800F00400000000, (· matches .bara ..)),
    (base, 0x9900F00400000000, (· matches .barw ..)),
    (base, 0x9A00F00000000000, (· matches .trap ..)),
    (base, 0x9B00F00000000000, (· matches .bkpt ..)),
    (base, 0x9C02F00000000000, (· matches .bbc ..))].all (fun e => issuesAs e.1 e.2.1 e.2.2) = true := by decide +kernel

/-- R256 to R271: each instruction of the family, of a word with its opcode and FN, issues in the base state. -/
theorem witness_issues_device : [
    (base, 0xA002F80000000000, (· matches .bclose ..)),
    (base, 0xA102F00400000000, (· matches .bwait ..)),
    (base, 0xA200F00000014000, (· matches .enq ..)),
    (base, 0xA300F00000000000, (· matches .pub ..)),
    (base, 0xA400F00000014000, (· matches .deq ..)),
    (base, 0xA500FA0000000000, (· matches .spawn ..)),
    (base, 0xA600F00000014000, (· matches .take ..)),
    (base, 0xA700F00002214000, (· matches .steal ..)),
    (base, 0xA800FA0000000000, (· matches .launch ..)),
    (base, 0xA902F88400000000, (· matches .mstart ..)),
    (base, 0xAA02F80000000000, (· matches .mstat ..)),
    (base, 0xAB02F80000000000, (· matches .mres ..)),
    (base, 0xAB02F80000000001, (· matches .mresSkip ..))].all (fun e => issuesAs e.1 e.2.1 e.2.2) = true := by decide +kernel

/-- R303 to R306: each instruction of the family, of a word with its opcode and FN, issues in the base state. -/
theorem witness_issues_residency : [
    (base, 0xB002F80402015000, (· matches .ralloc ..)),
    (base, 0xB102F00442000000, (· matches .rload ..)),
    (base, 0xB202FA8400000000, (· matches .rpin ..)),
    (base, 0xB302FABE60000000, (· matches .runpin ..)),
    (base, 0xB402FA8F00000000, (· matches .rrevk ..)),
    (base, 0xB502F88400000000, (· matches .rqry ..)),
    (base, 0xB502F80000000001, (· matches .rqryQ ..))].all (fun e => issuesAs e.1 e.2.1 e.2.2) = true := by decide +kernel

/-- R314: each instruction of the family, of a word with its opcode and FN, issues in the base state. -/
theorem witness_issues_sequenced : [
    (base, 0xD000F08002012000, (· matches .rast ..)),
    (base, 0xD100F08002211000, (· matches .trav ..)),
    (base, 0xD200F04002012000, (· matches .filt ..)),
    (base, 0xD300F00042010000, (· matches .blnd ..)),
    (base, 0xD400F0000A111002, (· matches .dist ..)),
    (base, 0xD500F01002210100, (· matches .topk ..))].all (fun e => issuesAs e.1 e.2.1 e.2.2) = true := by decide +kernel

/-- R370 to R379: each instruction of the family, of a word with its opcode and FN, issues in the base state. -/
theorem witness_issues_system : [
    (base, 0xE000F00000000000, (· matches .movs ..)),
    (base, 0xE102F00420000000, (· matches .mtsrHorizon ..)),
    (base, 0xE102F00401000001, (· matches .mtsrSl ..)),
    (base, 0xE102F00640000002, (· matches .mtsrGate ..)),
    (base, 0xE102F00421000003, (· matches .mtsrStallchk ..)),
    (base, 0xE102F00404000004, (· matches .mtsrStarve ..)),
    (base, 0xE102F00400000005, (· matches .mtsrWqbase ..)),
    (base, 0xE102F0040000000D, (· matches .mtsrPdl ..)),
    (base, 0xE102F00480000020, (· matches .mtsrGlnPeriod ..)),
    (base, 0xE102F00420000021, (· matches .mtsrGlnCtxm ..)),
    (base, 0xE102F00441000022, (· matches .mtsrGlnRing ..)),
    (base, 0xE102F00410000023, (· matches .mtsrGlnStart ..)),
    (base, 0xE102F00411000024, (· matches .mtsrGlnStop ..)),
    (base, 0xE102F00400000025, (· matches .mtsrGlnTstc ..)),
    (base, 0xE102F00420000040, (· matches .mtsrBbcb ..)),
    (base, 0xE102F00400000066, (· matches .mtsrBbcn ..)),
    (handler, 0xE200F00000000000, (· matches .rft ..)),
    (handler, 0xE200F00000000001, (· matches .rftSkip ..)),
    (handler, 0xE300F00000000000, (· matches .xrd ..)),
    (handler, 0xE400F00000000000, (· matches .xwr ..)),
    (base, 0xE502F00000000000, (· matches .tlbiAll ..)),
    (base, 0xE502F00400000001, (· matches .tlbiCtx ..)),
    (base, 0xE502F00422100002, (· matches .tlbiPage ..)),
    (base, 0xE602F00402000000, (· matches .stopatHalt ..)),
    (base, 0xE602F00422000001, (· matches .stopatRun ..)),
    (base, 0xE602F00442080002, (· matches .stopatPre ..)),
    (base, 0xE702F88402000000, (· matches .saveg ..)),
    (base, 0xE802F82406400000, (· matches .restg ..)),
    (base, 0xE902F88602000000, (· matches .mcld ..))].all (fun e => issuesAs e.1 e.2.1 e.2.2) = true := by decide +kernel

/-- R278, R282: each instruction of a matrix stream, performed by a running stream. -/
theorem witness_streams : [
    (0xC000000402000000, (· matches .mma ..)),
    (0xC100000412000000, (· matches .mmag ..)),
    (0xC200000000000000, (· matches .maccZero ..)),
    (0xC200000422200001, (· matches .maccLd ..)),
    (0xC300000402200000, (· matches .mout ..)),
    (0xC400000000000000, (· matches .msig ..)),
    (0xC500000000000000, (· matches .mwait ..)),
    (0xC600000400000000, (· matches .mloopBegin ..)),
    (0xC600000000000001, (· matches .mloopNext ..)),
    (0xC700000000000000, (· matches .mend ..)),
    (0xC800000400000000, (· matches .mtile ..)),
    (0xC800000442080001, (· matches .mtileRing ..))].all (fun e => streamsAs e.1 e.2) = true := by decide +kernel

/-! ## Witnesses of the hypotheses: numbers, words and steps -/

/-- R54, R63, R64: a value that is represented, a rounding below the greatest magnitude and one at it. -/
theorem witness_rounding : allOf [
    fF32.decode false 0x7F7FFFFF != .nan, !(fKF8.decode false 0x77).isNan, !(fBF16.decode false 0).isNan,
    decide (fF32.round .rtz false false false (.fin false 3 (-1) false) % 2 ^ 31 < fF32.maxBits),
    decide (fF16.round .rtz false false false (.fin true 1 40 false) % 2 ^ 15 = fF16.maxBits)] = true := by decide +kernel

/-- R59: a block scale above 0, and the scale 7 at which it is bounded. -/
theorem witness_block_scale : allOf [
    decide (blockScale 0 .rne (.fin false 1000 0 false) = 3), decide (blockScale 0 .rne (.fin false 1 40 false) = 7)] = true := by
  decide +kernel

/-- R68, R70, R71: the ends of the RA40 range, and the manual's container of −100,000 (R200). -/
theorem witness_ra40 : allOf [
    raDecode (raEncode (-274877902848) true).toNat == -274877902848, raDecode (raEncode 274877902847 false).toNat == 274877902847,
    raDecode 0x65B72C1953 == -100000, raEncode (-100000) false == 0x65B72C1953] = true := by decide +kernel

/-- R181, R183, R198 to R201: the forms that a field of the word selects, each of which issues. -/
theorem witness_selected_forms : [
    (base, 0x1300F00000000001, (fun i => i matches .mov .. : Instr → Bool)), (base, 0x4500F00000000001, (· matches .cvtra ..)),
    (base, 0x4500F00000000002, (· matches .cvtra ..)), (base, 0x4600F00000000001, (· matches .cvtar ..)),
    (base, 0x4600F00000000002, (· matches .cvtar ..)), (base, 0x4800F00000000001, (· matches .unpkH ..)),
    (base, 0x4800F00000000003, (· matches .unpkB ..)), (base, 0x4800F00000000005, (· matches .unpkN ..))].all
      (fun e => issuesAs e.1 e.2.1 e.2.2) = true := by decide +kernel

/-- R61, R201: SETFMT under a true and a false guard, with a value that R61 allows and with one that it forbids. -/
theorem witness_setfmt :
    let i (h : Hdr) (v : Nat) : Instr := .setfmt h { d := .v 0, a := .v 0, fn2 := 1, imm := .short (BitVec.ofNat 24 v) }
    allOf [issues base (i hu 5), issues base (i (hn hu) 5), issues base (i hu 6),
      onFrame base (fun f => f.guardU hu 0 && !f.guardU (hn hu) 0)] = true := by decide +kernel

/-- R79 to R91: a term whose words decode to it, and words that decode, of either kind of stream and of both sizes. -/
theorem witness_encoding :
    let i : Instr := .movi64 hg { d := .v 2, a := .v 0, fn2 := 1, imm := .long 0xFFFFFFFFFFFFFFFF }
    i.wf = true ∧ i.reject = none ∧ (decode false 0x1404F01001000000 0xFFFFFFFFFFFFFFFF matches .ok _) = true ∧
      (decode true 0xC700000000000000 0 matches .ok _) = true := by decide +kernel

/-- What makes a fetch at a PC give a word. -/
theorem fetches_of (s : State) (f : Frame) (pc w : DWord) (pa l : Nat) (leaf : DWord)
    (h0 : pc.extractLsb' 55 9 = 0 ∧ pc.extractLsb' 42 13 ≠ 0x1FFF)
    (h1 : (s.translate f.g.core f.g.ctx { write := false, fetch := true } pc).1 = .ok pa leaf)
    (h2 : (s.translate f.g.core f.g.ctx { write := false, fetch := true } pc).2.homeOf pa = .hbm l ∧
      (s.translate f.g.core f.g.ctx { write := false, fetch := true } pc).2.stackReady l = true ∧
      (s.translate f.g.core f.g.ctx { write := false, fetch := true } pc).2.poisoned l 8 = false ∧
      (s.translate f.g.core f.g.ctx { write := false, fetch := true } pc).2.rdOf pa = none ∧
      w = BitVec.ofNat 64 (natOf ((s.translate f.g.core f.g.ctx { write := false, fetch := true } pc).2.homeBytes pa 8))) :
    Fetches s f pc w (s.translate f.g.core f.g.ctx { write := false, fetch := true } pc).2 :=
  ⟨h0.1, h0.2, pa, leaf, l, Prod.ext h1 rfl, h2.1, h2.2.1, h2.2.2.1, fun e he => by simp [h2.2.2.2.1] at he, h2.2.2.2.2⟩

/-- R44, R79, R127: the quarter's turn chooses the tiller at the placed word; its fetch, its decoding to an instruction or to
none, and the words of a long form. -/
theorem witness_step :
    let s (w : Nat) : State := State.reset.withFetchWord 128 w
    let run (w : Nat) : Option (Frame × State) :=
      let s0 := (({ s w with agenda := [] } : State).wakeQuarter 0 0).settleQuarter 0 0
      (s0.pick 0 0).map (fun f => (f, { s0.countAges f with cur := { gid := f.g.gid, sh := f.sh.idx, ti := f.t.idx } }))
    let fetch (p : DWord) (e : Frame × State) : Option (DWord × State) :=
      let r := e.2.translate e.1.g.core e.1.g.ctx { write := false, fetch := true } p
      match r.1 with
      | .ok pa _ => match r.2.homeOf pa with
        | .hbm l => if r.2.stackReady l && !r.2.poisoned l 8 && (r.2.rdOf pa).isNone then
            some (BitVec.ofNat 64 (natOf (r.2.homeBytes pa 8)), r.2) else none
        | _ => none
      | _ => none
    allOf [(s 0).powered, (s 0).agenda == [{ cycles := 0, act := .issue (.quarter 0 0) }], !(s 0).withholds 0 0,
      ((run 0x0140F020140C0000).bind (fetch 0x10000)).any (fun r => !needsSecond r.1 && (decode false r.1 0 matches .ok _)),
      ((run (0x1404F01001000000 + 2 ^ 64)).bind (fetch 0x10000)).any (fun r => needsSecond r.1),
      ((run (0x1404F01001000000 + 2 ^ 64)).bind (fun e => (fetch 0x10000 e).bind (fun r => fetch 0x10008 (e.1, r.2)))).any
        (fun (r : DWord × State) => decide (r.1 = 1) && (decode false 0x1404F01001000000 r.1 matches .ok _)),
      ((run 0x1D00F00000000000).bind (fetch 0x10000)).any (fun r => !needsSecond r.1 && (decode false r.1 0 matches .error _))]
      = true := by decide +kernel

/-! ## Witnesses: steps of streams, checks at issue, frames and results -/

/-- A pending producer of v5 that began in this cycle. -/
def pendingV5 : Prod := { regs := [.v 5 0], old := [], lat := 4, stSum := 1, issued := 0 }

/-- R278: the step of a running stream. -/
theorem witness_stream_step :
    let s := State.reset.withFetchWord 64 0xC700000000000000
    let s1 : State := { s with agenda := [], cur := { gid := 1, sh := 0, ti := 0 } }
    allOf [s.powered, s.agenda == [{ cycles := 0, act := .issue (.stream 1) }], (s.group? 1).any (fun g => s.streamGoes g && !s.withholds (dieOf g.core) s.cycle &&
      ((s1.fetchInstr g.core g.ctx true g.stream.pc).1 matches .instr _))] = true := by decide +kernel

/-- R91, R93: each check before an instruction, alone: the word, the privilege of a steward's and of a handler's
instruction, the operands, and an uncovered reader of v5 under stall checking. -/
theorem witness_checks_at_issue :
    let add : Instr := .iadd hg (fa (.v 4) (.v 5) (.v 6) (.v 0) 0)
    let small : State := base.updSheaf 1 0 (fun x => { x with budget := 5 })
    let checked : State := (tenant.updDie 0 (fun d => { d with stallchk := 1 })).updTiller 1 0 0 (fun t =>
      { t with prods := [pendingV5] })
    allOf [(Instr.iadd hg (fa (.v 4) (.v 5) (.v 6) (.v 0) 4)).reject.isSome, add.reject.isNone, add.wf,
      onFrame tenant (fun f => stewardOnly (Instr.tlbiAll hu (fa (.v 0) (.v 0) (.v 0) (.v 0) 0)).op && f.g.ctx != 63),
      onFrame base (fun f => handlerOnly (Instr.rft hg (fa (.v 0) (.v 0) (.v 0) (.v 0) 0)).op && f.g.kind != .handler),
      onFrame small (fun f => !(add.operandsOk f.sh.budget f.handler)),
      onFrame checked (fun f => add.operandsOk f.sh.budget f.handler && checked.stallChecked f && checked.uncovered f add)]
      = true := by decide +kernel

/-- R92 to R94, R166: an instruction on registers that completes, with sparse registers in canonical form; a fixed latency
and a variable one; a read before and after the latency; an outstanding result of memory and one of another unit. -/
theorem witness_results :
    let add : Instr := .iadd hg (fa (.v 4) (.v 5) (.v 6) (.v 0) 0)
    let div : Instr := .idiv hg (fa (.v 4) (.v 5) (.v 6) (.v 0) 0)
    let w : RegWrite := { key := .v 4 0, val := 7 }
    let s := base.updSheaf 1 0 (fun x => { x with board := [{ mem := true, writes := [w] }, { mem := false, writes := [w] }] })
    allOf [add.onRegisters, issues base add, onFrame base (fun f => f.sh.regsWf), (exec add base matches .next _),
      add.latency == some 4, div.latency.isNone, decide (base.cycle + 3 < base.cycle + 4),
      (s.sheaf? 1 0).any (fun x => (x.board.find? (fun b => b.mem == true)).isSome &&
        (x.board.find? (fun b => b.mem == false)).isSome)] = true := by decide +kernel

/-- R45: a result of the manual's meaning of IADD in a step: 7 + 8 in every lane (R171). -/
theorem test_add_step :
    let s := base.updSheaf 1 0 (fun x => x.write ((List.range 64).map (fun t => { key := .v 5 t, val := 0xFFFFFFFF })))
    (match exec (.iadd { hg with st := 4 } (fa (.v 4) (.v 5) (.int 8) (.v 0) 0)) s with
     | .next t => (t.sheaf? 1 0).map (fun x => (x.read (.v 4 63), (x.tiller? 0).map Tiller.pc))
     | _ => none) = some (7, some 0x10008) := by decide +kernel

/-- R175, R202: the manual's worked IDOT4, with A unsigned and signed. -/
theorem test_idot4 :
    idot4Val 1 0x807F02FF 0x02037F04 100 = 0x7DB ∧ idot4Val 0 0x807F02FF 0x02037F04 100 = 0x1DB := by decide +kernel

/-! ## Witnesses: memory, caches, barriers, waits -/

/-- The memory run of a load, store or atomic of the current tiller, without its guard. -/
def memRun (s : State) (i : Instr) (h : Hdr) : Option (Frame × MemRes × List (Option Nat × Src)) :=
  match s.frame?, memForm i with
  | some f, some m =>
    let acts := if h.u then [none] else (f.active h s.cycle).lanes.map some
    let ls := acts.map (fun l => (l, Rd.src { s := s, f := f, lane := l } m))
    some (f, (s.countGrc f.g.gid).memLanes f.g f.sh m (f.suppressed none) ls, ls)
  | _, _ => none
/-- A memory instruction that issues, and whose accesses neither trap, fault nor wait. -/
def runsClean (s : State) (i : Instr) (h : Hdr) : Bool :=
  issues s i && s.pends.isEmpty && (memRun s i h).any (fun e =>
    e.1.t.todo.isNone && e.2.1.parks.isEmpty && e.2.1.recs.isEmpty && e.2.1.waits.isEmpty &&
      (e.2.2.all (fun l => (memForm i).any (fun m => m.kind != 1 || !aimsEngine e.1.g m l.2))))
/-- A tiller of one lane, so that a run is short. -/
def oneLane (s : State) : State := s.updTiller 1 0 0 (fun t => { t with mask := 8 })
/-- The base state with the code's address in s2:s3 and v2:v3 of lane 3. -/
def ready : State := (oneLane (sc base [(2, 0x10000), (3, 0)])).updSheaf 1 0 (fun x =>
  x.write [{ key := .v 2 3, val := 0x10000 }])
/-- Format of the atomics. -/
def ft (d a b c : Opd) (fn : Nat) : FT :=
  { d := d, a := a, b := b, c := c, fn := BitVec.ofNat 8 fn, nud := 0, sz := 2, ord := 0, spc := 0, off := 0 }

/-- R213, R216, R221, R223: each load, store and atomic performs its accesses at the code's address. -/
theorem witness_memory : allOf [
    runsClean ready (.ld hg (fm (.v 4) (.v 2) 2 0 0)) hg, runsClean ready (.ldu hu (fm (.s 4) (.s 2) 2 0 0)) hu,
    runsClean ready (.ldc hg (fm (.v 4) (.v 2) 2 0 0)) hg, runsClean ready (.st hg (fm (.v 4) (.v 2) 2 0 0)) hg,
    runsClean ready (.stu hu (fm (.s 4) (.s 2) 2 0 0)) hu, runsClean ready (.atom hg (ft (.v 4) (.v 2) (.v 6) (.v 0) 0)) hg,
    runsClean ready (.acas hg (ft (.v 4) (.v 2) (.v 6) (.v 7) 0)) hg, runsClean ready (.red hg (ft (.v 0) (.v 2) (.v 6) (.v 0) 0)) hg,
    runsClean ready (.atomu hu (ft (.s 4) (.s 2) (.s 6) (.v 0) 0)) hu] = true := by decide +kernel

/-- R214, R223: an unsigned byte load, and an atomic add's result, of the code's bytes. -/
theorem test_load_and_atomic :
    ((match exec (.ld hg (fm (.v 4) (.v 2) 0 0 0)) ready with
     | .next t => (t.sheaf? 1 0).map (fun x => x.board.flatMap Board.writes)
     | _ => none) = some [{ key := .v 4 3, val := 0 }]) ∧
    (match exec (.atom hg (ft (.v 4) (.v 2) (.int 5) (.v 0) 0)) ready with
     | .next t => cgetLE t.mem 0x10000 4
     | _ => 0) = 0xF0000000000000 % 2 ^ 32 + 5 := by decide +kernel

/-- R102, R103, R105: an access of the scratch at its last word, one past its end, and one not aligned; a generic address
with bit 55 set. -/
theorem witness_addresses :
    let m : MemForm := { formM 0 (fm (.v 4) (.v 2) 2 0 1) with spc := 1 }
    let g0 : MemForm := formM 0 (fm (.v 4) (.v 2) 2 0 0)
    let ea (m : MemForm) (a : DWord) : DWord := a + m.off
    let s := base.updGroup 1 (fun g => { g with launch := { g.launch with scratch := 1024 } })
    onFrame s (fun f => f.g.launch.pw == 0 && 4 ≤ f.g.sBytes && decide ((ea m (BitVec.ofNat 64 (f.g.sBytes - 4))).toNat % 4 = 0) &&
      decide (f.g.sBytes ≤ (ea m (BitVec.ofNat 64 f.g.sBytes)).toNat) && decide ((ea m 2).toNat % 4 ≠ 0) &&
      (ea g0 0x80000000000000).extractLsb' 55 9 != 0) = true := by decide +kernel

/-- R146, R148, R222: the code's address as the place of a volatile load, a volatile store and a relaxed atomic. -/
theorem witness_home :
    let p (kind : Nat) (f : Frame) : Bool :=
      let r := base.translate f.g.core f.g.ctx { write := kind != 0, fetch := false } 0x10000
      match r.1 with
      | .ok pa leaf => (match r.2.homeOf pa with
        | .hbm l => r.2.stackReady l && !r.2.poisoned l 4 && !leaf.getLsbD 11 && r.2.cmds.isEmpty &&
          ((r.2.core (r.2.l1Of f.g.core (pa / 512))).line? (pa / 512)).isNone && Memory.wf r.2.mem &&
          !r.2.holdsFor (.thread 1 0 none) && (r.2.rdOf pa).isNone &&
          !r.2.l2Full (r.2.accOf { g := f.g, sh := f.sh, lane := none, helper := false } (formM kind (fm (.v 4) (.v 2) 2 4 0)) leaf)
            (pa / 512) && (List.range 4).all (fun k => !r.2.inDescriptor (l + k))
        | _ => false)
      | _ => false
    allOf [onFrame base (p 0), onFrame base (p 1), onFrame base (p 2)] = true := by decide +kernel

/-- R141, R147: an L1 with one line that has been written. -/
theorem witness_caches :
    let x : Line := { tag := { way := 0, line := 130, kind := .dflt, dl := 0, st := .ahead, ctx := 63, counted := false, by_ := [], part := 0 },
                      valid := 15, dirty := 1, data := [(66560, 7)], wrote := [66560] }
    let s := base.updCore 0 (fun c => { c with lines := [x] })
    0 ∈ s.l1Group 0 ∧ ((s.core 0).lines.map (fun x => x.tag.line)).Nodup ∧
      ((s.release 0).core 0).lines.all (fun x => x.wrote.isEmpty) = true ∧ cget (s.release 0).mem 66560 = 7 ∧
      ((s.acquire 0).core 0).lines = [] ∧ s.l2.all (fun y => y.pins == 0) = true ∧ onFrame s (fun f => f.t.todo.isNone) = true := by
  decide +kernel

/-- R227, R229: arrivals that complete, at exactly EXP, and that do not; both sides of n = 65,535; PBARW on both phases and
under a false guard. -/
theorem witness_barrier_words :
    let w := pbInit 0 65535
    allOf [decide (pbExp w ≤ pbArr w + 65535), decide (pbArr w + 65534 < pbExp w),
      issues (sc base [(1, 65535)]) (.pbari hu (fa (.v 0) (.int 31) (.s 1) (.v 0) 0)),
      issues (sc base [(1, 65536)]) (.pbara hu (fa (.s 2) (.int 31) (.s 1) (.v 0) 0)),
      issues base (.pbarw hu (fa (.v 0) (.int 0) (.int 0) (.v 0) 0)), issues base (.pbarw hu (fa (.v 0) (.int 0) (.int 1) (.v 0) 0)),
      issues base (.pbarw (hn hu) (fa (.v 0) (.int 0) (.int 0) (.v 0) 0)), onFrame base (fun f => !pbPh (f.g.pbar 0))] = true := by
  decide +kernel

/-- R228: a tiller in PBARW at the barrier that changes and one at another; a WAITV with a condition on it. -/
theorem witness_barrier_changes :
    let c : Cond := { ctl := 2, w1 := 3, w2 := 0, w3 := 0 }
    let v : WaitSt := { h := hu, x := fa (.s 16) (.s 20) (.s 14) (.v 0) 0, conds := [c], latched := 0, dlv := 0, noLimit := false,
                        sw := false, tag := none, ons := [] }
    let t (st : TSt) : Option Tiller := (base.frameOf 1 0 0).map (fun f => { f.t with st := st })
    let sees (st : TSt) (b : Nat) : Option TSt := (t st).map (fun t => (Tiller.sees 0 b true t).st)
    allOf [onGroup base (fun g => cellsWf g.pbars), sees (.eventWait (.pbarw 3 false)) 3 == some .ready,
      sees (.eventWait (.pbarw 3 false)) 4 == some (.eventWait (.pbarw 3 false)), v.conds[0]? == some c,
      sees (.eventWait (.waitv v)) 3 == some (.eventWait (.waitv { v with latched := 1 }))] = true := by decide +kernel

/-- R230 to R233: WAITV with one STC condition, with a reserved control value, and under a false guard. -/
theorem witness_waitv :
    let x : FA := fa (.s 16) (.s 20) (.s 14) (.v 0) 0
    let conds (s : State) (p : Cond → Bool) : Bool := onFrame s (fun f => (waitConds { s := s, f := f, lane := none } x).all p)
    let s := sc base [(20, 3), (21, 100)]
    let bad := sc base [(20, 4)]
    allOf [issues s (.waitv hu x), onFrame s (fun f => f.guardU hu 0 && !f.guardU (hn hu) 0), issues s (.waitv (hn hu) x),
      conds s (fun c => !c.reserved && 1 ≤ c.kind), issues bad (.waitv hu x), conds bad Cond.reserved] = true := by decide +kernel

/-- R232, R233, R234: a waiting tiller whose deadline has come, one whose deadline has not, and one in a group that is being
restored. -/
theorem witness_waiting :
    let x : FA := fa (.s 16) (.s 20) (.s 14) (.v 0) 0
    let c : Cond := { ctl := 3, w1 := 100, w2 := 0, w3 := 0 }
    let w (dl : Nat) : WaitSt := { h := hu, x := x, conds := [c], latched := 0, dlv := dl, noLimit := false, sw := false, tag := none, ons := [] }
    let s (dl : Nat) : State := base.updTiller 1 0 0 (fun t => { t with st := .eventWait (.waitv (w dl)) })
    let back := (s 0).updGroup 1 (fun g => { g with st := .reclaim })
    let f (s : State) (p : Frame → Bool) : Bool := (s.frameOf 1 0 0).any p
    allOf [f (s 0) (fun f => f.t.st == .eventWait (.waitv (w 0)) && f.g.st != .reclaim && decide ((w 0).dlv ≤ (s 0).stc) &&
        ((s 0).evalConds f (w 0)).1.isNone), f (s 50) (fun f => decide ((s 50).stc < (w 50).dlv) && f.g.st == .resident),
      f back (fun f => f.g.st == .reclaim), decide (¬ ({ w 0 with latched := 1 } : WaitSt).released = false),
      decide ((w 0).dlv < ({ (s 0) with cycle := 17 } : State).stc), decide (base.stc < 2 ^ 64)] = true := by decide +kernel

/-- R45, R235: a YIELD and a stall count that end in this cycle. -/
theorem witness_blocked :
    let s (st : TSt) : State := base.updTiller 1 0 0 (fun t => { t with st := st })
    ((s (.blocked (.yield 0))).frameOf 1 0 0).map (fun f => f.t.st) = some (.blocked (.yield 0)) ∧
    ((s (.blocked (.stall 0))).frameOf 1 0 0).map (fun f => f.t.st) = some (.blocked (.stall 0)) ∧ 0 ≤ base.cycle := by
  decide +kernel

/-! ## Witnesses: control flow, traps and returns -/

/-- Predicate p0 is true in lane 3 alone. -/
def lane3 : State := base.updSheaf 1 0 (fun x => x.write [{ key := .p 0 3, val := 1 }])
/-- Format B. -/
def fb (fn4 tok off : Nat) : FB := { fn4 := BitVec.ofNat 4 fn4, tok := BitVec.ofNat 8 tok, off := BitVec.ofNat 32 off }

/-- R34, R35, R48, R241: BRA and CALL, uniform and not; all lanes taken, none, and one of them; and a full stack. -/
theorem witness_branches :
    let h0 : Hdr := { hg with gp := 0 }
    let full := lane3.updTiller 1 0 0 (fun t => { t with stack := (List.range 64).map (BitVec.ofNat 8) })
    let sides (s : State) (h : Hdr) (p : Mask → Mask → Bool) : Bool := onFrame s (fun f =>
      p (f.active h s.cycle) (f.t.mask &&& ~~~(f.active h s.cycle)))
    allOf [issues base (.bra hu (fb 0 0 2)), issues base (.call hu (fb 0 0 2)), issues base (.bra hg (fb 0 0 2)),
      sides base hg (fun _ r => r == 0), issues base (.bra h0 (fb 0 5 2)), sides base h0 (fun a r => a == 0 && r != 0),
      issues lane3 (.bra h0 (fb 0 5 2)), issues lane3 (.call h0 (fb 3 5 2)), sides lane3 h0 (fun a r => a == 8 && r != 0),
      onFrame lane3 (fun f => decide ((pushTok f.t.stack 5).length ≤ 64)), issues full (.bra h0 (fb 0 200 2)),
      onFrame full (fun f => decide (64 < (pushTok f.t.stack 200).length))] = true := by decide +kernel

/-- R242, R243: one target that may be branched to, one that is not aligned, and one with bit 55 set. -/
theorem witness_indirect :
    let s (lo hi : Nat) : State := sc base [(2, lo), (3, hi)]
    let i : Instr := .brx hu (fa (.v 0) (.s 2) (.v 0) (.v 0) 0)
    let goes (s : State) (v : DWord) : Bool := issues s i && onFrame s (fun f => f.t.mask != 0 &&
      !(readers f hu s).isEmpty && (readers f hu s).all (fun r => r.w64 (.s 2) == v))
    allOf [goes (s 0x10008 0x7FFFFF) 0x7FFFFF00010008, goes (s 0x10004 0) 0x10004, goes (s 0 0x800000) 0x80000000000000,
      issues (s 0x10008 0) (.ret hg (fa (.v 0) (.s 2) (.v 0) (.v 0) 0)),
      onFrame base (fun f => f.active hg 0 == f.t.mask)] = true := by decide +kernel

/-- R34, R35: a split of lane 3 from the others in a sheaf of one tiller, and of one with a record of the token. -/
theorem witness_split :
    let rec_ : JoinRec := { tok := 5, exp := Mask.full, arr := 0, dl := none, first := 0, last := 0 }
    let ok (s : State) : Bool := onFrame s (fun f => ((8 : Mask) ||| ~~~8) == f.t.mask && ((8 : Mask) &&& ~~~8) == 0 &&
      decide ((pushTok f.t.stack 5).length ≤ 64) && decide (f.sh.tillers.length < 64) &&
      decide ((f.sh.tillers.map Tiller.idx).Nodup) && f.sh.tillers.all (fun t => decide (t.idx < 64)))
    allOf [ok base, ok (base.updSheaf 1 0 (fun x => { x with joins := [rec_] }))] = true := by decide +kernel

/-- R36, R37, R38: a token without a record and with one; a JOINT whose deadline has come; a record whose expected lanes have
arrived, with a tiller that waits at it. -/
theorem witness_joins :
    let rec_ (dl : Option Nat) (arr : Mask) : JoinRec := { tok := 5, exp := Mask.full, arr := arr, dl := dl, first := 0, last := 8 }
    let s (dl : Option Nat) (arr : Mask) (st : TSt) : State := (base.updSheaf 1 0 (fun x => { x with joins := [rec_ dl arr] })).updTiller
      1 0 0 (fun t => { t with st := st, stack := [5] })
    let sh (s : State) (p : Sheaf → Bool) : Bool := (s.sheaf? 1 0).any p
    allOf [issues base (.join hg (fb 0 5 0)), issues base (.joint hg (fb 1 5 100)),
      sh base (fun x => (x.join? 5).isNone), sh (s none 0 .ready) (fun x => (x.join? 5).isSome), issues (s none 0 .ready) (.join hg (fb 0 5 0)),
      sh (s (some 0) 8 (.joinWait 5 (some 1))) (fun x => (x.joinTimeout 5 0).isSome),
      sh (s none Mask.full (.joinWait 5 none)) (fun x => (x.join? 5).any (fun r => r.exp &&& ~~~r.arr &&& ~~~x.exited == 0 && !x.away r) &&
        x.tillers.any (fun t => t.waitsAt 5))] = true := by decide +kernel

/-- R248: BAR, BARA and BARW of a tiller that has arrived and of one that has not; a barrier in which every thread has
arrived or exited. -/
theorem witness_barriers :
    let x : FA := fa (.v 0) (.int 0) (.v 0) (.v 0) 0
    let met := base.updGroup 1 (fun g => g.setBar { num := 0, gen := 0, arrived := [(0, 8)] })
    let all := base.updGroup 1 (fun g => g.setBar { num := 0, gen := 0, arrived := [(0, Mask.full)] })
    let here (s : State) : Bool := onFrame s (fun f => (f.g.bar 0).of f.sh.idx &&& f.t.mask != 0)
    allOf [issues base (.bar hg x), issues base (.bara hg x), issues base (.barw hg x), !here base, issues met (.bar hg x), here met,
      issues met (.barw hg x), onGroup all (fun g => !(g.bar 0).arrived.isEmpty && g.sheaves.all (fun y =>
        (g.bar 0).of y.idx ||| y.exited == Mask.full))] = true := by decide +kernel

/-- R31, R38, R245: EXIT in lane 3, EXIT.H in one lane of a quad and in the last lane of a quad whose others are helpers, in a
sheaf that has not ended and has no record. -/
theorem witness_exits :
    let x (n : Nat) : FA := fa (.v 0) (.v 0) (.v 0) (.v 0) (BitVec.ofNat 8 n)
    let h0 : Hdr := { hg with gp := 0 }
    let user := tenant.updSheaf 1 0 (fun y => y.write [{ key := .p 0 3, val := 1 }])
    let last := user.updSheaf 1 0 (fun y => { y with helpers := 7 })
    let ok (s : State) (i : Instr) : Bool := issues s i && onFrame s (fun f => f.g.kind != .handler && !f.sh.ended &&
      decide ((f.sh.joins.map JoinRec.tok).Nodup) && f.active h0 s.cycle == 8)
    allOf [ok user (.exit h0 (x 0)), ok user (.exitH h0 (x 1)), ok last (.exitH h0 (x 1)),
      onFrame user (fun f => f.sh.newHelpers 8 == 8), onFrame last (fun f => f.sh.newHelpers 8 == 0)] = true := by decide +kernel

/-- R31: of the four lanes of a quad that execute EXIT.H together three become helpers, and the quad ends with the last. -/
theorem test_exit_h_quad :
    (match exec (.exitH hg (fa (.v 0) (.v 0) (.v 0) (.v 0) 1)) (tenant.updTiller 1 0 0 (fun t => { t with mask := 15 })) with
     | .next t => (t.sheaf? 1 0).map (fun y => (y.helpers, y.exited))
     | _ => none) = some (7, 15) := by decide +kernel

/-- R249, R250: TRAP and BKPT with a payload, under a true and under a false guard; BBC of a context that counts. -/
theorem witness_traps :
    let n (v : Nat) : FI := { d := .v 0, a := .v 0, fn2 := 0, imm := .short (BitVec.ofNat 24 v) }
    let counts := tenant.updDie 0 (fun d => { d with bbcb := [(0, 8)], bbcn := [(0, 0x26)] })
    allOf [issues base (.trap hg (n 0xFFFFFF)), issues base (.bkpt hg (n 0)), issues base (.trap (hn hg) (n 1)),
      issues counts (.bbc hu (n 0x25)), onFrame counts (fun f => f.g.ctx != 63 && cget (counts.die 0).bbcb f.g.ctx != 0 &&
        decide (0x25 < (cget (counts.die 0).bbcn f.g.ctx).toNat))] = true := by decide +kernel

/-- R43, R364, R368: a tiller of a user's sheaf whose core has a closed batch, and one of a handler's. -/
theorem witness_trap_entry :
    let s := tenant.updCore 0 (fun c => { c with batches := [{ ctx := 0, entries := [], opened := 0, closed := some 0 }] })
    allOf [onFrame s (fun f => f.g.kind != .handler && f.t.mask != 0 && (s.core f.g.core).batches.all (fun b =>
        b.ctx != f.g.ctx || b.closed.isSome)), onFrame handler (fun f => f.g.kind == .handler)] = true := by decide +kernel

/-- An entry of a handler batch for lane 3 of the sheaf. -/
def entry3 : Entry :=
  { gid := 1, sh := 0, lane := 3, empty := false, origin := 0, cause := 0x0B, pc := 0x10000, resume := 0x10000, skipTo := 0x10008,
    resumed := false, cycle := 0 }
/-- A lane parked at the code, alone in its tiller. -/
def parked3 : State :=
  let p : Parked := { lane := 3, ti := 0, cause := 0x0B, payload := 0, pc := 0x10000, resume := 0x10000, skipTo := 0x10008,
                      fmt := 0, stack := [], log := none, back := .none, since := 0 }
  (base.updSheaf 1 0 (fun x => { x with parked := [p] })).updTiller 1 0 0 (fun t => { t with mask := 0, st := .parked })

/-- R369, R373: RFT in a handler; a parked lane that resumes at its instruction, and one that skips it. -/
theorem witness_returns :
    let s (pc : DWord) : State := parked3.updTiller 1 0 0 (fun t => { t with pc := pc })
    let ok (s : State) (skip : Bool) : Bool := (s.sheaf? 1 0).any (fun x => (x.parked? 3).any (fun p => p.log.isNone && p.back == .none &&
      (x.tiller? p.ti).any (fun u => u.mask == 0 && u.st == .parked && u.todo.isNone && u.queued.isNone && u.fmt == p.fmt && u.stack == p.stack &&
        u.pc == (if skip && p.resume == p.pc then p.skipTo else p.resume))) && decide ((x.tillers.map Tiller.idx).Nodup))
    allOf [issues handler (.rft hg (fa (.v 0) (.v 0) (.v 0) (.v 0) 0)), issues handler (.rftSkip hg (fa (.v 0) (.v 0) (.v 0) (.v 0) 1)),
      ok (s 0x10000) false, ok (s 0x10008) true] = true := by decide +kernel

/-- R374: XRD and XWR of an entry's lane: a register within the budget and one beyond it. -/
theorem witness_origin_access :
    let s := (handler.updGroup 1 (fun g => { g with entries := [entry3] })).updTiller 1 0 0 (fun t => { t with mask := 1 })
    let small := s.updSheaf 1 0 (fun x => { x with budget := 8 })
    let x (r : Fin 256) : FA := fa (.v 1) (.v r) (.v 0) (.v 0) 0
    let w (r : Fin 256) : FA := fa (.v 0) (.v r) (.v 1) (.v 0) 0
    let all (s : State) (p : Rd → Bool) : Bool := onFrame s (fun f => (readers f hg s).all p)
    let runs (s : State) (r : Fin 256) : Bool := onFrame s (fun f => (readers f hg s).all (fun q => (f.g.entries[q.thr]?).any (fun e =>
      (s.xread e (.v r) false).isSome && (s.xwrite f.g.gid q.thr e (.v r) false 5).isSome)))
    allOf [issues s (.xrd hg (x 7)), issues s (.xwr hg (w 7)), runs s 7, runs small 7, !runs small 8, all s (fun q => decide (q.thr < 1)),
      (s.sheaf? 1 0).isSome] = true := by decide +kernel

/-! ## Witnesses: engines, queues, tasks, launches, residencies -/

/-- A command that is under way, of the sheaf or of a COPY packet. -/
def cmdOf (id eng : Nat) : Cmd :=
  { id := id, owner := some (1, 0), core := 0, ctx := 63, eng := eng, a := 0x10000, b := 0x10800, c := 64, d := 0, batch := none,
    moved := false, met := false, tag := none, failed := false, ended := false, startedAt := 0, queue := none, posted := false,
    data := none, cid := 0 }
/-- The base state at a cycle of 2,000,000,000, so that every limit has passed. -/
def late (s : State) : State := { s with cycle := 2000000000 }

/-- R251 to R253: stores to EQGO with a command that is allowed, with one that is not, and under a false guard. -/
theorem witness_eqgo :
    let i : Instr := .stu hu { fm (.s 4) (.s 1) 2 0 0 with spc := 3 }
    let ok (s : State) (v : Nat) (valid : Bool) : Bool := issues s i && s.pends.isEmpty && onFrame s (fun f =>
      let x := ({ s := s, f := f, lane := none } : Rd).src ((memForm i).getD (formM 1 (fm (.v 0) (.v 0) 0 0 0)))
      (memForm i).any (fun m => f.t.todo.isNone && aimsEngine f.g m x && (x.places f.g m matches .ok _) && goValue f.g m x == some v) &&
        s.cmdValid v f.sh.eqa f.sh.eqb f.sh.eqc f.sh.eqd == valid && decide (s.liveCmds f.g.gid f.sh.idx < 64) &&
        s.holdsFor (.thread f.g.gid f.sh.idx none) == false)
    allOf [ok (sc base [(1, 32)]) 0 true, ok (sc base [(1, 32), (4, 1)]) 1 false] = true := by decide +kernel

/-- R253, R254, R408: staging words that each of the four engines accepts. -/
theorem witness_accepts :
    let bytes : List Byte := [0, 0, 0, 0, 0, 0, 0, 0, 0, 12, 1] ++ List.replicate 21 0
    let s : State := { base with drives := [{ Drive.init 0 with bytes := bytes }] }
    allOf [s.cmdValid 0 0 0 0 0, s.cmdValid 1 0x10000 0x11000 0x12000 0x00010001, s.cmdValid 2 0 0 0x300000001 0,
      s.cmdValid 3 0x10000 0 511 0, !s.cmdValid 3 0x10000 0 512 0, decide (s.liveCmds 1 0 < 64)] = true := by decide +kernel

/-- R157, R255: a copy of 64 bytes of the code that can be read and written, with and without a write of it that is held. -/
theorem witness_copy :
    let ok (rds : List RdPage) : Bool :=
    let s : State := { base with cmds := [cmdOf 9 0], rds := rds }
    let c := cmdOf 9 0
    let r1 := s.own c
    let r2 := r1.2.cmdData c
    (match r1.1, r2.1 with
     | .ok _, .ok bs => (match r2.2.engWrite (r2.2.cmdUse c c.dstNud) c.dst bs with
       | (.ok _, t) => !s.cutHolds c.ctx && decide (bs.length = 64) &&
         ((t.updCmd 9 (fun k => { k with moved := true })).cmds.find? (fun k => k.id == 9)).any (fun k => !k.failed) &&
         t.holdsOf (.cmd 9) == !rds.isEmpty
       | _ => false)
     | _, _ => false)
    let held : RdPage := { RdPage.none_ 77 0 with held := [{ dev := 0, pa := 0, bytes := [], who := .cmd 9 }] }
    (ok [] && ok [held]) = true := by decide +kernel

/-- R256 to R258: BCLOSE and BWAIT of batches that run, that have failed, that are none, and under a false guard. -/
theorem witness_batches :
    let b (n : Nat) (st : BatchSt) : Batch := { num := BitVec.ofNat 16 n, st := st }
    let s (l : List Batch) : State := base.updSheaf 1 0 (fun x => { x with batches := l })
    let w (h : Hdr) : Instr := .bwait h (fa (.v 0) (.int 3) (.v 0) (.v 0) 0)
    allOf [issues base (.bclose hu (fa (.s 1) (.v 0) (.v 0) (.v 0) 0)), issues (s []) (w hu), issues (s []) (w (hn hu)),
      issues (s [b 3 .running]) (w hu), covers 3 3, issues (s [b 2 .failed, b 3 .failed]) (w hu), covers 3 2, !covers 3 4] = true := by
  decide +kernel

/-- R261 to R264: a queue with room for exactly one slot, one that is full, one that is empty and one that is not. -/
theorem witness_queues :
    let q (rsv pubp head : Nat) : WorkQ :=
      { q := 5, ring := 0x10000, logcap := 4, ctx := 63, rsv := BitVec.ofNat 32 rsv, pubp := BitVec.ofNat 32 pubp,
        head := BitVec.ofNat 32 head, thresh := 10, stuckSeq := 0, stuck := false, early := [], resAt := [(BitVec.ofNat 32 pubp, 0)],
        notified := none, tag := none, reader := none }
    let s (w : WorkQ) : State := sc (base.updDie 0 (fun d => { d with wqbase := 0x40000, wqs := [w] })) [(1, 5), (2, 1)]
    let x (fn : Nat) : FA := fa (.s 6) (.s 1) (.s 2) (.q 0) (BitVec.ofNat 8 fn)
    let f (w : WorkQ) (p : Frame → State → Bool) : Bool := onFrame (s w) (fun f => p f (s w))
    let has (w : WorkQ) : Bool := f w (fun f s => (s.wqOf f.g.ctx 5) == some (0, w))
    allOf [has (q 15 3 0), decide (((q 15 3 0).rsv - (q 15 3 0).head).toNat + 1 ≤ 2 ^ 4),
      has (q 16 3 0), decide (2 ^ 4 < ((q 16 3 0).rsv - (q 16 3 0).head).toNat + 1), (s (q 2 1 0)).wqOf 63 6 == none,
      decide (((1 : Word) - (q 2 1 0).pubp).toNat < ((q 2 1 0).rsv - (q 2 1 0).pubp).toNat), (q 2 1 0).head != (q 2 1 0).pubp,
      (q 1 1 1).head == (q 1 1 1).pubp, issues (s (q 2 1 0)) (.enq hu (x 0)), issues (s (q 2 1 0)) (.deq hu (fa (.s 6) (.s 1) (.v 0) (.q 0) 1)),
      issues (s (q 2 1 0)) (.pub hu (fa (.v 0) (.s 1) (.s 2) (.v 0) 0)),
      f (q 2 1 0) (fun f s => (f.perform (deqAct (fa (.s 6) (.s 1) (.v 0) (.q 0) 1) f) (actLanes f hu s) s).isSome),
      (late (s (q 2 1 0))).stc != 0, (q 2 1 0).isStuck (late base).stc, !(q 2 1 0).isStuck 9] = true := by decide +kernel

/-- R263 to R265: a deque with a task and one of 64, a waiting thief, a victim slot outside the panicle and a request past its
deadline. -/
theorem witness_tasks :
    let req : StealReq := { gid := 1, sh := 0, ti := 0, lane := 0, uni := true, dst := .s 2, pred := .q 0, dl := 5 }
    let s (d : Nat) (m : List StealReq) : State := base.updGroup 1 (fun g => { g with deque := List.replicate d 7, mailbox := m })
    let g (s : State) (p : Group → Bool) : Bool := (s.group? 1).any p
    let both (n p : Nat) : List Group :=
      base.groups.map (fun g => { g with gid := n, pslot := p, launch := { g.launch with pw := 2, ph := 1 } })
    let two : State := { base with groups := both 1 0 ++ both 2 1 }
    allOf [g (s 1 []) (fun g => g.deque == [7] && g.mailbox.isEmpty), g (s 64 []) (fun g => decide (64 ≤ g.deque.length)),
      g (s 0 [req]) (fun g => g.mailbox == [req] && g.deque.isEmpty), onFrame base (fun f => f.g.slots == 1),
      onFrame two (fun f => f.g.slots == 2 && two.panGroup f.g 1 == 2 && f.g.pslot == 0 &&
        (two.group? 2).any (fun v => v.pslot == 1 && v.st != .done && v.deque.isEmpty && decide (v.mailbox.length < 8))),
      decide (req.dl ≤ (late (s 0 [req])).stc), decide ((s 0 [req]).stc < req.dl),
      (s 0 [req]).groups.flatMap (fun g => g.mailbox.map (fun q => (g.gid, q))) == [(1, req)]] = true := by decide +kernel

/-- A launch record of 64 bytes for code at 0x10100, and the header word before it. -/
def launching (flags : Nat) : State :=
  let rec_ : Nat := 0x10100 + 1 * 2 ^ 128 + 1 * 2 ^ 160 + 1 * 2 ^ 176 + 1 * 2 ^ 192 + flags * 2 ^ 216 + 4 * 2 ^ 256 + 1 * 2 ^ 272
  { sc base [(2, 0x10040)] with mem := csetLE (csetLE base.mem 0x10040 64 rec_) 0x100F8 8 1 }

/-- R267 to R269: a launch that its record and its header allow, and one whose record breaks R267. -/
theorem witness_launch :
    let i : Instr := .launch hu (fa (.q 1) (.s 2) (.v 0) (.v 0) 0)
    let reads (s : State) (p : LRes → Bool) : Bool := onFrame s (fun f => p (s.readLaunch f none 0x10040).1)
    let r (b : List Byte) : LaunchRec := LaunchRec.ofBytes b
    allOf [issues (launching 0) i, reads (launching 0) (fun r => r matches .got _), reads (launching 16) (fun r => r == .malformed),
      (r (cgets (launching 0).mem 0x10040 64)).ok, !(r (cgets (launching 16).mem 0x10040 64)).ok,
      onFrame (launching 0) (fun f => (f.perform (launchAct (fa (.q 1) (.s 2) (.v 0) (.v 0) 0) f) (actLanes f hu (launching 0))
        (launching 0)).isSome)] = true := by decide +kernel

/-- R270, R271, R277: MSTART of an idle stream at a good header, at a bad one, at an address that is not aligned and one with
bit 55 set, and of a stream that is RUNNING; a core with four streams; MRES of a HALTED stream. -/
theorem witness_streams_start :
    let i : Instr := .mstart hu (fa (.s 4) (.s 2) (.v 0) (.v 0) 0)
    let s (lo hi hd : Nat) : State := { sc base [(2, lo), (3, hi)] with mem := csetLE base.mem 0x10078 8 hd }
    let st (t : StreamSt) : State := base.updGroup 1 (fun g => { g with stream := { g.stream with st := t } })
    let head (s : State) (n : Nat) : Bool := onFrame s (fun f => (s.readFor f none 3 (0x10080 - 8)).1 == .done [n])
    let four : State := { s 0x10080 0 1 with groups := (s 0x10080 0 1).groups ++ (List.range 4).flatMap (fun k => (st .running).groups.map
      (fun g => { g with gid := k + 2 })) }
    allOf [issues (s 0x10080 0 1) i, head (s 0x10080 0 1) 1, head (s 0x10080 0 2) 2, (s 0x10080 0 1).streamsOn 0 == 0,
      four.streamsOn 0 == 4, issues four i, head four 1, onFrame base (fun f => f.g.stream.st == .idle && f.guardU hu 0),
      onFrame (st .running) (fun f => f.g.stream.st == .running), issues (st .halted) (.mres hu (fa (.s 4) (.v 0) (.v 0) (.v 0) 0)),
      issues (st .halted) (.mresSkip hu (fa (.s 4) (.v 0) (.v 0) (.v 0) 1)), decide ((0x10004 : DWord).toNat % 8 ≠ 0),
      decide ((0x80000000000000 : DWord).extractLsb' 55 9 ≠ 0)] = true := by decide +kernel

/-- A residency of slots 2 and 3 in context 0. -/
def res2 (st : ResSt) : Res :=
  { first := 2, cnt := 2, ctx := 0, gen := 7, st := st, pin := false, auto := false, src := none, marked := false, lines := [] }
/-- The tenant's core with that residency. -/
def resident (st : ResSt) : State := tenant.updCore 0 (fun c => { c with ress := [res2 st] })

/-- R303, R304: RALLOC with a bad count and a bad position, at a quota that is exceeded, without an eligible run, and of a
run that is free; at the quota itself. -/
theorem witness_ralloc :
    let i : Instr := .ralloc hu (fa (.s 4) (.s 1) (.s 2) (.q 0) 0)
    let s (n pos : Nat) : State := sc (resident .ready) [(1, n), (2, pos)]
    let q (n : Nat) (b : Bool) : Bool := onFrame (s n 99) (fun f => f.guardU hu 0 && !f.suppressed none &&
      decide ((s n 99).quota 0 0 < ((s n 99).core 0).heldBy 0 + n) == b)
    allOf [issues (s 0 0) i, issues (s 33 99) i, issues (s 2 31) i, q 6 false, q 7 true, ((s 2 2).bestRun 0 0 2 2).isNone,
      ((s 6 99).bestRun 0 0 99 6).any (fun e => e.1 == 4 && e.2.isEmpty), ((s 1 0).bestRun 0 0 0 1).any (fun e => e.1 == 0)] = true := by
  decide +kernel

/-- R300, R303, R305, R306: a handle of the context, one of another, and one that names nothing; RLOAD of an address that is
aligned and of one that is not. -/
theorem witness_handles :
    let s (hd : Nat) (va : Nat) : State := sc (resident .stale) [(1, hd), (2, va), (3, 0)]
    let h := (res2 .stale).handle.toNat
    let x (d b : Opd) : FA := fa d (.s 1) b (.v 0) 0
    allOf [issues (s h 0x10000) (.rload hu (x (.v 0) (.s 2))), issues (s h 0) (.rpin hu (x (.q 0) (.v 0))),
      issues (s h 0) (.runpin hu (x (.q 0) (.v 0))), issues (s h 0) (.rrevk hu (x (.q 0) (.v 0))), issues (s h 0) (.rqry hu (x (.s 4) (.v 0))),
      decide (hndCtx (res2 .stale).handle = 0), decide (hndCtx ((res2 .stale).handle + 0x10000) ≠ 0),
      (((s h 0).core 0).res? (res2 .stale).handle).isSome, (((s h 0).core 0).res? ((res2 .stale).handle + 1)).isNone,
      engVa 0x10000, decide ((s h 0x10000).liveCmds 1 0 < 64), issues (s h 0) (.rqryQ hu (fa (.s 4) (.v 0) (.v 0) (.v 0) 1)),
      onFrame (s h 0) (fun f => f.g.ctx == 0 && f.guardU hu 0 && !f.suppressed none)] = true := by decide +kernel

/-! ## Witnesses: the matrix unit, the sequencer, system registers, cuts, saves -/

/-- R302, R402: RQSET of one core, of every core of a die and of all; a quota of 33 and a core of 72. -/
theorem witness_rqset :
    let n (v : Nat) : Nat × Nat := (v % 64, v / 256 % 128)
    allOf [decide ((n (32 + 71 * 256)).1 ≤ 32 ∧ (n (32 + 71 * 256)).2 < 72), decide ((n (8 + 127 * 256)).2 = 127),
      (8 + 2 ^ 18 : BitVec 32).getLsbD 18, decide (32 < (n 33).1), decide (72 ≤ (n (8 + 72 * 256)).2 ∧ (n (8 + 72 * 256)).2 ≠ 127)]
      = true := by decide

/-- R301, R305: a load of slots 2 and 3 that is registered and whose source can be read. -/
theorem witness_residency_load :
    let l : Load := { id := 4, gid := 1, sh := 0, handle := (res2 .loading).handle, va := 0x10000, cmd := none, reg := true,
                      tag := none, failed := none }
    let s : State := base.updCore 0 (fun c => { c with ress := [{ res2 .loading with ctx := 63 }], loads :=
      [{ l with handle := ({ res2 .loading with ctx := 63 } : Res).handle }] })
    allOf [(s.core 0).loads.any (fun k => k.id == 4 && k.reg && k.tag.isNone && k.failed.isNone && ((s.core 0).res? k.handle).isSome),
      !s.cutHolds 63, !s.slotBusy 0 2, !s.slotBusy 0 3, ((s.unitRead (s.loadUse 0 63 l) false 0x10000 64).1 matches .ok _),
      cellsWf (s.core 0).rstore] = true := by decide +kernel

/-- The running stream with a tile bound to acc0, a scratch of 4096 bytes and a residency of slot 3. -/
def matrix (st : ResSt) (sc : List (Nat × Nat)) : State :=
  let s := running.updGroup 1 (fun g => { g with launch := { g.launch with scratch := 8192 }, stream := { g.stream with
    bind := [(0, 1)], scalars := sc.foldl (fun c e => cset c e.1 (BitVec.ofNat 32 e.2)) [] } })
  s.updCore 0 (fun c => { c with tiles := c.tiles.modify 1 (fun t => { t with owner := some 1 }), ress :=
    [{ res2 st with first := 3, cnt := 1, ctx := 63 }] })
/-- Scalars that MMA of a ring of 8 rows at 0, MACC.LD and MOUT at 0 with a stride of 1024 accept. -/
def mmaScalars : List (Nat × Nat) := [(4, 7 * 2 ^ 18), (15, 1024)]

/-- R284 to R291, R298: MMA on a slot that is READY, STALE, LOADING or absent; one whose check fails; MMAG; MACC and MOUT of a
tile that is bound, of one that is not, and with a check that fails. -/
theorem witness_matrix :
    let i : FX := fx 0 3 (.s 4) (.s 10) 0 0
    let s (st : ResSt) : State := matrix st mmaScalars
    let g (s : State) (p : Group → Bool) : Bool := onGroup s p
    let row : FX := fx 0 0 (.s 8) (.s 14) 0 0
    allOf [streams (s .ready) (.mma i), g (s .ready) (fun g => (g.mmaCheck false i).isNone && g.stream.faultTag.isNone && g.stream.checked.isNone &&
        !(s .ready).mmaBefore g.core (s .ready).nextId && decide (1 < ((s .ready).core 0).tiles.length) &&
        g.stream.flight.isEmpty && g.stream.phys (fxTile i) == some 1 && (((s .ready).aRows g false i).1 matches .ok _)),
      ((s .ready).core 0).resAt (fxNum i) == some { res2 .ready with first := 3, cnt := 1, ctx := 63 },
      (((s .stale).core 0).resAt (fxNum i)).any (fun r => r.st == .stale && !r.auto),
      (((s .loading).core 0).resAt (fxNum i)).any (fun r => r.st == .loading), (((s .ready).core 0).resAt 4).isNone,
      g (matrix .ready [(10, 128)]) (fun g => (g.mmaCheck false i).isSome), streams (s .ready) (.mmag (fx 0 3 (.s 4) (.s 6) 0 0)),
      g (s .ready) (fun g => (g.rowsCheck row).isNone && g.stream.phys 0 == some 1 && !g.stream.usesTile 0 true),
      g (matrix .ready []) (fun g => (g.rowsCheck row).isSome), g (s .ready) (fun g => (g.stream.phys 1).isNone),
      ((s .ready).core 0).freeTile == some 0, streams (s .ready) (.maccZero (fx 1 0 (.v 0) (.v 0) 0 0)),
      streams (s .ready) (.maccLd (fx 0 0 (.s 8) (.s 14) 0 1)), streams (s .ready) (.mout row)] = true := by decide +kernel

/-- R288: rows, a slot and a tile in the form that the sum of products asks for. -/
theorem witness_matrix_sum :
    let row (n : Nat) : ARow := { row := n, elems := [3, -2], scales := [] }
    let b : List (List Int) := List.replicate 2 (List.replicate 128 5)
    let t : Tile := { owner := none, acc := [], bound := 0, flag := false }
    allOf [cellsWf t.acc, decide (([row 0, row 127].map ARow.row).Nodup), b.all (fun r => decide (r.length = 128)),
      [row 0, row 127].all (fun r => decide (r.elems.length = b.length))] = true := by decide +kernel

/-- R279, R291: an MMA, a MACC and a MOUT in flight, the first ones of their kind, before and after their rows have passed. -/
theorem witness_flight :
    let s (k : InFlight) : State := running.updGroup 1 (fun g => { g with stream := { g.stream with flight := [k] } })
    allOf [(s (.mma 3 0 2 9 0 [])).oldestMma 0 == some 3, decide (0 ≤ running.cycle ∧ running.cycle < 9), (s (.mma 3 0 2 9 9 [])).oldestMma 0 == some 3,
      ((s (.macc 0 true)).group? 1).any (fun g => g.stream.flight == [.macc 0 true]),
      ((s (.mout 0 [(0, [7])] true)).group? 1).any (fun g => cellsWf g.scratch)] = true := by decide +kernel

/-- R292 to R296, R309: loops of a count of 0, of one and of more, the stack empty and full; MSIG, MWAIT on both phases, MEND,
MTILE and MTILE.RING of a ring that is aligned, is not, and is too large. -/
theorem witness_stream_flow :
    let s (l : List (Word × DWord)) (sc : List (Nat × Nat)) : State := (matrix .ready sc).updGroup 1 (fun g =>
      { g with stream := { g.stream with loops := l } })
    let g (s : State) (p : Group → Bool) : Bool := onGroup s p
    allOf [streams (s [] []) (.mloopBegin (fx 0 0 (.s 2) (.v 0) 0 0)), g (s [] []) (fun g => g.stream.w32 (.s 2) == 0),
      g (s [] [(2, 4)]) (fun g => g.stream.w32 (.s 2) == 4 && g.stream.loops.isEmpty), streams (s [(1, 0)] []) (.mloopNext (fx 0 0 (.v 0) (.v 0) 0 1)),
      g (s [(1, 0), (2, 0), (2, 0), (2, 0)] []) (fun g => decide (4 ≤ g.stream.loops.length)), streams (s [] []) (.msig (fx 0 1 (.v 0) (.v 0) 0 0)),
      streams (s [] []) (.mwait (fx 0 31 (.v 0) (.v 0) 0 0)), g (s [] []) (fun g => pbPh (g.pbar 31) == g.stream.parity.getLsbD 31),
      streams (s [] []) (.mend (fx 0 0 (.v 0) (.v 0) 0 0)), g (s [] []) (fun g => g.stream.flight.isEmpty && g.stream.phys 0 == some 1 &&
        (g.stream.phys 2).isNone && cellsWf g.pbars), streams (s [] [(16, 64), (18, 16)]) (.mtileRing (fx 0 0 (.s 16) (.s 18) 0 1)),
      g (s [] [(16, 64), (18, 16)]) (fun g => (g.stream.pair (.s 16)).toNat % 64 == 0 && g.stream.w32 (.s 18) == 16),
      g (s [] [(16, 63)]) (fun g => (g.stream.pair (.s 16)).toNat % 64 != 0), g (s [] [(18, 17)]) (fun g => decide (16 < (g.stream.w32 (.s 18)).toNat))]
      = true := by decide +kernel

/-- R294: a halt at once completes a phase of barrier 31 and so ends a PBARW on it; the arrivals of two halts are owed while a
MOUT is in flight. -/
theorem test_halt_arrives :
    let s := running.updTiller 1 0 0 (fun t => { t with st := .eventWait (.pbarw 31 false) })
    let out := s.updGroup 1 (fun g => { g with stream := { g.stream with flight := [.mout 0 [] false] } })
    let seen (s : State) : Option (Nat × Nat × Option TSt) := (s.group? 1).map (fun g =>
      ((g.pbar 31).toNat, g.stream.owes, (s.frameOf 1 0 0).map (fun f => f.t.st)))
    seen (s.haltStream 1 1 0) = some (2 ^ 32, 0, some .ready) ∧
      seen (out.haltStream 1 1 0) = some (0, 1, some (.eventWait (.pbarw 31 false))) := by decide +kernel

/-- R157, R278, R294: a stream none of whose writes is under way, one with a MOUT in flight, and one with a write that is held. -/
theorem witness_stream_writes :
    let held : RdPage := { RdPage.none_ 77 0 with held := [{ dev := 0, pa := 0, bytes := [], who := .stream 1 }] }
    let out : State := running.updGroup 1 (fun g => { g with stream := { g.stream with flight := [.mout 0 [] false] } })
    let waits : State := running.updGroup 1 (fun g => { g with stream := { g.stream with mwait := some (31, false, true) } })
    allOf [!running.holdsOf (.stream 1), ({ running with rds := [held] } : State).holdsOf (.stream 1),
      onGroup running (fun g => g.stream.owes == 0 && !g.stream.writes), onGroup out (fun g => g.stream.writes),
      onGroup waits (fun g => !g.stream.parity.getLsbD 31 && g.stream.mwait == some (31, false, true))] = true := by decide +kernel

/-- R279: a stream whose MMA in flight pins a line, and a MOUT without .KEEP that closes an open record. -/
theorem witness_completions :
    let q : OpenRec := (running.groups.map (fun g => (g.openRec 0 5 0).stream.recs)).flatten.headD
      { tile := 9, tag := 0, opened := 0, cis := none, cie := none, waitStart := none, waitEnd := none, compStart := none, compEnd := none,
        outStart := none, whyStale := false, whyAbsent := false, autoReload := false, saved := false, trying := none, firstDone := false,
        count := 0, rows := 0, totalWait := 0 }
    let s : State := running.updGroup 1 (fun g => { g with stream := { g.stream with
      flight := [.mma 3 0 2 9 0 [(0, 7)], .mout 0 [(0, [7])] true], recs := [q] } })
    allOf [q.tile == 0, s.oldestMma 0 == some 3, onGroup s (fun g => g.stream.rec? 0 == some q && g.stream.flight.contains (.mout 0 [(0, [7])] true))]
      = true := by decide +kernel

/-- R316, R319, R340: a sequenced instruction whose block is allowed, one whose block is not, one without an active thread; and a
run that the sequencer takes, with threads left and with none. -/
theorem witness_sequencer :
    let x : FS := { w := .v 16, a := .v 8, b := .s 20, d := .s 40, fn := 0 }
    let i : Instr := .rast hg x
    let bad : Instr := .topk hg { w := .v 16, a := .v 8, b := .s 20, d := .s 40, fn := 0 }
    let run (m : Mask) : SeqRun :=
      { gid := 1, sh := 0, ti := 0, instr := i, mask := m, queuedAt := 0, block := List.replicate 14 1, input := [], steps := 0,
        tag := none, fails := [], micro := [] }
    let s (r : Option SeqRun) (q : List SeqRun) : State := base.updCore 0 (fun c => { c with seqRun := r, seqQ := q })
    allOf [issues base i, issues base bad, issues base (.rast (hn hg) x), !base.withholds 0 base.cycle, onFrame base (fun f => f.active (hn hg) 0 == 0 && f.active hg 0 != 0),
      blockOk .rast 0 0 (List.replicate 14 0), !blockOk .topk 0 0 (List.replicate 4 0), ((s none [run 8]).core 0).seqRun.isNone,
      ((s (some (run 8)) []).seqOf (run 8)).any (fun q => q.nextLanes.isSome && !(s none []).cutHolds q.g.ctx &&
        (q.nextLanes.any (fun ts => (q.runLanes (s (some (run 8)) []) ts).hold.isNone && (q.runLanes (s (some (run 8)) []) ts).parks.isEmpty))),
      ((s (some (run 0)) []).seqOf (run 0)).any (fun q => q.nextLanes.isNone)] = true := by decide +kernel

/-- R372: MTSR with every register's least and greatest value, with values, a size and a core that are wrong, and under a false
guard. -/
theorem witness_mtsr :
    let i (h : Hdr) (fn2 imm : Nat) : FI := { d := .v 0, a := .s 20, fn2 := BitVec.ofNat 2 fn2, imm := .short (BitVec.ofNat 24 (if h.gn then imm else imm)) }
    let at_ (v : Nat) : State := sc base [(20, v)]
    let val (v : Nat) (x : FI) (p : Nat → Bool) : Bool := onFrame (at_ v) (fun f => p (mtsrVal { s := at_ v, f := f, lane := none } x))
    let cores (x : FI) (p : Option (List Nat) → Bool) : Bool := onFrame base (fun f => p (mtsrCores f x))
    allOf [issues (at_ 1) (.mtsrHorizon hu (i hu 0 0)), val 4095 (i hu 0 0) (fun v => v == 4095), val 0 (i hu 0 0) (fun v => v == 0),
      issues (at_ 16) (.mtsrSl hu (i hu 0 0xFF0001)), issues (at_ 16) (.mtsrSl (hn hu) (i hu 0 0xFF0001)), cores (i hu 0 0xFF0001) Option.isSome,
      cores (i hu 0 0x470001) (fun c => c == some [71]), cores (i hu 0 0x480001) Option.isNone, issues base (.mtsrWqbase hu (i hu 1 5)),
      base.inHbm 0x40000, val 0x40000 (i hu 1 5) (fun v => v == 0x40000 && v % 2 ^ 18 == 0), issues (at_ 15) (.mtsrGlnPeriod hu (i hu 0 0x20)),
      issues base (.mtsrGlnRing hu (i hu 1 0x22)), base.glnRingOk 4, issues base (.mtsrBbcb hu (i hu 1 0x5F)),
      onFrame base (fun f => f.guardU hu 0 && !f.guardU (hn hu) 0)] = true := by decide +kernel

/-- R362, R363, R375, R379: TLBI of a context that exists and of one that does not; STOPAT with room and without; a cut whose
time has come and one whose time has not. -/
theorem witness_cuts :
    let c (op t : Nat) : Cut := { op := op, t := t, ctxs := 1, held := false }
    let s (l : List Cut) : State := { sc base [(1, 32), (4, 1), (2, 63)] with cuts := l }
    let stop : Instr := .stopatHalt hu (fa (.v 0) (.s 6) (.s 4) (.v 0) 0)
    allOf [issues (s []) (.tlbiCtx hu (fa (.v 0) (.s 1) (.v 0) (.v 0) 1)), issues (s []) (.tlbiCtx hu (fa (.v 0) (.s 2) (.v 0) (.v 0) 1)),
      issues (s []) stop, issues (s [c 0 0, c 0 0, c 0 0, c 0 0]) stop, !(s [c 0 5]).cutPreempting, decide ((s [c 0 5]).stc < 5),
      decide ((c 2 0).t ≤ (s [c 2 0]).stc), decide ((c 1 0).op ≤ 1)] = true := by decide +kernel

/-- R360, R361, R402: a context that is RUNNING, that is PREEMPTING with nothing left of it, and one past its deadline. -/
theorem witness_preemption :
    let s (p : PreSt) : State := (late base).updCtx 3 (fun c => { c with pre := p })
    allOf [((s .running).ctxSt 3).pre == .running, (s .running).groups.all (fun g => !(g.ctx == 3 && g.kind == .user && g.launch.saves)),
      !(s .preempting).remains 3, decide (((s .preempting).ctxSt 3).preAt + (s .preempting).pdl ((s .preempting).topPrio 3) ≤ (s .preempting).stc),
      ((s .preempting).ctxSt 3).pre == .preempting] = true := by decide +kernel

/-- R356, R358, R376, R377: SAVEG of a group that is there, of none, and to an area that is not aligned; a save under way, and one
being written; a restore whose granules are all SCRATCH. -/
theorem witness_saves :
    let s (loc area : Nat) : State := sc tenant [(1, loc), (2, area), (3, 0)]
    let st : State := (s 0 0x1000).updGroup 1 (fun g => { g with ctx := 63 })
    let i : Instr := .saveg hu (fa (.s 4) (.s 1) (.s 2) (.v 0) 0)
    let q : SaveReq := { gid := 1, sh := 0, dst := .s 4, area := 0x11000, image := none }
    let t (x : GSt) : State := base.updGroup 1 (fun g => { g with st := x, save := some q })
    let g (s : State) (p : Group → Bool) : Bool := (s.group? 1).any p
    allOf [issues st i, (st.located 0 0).isSome, (st.located 0 0x4F).isNone, g st (fun g => (st.unitOf g).all (fun u => u.save.isNone && u.st == .resident)),
      g (t .quiesce) (fun g => ((t .quiesce).unitOf g).all (fun u => u.st == .quiesce && (t .quiesce).quiet u)), g (t .writing) (fun g => g.st == .writing),
      g (t .reclaim) (fun g => g.granules.all (fun k => !((t .reclaim).core g.core).reclaiming.contains k)),
      issues base (.restg hu (fa (.s 4) (.s 1) (.s 2) (.v 0) 0)), issues base (.mcld hu (fa (.s 4) (.int 7) (.s 2) (.v 0) 0)),
      ((base.readImage 0 0x80000000000000).1 matches .error .fail), ((base.readImage 0 0x20000).1 matches .error (.wait _)),
      ((({ base with plat := { base.plat with ready0 := 0xFFFFFF } } : State).readImage 0 0x21000).1 matches .ok _)] = true := by decide +kernel

/-- R359, R376: RESTG without an image, where a group's image has been found, and of an area that is not aligned. -/
theorem witness_restg :
    let i : Instr := .restg hu (fa (.s 4) (.s 1) (.s 2) (.v 0) 0)
    let s (area : Nat) : State := sc base [(1, 5), (2, area), (3, 0)]
    allOf [issues (s 0x1001) i, (0x1001 : Nat) % 4096 != 0, issues (s 0x1000) i, (((s 0x1000).imageAt 0 0x1000).1 matches .ok none)] = true := by decide +kernel

/-- R377: a die with a request and one without. -/
theorem witness_dspreq :
    let r : DspReq := { kind := 7, tag := 65535, locator := 16383 }
    let s : State := base.updDie 1 (fun d => { d with dspreq := [r] })
    allOf [(s.die 1).dspreq == [r], (s.die 0).dspreq.isEmpty, (BitVec.ofNat 64 (s.dspPop 1).1).getLsbD 63] = true := by decide +kernel

/-! ## Witnesses: packets, placement, verdicts, handlers, the host, attestation -/

/-- A queue of context 2 that runs, with one packet in its ring at the code's address; one leaf maps every VA below 2^42 to
the same PA. -/
def queued (packet : Nat) : State :=
  let s : State := { base with mem := csetLE (csetLE [] 0x10000 64 packet) 0x40000 8 0x800F }
  (s.updCtx 2 (fun c => { c with ptRoot := 0x40001 })).updSq 5 (fun x =>
    { x with ring := 0x10000, logsz := 4, ctx := 2, st := .running, reg := true, tail := 1 })
/-- The queue's next packet is of a type, keeps its limits and may be processed. -/
def packetIs (s : State) (ty : Nat) (p : List Byte → State → Bool) : Bool :=
  match s.nextPacket 5 with
  | some (.ok b, t) => pktType b == ty && pktPhase b == s.plat.phase.toNat && (s.sq 5).pending.isEmpty &&
      packetOk b (s.sq 5).ind.isSome && p b t
  | _ => false

/-- R343, R344: a packet of each type; a LAUNCH whose record is allowed, and whose header is; a WAIT whose condition holds, and one
whose condition does not; a word that can be changed and one that cannot. -/
theorem witness_packets :
    let va (a : Nat) : Nat := a * 2 ^ 64
    let rec_ : Nat := 0x10200 + 1 * 2 ^ 128 + 1 * 2 ^ 160 + 1 * 2 ^ 176 + 1 * 2 ^ 192 + 4 * 2 ^ 256 + 1 * 2 ^ 272
    let l : State := { queued (1 + va 0x10100) with mem := csetLE (csetLE (queued (1 + va 0x10100)).mem 0x10100 64 rec_) 0x101F8 8 1 }
    let wait (v : Nat) : Nat := 4 + va 0x10100 + v * 2 ^ 128 + 7 * 2 ^ 192
    allOf [packetIs l 1 (fun b t => (match t.feRead 5 2 (pktVa b) 64 with
        | (.ok d, u) => (LaunchRec.ofBytes d).ok && (match u.feRead 5 2 ((LaunchRec.ofBytes d).code - 8) 8 with
          | (.ok h, _) => natOf h == 1
          | _ => false)
        | _ => false)), packetIs (queued (1 + va 0x10100)) 1 (fun b t => (match t.feRead 5 2 (pktVa b) 64 with
        | (.ok d, _) => !(LaunchRec.ofBytes d).ok
        | _ => false)), packetIs (queued 2) 2 (fun _ _ => true),
      packetIs (queued (3 + va 0x10100 + 5 * 2 ^ 128 + 2 ^ 192)) 3 (fun b t => (t.feModify 5 2 (pktVa b) true (fun n => n + 5)).1 matches .ok _),
      packetIs (queued (3 + va 0x80000000000000)) 3 (fun b t => (t.feModify 5 2 (pktVa b) false (fun _ => 0)).1 matches .error .fail),
      packetIs (queued (wait 0)) 4 (fun b t => (t.waitWord 5 b).1 matches .ok true), packetIs (queued (wait 9)) 4 (fun b t => (t.waitWord 5 b).1 matches .ok false),
      packetIs (queued (5 + va 0x10000 + 0x10800 * 2 ^ 128 + 64 * 2 ^ 192)) 5 (fun _ _ => true),
      packetIs (queued (6 + va 0x10200 + 8 * 2 ^ 128)) 6 (fun _ _ => true), packetIs (queued (7 + va 0x10100)) 7 (fun b t =>
        (t.feModify 5 2 (pktVa b) false (fun _ => 1)).1 matches .ok _)] = true := by decide +kernel

/-- R161, R344, R346, R347: a WAIT in progress; a packet of another phase; the last packet of an indirect buffer. -/
theorem witness_queue_goes_on :
    let b : List Byte := bytesOf 64 (4 + 0x10000 * 2 ^ 64)
    let w : State := (late (queued 0)).updSq 5 (fun x => { x with waiting := some (9, b) })
    let i : Ind := { va := 0x10000, count := 8, taken := 7, ahead := [] }
    let s : State := (queued 2).updSq 5 (fun x => { x with ind := some i })
    allOf [w.waitOf 5 == some (9, b), ((w.waitWord 5 b).1 matches .ok true), decide (9 ≤ w.stc), (s.sq 5).ind == some i,
      ((queued (2 + 2 ^ 16)).nextPacket 5).any (fun e => match e.1 with
        | .ok b => pktPhase b == 1
        | .error _ => false), (queued (2 + 2 ^ 16)).plat.phase == 0] = true := by
  decide +kernel

/-- R342, R399, R403: a tail at the ring's size and one past it; a queue that keeps its limits and one that does not. -/
theorem witness_queue_registers :
    let s := queued 2
    let good : State := s.updSq 5 (fun x => { x with ring := 0x10000, ctx := 31, st := .stopped })
    allOf [decide (((16 : Word) - (s.sq 5).head).toNat ≤ 2 ^ (s.sq 5).logsz.toNat), decide (2 ^ (s.sq 5).logsz.toNat < ((17 : Word) - (s.sq 5).head).toNat),
      (good.sq 5).limitsOk, !((s.updSq 5 (fun x => { x with prio := 8 })).sq 5).limitsOk, (good.sq 5).st != .running, (s.sq 5).st == .running, (s.sq 5).reg] = true := by decide +kernel

/-- R109, R246, R351: a grid that fits a core; a group that is over and one that is not; a granule that is being reclaimed. -/
theorem witness_placement :
    let r : LaunchRec := { stewardRecord 0x10000 with scratch := 1024, gx := 1, gy := 1, gz := 1 }
    let x : Grid := { id := 7, ctx := 0, launch := r, next := 0, ended := 0, base := 0, readySince := 0, lastPlace := 0, queue := none, die := some 0, done := none }
    let s : State := { State.reset with grids := [x], plat := { State.reset.plat with ready0 := 0x10 } }
    let gone := tenant.updGroup 1 (fun g => { g with sheaves := g.sheaves.map (fun y => { y with tillers := [], exited := Mask.full, ended := true }) })
    let k : State := base.updCore 3 (fun c => { c with reclaiming := [2] })
    allOf [(s.noteSwap.choose 0 (s.noteSwap.ranked 0) []).1.isSome, (State.reset.noteSwap.choose 0 (State.reset.noteSwap.ranked 0) []).1.isNone,
      (tenant.group? 1).any (fun g => !tenant.groupOver g), (gone.group? 1).any (fun g => gone.groupOver g), (k.core 3).reclaiming.contains 2]
      = true := by decide +kernel

/-- R123 to R126: a record that has been written, of a fetch and of an operand-log entry whose lanes failed; a head within the
queue and one beyond it. -/
theorem witness_verdicts :
    let rec_ (w : FWho) : FaultRec :=
      { tag := 9, who := w, va := 0x20000, ctx := 0, core := 0, qs := 0, kind := 0, reason := 0, stc := 0, written := true }
    let e : LogEntry := { id := 4, ti := 0, instr := .ld hg (fm (.v 4) (.v 2) 2 0 0), pc := 0x10000, mask := 8, src := [], tags := [],
                          failed := [(3, 0x05)] }
    let s (w : FWho) : State := { tenant with faults := [rec_ w] }
    let f := (s (.fetch 1 0 0)).updTiller 1 0 0 (fun t => { t with st := .eventWait (.fetch 9) })
    let g := (s (.log 1 0 4)).updSheaf 1 0 (fun x => { x with oplog := [e] })
    allOf [(f.faults.find? (fun r => r.tag == 9 && r.written)).isSome, (f.frameOf 1 0 0).any (fun k => k.t.st == .eventWait (.fetch 9)),
      ((g.sheaf? 1 0).bind (fun x => x.entry? 4)).isSome, (g.frameOf 1 0 0).any (fun k => decide (k.sh.tillers = [k.t]) && k.sh.atBoundary k.t &&
        !e.failed.isEmpty && e.failed.all (fun l => k.t.mask.getLsbD l.1) && e.idle == 0), tenant.faults.isEmpty,
      ((tenant.sheaf? 1 0).bind (fun x => x.entry? 4)).isNone, decide (((0 : Word) - tenant.plat.fqHead).toNat ≤ (tenant.plat.fqTail - tenant.plat.fqHead).toNat),
      decide ((tenant.plat.fqTail - tenant.plat.fqHead).toNat < ((1 : Word) - tenant.plat.fqHead).toNat)] = true := by decide +kernel

/-- R157 to R159, R411, R419: a pending access before and after its limit; bits of readiness that are set and clear; a page with
an acknowledgement outstanding and one without. -/
theorem witness_timeouts :
    let p (on : Unanswered) : Pend := { id := 6, who := .thread 1 0 (some 3), ti := 0, fetch := false, on := on, since := 0 }
    let i : Instr := .ld hg (fm (.v 4) (.v 2) 2 0 0)
    let s : State := { placed 0x6000F02008080000 with pends := [p (.stack 0)] }
    let w : HeldWrite := { dev := 1, pa := 0x20000, bytes := [7], who := .other }
    let e (due : List Nat) : RdPage :=
      { page := 2, home := 0, holders := due, due := due, held := [w], since := 0, removed := [], owner := none, replica := none }
    allOf [s.pends.find? (fun p => p.id == 6) == some (p (.stack 0)), decide (s.stc < (p (.stack 0)).since + 2000000), decide ((p (.stack 0)).since + 2000000 ≤ (late s).stc),
      (s.frameOf 1 0 0).any (fun f => (({ s with pends := [] } : State).peekInstr f.g.core f.g.ctx f.t.pc) == some i), !isUniform i, (memForm i).isSome,
      base.plat.ready0.getLsbD (8 + stackOf codeAt), !base.plat.ready0.getLsbD 1, !base.plat.ready1.getLsbD 0, (e [1]).due != [], (e []).due == [],
      (e []).held == [] ++ [w]] = true := by decide +kernel

/-- R364, R365, R368, R391: a batch that has been open for 64 cycles; a closed one of a context with handler code, and of one
without; a core whose sample is due. -/
theorem witness_handlers :
    let b (c : Option Nat) : HBatch := { ctx := 2, entries := [entry3], opened := 0, closed := c }
    let s (c : Option Nat) (code : DWord) : State := ({ base with cycle := 64 }.updCore 5 (fun k => { k with batches := [b c] })).updCtx 2
      (fun x => { x with hndCode := code })
    let gln : State := { (tenant.updCore 0 (fun c => { c with glnPeriod := 16, glnCtxm := 1 })) with cycle := 40 }
    allOf [decide ((b none).opened + 64 ≤ (s none 0).cycle), ((s (some 64) 0).core 5).closedBatch 2 == some (b (some 64)),
      ((s none 0).core 5).closedBatch 2 == none, (((s (some 64) 0x10000).handlerOf 2).1) != 0, (((s (some 64) 0).handlerOf 2).1) == 0,
      ((s (some 64) 0x10000).handlerQuarter 5 ((s (some 64) 0x10000).handlerOf 2).2.2).isSome, gln.glnDue 0, !base.glnDue 0,
      (nextSheaf (gln.core 0).glnLast (gln.glnSheaves 0)).isSome] = true := by decide +kernel

/-- R18, R19, R420: a die that is hot, and one that is not, with a share of the cap that is enough; an interval of 1,000 ticks that has
been begun already, and one that has not. -/
theorem witness_heat :
    let s : State := base.updDie 1 (fun d => { d with hot := true })
    (s.die 1).hot = true ∧ (s.die 0).hot = false ∧ (s.die 0).share ≠ 0 ∧ (s.die 0).scant = false ∧ base.stc / 1000 = base.plat.powerAt ∧
      (late base).stc / 1000 ≠ (late base).plat.powerAt := by decide +kernel

/-- R16, R159, R164, R398, R399, R411: places that a host's and another device's access reach, and some that they do not; a page
with a held write, and one that a device is removed from. -/
theorem witness_outside :
    let s : State := { base with plat := { base.plat with hapbase := 0, admits := [] } }
    let page (held : List HeldWrite) : RdPage :=
      { page := 1, home := 0, holders := [2], due := [2], held := held, since := 0, removed := [3], owner := none, replica := none }
    let r (held : List HeldWrite) : State := { s with rds := [page held] }
    let w : HeldWrite := { dev := 1, pa := 0x10000, bytes := [7], who := .other }
    let far : BitVec 64 := BitVec.ofNat 64 hbmEnd
    allOf [!s.admits 3, s.isLocal 0x10000, s.inHbm 0x10000, !s.inHbm 0xC000000000, s.homeOf 0x10000 == .hbm 0x10000,
      s.stackReady 0x10000, !s.poisoned 0x10000 8, s.cmds.isEmpty, (s.rdOf 0x10000).isNone, (s.outsideAccess 63 0 [(0x10000, 8)] none).1 matches .ok _,
      (s.outsideAccess 63 0 [(0x10000, 8)] (some [1, 2, 3, 4, 5, 6, 7, 8])).1 matches .ok _,
      (r []).rdOf 0x10000 == some (page []), (r [w]).rdOf 0x10000 == some (page [w]), (3 : Nat) != s.devnum,
      ((r []).outsideAccess 63 3 [(0x10000, 8)] none).1 matches .error .removed, ((r [w]).outsideAccess 63 2 [(0x10000, 8)] none).1 matches .error (.wait none),
      (s.hostParts (.vf 2) 0x10000 false 8).1 matches .error _, (s.hostParts .pf 0x10000 false 8).1 matches .ok _,
      decide (hbmEnd < far.toNat + 1), decide ((0x10000 : BitVec 64).toNat + 8 ≤ hbmEnd)] = true := by decide +kernel

/-- R401, R405, R406, R412: sectors that may be cleared and that may not; watch entries on a word and off one; a descriptor that is
registered, and a table that is absent. -/
theorem witness_registers :
    let s : State := (base.updDie 0 (fun d => { d with wqbase := 0x10000 }))
    let d : State := { s with mem := csetLE (csetLE s.mem 0x10140 8 0x12000) 0x10148 8 4 }
    let w (pa : Nat) : Watch := { Watch.reset 5 with pa := BitVec.ofNat 64 pa, action := 1 }
    let q := d.readWq (0x10000 + 64 * 5) 5
    allOf [base.inHbm 0x10080, (0x10080 : Nat) % 128 == 0, (List.range 128).all (fun k => !base.inDescriptor (0x10080 + k)), (base.rdOf 0x10080).isNone, Memory.wf base.mem, !base.inHbm 0xC000000000,
      ({ base with watches := [w 0x10002] } : State).watch 5 == w 0x10002, (w 0x10004).holds 0, (w 0x10002).pa.toNat % 4 != 0,
      decide (1 ≤ q.logcap ∧ q.logcap ≤ 12 ∧ q.ctx ≤ 31 ∧ q.ring.toNat % 8 = 0), (d.die 0).wqs.isEmpty, (base.die 0).wqbase == 0] = true := by
  decide +kernel

/-- R401, R415 to R418, R421 to R425: lengths of a recovery image at and beyond their limits; the signing block free and busy, an
index at the floor, and a reservation at 2^20; a mailbox that is free and one that holds a request; each kind of request. -/
theorem witness_attestation :
    let ready : State := { base with plat := { base.plat with ready0 := 2 } }
    let sign (stat floor next : Nat) : Sign := { stat := stat, idxNext := next, floor := floor, commit := none, job := none }
    let req (code : Nat) (n : Nat) : List Byte := [0x12, BitVec.ofNat 8 code] ++ List.replicate n 1
    let conn (n : Nat) : State := { ready with sign := sign 0 5 9, spdm := { conn := n, m := [], l := [], vca := [] } }
    let ok (s : State) (r : List Byte) : Bool := decide (4 ≤ r.length) && decide (r.length ≤ 1024) && s.plat.ready0.getLsbD 1 &&
      s.plat.doeReqLen == 0 && s.plat.doeWait.isEmpty && s.sign.stat != 1 &&
      decide (s.spdm.m.length + r.length + natOf ((r.drop 6).take 2) + 1024 ≤ 65536) && decide (s.spdm.l.length + r.length + 1024 ≤ 65536)
    allOf [decide (2884 ≤ 2884 ∧ 268435456 ≤ 268435456), !base.plat.ready0.getLsbD 1, decide ((sign 0 5 9).floor ≤ 5 ∧ 5 < (sign 0 5 9).idxNext ∧ 5372 + 2820 ≤ 8192),
      (sign 1 5 9).stat == 1, decide ((sign 0 5 9).idxNext < 2 ^ 20), ok (conn 0) ([0x10, 0x84, 0, 0]), ok (conn 1) (req 0xE1 18), ok (conn 2) (req 0xE3 30),
      ok (conn 3) (req 0x81 2), ok (conn 3) (req 0x82 6), ok (conn 3) (req 0x83 35), ok (conn 3) (req 0xE0 35), ok (conn 3) (req 0x10 2),
      decide (37 ≤ (req 0x83 35).length), (conn 3).plat.meas.all (fun b => decide (b.length = 64)), decide ((conn 3).plat.meas.length = 8)] = true := by
  decide +kernel

/-- R3: reset's memory is canonical, and so is the memory of a step that runs and of one that stores. -/
theorem witness_canonical :
    State.reset.canonical = true ∧ base.canonical = true ∧ (step (State.reset.withFetchWord 64 0x0000F00000000000) matches .next _) = true ∧
      (step State.reset matches .next _) = true := by decide +kernel

/-- R426: an idle module steps from reset, and stays as it is without power. -/
theorem test_reset_steps : (step { State.reset with powered := false }) = .next { State.reset with powered := false } := by rfl

/-! ## Witnesses: operands, the L1, and what a wider statement asks for -/

/-- R87, R88: a reader whose special registers are in their ranges, and an entry that a handler's thread reads. -/
theorem witness_operands :
    let h := handler.updGroup 1 (fun g => { g with entries := [entry3] })
    let grid := base.updGroup 1 (fun g => { g with linear := 5, launch := { g.launch with gx := 2, gy := 3, gz := 1 } })
    allOf [onFrame base (fun f => decide (f.sh.idx < 16) && decide (f.g.pslot < 2 ^ 32) && decide (f.g.core < 288) && decide (f.g.ctx < 2 ^ 32) &&
        f.g.linear == 0 &&
        ({ s := base, f := f, lane := some 63 } : Rd).thr == 63), decide (base.devnum < 2 ^ 32),
      onFrame grid (fun f => decide (f.g.linear < f.g.launch.gx.toNat * f.g.launch.gy.toNat * f.g.launch.gz.toNat)),
      onFrame h (fun f => f.g.entries[({ s := h, f := f, lane := some 0 } : Rd).thr]? == some entry3)] = true := by decide +kernel

/-- A line of the code's page, held with its sectors valid. -/
def codeLine : Line :=
  { tag := { way := 0, line := 128, kind := .dflt, dl := 0, st := .ahead, ctx := 63, counted := false, by_ := [], part := 0 },
    valid := 15, dirty := 0, data := [(65536, 9)], wrote := [] }

/-- R113, R141, R143: plain accesses of the code's address, of a line that the L1 holds and of one that it does not. -/
theorem witness_cached :
    let held := base.updCore 0 (fun c => { c with lines := [codeLine] })
    let p (s : State) (kind : Nat) (q : Port → MemForm → DWord → State → Nat → Nat → Bool) : Bool := onFrame s (fun f =>
      let r := s.translate f.g.core f.g.ctx { write := kind != 0, fetch := false } 0x10000
      let m := formM kind (fm (.v 4) (.v 2) 2 0 0)
      match r.1 with
      | .ok pa leaf => (match r.2.homeOf pa with
        | .hbm l => r.2.stackReady l && !r.2.poisoned l 4 && !leaf.getLsbD 11 && m.spc == 0 && m.ord == 0 && m.kind == kind &&
          q { g := f.g, sh := f.sh, lane := none, helper := false } m leaf r.2 pa (r.2.l1Of f.g.core (pa / 512))
        | _ => false)
      | _ => false)
    let hit (_ : Port) (_ : MemForm) (_ : DWord) (t : State) (pa k : Nat) : Bool :=
      ((t.core k).line? (pa / 512)).any (fun y => y.valid.getLsbD (pa / 128 % 4) && cellsWf y.data) && !t.watched (pa / 512)
    let miss (w : Port) (m : MemForm) (leaf : DWord) (t : State) (pa k : Nat) : Bool :=
      ((t.core k).line? (pa / 512)).isNone && (t.core k).lines.all (fun y => y.wrote.isEmpty) && t.cmds.isEmpty &&
        !t.l2Full (t.accOf w m leaf) (pa / 512)
    allOf [p held 0 hit, p held 1 hit, p base 0 miss] = true := by decide +kernel

/-- R141, R147: an L1 with a written line of this device and one of another's. -/
theorem witness_release :
    let near : Line := { codeLine with tag := { codeLine.tag with line := 130 }, dirty := 1, data := [(66560, 7)], wrote := [66560] }
    let a : Nat := 2 ^ 41 * 5 + 66560
    let far : Line := { near with tag := { near.tag with line := a / 512 }, data := [(a, 8)], wrote := [a] }
    let s := base.updCore 0 (fun c => { c with lines := [near, far] })
    allOf [(s.l1Group 0).contains 0, Memory.wf s.mem, Memory.wf s.remote, (s.l1Group 0).all (fun j =>
        decide (((s.core j).lines.map (fun y => y.tag.line)).Nodup) && (s.core j).lines.all (fun y => y.wrote.all (fun b => b / 512 == y.tag.line))),
      (s.core 0).lines.contains near, (s.core 0).lines.contains far, s.isLocal 66560, !s.inDescriptor 66560, !s.isLocal a] = true := by
  decide +kernel

/-- R228, R293: a stream that waits at a barrier, and one at another. -/
theorem witness_mwait :
    let g (b : Nat) : State := running.updGroup 1 (fun g => { g with stream := { g.stream with mwait := some (b, false, false) } })
    allOf [onGroup (g 3) (fun g => g.stream.mwait == some (3, false, false)), onGroup (g 31) (fun g => cellsWf g.pbars)] = true := by
  decide +kernel

/-- R231, R232: a condition on memory whose read is done, holding and not, and reads that trap, fault and wait. -/
theorem witness_waitv_reads :
    let c (a v : Nat) : Cond := { ctl := 0, w1 := BitVec.ofNat 32 a, w2 := 0, w3 := BitVec.ofNat 32 v }
    let w (c : Cond) : WaitSt :=
      { h := hu, x := fa (.s 16) (.s 20) (.s 14) (.v 0) 0, conds := [c], latched := 0, dlv := 0, noLimit := false, sw := false, tag := none, ons := [] }
    let read (s : State) (a : Nat) (p : Got → Bool) : Bool := onFrame s (fun f =>
      p (s.memLane { g := f.g, sh := f.sh, lane := none, helper := f.t.mask &&& ~~~f.sh.helpers == 0 } (condForm (c a 0))
        { a := BitVec.ofNat 64 a, b := 0, c := 0 }).1)
    allOf [(w (c 0x10000 0)).conds == [c 0x10000 0], (c 0x10000 0).kind == 0, read base 0x10000 (fun g => g == .done [0]),
      read base 0x10004 (fun g => g == .done [0xF000]), read base 0x10002 (fun g => g == .park 0x04),
      read tenant 0x10000 (fun g => g matches .record _ _), read base 0x20000 (fun g => g matches .wait _)] = true := by decide +kernel

/-- R48, R243: lanes with two good targets. -/
theorem witness_divided :
    let s := base.updSheaf 1 0 (fun x => x.write [{ key := .v 2 3, val := 0x10000 }])
    let i : Instr := .brx hg (fa (.v 0) (.v 2) (.v 0) (.v 0) 5)
    allOf [issues s i, issues s (.ret hg (fa (.v 0) (.v 2) (.v 0) (.v 0) 5)), onFrame s (fun f =>
      let at_ (l : Nat) : DWord := ({ s := s, f := f, lane := some l } : Rd).w64 (.v 2)
      f.active hg s.cycle == Mask.full && at_ 3 == 0x10000 && at_ 4 == 0 &&
        (List.range 64).all (fun l => (at_ l).extractLsb' 0 3 == 0 && (at_ l).extractLsb' 55 9 == 0))] = true := by decide +kernel

/-- R374: a parked lane without and with a log entry, of a store and of an atomic; an entry that is EMPTY; reads beyond the budget. -/
theorem witness_selectors :
    let h := (handler.updGroup 1 (fun g => { g with entries := [entry3] })).updTiller 1 0 0 (fun t => { t with mask := 1 })
    let small := h.updSheaf 1 0 (fun x => { x with budget := 8 })
    let xrd (r : Fin 256) : FA := fa (.v 1) (.v r) (.v 0) (.v 0) 0
    let e (i : Instr) : LogEntry := { id := 4, ti := 0, instr := i, pc := 0x10000, mask := 8, src := [(13, 7)], tags := [], failed := [] }
    let logged (i : Instr) : State := parked3.updSheaf 1 0 (fun x =>
      { x with oplog := [e i], parked := x.parked.map (fun p => { p with log := some 4 }) })
    let of (i : Instr) (p : MemForm → Bool) : Bool := ((logged i).sheaf? 1 0).any (fun x => (x.parked? 3).any (fun q => q.log == some 4) &&
      x.entry? 4 == some (e i) && (memForm i).any p)
    allOf [(parked3.sheaf? 1 0).any (fun x => (x.parked? 3).any (fun p => p.log.isNone) && decide (8 < x.budget)), !entry3.empty,
      ({ entry3 with empty := true } : Entry).empty, of (.st hg (fm (.v 4) (.v 2) 2 0 0)) (fun m => m.kind == 1 && m.spc == 0),
      of (.stu hu (fm (.s 4) (.s 2) 3 0 1)) (fun m => m.kind == 1 && m.spc != 0), of (.atom hg (ft (.v 4) (.v 2) (.v 6) (.v 0) 0)) (fun m => m.kind == 2),
      issues small (.xrd hg (xrd 8)), onFrame small (fun f => (readers f hg small).any (fun r =>
        !((f.g.entries[r.thr]?).bind (fun e => small.xread e (.v 8) false)).isSome)),
      (small.sheaf? 1 0).any (fun y => decide (y.budget ≤ 8 + 0) && decide (y.budget ≤ 7 + 1))] = true := by decide +kernel

/-- R253, R157: a store to EQGO with 64 commands outstanding, with a write held, and with 63. -/
theorem witness_eqgo_waits :
    let s (n : Nat) : State := { sc base [(1, 32)] with cmds := (List.range n).map (fun k => cmdOf k 0) }
    let held : RdPage := { RdPage.none_ 77 0 with held := [{ dev := 0, pa := 0, bytes := [], who := .thread 1 0 none }] }
    let m := formM 1 { fm (.s 4) (.s 1) 2 0 0 with spc := 3 }
    let ok (s : State) : Bool := onFrame s (fun f => goValue f.g m (({ s := s, f := f, lane := none } : Rd).src m) == some 0 &&
      s.cmdValid 0 f.sh.eqa f.sh.eqb f.sh.eqc f.sh.eqd)
    allOf [ok (s 64), decide (64 ≤ (s 64).liveCmds 1 0), decide ((s 63).liveCmds 1 0 < 64), ok { s 0 with rds := [held] },
      ({ s 0 with rds := [held] } : State).holdsFor (.thread 1 0 none)] = true := by decide +kernel

/-- R408, R409: a completion with the expected tag, of a live command and of none, and one without. -/
theorem witness_completion_queues :
    let bytes : List Byte := List.replicate 14 0 ++ [15, 0] ++ List.replicate 8 0 ++ bytesOf 8 0x10800
    let c : Cmd := { cmdOf 9 3 with c := 0, posted := true, cid := 7 }
    let s (cmds : List Cmd) (tag : Bool) : State :=
      { base with drives := [{ Drive.init 0 with bytes := bytes }], cmds := cmds, mem := csets base.mem 0x10800 (nvmeCqe 0 7 0 tag) }
    let st (s : State) : Nat := natOf (((s.homeRead (s.driveOf 0).cqAt 16).drop 14).take 2)
    let cid (s : State) : Nat := natOf (((s.homeRead (s.driveOf 0).cqAt 16).drop 12).take 2)
    allOf [(s [] true).driveOf 0 == { Drive.init 0 with bytes := bytes }, st (s [c] true) % 2 == 1, st (s [c] false) % 2 == 0, cid (s [c] true) == 7,
      c.drive == 0 && c.eng == 3 && c.posted && !c.ended && !c.failed && c.data.isNone, decide ((7 : Nat) < 2 ^ 16),
      (s [c] true).stackReady ((s [c] true).driveOf 0).cqAt] = true := by decide +kernel

/-- R261, R412: an instruction that waits at a queue, and at one that has been unregistered; a queue that another DEQ holds. -/
theorem witness_queue_holders :
    let w : WorkQ :=
      { q := 5, ring := 0x10000, logcap := 4, ctx := 63, rsv := 2, pubp := 1, head := 0, thresh := 10, stuckSeq := 0, stuck := false,
        early := [], resAt := [], notified := none, tag := none, reader := none }
    let s (w : WorkQ) : State := sc (base.updDie 0 (fun d => { d with wqbase := 0x40000, wqs := [w] })) [(1, 5), (2, 0), (3, 65)]
    let at_ (gone : List (Nat × Nat)) : State := (s w).updTiller 1 0 0 (fun t =>
      { t with queued := some { order := 0, cycle := 0, scalars := [], upreds := 0, gone := gone } })
    let f (s : State) (p : Frame → Bool) : Bool := (s.frameOf 1 0 0).any p
    allOf [f (at_ []) (fun f => f.t.queued.isSome && ((at_ []).wqFor f 5).isSome), f (at_ [(0, 5)]) (fun f => ((at_ [(0, 5)]).wqFor f 5).isNone),
      f (s w) (fun f => f.t.queued.isNone && (s w).wqFor f 5 == some (0, w) && !(s w).wqHeld f none w && ((s w).wqFor f 0x4005).isNone),
      f (s w) (fun f => (s { w with tag := some 3 }).wqHeld f none { w with tag := some 3 }), w.head != w.pubp,
      ((s w).die 0).wqs.find? (fun x => x.q == w.q) == some w, Memory.wf (s w).mem, decide (w.logcap < 256 ∧ w.ctx < 256),
      f (s w) (fun f => let r : Rd := { s := s w, f := f, lane := none }
        r.w32 (.s 2) == 0 && decide (64 < (r.w32 (.s 3)).toNat))] = true := by decide +kernel

/-- R265: what a release and the withdrawal of late requests leave of a mailbox. -/
theorem witness_withdrawn :
    let req : StealReq := { gid := 1, sh := 0, ti := 0, lane := 0, uni := true, dst := .s 2, pred := .q 0, dl := 0 }
    let s := base.updGroup 1 (fun g => { g with mailbox := [req] })
    let t := (s.release 0).withdraw (fun q => decide (q.dl < s.stc))
    (t.group? 1).any (fun g => g.mailbox == [req] && g.gid == 1) = true := by decide +kernel

/-! ## Witnesses: matrix records, results of sequenced instructions, cuts, waits that are away, packets -/

/-- R279, R298: an MMA that has issued with no earlier one of its core still reading, and one with. -/
theorem witness_mma_order :
    let s := matrix .ready mmaScalars
    let i : FX := fx 0 3 (.s 4) (.s 10) 0 0
    let issued : State := ({ s with nextId := s.nextId + 1 } : State).updStream 1 (fun t => { t with checked := some (s.nextId, 3, []) })
    let other : State := { issued with groups := issued.groups ++ issued.groups.map (fun g =>
      { g with gid := 2, stream := { g.stream with checked := some (0, 3, []) } }) }
    allOf [onGroup s (fun g => g.stream.checked.isNone && !issued.mmaBefore g.core s.nextId && ((issued.aRows g false i).1 matches .ok _)),
      decide (0 < s.nextId), onGroup s (fun g => other.mmaBefore g.core s.nextId)] = true := by decide +kernel

/-- R279, R289, R291, R310: MMAs with and without a row that entered the array; a MOUT of two rows that closes a record, and one
without a record; two rows of one target. -/
theorem witness_mout_rows :
    let q : OpenRec := ((running.groups.map (fun g => (g.openRec 0 5 0).stream.recs)).flatten.headD
      { tile := 9, tag := 0, opened := 0, cis := none, cie := none, waitStart := none, waitEnd := none, compStart := none, compEnd := none,
        outStart := none, whyStale := false, whyAbsent := false, autoReload := false, saved := false, trying := none, firstDone := false,
        count := 0, rows := 0, totalWait := 0 })
    let rows : List (Nat × List DWord) := [(0, [7, 8]), (16, [9])]
    let m : InFlight := .mout 0 rows true
    let s (recs : List OpenRec) (k : InFlight) : State := running.updGroup 1 (fun g => { g with stream := { g.stream with
      flight := [.macc 1 false, k], recs := recs, bind := [(0, 1)] } })
    let g (s : State) (p : Group → Bool) : Bool := onGroup s p
    let r (a : Int) : ARow := { row := 7, elems := [a, 2], scales := [] }
    allOf [q.tile == 0, g (s [q] (.mma 3 0 2 9 9 [])) (fun g => g.stream.rec? 0 == some q), (s [] (.mma 3 0 2 0 9 [])).oldestMma 0 == some 3,
      decide (rows.Pairwise (fun a b => a.1 + 8 * a.2.length ≤ b.1)), g (s [q] m) (fun g => ((s [q] m).finishMout g 0 rows true).groups.any (fun v => v.gid == 1)),
      g (s [q] m) (fun g => g.stream.flight.contains m && g.stream.rec? 0 == some q && g.stream.phys 0 == some 1),
      g (s [] m) (fun g => (g.stream.rec? 0).isNone && cellsWf g.scratch), (r 3).row == (r (-2)).row, (r 3).elems.length == 2] = true := by
  decide +kernel

/-- R91, R283: stream instructions that are decode faults: an FN, a form that is not well-formed, an operand that is none. -/
theorem witness_stream_faults :
    let fn : Instr := .mloopBegin (fx 0 0 (.s 2) (.v 0) 0 1)
    let opd : Instr := .mma (fx 0 3 (.v 4) (.s 10) 0 0)
    allOf [fn.reject.isSome || !fn.wf, opd.reject.isNone && opd.wf && !opd.operandsOk 256 false,
      onGroup running (fun g => g.stream.st == .running)] = true := by decide +kernel

/-- R328, R330, R331, R336: a ray whose line crosses a triangle's plane and one that does not, with bounds that are finite; texels that
are finite and NaN; elements that are finite and not, and lists with a square that is 0 and one that is not. -/
theorem witness_sequenced_results :
    let r (d : List ℚ) : Ray := { o := [0, 0, 0], d := d, tmin := Exact.zero false, tmax := Exact.ofInt 9 }
    let det (d : List ℚ) : ℚ := vDot (vSub [1, 0, 1] [0, 0, 1]) (vCross d (vSub [0, 1, 1] [0, 0, 1]))
    allOf [det [0, 0, 1] != 0, det [1, 0, 0] == 0, (r [0, 0, 1]).tmin.rat? == some 0, (r [0, 0, 1]).tmax.rat? == some 9,
      (texelOf 1 0x7E00).getD 0 .nan == .nan, ((texelOf 1 0x3C00).getD 0 .nan).rat? == some 1, !((texelOf 1 0x3C00).getD 0 .nan).negZero,
      ((texelOf 1 0x8000).getD 0 .nan).negZero, ((texelOf 2 0x3F800000).getD 3 .nan).rat? == some 1, (distVal 0 0x3C00).isSome,
      (distVal 1 0x7F80).isNone, distVal 2 0x80 == some (-128), (([0, 0] : List Int).map (fun x => x ^ 2)).sum == 0,
      (([0, -3] : List Int).map (fun x => x ^ 2)).sum == 9] = true := by decide +kernel

/-- R330, R331: the triangle's corners and the ray as functions of the coordinate. -/
theorem witness_ray_functions : ([0, 0, 1] : List ℚ) = List.ofFn (![0, 0, 1] : Fin 3 → ℚ) := by rfl

/-- R362, R363: two cuts whose time has come, the earlier one second; a .RUN held by a pre-emption that a cut began. -/
theorem witness_earliest_cut :
    let c (op t : Nat) : Cut := { op := op, t := t, ctxs := 1, held := false }
    let s : State := { late base with cuts := [c 0 9, c 1 3] }
    let h := s.updCtx 3 (fun c => { c with pre := .preempting, byCut := true })
    let goes (s : State) (c : Cut) : Bool := decide (c.t ≤ s.stc) && !(c.op == 1 && s.cutPreempting)
    allOf [s.cuts.filter (goes s) == [c 0 9] ++ c 1 3 :: [], h.cutPreempting, h.cuts.filter (goes h) == [c 0 9], decide ((c 1 3).t ≤ h.stc)] = true := by
  decide +kernel

/-- R360, R361: a context that is PREEMPTING past its deadline with a group of it left, and with none. -/
theorem witness_deadlines :
    let s (ctx : Nat) : State := (late tenant).updCtx ctx (fun c => { c with pre := .preempting })
    let due (ctx : Nat) : Bool := decide (((s ctx).ctxSt ctx).preAt + (s ctx).pdl ((s ctx).topPrio ctx) ≤ (s ctx).stc)
    allOf [due 0, (s 0).remains 0, due 3, !(s 3).remains 3] = true := by decide +kernel

/-- R274, R356, R358, R360: a group whose image has been written while a write of it is held, and with none held; a unit that FUSE
joined; a restored group of a context that is pre-empted, and that is not saved; an image away with one wait under .SWAP, before and
after its deadline, and one that is dead. -/
theorem witness_saved_and_away :
    let q : SaveReq := { gid := 1, sh := 0, dst := .s 4, area := 0x21000, image := some 7 }
    let writing := tenant.updGroup 1 (fun g => { g with st := .writing, save := some q, launch := { g.launch with flags := 3 } })
    let held : RdPage := { RdPage.none_ 77 0 with held := [{ dev := 0, pa := 0, bytes := [], who := .save 1 }] }
    let back := (tenant.updGroup 1 (fun g => { g with st := .reclaim, save := some q, launch := { g.launch with flags := 2 } })).updCtx 0
      (fun c => { c with pre := .preempted })
    let w (dlv : Nat) : WaitSt :=
      { h := hu, x := fa (.s 16) (.s 20) (.s 14) (.v 0) 8, conds := [{ ctl := 3, w1 := 0, w2 := 0, w3 := 0 }], latched := 0, dlv := dlv,
        noLimit := false, sw := true, tag := none, ons := [] }
    let away (dlv : Nat) (dead : Bool) : Image :=
      { id := 7, groups := (base.updTiller 1 0 0 (fun t => { t with st := .eventWait (.waitv (w dlv)) })).groups, tiles := [], die := 0,
        tag := some (0, 3), area := 0x21000, seqx := [], dead := dead, wanted := none, asked := false }
    let s (dlv : Nat) (dead : Bool) : State := { late base with groups := [], images := [away dlv dead] }
    allOf [onGroup writing (fun g => g.st == .writing && (g.save.bind SaveReq.image) == some 7 && g.launch.saves),
      !writing.holdsOf (.save 1), ({ writing with rds := [held] } : State).holdsOf (.save 1),
      onGroup back (fun g => g.st == .reclaim && g.launch.saves && g.granules.all (fun k => !(back.core g.core).reclaiming.contains k)),
      (back.ctxSt 0).pre == .preempted, ((away 0 false).swapWaits.map Prod.snd) == [w 0], decide ((w 0).dlv < (s 0 false).stc),
      decide ((s 0 false).stc ≤ (w (2 ^ 63)).dlv), ((s (2 ^ 63) false).images.find? (fun m => m.groups.any (fun g => g.gid == 1))) == some (away (2 ^ 63) false),
      ((s 0 true).images.find? (fun m => m.groups.any (fun g => g.gid == 1))) == some (away 0 true)] = true := by decide +kernel

/-- R344, R348: a COPY of no bytes; a packet with BAR while an earlier one is pending; a WAIT at its deadline whose word satisfies it,
does not, cannot be read, and must be waited for; one before it, and one without. -/
theorem witness_packet_waits :
    let b (va v : Nat) : List Byte := bytesOf 64 (4 + va * 2 ^ 64 + v * 2 ^ 128)
    let w (s : State) (va v dl : Nat) : State := (late s).updSq 5 (fun x => { x with waiting := some (dl, b va v) })
    let bar : State := (queued (2 + 2 ^ 8)).updSq 5 (fun x => { x with pending := [(9, 0)] })
    allOf [packetIs (queued (5 + 0x10000 * 2 ^ 64 + 0x10800 * 2 ^ 128)) 5 (fun b t =>
        t.cmdValid 0 (pktVa b) (BitVec.ofNat 64 (pktNat b 16 8)) (BitVec.ofNat 64 (pktNat b 24 8)) 0),
      ((w (queued 0) 0x10000 0 9).waitWord 5 (b 0x10000 0)).1 matches .ok true, ((w (queued 0) 0x10000 5 9).waitWord 5 (b 0x10000 5)).1 matches .ok false,
      ((w (queued 0) 0x80000000000000 5 9).waitWord 5 (b 0x80000000000000 5)).1 matches .error .fail,
      ((w (queued 0) 0x20000 5 9).waitWord 5 (b 0x20000 5)).1 matches .error (.wait _), (w (queued 0) 0x10000 0 9).waitOf 5 == some (9, b 0x10000 0),
      decide (9 ≤ (w (queued 0) 0x10000 0 9).stc), decide ((w (queued 0) 0x10000 0 9).stc < 2 ^ 63), (bar.sq 5).pending != [],
      (bar.nextPacket 5).any (fun e => match e.1 with
        | .ok b => pktBar b
        | .error _ => false)] = true := by decide +kernel

/-! ## Witnesses: verdicts, the gleaner, flash, accesses from outside -/

/-- R126, R157, R363, R419: lanes of a log entry that wait for no verdict; pending accesses of every kind; a page whose held write may be
performed, and one whose holder does not answer. -/
theorem witness_pending_kinds :
    let e : LogEntry := { id := 4, ti := 0, instr := .ld hg (fm (.v 4) (.v 2) 2 0 0), pc := 0x10000, mask := 0xC, src := [],
                          tags := [(9, 8), (8, 4)], failed := [] }
    let left : LogEntry := { e with tags := e.tags.filter (fun t => t.1 != 9) }
    let p (on : Unanswered) : Pend := { id := 6, who := .sq 5, ti := 0, fetch := false, on := on, since := 0 }
    let s (on : Unanswered) : State := { late base with pends := [p on] }
    let page : RdPage := { RdPage.none_ 2 0 with holders := [1], due := [1], held := [{ dev := 0, pa := 0x20000, bytes := [7], who := .other }] }
    allOf [left.idle == 8, e.idle == 0, (s (.stack 11)).pends.find? (fun p => p.id == 6 && p.stack) == some (p (.stack 11)),
      (s .fabric).pends.find? (fun p => p.id == 6 && !p.stack) == some (p .fabric),
      (s (.peer 3)).pends.find? (fun p => p.id == 6 && !p.stack) == some (p (.peer 3)), !base.plat.ready0.getLsbD 19, !base.plat.ready1.getLsbD 47,
      ({ base with rds := [page] } : State).rds.find? (fun e => e.page == 2) == some page, page.due == [1], page.held.all (fun w => !w.bytes.isEmpty),
      decide (page.since + 2000000 ≤ (late base).stc), decide (base.stc < page.since + 2000000)] = true := by decide +kernel

/-- R385, R386, R388, R391: a core of which a sheaf has been chosen in its sample cycle, inside its window and outside, and one of which none
has; sheaves to choose from; flash that has been updated and whose image is gone. -/
theorem witness_samples :
    let s := (tenant.updCore 0 (fun c => { c with glnPeriod := 16, glnCtxm := 1 }))
    let e : Option GlnSheaf := s.glance 0
    let due : State := { (s.updCore 0 (fun c => { c with glnPre := some (16, e) })) with cycle := 40 }
    let off : State := due.updCore 0 (fun c => { c with glnStart := 0 })
    let after (t : State) : State := (t.updCore 0 (fun c => { (c.glnForward 16) with glnC0 := 16 })).updCore 0 (fun c => { c with glnLast := 0 })
    allOf [s.glnSheaves 0 != [], base.glnSheaves 0 == [], e.isSome, due.glnDue 0, ((due.core 0).chosen 16).isSome, ((due.core 0).chosen 17).isNone,
      e.any (fun e => e.slot == 0 && ((after due).core 0).windowOpen 16 && (((after due).core 0).glnBytes 16 e ((after due).issuedAt 0 16 e)).isSome),
      !((after off).core 0).windowOpen 16, base.groups.any (fun g => g.kind == .steward), !State.reset.groups.any (fun g => g.kind == .steward),
      (({ base with flash := some [] } : State).flash.getD [1]) == []] = true := by decide +kernel

/-- R16, R157, R363, R398, R411, R419: the host's accesses that are performed, that wait and that no function takes; another device's that are
held back, that are refused and that reach the unpopulated range; homes whose stack or fabric is not ready, that are poisoned, and of a
device that holds a cut back. -/
theorem witness_outside_waits :
    let far : Nat := 2 ^ 41 * 5 + 0x10000
    let up : State := { base with plat := { base.plat with ready1 := 1, admits := [(0, 0xFF)] }, peers := [5] }
    let latePeer : State := { up with latePeers := [(5, 1)] }
    let hold : State := { up with cuts := [{ op := 1, t := 0, ctxs := 1, held := true }] }
    let bad : State := { base with poison := [0x10000 / 128] }
    let ok (s : State) (port : HostPort) (a : Nat) (w : Option (List Byte)) (n : Nat) : Bool := s.hostPerform port (BitVec.ofNat 64 a) w n matches .ok _
    let waits (s : State) (port : HostPort) (a : Nat) (n : Nat) : Bool := s.hostPerform port (BitVec.ofNat 64 a) none n matches .error _
    let hole : Nat := hbmEnd + 64
    allOf [ok base .pf 0x10000 none 8, ok base .pf 0x10000 (some [1, 2]) 0, waits base .pf 0x20000 8, ok base .regs 0x60 none 4,
      ok base .regs 0x60 (some [1, 2, 3, 4]) 0, ok base .regs 0x1000000 none 1, ok base (.vf 32) 0x10000 none 8, ok base (.vf 31) 0x10000 none 8,
      hold.runHeld 0, !hold.runHeld 1, !hold.runHeld 32, !base.admits 3, up.admits 3, up.isLocal 0x10000, up.inHole hole, !up.inHole 0x10000,
      !base.stackReady 0x20000, bad.poisoned 0x10000 8, up.homeOf far == .far far, !base.fabricUp, up.fabricUp, latePeer.lateFor 0 far,
      !latePeer.lateFor 32 far, !up.lateFor 0 far, (up.rdOf far).isNone, up.admitted far, decide (far % 2 ^ 41 < hbmEnd), up.homeOf hole == .hole] = true := by
  decide +kernel

/-- R157, R159, R405, R412: a page without holders or held writes, and one of either; a sector whose stack is not ready; a queue that a tiller
waits at when it is unregistered; a mailbox with a request, and a request for a certificate beyond what the mailbox holds. -/
theorem witness_pages_and_queues :
    let page (h : List Nat) (w : List HeldWrite) : RdPage := { RdPage.none_ 1 0 with holders := h, held := w }
    let s (e : RdPage) : State := { base with rds := [e] }
    let w : HeldWrite := { dev := 1, pa := 0x10000, bytes := [7], who := .other }
    let wq : State := base.updTiller 1 0 0 (fun t => { t with queued := some { order := 0, cycle := 0, scalars := [], upreds := 0, gone := [] } })
    let ready : State := { base with plat := { base.plat with ready0 := 2, doeReqLen := 8 } }
    let req : List Byte := [0x12, 0x82, 0, 0, 0, 0, 0xFF, 0xFF]
    allOf [(s (page [] [])).rdOf 0x10000 == some (page [] []), (s (page [2] [])).rdOf 0x10000 == some (page [2] []),
      (s (page [] [w])).rdOf 0x10000 == some (page [] [w]), !base.stackReady 0x20000, base.inHbm 0x20000, (0x20000 : Nat) % 128 == 0,
      ((wq.group? 1).map (fun g => g.forgetQueue 0 5)).any (fun g => g.sheaves.all (fun x => x.tillers.all (fun t => t.queued.isSome))),
      ready.plat.doeReqLen != 0, ready.plat.ready0.getLsbD 1, decide (8184 < natOf ((req.drop 6).take 2)), decide (8 ≤ req.length)] = true := by
  decide +kernel

end Sys2Proof.Tests
end

/-! SUPPORT. The forms in which the claims about register instructions are stated, derived from the meaning's own
`regOp`; and what a word that is no Illegal Instruction says of its FN field and of its unused fields (R83, R91). -/

namespace Sys2Proof.Machine

/-! ## From a meaning to its claim -/

section
variable {i : Instr} {h : Hdr} {d : Opd}

theorem writes_nothing_regOp (hx : ∀ s, exec i s = regOp i h s (fun _ => [])) : Writes i h (fun _ => []) := by
  have hnil : (fun rs : List Rd => rs.flatMap (fun _ => ([] : List RegWrite))) = fun _ => [] :=
    funext (fun _ => List.flatMap_eq_nil_iff.mpr (fun _ _ => rfl))
  exact hnil ▸ writes_regOp hx

theorem gives_regOp {v : Rd → Word} (hx : ∀ s, exec i s = regOp i h s (fun r => r.put d (v r))) : Gives i h d v :=
  writes_regOp hx

theorem gives64_regOp {v : Rd → DWord} (hx : ∀ s, exec i s = regOp i h s (fun r => r.put64 d (v r))) :
    Gives64 i h d v :=
  writes_regOp hx

theorem givesPr_regOp {v : Rd → Bool} (hx : ∀ s, exec i s = regOp i h s (fun r => r.putPr d (v r))) :
    GivesPr i h d v :=
  writes_regOp hx

theorem givesSuch_regOp {p : Rd → Word → Prop} (v : Rd → Word)
    (hx : ∀ s, exec i s = regOp i h s (fun r => r.put d (v r))) (hp : ∀ r, p r (v r)) : GivesSuch i h d p :=
  ⟨v, hp, gives_regOp hx⟩

theorem givesSuchPr_regOp {p : Rd → Bool → Prop} (v : Rd → Bool)
    (hx : ∀ s, exec i s = regOp i h s (fun r => r.putPr d (v r))) (hp : ∀ r, p r (v r)) : GivesSuchPr i h d p :=
  ⟨v, hp, givesPr_regOp hx⟩

end

/-! ## What decode has checked of a word -/

/-- A word that is no Illegal Instruction keeps its row: its FN is allowed and the unused fields are 0 (R83, R91). -/
theorem row_of_reject_eq_none {i : Instr} (h : i.reject = none) :
    (i.row 256).fn = true ∧ (i.row 256).unusedZero = true := by
  unfold Instr.reject at h
  by_cases hf : (i.row 256).fn = true
  · by_cases hz : (i.row 256).unusedZero = true
    · exact ⟨hf, hz⟩
    · simp [hf, hz] at h
  · simp [hf] at h

/-- FN is bounded as the row bounds it. -/
theorem fnAllows_of_row {i : Instr} {x : FA} {p : Nat → Prop} (h : (i.row 256).fn = true → p x.fn.toNat) :
    FnAllows i x p :=
  fun hr => h (row_of_reject_eq_none hr).1

theorem fnIn_one_lt : ∀ {fn : BitVec 8}, fnIn fn 1 = true → fn.toNat < 2 := by decide

theorem fnIn_three_lt : ∀ {fn : BitVec 8}, fnIn fn 3 = true → fn.toNat < 4 := by decide

theorem toNat_of_beq_zero {fn : BitVec 8} (h : (fn == 0) = true) : fn.toNat = 0 :=
  congrArg BitVec.toNat (eq_of_beq h)

/-- Under a row that uses no operand field, every field holds 0 (R83). -/
theorem codes_of_unused_row {x : FA} {fn lim : Bool} (h : (x.row fn .no .no .no .no lim).unusedZero = true) :
    ∀ o ∈ [x.d, x.a, x.b, x.c], o.code = 0 := by
  simpa [FA.row, Row.unusedZero] using h

end Sys2Proof.Machine

/-! SUPPORT. Integer arithmetic: the range of a type, and reduction by trunc or by clamping (R51, R52, R171). -/

namespace Sys2Proof.Machine

/-! ## The range of N32 and I32 -/

/-- The smallest value of N32 or I32 (R51). -/
def typeMin (u32 : Bool) : Int := if u32 then 0 else -(2 ^ 31)

/-- The largest value of N32 or I32 (R51). -/
def typeMax (u32 : Bool) : Int := if u32 then 2 ^ 32 - 1 else 2 ^ 31 - 1

theorem typeMin_le_intOf (u : Bool) (w : Word) : typeMin u ≤ intOf u w := by
  cases u with
  | true => exact Int.natCast_nonneg _
  | false => exact BitVec.le_toInt w

theorem intOf_le_typeMax (u : Bool) (w : Word) : intOf u w ≤ typeMax u := by
  cases u with
  | true =>
    have := w.isLt
    simp only [intOf, typeMax, if_true]
    omega
  | false =>
    have := BitVec.toInt_lt (x := w)
    simp only [intOf, typeMax, Bool.false_eq_true, if_false]
    omega

/-- A value in the range of its type is kept by truncation. -/
theorem intOf_ofInt {u : Bool} {x : Int} (hlo : typeMin u ≤ x) (hhi : x ≤ typeMax u) :
    intOf u (BitVec.ofInt 32 x) = x := by
  cases u with
  | true =>
    simp only [typeMin, typeMax, if_true] at hlo hhi
    simp only [intOf, if_true, BitVec.toNat_ofInt]
    omega
  | false =>
    simp only [typeMin, typeMax, Bool.false_eq_true, if_false] at hlo hhi
    exact BitVec.toInt_ofInt_eq_self (by decide) (by omega) (by omega)

theorem clampInt_eq {lo hi x : Int} (h : lo ≤ hi) : clampInt lo hi x = max lo (min hi x) := by
  unfold clampInt
  split
  · omega
  · split <;> omega

theorem clampInt_of_mem {lo hi x : Int} (hlo : lo ≤ x) (hhi : x ≤ hi) : clampInt lo hi x = x := by
  rw [clampInt, if_neg (by omega), if_neg (by omega)]

theorem reduce32_eq (u sat : Bool) (x : Int) :
    reduce32 u sat x = BitVec.ofInt 32 (if sat then clampInt (typeMin u) (typeMax u) x else x) := by
  cases u <;> cases sat <;> rfl

/-- R171: the model's reduction is trunc without .SAT, and under .SAT the clamp to the type's range. -/
theorem reduced_reduce32 (u sat : Bool) (x : Int) : Reduced u sat x (reduce32 u sat x) := by
  have hle : typeMin u ≤ typeMax u := by cases u <;> decide
  rw [reduce32_eq]
  cases sat with
  | false => rfl
  | true =>
    have h := intOf_ofInt (u := u) (x := max (typeMin u) (min (typeMax u) x)) (by omega) (by omega)
    rw [if_pos rfl, clampInt_eq hle]
    cases u <;> exact h

/-- A value in the range of its type is kept by reduction, with or without .SAT. -/
theorem intOf_reduce32 {u : Bool} (sat : Bool) {x : Int} (hlo : typeMin u ≤ x) (hhi : x ≤ typeMax u) :
    intOf u (reduce32 u sat x) = x := by
  rw [reduce32_eq, clampInt_of_mem hlo hhi, ite_self, intOf_ofInt hlo hhi]

/-! ## The instructions of R171 -/

section
variable {i : Instr} {h : Hdr} {x : FA} {op : Int → Int → Int → Int}

/-- Every instruction of R171 writes its exact effect, reduced. -/
theorem reduces_intOp (hx : ∀ s, exec i s = intOp i h x s op) :
    GivesSuch i h x.d (fun r => Reduced (x.fn.getLsbD 0) (x.fn.getLsbD 1)
      (op (intOf (x.fn.getLsbD 0) (r.w32 x.a)) (intOf (x.fn.getLsbD 0) (r.w32 x.b)) (intOf (x.fn.getLsbD 0) (r.w32 x.c)))) :=
  givesSuch_regOp _ hx (fun _ => reduced_reduce32 _ _ _)

/-- An effect that never leaves the range of its type is written as it is. -/
theorem exact_intOp (hx : ∀ s, exec i s = intOp i h x s op)
    (hop : ∀ (u : Bool) (a b c : Word), typeMin u ≤ op (intOf u a) (intOf u b) (intOf u c) ∧
      op (intOf u a) (intOf u b) (intOf u c) ≤ typeMax u) :
    GivesSuch i h x.d (fun r v => intOf (x.fn.getLsbD 0) v =
      op (intOf (x.fn.getLsbD 0) (r.w32 x.a)) (intOf (x.fn.getLsbD 0) (r.w32 x.b)) (intOf (x.fn.getLsbD 0) (r.w32 x.c))) :=
  givesSuch_regOp _ hx (fun r =>
    intOf_reduce32 _ (hop _ (r.w32 x.a) (r.w32 x.b) (r.w32 x.c)).1 (hop _ (r.w32 x.a) (r.w32 x.b) (r.w32 x.c)).2)

end

/-- The high word of a product lies in the range of its type. -/
theorem mulHigh_mem (u : Bool) (a b : Word) :
    typeMin u ≤ intOf u a * intOf u b / 2 ^ 32 ∧ intOf u a * intOf u b / 2 ^ 32 ≤ typeMax u := by
  have ha := typeMin_le_intOf u a
  have ha' := intOf_le_typeMax u a
  have hb := typeMin_le_intOf u b
  have hb' := intOf_le_typeMax u b
  generalize intOf u a = m at *
  generalize intOf u b = n at *
  cases u with
  | true =>
    simp only [typeMin, typeMax, if_true] at *
    have hlo : 0 ≤ m * n := Int.mul_nonneg ha hb
    have hhi : m * n ≤ (2 ^ 32 - 1) * (2 ^ 32 - 1) := Int.mul_le_mul ha' hb' hb (by decide)
    omega
  | false =>
    simp only [typeMin, typeMax, Bool.false_eq_true, if_false] at *
    have habs : |m * n| ≤ 2 ^ 31 * 2 ^ 31 := by
      rw [abs_mul]
      exact mul_le_mul (abs_le.mpr ⟨by omega, by omega⟩) (abs_le.mpr ⟨by omega, by omega⟩) (abs_nonneg n) (by decide)
    obtain ⟨hlo, hhi⟩ := abs_le.mp habs
    omega

theorem min_mem (u : Bool) (a b : Word) :
    typeMin u ≤ min (intOf u a) (intOf u b) ∧ min (intOf u a) (intOf u b) ≤ typeMax u :=
  ⟨le_min (typeMin_le_intOf u a) (typeMin_le_intOf u b), (min_le_left _ _).trans (intOf_le_typeMax u a)⟩

theorem max_mem (u : Bool) (a b : Word) :
    typeMin u ≤ max (intOf u a) (intOf u b) ∧ max (intOf u a) (intOf u b) ≤ typeMax u :=
  ⟨(typeMin_le_intOf u a).trans (le_max_left _ _), max_le (intOf_le_typeMax u a) (intOf_le_typeMax u b)⟩

/-- IABSD's sum, which is no negative number, as a natural number (R171). -/
theorem execIabsd_eq (h : Hdr) (x : FA) (s : State) :
    execIabsd h x s = regOp (.iabsd h x) h s (fun r => r.put x.d (BitVec.ofNat 32
      ((intOf (x.fn.getLsbD 0) (r.w32 x.a) - intOf (x.fn.getLsbD 0) (r.w32 x.b)).natAbs + (r.w32 x.c).toNat))) := by
  simp only [execIabsd, ← BitVec.ofInt_natCast, Nat.cast_add]

/-- NOP's word has FN 0 and no operand (R171, R83). -/
theorem nop_fields {h : Hdr} {x : FA} (hr : (Instr.nop h x).reject = none) :
    x.fn = 0 ∧ ∀ o ∈ [x.d, x.a, x.b, x.c], o.code = 0 := by
  obtain ⟨hfn, hz⟩ := row_of_reject_eq_none hr
  exact ⟨eq_of_beq hfn, codes_of_unused_row hz⟩

/-- Settles O1: each meaning is `regOp` of its exact effect, `reduced_reduce32` says what reduction leaves of it, and the
effects of IMULH, IMIN and IMAX never leave the type's range. -/
theorem integerArithmetic : Obligations.IntegerArithmetic := by
  unfold Obligations.IntegerArithmetic
  intro h x u sat
  refine ⟨writes_nothing_regOp (exec_nop h x), reduces_intOp (exec_iadd h x), reduces_intOp (exec_isub h x),
    reduces_intOp (exec_imul h x), exact_intOp (exec_imulh h x) (fun u a b _ => mulHigh_mem u a b),
    reduces_intOp (exec_imad h x), exact_intOp (exec_imin h x) (fun u a b _ => min_mem u a b),
    exact_intOp (exec_imax h x) (fun u a b _ => max_mem u a b),
    gives_regOp (fun s => (exec_iabsd h x s).trans (execIabsd_eq h x s)), ?_, ?_, nop_fields⟩
  · simp only [List.forall_mem_cons, List.not_mem_nil, false_implies, implies_true, and_true]
    exact ⟨fnAllows_of_row fnIn_three_lt, fnAllows_of_row fnIn_three_lt, fnAllows_of_row fnIn_three_lt,
      fnAllows_of_row fnIn_three_lt⟩
  · simp only [List.forall_mem_cons, List.not_mem_nil, false_implies, implies_true, and_true]
    exact ⟨fnAllows_of_row fnIn_one_lt, fnAllows_of_row fnIn_one_lt, fnAllows_of_row fnIn_one_lt,
      fnAllows_of_row fnIn_one_lt⟩

end Sys2Proof.Machine

/-! SUPPORT. Bits: of a union of words, of a natural number's length, of a field, and the values of R176 and R177. -/

namespace Sys2Proof.Machine

/-! ## Unions of words -/

/-- Bit j of the union, over the members of a list that a test picks, of a word for each. -/
theorem getLsbD_foldl_or {α : Type} {w : Nat} (p : α → Bool) (g : α → BitVec w) (l : List α) (acc : BitVec w)
    (j : Nat) : (l.foldl (fun m e => if p e then m ||| g e else m) acc).getLsbD j =
      (acc.getLsbD j || l.any (fun e => p e && (g e).getLsbD j)) := by
  induction l generalizing acc with
  | nil => simp
  | cons e l ih => cases h : p e <;> simp [ih, h, Bool.or_assoc]

theorem getLsbD_union {α : Type} {w : Nat} (p : α → Bool) (g : α → BitVec w) (l : List α) (j : Nat) :
    (l.foldl (fun m e => if p e then m ||| g e else m) 0).getLsbD j = l.any (fun e => p e && (g e).getLsbD j) := by
  rw [getLsbD_foldl_or, BitVec.ofNat_eq_ofNat, BitVec.getLsbD_zero, Bool.false_or]

/-- Where a test holds of one number alone, it picks that number of a range, if it is in the range. -/
theorem any_range_and_eq {n m : Nat} (p q : Nat → Bool) (hq : ∀ i, i < n → q i = decide (i = m)) :
    (List.range n).any (fun i => p i && q i) = (decide (m < n) && p m) := by
  rw [Bool.eq_iff_iff]
  simp only [List.any_eq_true, List.mem_range, Bool.and_eq_true, decide_eq_true_eq]
  constructor
  · rintro ⟨i, hi, hp, hqi⟩
    rw [hq i hi, decide_eq_true_eq] at hqi
    exact hqi ▸ ⟨hi, hp⟩
  · exact fun ⟨hm, hp⟩ => ⟨m, hm, hp, by rw [hq m hm, decide_eq_true rfl]⟩

theorem any_range_and_eq_of_lt {n m : Nat} (p q : Nat → Bool) (hm : m < n) (hq : ∀ i, i < n → q i = decide (i = m)) :
    (List.range n).any (fun i => p i && q i) = p m := by
  rw [any_range_and_eq p q hq, decide_eq_true hm, Bool.true_and]

theorem getLsbD_ofNat_two_pow {w k : Nat} (i : Nat) (hk : k < w) :
    (BitVec.ofNat w (2 ^ i)).getLsbD k = decide (i = k) := by
  rw [BitVec.getLsbD_ofNat, decide_eq_true hk, Bool.true_and, Nat.testBit_two_pow]

/-! ## BITF and BREV -/

theorem getLsbD_ite_not {c : Prop} [Decidable c] (a : Word) {k : Nat} (hk : k < 32) :
    (if c then a else ~~~a).getLsbD k = (a.getLsbD k == decide c) := by
  by_cases hc : c <;> cases ha : a.getLsbD k <;> simp [-BitVec.getLsbD_eq_getElem, hc, ha, hk]

/-- Of the eight products of three bits or their complements, the one that holds is the one their number names. -/
theorem minterm_eq : ∀ (p q r : Bool) (t : Nat), t < 8 →
    (p == decide (t % 2 = 1) && q == decide (t / 2 % 2 = 1) && r == decide (t / 4 = 1)) =
      decide (t = (if p then 1 else 0) + (if q then 2 else 0) + (if r then 4 else 0)) := by decide

/-- R176: bit k of BITF is the table's bit of the three source bits. -/
theorem getLsbD_bitfVal (table : BitVec 8) (a b c : Word) {k : Nat} (hk : k < 32) :
    (bitfVal table a b c).getLsbD k = table.getLsbD
      ((if a.getLsbD k then 1 else 0) + (if b.getLsbD k then 2 else 0) + (if c.getLsbD k then 4 else 0)) := by
  rw [bitfVal, getLsbD_union]
  refine any_range_and_eq_of_lt _ _ ?_ (fun t ht => ?_)
  · split <;> split <;> split <;> decide
  · rw [BitVec.getLsbD_and, BitVec.getLsbD_and, getLsbD_ite_not a hk, getLsbD_ite_not b hk, getLsbD_ite_not c hk]
    exact minterm_eq _ _ _ t ht

/-- R177: BREV mirrors the bits. -/
theorem getLsbD_brevVal (a : Word) {k : Nat} (hk : k < 32) : (brevVal a).getLsbD k = a.getLsbD (31 - k) := by
  rw [brevVal, getLsbD_union]
  refine any_range_and_eq_of_lt _ _ (by omega) (fun i hi => ?_)
  rw [getLsbD_ofNat_two_pow _ hk, decide_eq_decide]
  omega

/-! ## Shifts -/

theorem shlVal_eq (fn : BitVec 8) (a b : Word) : shlVal fn a b = a <<< shiftBy fn b := by
  unfold shlVal
  split
  · rename_i hn
    exact (BitVec.shiftLeft_eq_zero hn).symm
  · rfl

/-- A shift of 32 or more leaves copies of the sign, or zeros, as any other shift does. -/
theorem shrVal_eq (fn : BitVec 8) (a b : Word) :
    shrVal fn a b = if fn.getLsbD 1 then a.sshiftRight (shiftBy fn b) else a >>> shiftBy fn b := by
  unfold shrVal
  by_cases hn : shiftBy fn b ≥ 32
  · cases fn.getLsbD 1 with
    | false => simp [hn, BitVec.ushiftRight_eq_zero hn]
    | true =>
      cases hm : a.msb with
      | false => simp [hn, BitVec.sshiftRight_eq_of_msb_false hm, BitVec.ushiftRight_eq_zero hn]
      | true => simp [hn, BitVec.sshiftRight_eq_of_msb_true hm, BitVec.ushiftRight_eq_zero hn]
  · simp [hn]

theorem toNat_shlVal (fn : BitVec 8) (a b : Word) : (shlVal fn a b).toNat = a.toNat * 2 ^ shiftBy fn b % 2 ^ 32 := by
  rw [shlVal_eq, BitVec.toNat_shiftLeft, Nat.shiftLeft_eq]

/-- R177: SHR divides, toward −∞ under .A, by the power of two. -/
theorem shrVal_spec (fn : BitVec 8) (a b : Word) :
    if fn.getLsbD 1 then (shrVal fn a b).toInt = a.toInt / 2 ^ shiftBy fn b
    else (shrVal fn a b).toNat = a.toNat / 2 ^ shiftBy fn b := by
  rw [shrVal_eq]
  split
  · rw [BitVec.toInt_sshiftRight, Int.shiftRight_eq_div_pow]
    norm_cast
  · rw [BitVec.toNat_ushiftRight, Nat.shiftRight_eq_div_pow]

/-! ## Fields -/

/-- The position of BFX's and BFI's field (R177). -/
def fieldPos (b : Word) : Nat := b.toNat % 256

/-- The length of BFX's and BFI's field, clipped at bit 31 (R177). -/
def fieldLen (b : Word) : Nat := min (b.toNat / 256 % 256) (32 - fieldPos b)

theorem bitField_eq (b : Word) : bitField b = if fieldLen b = 0 then none else some (fieldPos b, fieldLen b) := by
  have hempty : (b.toNat % 256 ≥ 32 ∨ b.toNat / 256 % 256 = 0) ↔ fieldLen b = 0 := by
    simp only [fieldLen, fieldPos]
    omega
  simp only [bitField, hempty]
  rfl

/-- Reading the bits of a word as two's complement. -/
theorem sextNat_toNat {l : Nat} (hl : 0 < l) (e : BitVec l) : sextNat l e.toNat = e.toInt := by
  obtain ⟨n, rfl⟩ : ∃ n, l = n + 1 := ⟨l - 1, by omega⟩
  have hhalf : 2 * e.toNat < 2 ^ (n + 1) ↔ e.toNat < 2 ^ n := by
    rw [Nat.pow_succ]
    omega
  simp only [sextNat, Nat.mod_eq_of_lt e.isLt, BitVec.toInt_eq_toNat_cond, Nat.add_sub_cancel, hhalf]
  norm_cast

/-- BFX's value is the field of a, extended. -/
theorem bfxVal_of_field {fn : BitVec 8} {a b : Word} (hl : 0 < fieldLen b) :
    bfxVal fn a b = if fn.getLsbD 0 then (a.extractLsb' (fieldPos b) (fieldLen b)).signExtend 32
      else (a.extractLsb' (fieldPos b) (fieldLen b)).setWidth 32 := by
  have hfield : a.toNat / 2 ^ fieldPos b % 2 ^ fieldLen b = (a.extractLsb' (fieldPos b) (fieldLen b)).toNat := by
    rw [BitVec.extractLsb'_toNat, Nat.shiftRight_eq_div_pow]
  simp only [bfxVal, bitField_eq, Nat.ne_of_gt hl, if_false, hfield, sextNat_toNat hl, BitVec.ofNat_toNat]
  rfl

/-- R177: BFX's bits are the field's, then 0 or copies of the field's highest. -/
theorem getLsbD_bfxVal (fn : BitVec 8) (a b : Word) {k : Nat} (hk : k < 32) :
    (bfxVal fn a b).getLsbD k = if k < fieldLen b then a.getLsbD (fieldPos b + k)
      else fn.getLsbD 0 && decide (0 < fieldLen b) && a.getLsbD (fieldPos b + fieldLen b - 1) := by
  rcases Nat.eq_zero_or_pos (fieldLen b) with hz | hl
  · simp [bfxVal, bitField_eq, hz]
  · have hlast : fieldPos b + (fieldLen b - 1) = fieldPos b + fieldLen b - 1 := by omega
    rw [bfxVal_of_field hl]
    cases fn.getLsbD 0 with
    | false => simp [-BitVec.getLsbD_eq_getElem, hk]
    | true =>
      rw [if_pos rfl, BitVec.getLsbD_signExtend, BitVec.msb_eq_getLsbD_last, BitVec.getLsbD_extractLsb',
        BitVec.getLsbD_extractLsb', hlast]
      by_cases hin : k < fieldLen b <;> simp [-BitVec.getLsbD_eq_getElem, hk, hl, hin]

/-- R177: BFI puts the low bits of a into the field of c. -/
theorem getLsbD_bfiVal (a b c : Word) {k : Nat} (hk : k < 32) :
    (bfiVal a b c).getLsbD k = if fieldPos b ≤ k ∧ k < fieldPos b + fieldLen b then a.getLsbD (k - fieldPos b)
      else c.getLsbD k := by
  by_cases hz : fieldLen b = 0
  · rw [if_neg (by omega), bfiVal, bitField_eq, if_pos hz]
  · have hmask : (BitVec.ofNat 32 ((2 ^ fieldLen b - 1) * 2 ^ fieldPos b)).getLsbD k =
        (decide (fieldPos b ≤ k) && decide (k - fieldPos b < fieldLen b)) := by
      rw [BitVec.getLsbD_ofNat, decide_eq_true hk, Bool.true_and, Nat.testBit_mul_two_pow, Nat.testBit_two_pow_sub_one]
    rw [bfiVal, bitField_eq, if_neg hz]
    simp only [BitVec.getLsbD_or, BitVec.getLsbD_and, BitVec.getLsbD_not, BitVec.getLsbD_shiftLeft, hmask, hk]
    by_cases hlo : fieldPos b ≤ k
    · by_cases hhi : k - fieldPos b < fieldLen b
      · rw [if_pos (by omega)]
        simp [hlo, hhi]
      · rw [if_neg (by omega)]
        simp [hhi]
    · rw [if_neg (by omega)]
      simp [hlo]

/-! ## Counting bits -/

theorem toNat_popcVal (a : Word) : (popcVal a).toNat = (List.range 32).countP (fun k => a.getLsbD k) := by
  have hle : (List.range 32).countP (fun k => a.getLsbD k) ≤ 32 := List.countP_le_length
  rw [popcVal, ← List.countP_eq_length_filter, BitVec.toNat_ofNat, Nat.mod_eq_of_lt (by omega)]

/-- The model's bit length is the library's. -/
theorem bitLen_eq_size (n : Nat) : bitLen n = n.size := by
  by_cases hn : n = 0
  · simp [bitLen, hn]
  · rw [bitLen, if_neg hn]
    exact Nat.le_antisymm (Nat.lt_size.mpr (Nat.log2_self_le hn)) (Nat.size_le.mpr Nat.lt_log2_self)

theorem testBit_bitLen_sub_one {n : Nat} (h : 0 < bitLen n) : n.testBit (bitLen n - 1) = true := by
  have hn : n ≠ 0 := by
    rintro rfl
    exact absurd h (by decide)
  rw [bitLen, if_neg hn]
  exact Nat.testBit_log2 hn

theorem testBit_of_bitLen_le {n k : Nat} (h : bitLen n ≤ k) : n.testBit k = false :=
  Nat.testBit_lt_two_pow (Nat.size_le.mp (bitLen_eq_size n ▸ h))

/-- What the m bits from bit m − 1 down show of a word below 2^m: zeros, as many as m exceeds the word's length, then
a 1 if any bit is left. -/
theorem leadingZeros {m : Nat} {y : Word} (hy : y.toNat < 2 ^ m) :
    (∀ k, k < m - bitLen y.toNat → y.getLsbD (m - 1 - k) = false) ∧
      (m - bitLen y.toNat < m → y.getLsbD (m - 1 - (m - bitLen y.toNat)) = true) := by
  have hle : bitLen y.toNat ≤ m := bitLen_eq_size y.toNat ▸ Nat.size_le.mpr hy
  constructor
  · exact fun k hk => testBit_of_bitLen_le (by omega)
  · intro h
    rw [show m - 1 - (m - bitLen y.toNat) = bitLen y.toNat - 1 by omega]
    exact testBit_bitLen_sub_one (by omega)

/-- A word with its bits inverted when it is negative: what CLZ.S counts (R177). -/
def unsign (a : Word) : Word := if a.msb then ~~~a else a

theorem getLsbD_unsign (a : Word) {k : Nat} (hk : k < 32) : (unsign a).getLsbD k = (a.getLsbD k ^^ a.msb) := by
  unfold unsign
  cases a.msb <;> simp [hk]

theorem toNat_unsign_lt (a : Word) : (unsign a).toNat < 2 ^ 31 := by
  have hmsb : (unsign a).msb = false := by
    rw [BitVec.msb_eq_getLsbD_last, getLsbD_unsign a (by decide), BitVec.msb_eq_getLsbD_last, Bool.xor_self]
  exact BitVec.toNat_lt_of_msb_false hmsb

/-- R177: CLZ counts the leading zeros, and under .S the bits below the sign that equal it. -/
theorem clzVal_spec (fn : BitVec 8) (a : Word) :
    if fn.getLsbD 0 then
      (clzVal fn a).toNat ≤ 31 ∧ (∀ k, k < (clzVal fn a).toNat → a.getLsbD (30 - k) = a.msb) ∧
        ((clzVal fn a).toNat < 31 → a.getLsbD (30 - (clzVal fn a).toNat) ≠ a.msb)
    else (clzVal fn a).toNat ≤ 32 ∧ (∀ k, k < (clzVal fn a).toNat → a.getLsbD (31 - k) = false) ∧
        ((clzVal fn a).toNat < 32 → a.getLsbD (31 - (clzVal fn a).toNat) = true) := by
  cases hs : fn.getLsbD 0 with
  | true =>
    have hv : (clzVal fn a).toNat = 31 - bitLen (unsign a).toNat := by
      rw [clzVal, if_pos hs, BitVec.toNat_ofNat, Nat.mod_eq_of_lt (by omega)]
      rfl
    obtain ⟨hzero, hone⟩ := leadingZeros (toNat_unsign_lt a)
    rw [if_pos rfl, hv]
    refine ⟨by omega, fun k hk => ?_, fun h => ?_⟩
    · have := hzero k hk
      rwa [getLsbD_unsign a (by omega), bne_eq_false_iff_eq] at this
    · have := hone h
      rwa [getLsbD_unsign a (by omega), bne_iff_ne] at this
  | false =>
    have hv : (clzVal fn a).toNat = 32 - bitLen a.toNat := by
      rw [clzVal, hs, if_neg Bool.false_ne_true, BitVec.toNat_ofNat, Nat.mod_eq_of_lt (by omega)]
    obtain ⟨hzero, hone⟩ := leadingZeros a.isLt
    rw [if_neg Bool.false_ne_true, hv]
    exact ⟨by omega, hzero, hone⟩

/-- Settles O3: one lemma for the bits or the value of each operation, and the rows for the modifiers. -/
theorem bitOperations : Obligations.BitOperations := by
  intro h x w n pos len
  refine ⟨givesSuch_regOp _ (exec_bitf h x) (fun _ _ hk => getLsbD_bitfVal _ _ _ _ hk),
    givesSuch_regOp _ (exec_shl h x) (fun _ => toNat_shlVal _ _ _),
    givesSuch_regOp _ (exec_shr h x) (fun _ => shrVal_spec _ _ _),
    givesSuch_regOp _ (exec_bfx h x) (fun _ _ hk => getLsbD_bfxVal _ _ _ hk),
    givesSuch_regOp _ (exec_bfi h x) (fun _ _ hk => getLsbD_bfiVal _ _ _ hk),
    givesSuch_regOp _ (exec_popc h x) (fun _ => toNat_popcVal _),
    givesSuch_regOp _ (exec_clz h x) (fun _ => clzVal_spec _ _),
    givesSuch_regOp _ (exec_brev h x) (fun _ _ hk => getLsbD_brevVal _ hk),
    fnAllows_of_row fnIn_one_lt, fnAllows_of_row fnIn_three_lt, fnAllows_of_row fnIn_one_lt,
    fnAllows_of_row toNat_of_beq_zero, fnAllows_of_row toNat_of_beq_zero, fnAllows_of_row fnIn_one_lt,
    fnAllows_of_row toNat_of_beq_zero⟩

end Sys2Proof.Machine

/-! SUPPORT. Comparison, selection and the moves (R178 to R181). -/

namespace Sys2Proof.Machine

/-! ## Fields of FN -/

theorem toNat_extractLsb' (fn : BitVec 8) (start len : Nat) :
    (fn.extractLsb' start len).toNat = fn.toNat / 2 ^ start % 2 ^ len := by
  rw [BitVec.extractLsb'_toNat, Nat.shiftRight_eq_div_pow]

/-- The field of a comparison: bits 2:0 (R178). -/
theorem toNat_cmpField (fn : BitVec 8) : (fn.extractLsb' 0 3).toNat = fn.toNat % 8 := by
  rw [toNat_extractLsb']
  omega

/-- The field of a combination: bits 5:4 (R178, R187). -/
theorem toNat_combField (fn : BitVec 8) : (fn.extractLsb' 4 2).toNat = fn.toNat / 16 % 4 :=
  toNat_extractLsb' fn 4 2

/-! ## The tables of R178 -/

theorem icmpRel_eq_getD (code : Nat) (a b : Int) :
    icmpRel code a b = [decide (a = b), decide (a ≠ b), decide (a < b), decide (a ≤ b), decide (a > b),
      decide (a ≥ b)].getD code (decide (a ≥ b)) := by
  match code with
  | 0 | 2 | 3 | 4 | 5 | _ + 6 => rfl
  | 1 => exact (decide_not (p := a = b)).symm

theorem combine_eq_getD (code : Nat) (x c : Bool) :
    combine code x c = [x && c, x || c, x ^^ c].getD code (x ^^ c) := by
  match code with
  | 0 | 1 | 2 | _ + 3 => rfl

/-- R178: the predicate that ICMP writes. -/
theorem icmpVal_eq (fn : BitVec 8) (a b : Word) (c : Bool) :
    icmpVal fn a b c = combine (fn.toNat / 16 % 4)
      (icmpRel (fn.toNat % 8) (intOf (fn.getLsbD 3) a) (intOf (fn.getLsbD 3) b)) c := by
  rw [icmpVal, toNat_cmpField, toNat_combField]

/-- ICMP's FN names one of six comparisons and one of three combinations (R178). -/
theorem icmpFn_lt : ∀ {fn : BitVec 8}, icmpFn fn = true → fn.toNat % 8 < 6 ∧ fn.toNat < 48 := by decide

/-! ## Moves -/

theorem execSel_eq (h : Hdr) (x : FA) (s : State) :
    execSel h x s = regOp (.sel h x) h s (fun r => r.put x.d (bif r.pr x.c then r.w32 x.a else r.w32 x.b)) := by
  simp only [execSel, cond_eq_ite]

theorem execMov_of_zero {h : Hdr} {x : FA} (hf : x.fn = 0) (s : State) :
    execMov h x s = regOp (.mov h x) h s (fun r => r.put x.d (r.w32 x.a)) := by
  rw [execMov, hf]
  rfl

theorem execMov_of_one {h : Hdr} {x : FA} (hf : x.fn = 1) (s : State) :
    execMov h x s = regOp (.mov h x) h s (fun r => r.put64 x.d (r.w64 x.a)) := by
  rw [execMov, hf]
  rfl

theorem mov_fn_lt {h : Hdr} {x : FA} (hfn : ((Instr.mov h x).row 256).fn = true) : x.fn.toNat < 2 := by
  by_cases h1 : x.fn = 1
  · rw [h1]
    decide
  · have hb : ¬ (x.fn == 1) = true := fun hb => h1 (eq_of_beq hb)
    rw [Instr.row, if_neg hb] at hfn
    rw [toNat_of_beq_zero hfn]
    decide

section
variable {h : Hdr} {y : FI}

/-- R181: the short forms extend IMM24 by its sign or by zeros. -/
theorem gives_movi {w : BitVec 24} (hw : y.imm = .short w) : Gives (.movi h y) h y.d (fun _ => w.signExtend 32) :=
  gives_regOp (fun s => by rw [exec_movi, execMovi, hw]; rfl)

theorem gives_moviZ {w : BitVec 24} (hw : y.imm = .short w) : Gives (.moviZ h y) h y.d (fun _ => w.setWidth 32) :=
  gives_regOp (fun s => by rw [exec_moviZ, execMoviZ, hw]; rfl)

/-- R181: the long forms write the low half of the second word, or all of it. -/
theorem gives_moviLong {w : DWord} (hw : y.imm = .long w) :
    Gives (.moviLong h y) h y.d (fun _ => w.extractLsb' 0 32) :=
  gives_regOp (fun s => by
    rw [exec_moviLong, execMoviLong, hw, immVal, BitVec.setWidth_eq_extractLsb' (by decide)])

theorem gives64_movi64 {w : DWord} (hw : y.imm = .long w) : Gives64 (.movi64 h y) h y.d (fun _ => w) :=
  gives64_regOp (fun s => by rw [exec_movi64, execMovi64, hw])

end

/-- Settles O4: the tables of R178, and one lemma for each form of a move. -/
theorem compareSelectMove : Obligations.CompareSelectMove := by
  intro h x y
  refine ⟨givesSuchPr_regOp _ (exec_icmp h x) (fun r => ?_),
    gives_regOp (fun s => (exec_sel h x s).trans (execSel_eq h x s)),
    fun hf => gives_regOp (fun s => (exec_mov h x s).trans (execMov_of_zero hf s)),
    fun hf => gives64_regOp (fun s => (exec_mov h x s).trans (execMov_of_one hf s)),
    fun _ => gives_movi, fun _ => gives_moviZ, fun _ => gives_moviLong, fun _ => gives64_movi64,
    fnAllows_of_row icmpFn_lt, fnAllows_of_row toNat_of_beq_zero, fnAllows_of_row mov_fn_lt⟩
  rw [icmpVal_eq, combine_eq_getD, icmpRel_eq_getD]

end Sys2Proof.Machine

/-! SUPPORT. Predicate tables, predicates packed into a register and taken from one, and KECF (R182 to R184). -/

namespace Sys2Proof.Machine

/-! ## The predicates by their numbers -/

/-- How many predicates PMOV moves: q0 to q6, or p0 to p14 (R183). -/
def predCount (u : Bool) : Nat := if u then 7 else 15

/-- Predicate k as an operand. -/
def predOpd (u : Bool) (k : Nat) : Opd := if u then .q (Fin.ofNat 7 k) else .p (Fin.ofNat 15 k)

/-- The cell of predicate k for a reader. -/
def predKey (r : Rd) (u : Bool) (k : Nat) : Key := if u then .q k else .p k r.thr

theorem predOpds_zipIdx (u : Bool) :
    (predOpds u).zipIdx = (List.range (predCount u)).map (fun k => (predOpd u k, k)) := by
  cases u <;> rfl

theorem pr_predOpd (r : Rd) {u : Bool} {k : Nat} (hk : k < predCount u) :
    r.pr (predOpd u k) = (r.key (predKey r u k) != 0) := by
  cases u with
  | false => simp [Rd.pr, predOpd, predKey, Fin.ofNat, Nat.mod_eq_of_lt (show k < 15 from hk)]
  | true => simp [Rd.pr, predOpd, predKey, Fin.ofNat, Nat.mod_eq_of_lt (show k < 7 from hk)]

theorem putPr_predOpd (r : Rd) {u : Bool} {k : Nat} (b : Bool) (hk : k < predCount u) :
    r.putPr (predOpd u k) b = [{ key := predKey r u k, val := if b then 1 else 0 }] := by
  cases u with
  | false => simp [Rd.putPr, predOpd, predKey, Fin.ofNat, Nat.mod_eq_of_lt (show k < 15 from hk)]
  | true => simp [Rd.putPr, predOpd, predKey, Fin.ofNat, Nat.mod_eq_of_lt (show k < 7 from hk)]

/-! ## PMOV -/

/-- R183: bit k of PMOV.PACK is predicate k, and the bits beyond the predicates are 0. -/
theorem getLsbD_packPreds (r : Rd) (u : Bool) {k : Nat} (hk : k < 32) :
    (packPreds r u).getLsbD k = (decide (k < predCount u) && r.key (predKey r u k) != 0) := by
  have hpick := any_range_and_eq (n := predCount u) (m := k) (fun i => r.pr (predOpd u i))
    (fun i => (BitVec.ofNat 32 (2 ^ i)).getLsbD k) (fun i _ => getLsbD_ofNat_two_pow i hk)
  rw [packPreds, getLsbD_union, predOpds_zipIdx, List.any_map]
  refine hpick.trans ?_
  by_cases hin : k < predCount u
  · rw [pr_predOpd r hin]
  · simp only [hin, decide_false, Bool.false_and]

theorem flatMap_ite_singleton {α β : Type} (p : α → Bool) (g : α → β) (l : List α) :
    l.flatMap (fun e => if p e then [g e] else []) = (l.filter p).map g := by
  induction l with
  | nil => rfl
  | cons e l ih => cases h : p e <;> simp [h, ih]

/-- R183: PMOV.UNPK writes the predicates that b picks, each with its bit of a. -/
theorem unpackPreds_eq (r : Rd) (u : Bool) (a b : Word) :
    unpackPreds r u a b = ((List.range (predCount u)).filter (fun k => b.getLsbD k)).map (fun k =>
      { key := predKey r u k, val := if a.getLsbD k then 1 else 0 }) := by
  rw [unpackPreds, predOpds_zipIdx, List.flatMap_map, ← flatMap_ite_singleton]
  refine List.flatMap_congr (fun k hk => ?_)
  rw [putPr_predOpd r _ (List.mem_range.mp hk)]

theorem writes_pmovUnpk (h : Hdr) (x : FA) :
    Writes (.pmovUnpk h x) h (fun rs => rs.flatMap (fun r =>
      ((List.range (predCount h.u)).filter (fun k => (r.w32 x.b).getLsbD k)).map (fun k =>
        { key := predKey r h.u k, val := if (r.w32 x.a).getLsbD k then 1 else 0 }))) :=
  writes_regOp (fun s => by simp only [exec_pmovUnpk, execPmovUnpk, unpackPreds_eq])

/-! ## KECF -/

/-- The two registers of a lane (R184). -/
theorem lane_halves (l : DWord) :
    [l.setWidth 32, (l >>> 32).setWidth 32] = [l.extractLsb' 0 32, l.extractLsb' 32 32] := by
  rw [BitVec.setWidth_eq_extractLsb' (by decide), BitVec.setWidth_ushiftRight_eq_extractLsb]

/-- R184: KECF writes its 25 lanes after FN rounds from the round index in a. -/
theorem writes_kecf (h : Hdr) (x : FA) {n : Fin 64} (ha : x.a = .int n) :
    Writes (.kecf h x) h (fun rs => rs.flatMap (fun r => r.puts x.d
      ((keccakRounds n.val x.fn.toNat (kecfLanes r x.d)).flatMap (fun w =>
        [w.extractLsb' 0 32, w.extractLsb' 32 32])))) :=
  writes_regOp (fun s => by simp only [exec_kecf, execKecf, ha, lane_halves])

/-- Settles O5: PBITF's table is the model's own, and PMOV and KECF write what their lemmas say. -/
theorem predicatesAndKeccak : Obligations.PredicatesAndKeccak := by
  intro h x
  refine ⟨givesPr_regOp (exec_pbitf h x), givesSuch_regOp _ (exec_pmovPack h x) (fun r k hk => ?_), ?_,
    fun _ => writes_kecf h x⟩
  · rw [getLsbD_packPreds r h.u hk]
    cases h.u <;> rfl
  · exact writes_pmovUnpk h x

end Sys2Proof.Machine

/-! SUPPORT. FCMP, FCLASS and the format register (R61, R187, R188, R201, R202). -/

namespace Sys2Proof.Machine

/-! ## FCMP -/

/-- The six comparisons of two values that are ordered, in code order (R187). -/
def orderedRels (o : Ordering) : List Bool := [o == .eq, o != .eq, o == .lt, o != .gt, o == .gt, o != .lt]

/-- R187: codes 0 to 5 need two numbers, 6 and 7 ask for numbers and for a NaN, 8 to 13 hold also for a NaN. -/
theorem fcmpRel_eq {code : Nat} (hc : code < 14) (a b : Exact) :
    fcmpRel code a b = if code < 6 then !(a.isNan || b.isNan) && (orderedRels (a.cmp b)).getD code false
      else if code = 6 then !(a.isNan || b.isNan) else if code = 7 then a.isNan || b.isNan
      else a.isNan || b.isNan || (orderedRels (a.cmp b)).getD (code - 8) false := by
  unfold fcmpRel
  cases a.isNan || b.isNan <;> interval_cases code <;> rfl

/-- The field of a floating-point comparison: bits 3:0 (R187). -/
theorem toNat_fcmpField (fn : BitVec 8) : (fn.extractLsb' 0 4).toNat = fn.toNat % 16 := by
  rw [toNat_extractLsb']
  omega

theorem fcmpVal_eq (fn : BitVec 8) (ftz : Bool) (a b : Word) (c : Bool) :
    fcmpVal fn ftz a b c = combine (fn.toNat / 16 % 4)
      (fcmpRel (fn.toNat % 16) (fF32.decode ftz a.toNat) (fF32.decode ftz b.toNat)) c := by
  rw [fcmpVal, toNat_fcmpField, toNat_combField]

/-- A combination code below 3 is one of the three listed (R178, R187). -/
theorem combine_eq_getD_of_lt {code : Nat} (hc : code < 3) (x c : Bool) :
    combine code x c = [x && c, x || c, x ^^ c].getD code false := by
  interval_cases code <;> rfl

/-- FCMP's FN names one of fourteen comparisons and one of three combinations (R187). -/
theorem fcmpFn_lt : ∀ {fn : BitVec 8}, (fcmpFn fn && fn.extractLsb' 4 2 ≤ 2 && fn.extractLsb' 6 2 == 0) = true →
    fn.toNat % 16 < 14 ∧ fn.toNat < 48 := by decide

/-! ## FCLASS -/

/-- The number of the class of a sign, an exponent and a fraction (R188). -/
def classBit (neg : Bool) (ex : BitVec 8) (fr : BitVec 23) : Nat :=
  if ex = 255 then (if fr ≠ 0 then 8 else if neg then 0 else 7)
  else if ex = 0 then (if fr = 0 then (if neg then 3 else 4) else if neg then 2 else 5)
  else if neg then 1 else 6

/-- R188: FCLASS's comparisons of the magnitude's bits pick the class of sign, exponent and fraction. -/
theorem fclassVal_eq (w : Word) :
    fclassVal w = BitVec.ofNat 32 (2 ^ classBit w.msb (w.extractLsb' 23 8) (w.extractLsb' 0 23)) := by
  have hex (n : BitVec 8) : w.extractLsb' 23 8 = n ↔ w.toNat % 2 ^ 31 / 2 ^ 23 = n.toNat := by
    rw [← BitVec.toNat_inj, BitVec.extractLsb'_toNat, Nat.shiftRight_eq_div_pow]
    omega
  have hfr : w.extractLsb' 0 23 = 0 ↔ w.toNat % 2 ^ 31 % 2 ^ 23 = 0 := by
    rw [← BitVec.toNat_inj, BitVec.extractLsb'_toNat, Nat.shiftRight_zero]
    change w.toNat % 2 ^ 23 = 0 ↔ _
    omega
  have hinf : (255 : BitVec 8).toNat = 255 := rfl
  have hsub : (0 : BitVec 8).toNat = 0 := rfl
  have hm : w.toNat % 2 ^ 31 < 2 ^ 31 := Nat.mod_lt _ (by decide)
  simp only [fclassVal, classBit, hex, hfr, hinf, hsub, ne_eq]
  generalize w.toNat % 2 ^ 31 = m at hm
  congr 2
  split_ifs <;> omega

/-- A class as the mask with its one bit set (R188). -/
theorem classMask_eq (neg : Bool) (ex : BitVec 8) (fr : BitVec 23) :
    BitVec.ofNat 32 (2 ^ classBit neg ex fr) =
      if ex = 255 then (if fr ≠ 0 then 1 <<< 8 else if neg then 1 <<< 0 else 1 <<< 7)
      else if ex = 0 then (if fr = 0 then (if neg then 1 <<< 3 else 1 <<< 4) else if neg then 1 <<< 2 else 1 <<< 5)
      else if neg then 1 <<< 1 else 1 <<< 6 := by
  unfold classBit
  split_ifs <;> rfl

/-- Settles O9: the tables of R187 by code, and the classes of R188 by `classBit`. -/
theorem f32CompareAndClass : Obligations.F32CompareAndClass := by
  intro h x
  refine ⟨givesSuchPr_regOp _ (exec_fcmp h x) (fun r => ?_), givesSuch_regOp _ (exec_fclass h x) (fun r => ?_),
    fnAllows_of_row fcmpFn_lt, fnAllows_of_row toNat_of_beq_zero⟩
  · intro a b nan o ordered k hk hcomb rel
    rw [fcmpVal_eq, combine_eq_getD_of_lt hcomb, fcmpRel_eq hk]
    rfl
  · rw [fclassVal_eq]
    exact classMask_eq _ _ _

/-! ## The format register -/

theorem fmtOk_iff (w : Word) :
    fmtOk w = true ↔ w.extractLsb' 0 3 ≤ 5 ∧ w.extractLsb' 5 3 ≤ 4 ∧ w.extractLsb' 9 7 = 0 := by
  simp [fmtOk, and_assoc]

/-- What SETFMT leaves of the state: FMT holds the value, a value that R61 forbids traps, and a false guard has no
effect beside the tiller's moving on (R61, R201). -/
def fmtSet (i : Instr) (h : Hdr) (value : Frame → State → Word) (f : Frame) (s : State) : State :=
  if f.guardU h s.cycle then
    (let w := value f s
     if w.extractLsb' 0 3 ≤ 5 ∧ w.extractLsb' 5 3 ≤ 4 ∧ w.extractLsb' 9 7 = 0 then
       (s.updT f (fun t => { t with fmt := w })).advance f i
     else s.trapAll f i.size 0x02 0)
  else s.advance f i

/-- Every form of SETFMT sets FMT to its value. -/
theorem does_setFmt {i : Instr} {h : Hdr} {val : Rd → Word} (value : Frame → State → Word)
    (hx : ∀ s, exec i s = setFmt i h s val) (hv : ∀ f s, val { s := s, f := f, lane := none } = value f s) :
    Does i (fmtSet i h value) := by
  intro s f hi
  rw [hx s, setFmt, issue_of_issues hi]
  simp only [fmtSet, fmtOk_iff, hv]

section
variable {h : Hdr} {x : FI}

theorem does_setfmtR : Does (.setfmtR h x) (fmtSet (.setfmtR h x) h (fun f s =>
    ({ s := s, f := f, lane := none } : Rd).w32 x.a)) :=
  does_setFmt _ (exec_setfmtR h x) (fun _ _ => rfl)

/-- R201: IMM24's low half replaces bits 15:0, and SEED stays. -/
theorem does_setfmt {w : BitVec 24} (hw : x.imm = .short w) :
    Does (.setfmt h x) (fmtSet (.setfmt h x) h (fun f _ => f.t.fmt.extractLsb' 16 16 ++ w.extractLsb' 0 16)) :=
  does_setFmt _ (exec_setfmt h x) (fun _ _ => by
    rw [hw, immLow, BitVec.setWidth_eq_extractLsb' (by decide)]
    rfl)

/-- R201: SETFMT.SEED replaces SEED alone. -/
theorem does_setfmtSeed {w : BitVec 24} (hw : x.imm = .short w) :
    Does (.setfmtSeed h x) (fmtSet (.setfmtSeed h x) h (fun f _ => w.extractLsb' 0 16 ++ f.t.fmt.extractLsb' 0 16)) :=
  does_setFmt _ (exec_setfmtSeed h x) (fun _ _ => by
    rw [hw, immLow, BitVec.setWidth_eq_extractLsb' (by decide)]
    rfl)

/-- R201: the long form takes the low half of the second word. -/
theorem does_setfmtLong {w : DWord} (hw : x.imm = .long w) :
    Does (.setfmtLong h x) (fmtSet (.setfmtLong h x) h (fun _ _ => w.extractLsb' 0 32)) :=
  does_setFmt _ (exec_setfmtLong h x) (fun _ _ => by
    rw [hw, immLow, BitVec.setWidth_eq_extractLsb' (by decide)])

end

/-- R88: sr.fmt reads FMT whole. -/
theorem w32_fmt (r : Rd) : r.w32 (.sr .fmt) = r.f.t.fmt := by
  have hlt := r.f.t.fmt.isLt
  apply BitVec.eq_of_toNat_eq
  simp only [Rd.w32, Rd.special, BitVec.toNat_setWidth, BitVec.toNat_ofNat]
  omega

/-- Settles O14: `does_setFmt` for each form of SETFMT, and GETFMT's own meaning. -/
theorem formatRegister : Obligations.FormatRegister :=
  ⟨fun _ _ => ⟨does_setfmtR, fun _ hw => ⟨does_setfmt hw, does_setfmtSeed hw⟩, fun _ hw => does_setfmtLong hw⟩,
    fun h x => ⟨gives_regOp (exec_getfmt h x), fnAllows_of_row toNat_of_beq_zero⟩, w32_fmt⟩

end Sys2Proof.Machine

/-! SUPPORT. Exchange between threads, votes, matches and the election (R206, R210 to R212). -/

namespace Sys2Proof.Machine

/-! ## Crosswise writes -/

/-- Where a claim says in other terms what each reader writes, it needs to agree only for readers of the list itself. -/
theorem writes_crossOp_each {i : Instr} {h : Hdr} {w w' : List Rd → Rd → List RegWrite}
    (hx : ∀ s, exec i s = crossOp i h s (fun rs => rs.flatMap (w rs))) (hw : ∀ rs, ∀ r ∈ rs, w rs r = w' rs r) :
    Writes i h (fun rs => rs.flatMap (w' rs)) := by
  have heq : (fun rs : List Rd => rs.flatMap (w rs)) = fun rs => rs.flatMap (w' rs) :=
    funext (fun rs => List.flatMap_congr (hw rs))
  exact heq ▸ writes_crossOp hx

/-! ## QSWZ -/

/-- The pattern's field for lane k of a quad: two bits for each lane (R206). -/
theorem qswzField_eq (n k : Nat) : n / 4 ^ k % 4 = n / 2 ^ (2 * k) % 4 := by
  rw [Nat.pow_mul]

theorem writes_qswz (h : Hdr) (x : FA) :
    Writes (.qswz h x) h (fun rs => rs.flatMap (fun r => r.put x.d ((suppliedBy rs
      (4 * (r.thr / 4) + x.fn.toNat / 4 ^ (r.thr % 4) % 4) (fun q => q.w32 x.a)).getD 0))) :=
  writes_crossOp_each (exec_qswz h x) (fun rs r _ => by
    simp only [suppliedBy, qswzField_eq]
    cases ofThread rs _ <;> rfl)

/-! ## SHFL -/

/-- What SHFL takes from the thread that its mode names, in the segment of width w from `base` (R210). -/
def shflTaken (rs : List Rd) (v : Rd → Word) (mode w i b base : Nat) : Option Word :=
  match mode with
  | 0 => suppliedBy rs (base + b % w) v
  | 1 => if b ≤ i then suppliedBy rs (base + (i - b)) v else none
  | 2 => if i + b < w then suppliedBy rs (base + (i + b)) v else none
  | _ => suppliedBy rs (base + (i ^^^ (b % w))) v

/-- The model's source index, where it is valid, is the index of the thread that the mode names. -/
theorem shflTaken_eq (rs : List Rd) (v : Rd → Word) (mode w i b base : Nat) :
    shflTaken rs v mode w i b base = ((shflIdx mode w i b).bind (fun j => ofThread rs (base + j))).map v := by
  match mode with
  | 0 | _ + 3 => rfl
  | 1 | 2 =>
    simp only [shflTaken, shflIdx]
    split <;> rfl

/-- R210: SHFL's mode is FN bits 1:0 and its width code bits 4:2. -/
theorem writes_shfl (h : Hdr) (x : FA) :
    Writes (.shfl h x) h (fun rs => rs.flatMap (fun r =>
      let w := 4 * 2 ^ (x.fn.toNat / 4 % 8)
      r.put x.d ((shflTaken rs (fun q => q.w32 x.a) (x.fn.toNat % 4) w (r.thr % w) (r.w32 x.b).toNat
        (r.thr - r.thr % w)).getD (r.w32 x.c)))) :=
  writes_crossOp_each (exec_shfl h x) (fun rs r _ => by
    have hmode : (x.fn.extractLsb' 0 2).toNat = x.fn.toNat % 4 := by
      rw [toNat_extractLsb']
      omega
    have hwidth : (x.fn.extractLsb' 2 3).toNat = x.fn.toNat / 4 % 8 := toNat_extractLsb' _ 2 3
    simp only [shflTaken_eq, hmode, hwidth, Nat.div_mul_self_eq_mod_sub_self]
    cases (shflIdx _ _ _ _).bind _ <;> rfl)

/-- SHFL's FN names one of four modes and one of five widths (R210). -/
theorem shflFn_lt : ∀ {fn : BitVec 8}, (fnIn fn 31 && fn.extractLsb' 2 3 ≤ 4) = true → fn.toNat < 20 := by decide

theorem exchangeWithAnotherThread : Claims.ExchangeWithAnotherThread :=
  fun h x => ⟨writes_qswz h x, writes_shfl h x, fnAllows_of_row shflFn_lt⟩

/-! ## VOTE.UNI and ELECT -/

/-- A test has one value throughout a list when it has, throughout, the value that it has for one member. -/
theorem all_or_all_not {α : Type} (p : α → Bool) {l : List α} {a : α} (ha : a ∈ l) :
    (l.all p || l.all (fun e => !p e)) = l.all (fun e => p e == p a) := by
  cases hp : p a with
  | true =>
    have hnot : l.all (fun e => !p e) = false := List.all_eq_false.mpr ⟨a, ha, by simp [hp]⟩
    simp only [hnot, Bool.or_false, beq_true]
  | false =>
    have hall : l.all p = false := List.all_eq_false.mpr ⟨a, ha, by simp [hp]⟩
    simp only [hall, Bool.false_or, beq_false]

theorem votesMatchesElection : Claims.VotesMatchesElection := by
  intro h x mask
  refine ⟨writes_crossOp (exec_voteAll h x), writes_crossOp (exec_voteAny h x),
    writes_crossOp_each (exec_voteUni h x) (fun rs r hr => ?_), writes_crossOp (exec_voteBal h x),
    writes_crossOp (exec_match32 h x), writes_crossOp (exec_match64 h x),
    writes_crossOp_each (exec_elect h x) (fun rs r _ => ?_),
    writes_crossOp_each (exec_electNh h x) (fun rs r _ => ?_)⟩
  · rw [all_or_all_not (fun q : Rd => q.pr x.a) hr]
  · rw [List.head?_map]
  · rw [List.head?_map]

/-- Settles O16: QSWZ and SHFL take what the thread they name supplies, VOTE.UNI compares with each reader's own value,
and the other votes, the matches and the elections are the model's own terms. -/
theorem exchangeVotesAndMatches : Obligations.ExchangeVotesAndMatches :=
  ⟨exchangeWithAnotherThread, votesMatchesElection⟩

end Sys2Proof.Machine
